-- ==== Sys2Proof/Word.lean ====
section
/-! DEFINITION. The word types of the block (00_scope.md R11): bytes and binary32 patterns. -/

namespace Sys2Proof

/-- A byte of a command line or of the configuration store (00_scope.md R10, R11 `u8`). -/
abbrev Byte := BitVec 8

/-- A register of type `f32`: the 32-bit pattern itself, every one of the 2^32 legal
(00_scope.md R11, 92_eei_decisions.md D2). -/
abbrev F32 := BitVec 32

/-- `opt f32` (00_scope.md R11): `none` is `NA`. -/
abbrev OptF32 := Option F32

end Sys2Proof
end

