-- ==== Sys2Proof/Config.lean ====
section
/-! DEFINITION. The parameters of the block (00_scope.md R6): the fixed ones with their values, the
OPEN ones as constants without a body, about which nothing can be proved. -/

namespace Sys2Proof.Config

/-- `MARKER_ADDR` (00_scope.md R6, 20_memory.md R88). -/
abbrev markerAddr : Nat := 0xFF

/-- `SENTINEL` of schema version 1 (00_scope.md R6, 20_memory.md R88). -/
abbrev sentinel : Byte := 0xA5

/-- `STORE_SIZE` (00_scope.md R6, 20_memory.md R84). -/
abbrev storeSize : Nat := 256

/-- `CODE_SCALE` = 2^18 (00_scope.md R6). -/
abbrev codeScale : Nat := 262144

/-- `SUB_MAX` = 2^16 - 1 (00_scope.md R6). -/
abbrev subMax : Nat := 65535

/-- `INIT_RETRIES` (00_scope.md R6, 90_conflicts.md C4). -/
abbrev initRetries : Nat := 1

/-- What a byte of the store that nothing has written reads as: a blank part, the pattern of the
examples of 70_reset_and_hazards.md R371 and 95_test_vectors.md P1. DESIGN CHOICE, unsafe: the
spec lets the store hold any value at first power-up (93_implementation_defined.md U11). Entry 4. -/
abbrev blankByte : Byte := 0xFF

/-- OPEN: the pattern of `MAX_VOLTAGE` (00_scope.md R6, R7). No body. Entry 1. -/
opaque maxVoltageBits : F32

/-- OPEN: the pattern of `MAX_CURRENT` (00_scope.md R6, R7). No body. Entry 1. -/
opaque maxCurrentBits : F32

/-- OPEN: `fmt_f32`, the text of a finite binary32 (00_scope.md R6, 30_encoding.md R127). No body.
Entry 2. -/
opaque fmtText : F32 → List Byte

/-- Names the operation a NaN comes from. -/
inductive ArithOp where
  | add | sub | mul | div | sqrt
  deriving DecidableEq, Repr

/-- FREE VALUE: the pattern of the NaN an operation gives on these operands. 00_scope.md R12 says
that the result is a NaN and not which one. No body. Entry 3. -/
opaque nanBits : ArithOp → F32 → F32 → F32

/-- FREE VALUE: the finite number the accumulator holds after a PID tick in which both the sum of step 3,
of these two terms, and its bound have overflowed. 40_heater_control.md R164 says that it is no infinity
and not which number it is. No body. Entry 19. -/
opaque overflowTerm : F32 → F32 → F32

end Sys2Proof.Config
end

