-- ==== Sys2Proof/Syntax.lean ====
section
/-! DEFINITION. The operations of the block: one constructor of `Instr` per row of
spec/opcode_table.json (30_encoding.md R120, R121, R123, R129), the enums of their operands, the
sources an operation is decoded from and the reasons a line is rejected. -/

namespace Sys2Proof

/-! ### Channel numbers and enums

A channel number of the spec counts from 1; the index here is that number less 1. -/

/-- Heater channel h = index + 1 (10_state.md R32). -/
abbrev HeaterIx := Fin 4

/-- High-power channel j = index + 1 (10_state.md R36). -/
abbrev HpIx := Fin 2

/-- Sensor channel s = index + 1 (10_state.md R39). -/
abbrev SensorIx := Fin 12

/-- Output sub-channel k, counted from 0 (10_state.md R43). -/
abbrev SubIx := Fin 4

/-- `HTR[h].mode` (10_state.md R34), codes 0 to 3 in this order. -/
inductive HeaterMode where
  | disabled | fixed | pid | direct
  deriving DecidableEq, Repr

/-- `HP[j].mode` (10_state.md R38), codes 0 to 2 in this order. -/
inductive HpMode where
  | disabled | direct | hyst
  deriving DecidableEq, Repr

/-- `SNS[s].type` (10_state.md R40), codes 0 to 6 in this order. -/
inductive SensorType where
  | unset | pt100W2 | pt100W4 | pt1000W2 | pt1000W4 | diodeW2 | diodeW4
  deriving DecidableEq, Repr

/-- `SNS[s].units` (10_state.md R41), codes 0 to 2 in this order. -/
inductive TempUnit where
  | kelvin | celsius | fahrenheit
  deriving DecidableEq, Repr

/-! ### Operations -/

/-- The operations. A sensor assignment is the index 0 to 12, 0 = none; a bit is a `Bool`. -/
inductive Instr where
  -- format S2, heater channels (44_cmd_set.md R261 to R271)
  | setDacMode (h : HeaterIx) (n : HeaterMode)
  | setDacSns (h : HeaterIx) (n : Fin 13)
  | setDacSp (h : HeaterIx) (x : F32)
  | setDacKp (h : HeaterIx) (x : F32)
  | setDacKi (h : HeaterIx) (x : F32)
  | setDacKd (h : HeaterIx) (x : F32)
  | setDacRes (h : HeaterIx) (x : F32)
  | setDacFp (h : HeaterIx) (x : F32)
  | setDacTmax (h : HeaterIx) (x : F32)
  | setDacTmin (h : HeaterIx) (x : F32)
  | setDacCur (h : HeaterIx) (x : F32)
  -- format S2, high-power channels (R272 to R278)
  | setHpMode (j : HpIx) (n : HpMode)
  | setHpSns (j : HpIx) (n : Fin 13)
  | setHpSp (j : HpIx) (x : F32)
  | setHpHyst (j : HpIx) (x : F32)
  | setHpTmax (j : HpIx) (x : F32)
  | setHpTmin (j : HpIx) (x : F32)
  | setHpState (j : HpIx) (n : Bool)
  -- format S2, sensor channels (R279, R280)
  | setSnsType (s : SensorIx) (n : SensorType)
  | setSnsUnits (s : SensorIx) (n : TempUnit)
  -- format S0 (R282 to R284)
  | setCommit
  | setStopProgram
  | setExit
  -- format G1, heater channels (45_cmd_get.md R301 to R313)
  | getDacMode (h : HeaterIx)
  | getDacSns (h : HeaterIx)
  | getDacSp (h : HeaterIx)
  | getDacKp (h : HeaterIx)
  | getDacKi (h : HeaterIx)
  | getDacKd (h : HeaterIx)
  | getDacRes (h : HeaterIx)
  | getDacFp (h : HeaterIx)
  | getDacTmax (h : HeaterIx)
  | getDacTmin (h : HeaterIx)
  | getDacCur (h : HeaterIx)
  | getDacCv (h : HeaterIx)
  | getDacPwr (h : HeaterIx)
  -- format G1, high-power channels (R314 to R320)
  | getHpMode (j : HpIx)
  | getHpSns (j : HpIx)
  | getHpSp (j : HpIx)
  | getHpHyst (j : HpIx)
  | getHpTmax (j : HpIx)
  | getHpTmin (j : HpIx)
  | getHpState (j : HpIx)
  -- format G1, sensor channels (R321 to R323)
  | getSnsType (s : SensorIx)
  | getSnsUnits (s : SensorIx)
  | getSnsTemp (s : SensorIx)
  -- format TICK_H (40_heater_control.md R153, R157, R155, R158)
  | htrTickDisabled (h : HeaterIx)
  | htrTickFixed (h : HeaterIx)
  | htrTickPid (h : HeaterIx) (dt : F32)
  | htrTickDirect (h : HeaterIx)
  -- format TICK_P (42_highpower_control.md R211, R213, R214)
  | hpTickDisabled (j : HpIx)
  | hpTickDirect (j : HpIx)
  | hpTickHyst (j : HpIx)
  -- formats SEQ and Q (70_reset_and_hazards.md R371, 43_cmd_dispatch.md R232)
  | load
  | q
  deriving DecidableEq, Repr

/-! ### What an operation is decoded from -/

/-- The selector an operation is decoded from (30_encoding.md R113, R123): a command line (the bytes
before its newline), the mode register of a channel at a tick, or the phase. `dt` comes with the
tick strobe, not with the selector. -/
inductive Source where
  | wire (line : List Byte)
  | heaterMode (h : HeaterIx) (dt : F32) (code : Byte)
  | hpMode (j : HpIx) (code : Byte)
  | phase (code : Byte)
  deriving DecidableEq, Repr

/-- The reasons of `Bad`, in the order of their codes 1 to 7 (60_exceptions.md R341). -/
inductive Bad where
  | emptyLine
  | badPrefix
  | badVerb
  | unknownCommand
  | argCount (n : Nat)
  | argNotNumber (i : Nat)
  | argRange (i : Nat)
  deriving DecidableEq, Repr

/-- Why a source gives no operation: a line with a reason of R341, or a selector with a code no
operation has (30_encoding.md R124 "reserved"). -/
inductive DecodeError where
  | bad (r : Bad)
  | reservedCode (code : Byte)
  deriving DecidableEq, Repr

/-! ### The form of the command table (30_encoding.md R118 to R121) -/

/-- The kind of an argument (R118). -/
inductive ArgKind where
  | int | real
  deriving DecidableEq, Repr

/-- Kind and range of one argument, both bounds inclusive, an absent bound skipped (R119). -/
structure ArgSpec where
  kind : ArgKind
  lo : Option F32
  hi : Option F32
  deriving DecidableEq, Repr

/-- What a table entry requires and the operation it routes to (43_cmd_dispatch.md R240). -/
inductive Handler where
  | zero (i : Instr)
  | one (a : ArgSpec) (f : F32 → Instr)
  | two (a b : ArgSpec) (f : F32 → F32 → Instr)

/-- One entry of a command table. -/
structure Entry where
  name : List Byte
  handler : Handler

end Sys2Proof
end

