-- ==== Sys2Proof/Machine/Enums.lean ====
section
/-! DEFINITION. The numeric codes of the enums (10_state.md R31, R34, R38, R40, R41), and the
coercion of a reserved code to code 0 (20_memory.md R96). -/

namespace Sys2Proof.Machine

open Sys2Proof

/-- Codes of 10_state.md R34. -/
def heaterModeCode : HeaterMode → Byte
  | .disabled => 0
  | .fixed => 1
  | .pid => 2
  | .direct => 3

/-- The mode with this code; a reserved code gives `disabled` (20_memory.md R96). -/
def heaterModeOf : Nat → HeaterMode
  | 1 => .fixed
  | 2 => .pid
  | 3 => .direct
  | _ => .disabled

/-- Codes of 10_state.md R38. -/
def hpModeCode : HpMode → Byte
  | .disabled => 0
  | .direct => 1
  | .hyst => 2

/-- The mode with this code; a reserved code gives `disabled` (20_memory.md R96). -/
def hpModeOf : Nat → HpMode
  | 1 => .direct
  | 2 => .hyst
  | _ => .disabled

/-- Codes of 10_state.md R40. -/
def sensorTypeCode : SensorType → Byte
  | .unset => 0
  | .pt100W2 => 1
  | .pt100W4 => 2
  | .pt1000W2 => 3
  | .pt1000W4 => 4
  | .diodeW2 => 5
  | .diodeW4 => 6

/-- The type with this code; a reserved code gives `unset` (20_memory.md R96). -/
def sensorTypeOf : Nat → SensorType
  | 1 => .pt100W2
  | 2 => .pt100W4
  | 3 => .pt1000W2
  | 4 => .pt1000W4
  | 5 => .diodeW2
  | 6 => .diodeW4
  | _ => .unset

/-- Codes of 10_state.md R41. -/
def tempUnitCode : TempUnit → Byte
  | .kelvin => 0
  | .celsius => 1
  | .fahrenheit => 2

/-- The unit with this code; a reserved code gives `kelvin` (20_memory.md R96). -/
def tempUnitOf : Nat → TempUnit
  | 1 => .celsius
  | 2 => .fahrenheit
  | _ => .kelvin

/-- A sensor index read from the store: above 12 it gives 0, none (20_memory.md R96). -/
def sensorIndexOf (b : Byte) : Byte := if b.toNat ≤ 12 then b else 0

end Sys2Proof.Machine
end

