-- ==== Sys2Proof/Machine/State.lean ====
section
/-! DEFINITION. The state of the block (10_state.md) as plain data, the two reason types of a stopped
step, and the state right after reset (70_reset_and_hazards.md R370). -/

namespace Sys2Proof.Machine

open Sys2Proof

/-! ### Reasons -/

/-- Why a step stops with a fault. No operation of the block raises one: `ConfigStoreFault` and
`CodecRange` are next states, in phase FAULT (60_exceptions.md R346, R347). -/
inductive Fault where
  /-- A store access that would pass address 255 (20_memory.md R81: never issued). Raised by the
  register transport's ports `memRead` and `memWrite`. Safe: the block never goes on from it.
  Entry 22. -/
  | storeAddress (addr : Nat)
  deriving DecidableEq, Repr

/-- Why a step is refused. -/
inductive Refusal where
  /-- An operation without a meaning. Raised by no arm of `exec`. Safe. -/
  | notModelled (mnemonic : String)
  /-- The environment raised a tick strobe whose `dt` is not a finite number of at least 1, or with a
  sample that is not finite, against its duty (10_state.md R47, R48, 93_implementation_defined.md
  U24 "refuse"). Raised by `step` when it takes the strobe. Safe. Entry 15. -/
  | tickDuty
  /-- A selector register holds a code of no operation (30_encoding.md R124 "reserved"). Raised by
  `step`; no state gives one, since the mode registers hold legal modes only. Safe. Entry 21. -/
  | reservedSelector (code : Byte)
  deriving DecidableEq, Repr

/-! ### Registers -/

/-- The phase register (10_state.md R31), codes 0 to 4 in this order. -/
inductive Phase where
  | reset | load | run | halted | fault
  deriving DecidableEq, Repr

/-- The registers of one heater channel: ten configuration registers in map order (10_state.md
R32), five runtime registers (R33), the code and the sub-channel registers (R43). -/
structure Heater where
  mode : HeaterMode
  sns : Byte
  sp : F32
  kp : F32
  ki : F32
  kd : F32
  res : F32
  fp : F32
  tmax : F32
  tmin : F32
  it : F32
  eprev : F32
  curCmd : F32
  cv : F32
  pwr : F32
  code : BitVec 19
  dac : Vector (BitVec 16) 4
  deriving DecidableEq, Repr

/-- The registers of one high-power channel: six configuration registers in map order (10_state.md
R36) and two runtime bits (R37). `state` is also the actuator output (R44). -/
structure HighPower where
  mode : HpMode
  sns : Byte
  sp : F32
  hyst : F32
  tmax : F32
  tmin : F32
  cmd : Bool
  state : Bool
  deriving DecidableEq, Repr

/-- The registers of one sensor channel (10_state.md R39). -/
structure Sensor where
  type : SensorType
  units : TempUnit
  temp : OptF32
  deriving DecidableEq, Repr

/-- The configuration store: the bytes that differ from `Config.blankByte`, by rising address
(10_state.md R51). -/
abbrev Memory := List Host.Cell

/-! ### Outputs -/

/-- A value a `get` returns, before it is rendered (30_encoding.md R127, 92_eei_decisions.md D41). -/
inductive Value where
  | u8 (n : Byte)
  | bit (b : Bool)
  | real (x : F32)
  | opt (x : OptF32)
  deriving DecidableEq, Repr

/-- A response (30_encoding.md R112, R126): `OK`, `OK,<key>=<value>` or `BAD,<reason>`. -/
inductive Reply where
  | ok
  | value (key : List Byte) (v : Value)
  | bad (r : Bad)
  deriving DecidableEq, Repr

/-- What the block does at its edge (00_scope.md R17, 92_eei_decisions.md D3): the output events and
the accesses of the register transport. -/
inductive Action where
  | dacWrite (h : HeaterIx) (k : SubIx) (c : BitVec 16)
  | hp (j : HpIx) (b : Bool)
  | resp (conn : Nat) (r : Reply)
  | close (conn : Nat)
  | memRead (addr n : Nat)
  | memWrite (addr : Nat) (bytes : List Byte)
  deriving DecidableEq, Repr

/-- One sensor of the telemetry view (10_state.md R45). -/
structure SensorView where
  temp : OptF32
  units : TempUnit
  deriving DecidableEq, Repr

/-- One heater of the telemetry view (10_state.md R45). -/
structure HeaterView where
  cv : F32
  pwr : F32
  sp : F32
  deriving DecidableEq, Repr

/-- The telemetry view as sampled at the end of a Tick (10_state.md R45, 92_eei_decisions.md D16). -/
structure Telemetry where
  sns : Vector SensorView 12
  htr : Vector HeaterView 4
  hp : Vector Bool 2
  deriving DecidableEq, Repr

/-! ### Inputs -/

/-- What the environment presents between operations (60_exceptions.md R349). -/
inductive Stimulus where
  /-- Reset is asserted (70_reset_and_hazards.md R370). -/
  | reset
  /-- Reset is released (R370, R371). -/
  | release
  /-- The tick strobe, with `dt` and the twelve raw samples (10_state.md R47, R48). -/
  | tick (dt : F32) (samp : Vector OptF32 12)
  /-- A command line with its connection tag (10_state.md R49). -/
  | command (conn : Nat) (line : List Byte)
  /-- Reset will be asserted when the block has done `k` more actions, in whatever operation that
  falls (R370 "during any operation", R378). Entry 9. -/
  | resetAfter (k : Nat)
  deriving DecidableEq, Repr

/-- An actuator channel of a Tick (40_heater_control.md R150). -/
inductive Channel where
  | heater (h : HeaterIx)
  | highPower (j : HpIx)
  deriving DecidableEq, Repr

/-- A Tick in progress: its `dt` and the channels still to run, in order (40_heater_control.md R150).
Entry 8. -/
structure TickJob where
  dt : F32
  todo : List Channel
  deriving DecidableEq, Repr

/-! ### The state -/

/-- The state: the registers and the store of 10_state.md R30, then the model's own record of the
environment and of the outputs (INVENTORY.md, "State"). -/
structure State where
  phase : Phase
  htr : Vector Heater 4
  hp : Vector HighPower 2
  sns : Vector Sensor 12
  /-- `NVM` (10_state.md R51). -/
  nvm : Memory
  /-- The telemetry view at the end of the last Tick (10_state.md R45). Entry 11. -/
  telemetry : Option Telemetry
  /-- The actions of the block so far, oldest first (00_scope.md R17). -/
  log : List Action
  /-- The connection of the command being executed (10_state.md R49). Entry 12. -/
  conn : Nat
  /-- The Tick in progress, if one is. Entry 8. -/
  tick : Option TickJob
  /-- What the environment will present, oldest first (10_state.md R50 (b)). Entry 7. -/
  inbox : List Stimulus
  /-- Whether reset is asserted (70_reset_and_hazards.md R370). Entry 6. -/
  resetAsserted : Bool
  /-- A reset to come after that many more actions. Entry 9. -/
  cut : Option Nat
  /-- How many coming writes of the marker byte will not take (70_reset_and_hazards.md R371).
  Entry 10. -/
  markerMisses : Nat
  deriving DecidableEq, Repr

/-! ### Reset (10_state.md R52, 70_reset_and_hazards.md R370) -/

/-- A heater channel after reset. The configuration registers are unspecified until LOAD (R370);
DESIGN CHOICE, unsafe: the defaults of R52. Entry 5. -/
def Heater.reset : Heater where
  mode := .disabled
  sns := 0
  sp := 0
  kp := 0
  ki := 0
  kd := 0
  res := 0
  fp := 0
  tmax := 0
  tmin := 0
  it := 0
  eprev := 0
  curCmd := 0
  cv := 0
  pwr := 0
  code := 0
  dac := #v[0, 0, 0, 0]

/-- A high-power channel after reset; the configuration registers as in `Heater.reset`. -/
def HighPower.reset : HighPower where
  mode := .disabled
  sns := 0
  sp := 0
  hyst := 0
  tmax := 0
  tmin := 0
  cmd := false
  state := false

/-- A sensor channel after reset; the configuration registers as in `Heater.reset`. -/
def Sensor.reset : Sensor where
  type := .unset
  units := .kelvin
  temp := none

/-- The four zero writes of one heater output, in rising k. -/
def zeroDacActions (h : HeaterIx) : List Action :=
  [.dacWrite h 0 0, .dacWrite h 1 0, .dacWrite h 2 0, .dacWrite h 3 0]

/-- The actions of Reset, in the order of R370. -/
def resetActions : List Action :=
  zeroDacActions 0 ++ zeroDacActions 1 ++ zeroDacActions 2 ++ zeroDacActions 3 ++
    [.hp 0 false, .hp 1 false]

/-- The block right after reset has been released: Reset (R370) has run, LOAD is next. The store is
blank (entry 4), the environment has presented nothing (entry 7). -/
def State.reset : State where
  phase := .reset
  htr := #v[Heater.reset, Heater.reset, Heater.reset, Heater.reset]
  hp := #v[HighPower.reset, HighPower.reset]
  sns := #v[Sensor.reset, Sensor.reset, Sensor.reset, Sensor.reset, Sensor.reset, Sensor.reset,
    Sensor.reset, Sensor.reset, Sensor.reset, Sensor.reset, Sensor.reset, Sensor.reset]
  nvm := []
  telemetry := none
  log := resetActions
  conn := 0
  tick := none
  inbox := []
  resetAsserted := false
  cut := none
  markerMisses := 0

end Sys2Proof.Machine
end

