-- ==== Sys2Proof/Machine/Codec.lean ====
section
/-! DEFINITION. The register codec (20_memory.md R72 to R74), the slot layouts (R84 to R87) and the
decoding of a slot (R96). -/

namespace Sys2Proof.Machine

open Sys2Proof

/-! ### Integers and binary32 -/

/-- The `w` bytes of an unsigned number, the most significant first (20_memory.md R72). -/
def natBytes : Nat → Nat → List Byte
  | 0, _ => []
  | w + 1, v => BitVec.ofNat 8 (v >>> (8 * w)) :: natBytes w v

/-- The unsigned number of a byte string (20_memory.md R72). -/
def bytesNat (bs : List Byte) : Nat := bs.foldl (fun n b => 256 * n + b.toNat) 0

/-- `encode_int` (20_memory.md R72); `none` is `raise CodecRange` (R73). -/
def encodeInt (v : Int) (w : Nat) (signed : Bool) : Option (List Byte) :=
  if signed then
    if -(2 ^ (8 * w - 1) : Int) ≤ v ∧ v < 2 ^ (8 * w - 1) then
      some (natBytes w (v % (2 ^ (8 * w) : Int)).toNat)
    else none
  else if 0 ≤ v ∧ v < 2 ^ (8 * w) then some (natBytes w v.toNat) else none

/-- `decode_int` (20_memory.md R72). -/
def decodeInt (bs : List Byte) (signed : Bool) : Int :=
  if signed ∧ 2 ^ (8 * bs.length - 1) ≤ bytesNat bs then (bytesNat bs : Int) - 2 ^ (8 * bs.length)
  else bytesNat bs

/-- `encode_f32` (20_memory.md R74). -/
def encodeF32 (p : F32) : List Byte :=
  [p.extractLsb' 24 8, p.extractLsb' 16 8, p.extractLsb' 8 8, p.extractLsb' 0 8]

/-- `decode_f32` (20_memory.md R74). -/
def decodeF32 (b0 b1 b2 b3 : Byte) : F32 := b0 ++ b1 ++ b2 ++ b3

/-! ### Slots -/

/-- The 18 slots of the store (20_memory.md R84). -/
inductive Slot where
  | heater (h : HeaterIx)
  | highPower (j : HpIx)
  | sensor (s : SensorIx)
  deriving DecidableEq, Repr

/-- `HTR_BASE`, `HP_BASE`, `SNS_BASE` (20_memory.md R84). -/
def slotBase : Slot → Nat
  | .heater h => 0x00 + 34 * h.val
  | .highPower j => 0x88 + 18 * j.val
  | .sensor s => 0xAC + 2 * s.val

/-- The slot sizes (20_memory.md R84). -/
def slotSize : Slot → Nat
  | .heater _ => 34
  | .highPower _ => 18
  | .sensor _ => 2

/-- The slots in the order of COMMIT, STAMP and READOUT (20_memory.md R95, 70_reset_and_hazards.md
R372, R373). -/
def allSlots : List Slot :=
  [.heater 0, .heater 1, .heater 2, .heater 3, .highPower 0, .highPower 1,
   .sensor 0, .sensor 1, .sensor 2, .sensor 3, .sensor 4, .sensor 5,
   .sensor 6, .sensor 7, .sensor 8, .sensor 9, .sensor 10, .sensor 11]

/-- A one-byte unsigned field (20_memory.md R85 to R87). -/
def encodeU8 (b : Byte) : Option (List Byte) := encodeInt b.toNat 1 false

/-- `enc_htr` (20_memory.md R85). -/
def encodeHeater (c : Heater) : Option (List Byte) := do
  let mode ← encodeU8 (heaterModeCode c.mode)
  let sns ← encodeU8 c.sns
  some (mode ++ sns ++ encodeF32 c.sp ++ encodeF32 c.kp ++ encodeF32 c.ki ++ encodeF32 c.kd ++
    encodeF32 c.res ++ encodeF32 c.fp ++ encodeF32 c.tmax ++ encodeF32 c.tmin)

/-- `enc_hp` (20_memory.md R86). -/
def encodeHighPower (c : HighPower) : Option (List Byte) := do
  let mode ← encodeU8 (hpModeCode c.mode)
  let sns ← encodeU8 c.sns
  some (mode ++ sns ++ encodeF32 c.sp ++ encodeF32 c.hyst ++ encodeF32 c.tmax ++ encodeF32 c.tmin)

/-- `enc_sns` (20_memory.md R87). -/
def encodeSensor (c : Sensor) : Option (List Byte) := do
  let type ← encodeU8 (sensorTypeCode c.type)
  let units ← encodeU8 (tempUnitCode c.units)
  some (type ++ units)

/-- The `f32` field at an offset of a slot's bytes. -/
def f32At (bs : List Byte) (off : Nat) : F32 :=
  decodeF32 (bs.getD off 0) (bs.getD (off + 1) 0) (bs.getD (off + 2) 0) (bs.getD (off + 3) 0)

/-- The `u8` field at an offset of a slot's bytes. -/
def u8At (bs : List Byte) (off : Nat) : Nat := (decodeInt [bs.getD off 0] false).toNat

/-- A heater channel's configuration registers from its slot, coerced; the runtime registers keep
their values (20_memory.md R96, 70_reset_and_hazards.md R373). -/
def decodeHeater (bs : List Byte) (c : Heater) : Heater :=
  { c with
    mode := heaterModeOf (u8At bs 0)
    sns := sensorIndexOf (BitVec.ofNat 8 (u8At bs 1))
    sp := f32At bs 2
    kp := f32At bs 6
    ki := f32At bs 10
    kd := f32At bs 14
    res := f32At bs 18
    fp := f32At bs 22
    tmax := f32At bs 26
    tmin := f32At bs 30 }

/-- A high-power channel's configuration registers from its slot (20_memory.md R96). -/
def decodeHighPower (bs : List Byte) (c : HighPower) : HighPower :=
  { c with
    mode := hpModeOf (u8At bs 0)
    sns := sensorIndexOf (BitVec.ofNat 8 (u8At bs 1))
    sp := f32At bs 2
    hyst := f32At bs 6
    tmax := f32At bs 10
    tmin := f32At bs 14 }

/-- A sensor channel's configuration registers from its slot (20_memory.md R96). -/
def decodeSensor (bs : List Byte) (c : Sensor) : Sensor :=
  { c with
    type := sensorTypeOf (u8At bs 0)
    units := tempUnitOf (u8At bs 1) }

end Sys2Proof.Machine
end

