-- ==== Sys2Proof/Machine/Memory.lean ====
section
/-! DEFINITION. The configuration store (20_memory.md R70 (b), R80): a list of the bytes that differ
from the blank byte, in one canonical form, read and written byte by byte. -/

namespace Sys2Proof.Machine

open Sys2Proof

/-- The byte at an address (20_memory.md R80); an address not listed holds the blank byte. -/
def Memory.read : Memory → Nat → Byte
  | [], _ => Config.blankByte
  | (k, v) :: m, a => if k = a then v else Memory.read m a

/-- Sets the byte at an address and nothing else (20_memory.md R80), keeping the canonical form. -/
def Memory.write : Memory → Nat → Byte → Memory
  | [], a, b => if b = Config.blankByte then [] else [(a, b)]
  | (k, v) :: m, a, b =>
    if a < k then (if b = Config.blankByte then (k, v) :: m else (a, b) :: (k, v) :: m)
    else if a = k then (if b = Config.blankByte then m else (a, b) :: m)
    else (k, v) :: Memory.write m a b

/-- The canonical form from address `lo` up: addresses rising, inside the store, no blank byte. -/
def Memory.wfFrom : Nat → Memory → Bool
  | _, [] => true
  | lo, (k, v) :: m =>
    decide (lo ≤ k) && decide (k < Config.storeSize) && decide (v ≠ Config.blankByte) &&
      Memory.wfFrom (k + 1) m

/-- The canonical form of the store. -/
def Memory.wf (m : Memory) : Bool := Memory.wfFrom 0 m

/-- `NVM[a] ++ ... ++ NVM[a + n - 1]` (00_scope.md R16). -/
def Memory.readBytes (m : Memory) (a : Nat) : Nat → List Byte
  | 0 => []
  | n + 1 => m.read a :: Memory.readBytes m (a + 1) n

/-- Sets `NVM[a + i]` to byte `i` of the payload (00_scope.md R16). -/
def Memory.writeBytes : Memory → Nat → List Byte → Memory
  | m, _, [] => m
  | m, a, b :: bs => Memory.writeBytes (m.write a b) (a + 1) bs

end Sys2Proof.Machine
end

