-- ==== Sys2Proof/Machine/Float.lean ====
section
/-! DEFINITION. Binary32 arithmetic, comparisons and conversions (00_scope.md R11 to R14, R20).
A finite pattern is read as a whole number of units of 2^-149, every operation is computed exactly
and rounded once, to nearest, ties to even. -/

namespace Sys2Proof.Machine

open Sys2Proof

/-! ### Fields of a pattern -/

/-- Sign bit, bit 31. -/
def isNeg (x : F32) : Bool := x.msb

/-- Exponent and fraction together, bits 30 to 0, as a number. -/
def magBits (x : F32) : Nat := x.toNat % 2 ^ 31

/-- The magnitude pattern of an infinity. -/
abbrev infBits : Nat := 0x7F800000

def isNaN (x : F32) : Bool := decide (infBits < magBits x)

def isInf (x : F32) : Bool := decide (magBits x = infBits)

/-- `isfinite` of R13. -/
def isFinite (x : F32) : Bool := decide (magBits x < infBits)

/-- A pattern from a sign and a magnitude pattern below 2^31. -/
def packF32 (neg : Bool) (mag : Nat) : F32 := BitVec.ofNat 32 (mag + if neg then 2 ^ 31 else 0)

/-- The magnitude of a finite pattern in units of 2^-149: the fraction below the smallest normal
number, else the fraction with its hidden bit, shifted by the exponent. -/
def unitsOfMag (p : Nat) : Nat :=
  if p / 2 ^ 23 = 0 then p % 2 ^ 23 else (p % 2 ^ 23 + 2 ^ 23) * 2 ^ (p / 2 ^ 23 - 1)

def magUnits (x : F32) : Nat := unitsOfMag (magBits x)

/-- The value of a finite pattern in units of 2^-149, with its sign. -/
def intUnits (x : F32) : Int := if isNeg x then -(magUnits x : Int) else magUnits x

/-! ### Rounding -/

/-- `num / den` to the nearest integer, ties to even. -/
def roundHalfEven (num den : Nat) : Nat :=
  if den < 2 * (num % den) ∨ (den = 2 * (num % den) ∧ num / den % 2 = 1) then num / den + 1 else num / den

/-- The magnitude pattern nearest to the rational `num / den` units of 2^-149, ties to even; the
pattern of the infinity when it lies beyond the finite numbers (R12). `den` is not 0. -/
def roundUnits (num den : Nat) : Nat :=
  let shift := Nat.log2 (num / den) - 23
  min (shift * 2 ^ 23 + roundHalfEven num (den * 2 ^ shift)) infBits

/-- The magnitude pattern nearest to the rational `num / den`. -/
def roundRat (num den : Nat) : Nat := roundUnits (num * 2 ^ 149) den

/-- A NaN result (R12 says that it is a NaN and not which one): whatever NaN the free value is; a free
value that is no NaN, which no block has, stands for 7FC00000. Entry 3. -/
def someNaN (op : Config.ArithOp) (a b : F32) : F32 :=
  if isNaN (Config.nanBits op a b) then Config.nanBits op a b else 0x7FC00000

/-! ### Operations (R12) -/

def fneg (x : F32) : F32 := x ^^^ 0x80000000

def fadd (a b : F32) : F32 :=
  if isNaN a || isNaN b then someNaN .add a b
  else if isInf a then
    if isInf b && (isNeg a != isNeg b) then someNaN .add a b else a
  else if isInf b then b
  else
    let sum := intUnits a + intUnits b
    packF32 (if sum = 0 then isNeg a && isNeg b else decide (sum < 0)) (roundUnits sum.natAbs 1)

/-- `a - b` is `a + (-b)`, but for a NaN result, which is the subtraction's own. Entry 3. -/
def fsub (a b : F32) : F32 :=
  if isNaN (fadd a (fneg b)) then someNaN .sub a b else fadd a (fneg b)

def fmul (a b : F32) : F32 :=
  if isNaN a || isNaN b then someNaN .mul a b
  else if isInf a || isInf b then
    if magBits a = 0 ∨ magBits b = 0 then someNaN .mul a b
    else packF32 (isNeg a != isNeg b) infBits
  else packF32 (isNeg a != isNeg b) (roundUnits (magUnits a * magUnits b) (2 ^ 149))

def fdiv (a b : F32) : F32 :=
  if isNaN a || isNaN b then someNaN .div a b
  else if isInf a then
    if isInf b then someNaN .div a b else packF32 (isNeg a != isNeg b) infBits
  else if isInf b then packF32 (isNeg a != isNeg b) 0
  else if magBits b = 0 then
    if magBits a = 0 then someNaN .div a b else packF32 (isNeg a != isNeg b) infBits
  else packF32 (isNeg a != isNeg b) (roundRat (magUnits a) (magUnits b))

/-- The integer square root of `n`, found bit by bit from bit `i - 1` down, `r` being the bits found
so far. -/
def isqrtBits : Nat → Nat → Nat → Nat
  | 0, _, r => r
  | i + 1, n, r => isqrtBits i n (if (r + 2 ^ i) * (r + 2 ^ i) ≤ n then r + 2 ^ i else r)

/-- The integer square root, rounded down. -/
def isqrt (n : Nat) : Nat := isqrtBits (Nat.log2 n / 2 + 1) n 0

/-- The correctly rounded square root. The root of `m` units of 2^-149 is the root of `m * 2^149` in
units of 2^-149. Its integer part has more than 74 bits, so a half put in the place of the dropped
fraction rounds as the exact root does. -/
def fsqrt (x : F32) : F32 :=
  if isNaN x then someNaN .sqrt x x
  else if magBits x = 0 then x
  else if isNeg x then someNaN .sqrt x x
  else if isInf x then x
  else
    let n := magUnits x * 2 ^ 149
    let root := isqrt n
    packF32 false (roundUnits (2 * root + if root * root = n then 0 else 1) 2)

/-! ### Comparisons (R13) -/

/-- Orders the patterns that are no NaN as their values are ordered; both zeros give 0. -/
def orderKey (x : F32) : Int := if isNeg x then -(magBits x : Int) else magBits x

def flt (a b : F32) : Bool := !isNaN a && !isNaN b && decide (orderKey a < orderKey b)

def fle (a b : F32) : Bool := !isNaN a && !isNaN b && decide (orderKey a ≤ orderKey b)

def feq (a b : F32) : Bool := !isNaN a && !isNaN b && decide (orderKey a = orderKey b)

/-- `+0.0`. -/
def zeroF : F32 := 0x00000000

/-- `fmin` of R13. -/
def fmin (a b : F32) : F32 := if flt a b then a else b

/-- `pos` of R13: a NaN, a zero and the negatives give `+0.0`. -/
def pos (x : F32) : F32 := if flt zeroF x then x else zeroF

/-- `clamp` of R13: a NaN `x` gives `lo`. -/
def clamp (x lo hi : F32) : F32 := if flt hi x then hi else if fle lo x then x else lo

/-! ### Conversions -/

/-- `floor_nat` of R14. On `+infinity`, where no largest integer exists, it gives 2^128, which is
above every bound it is used under (41_dac_distribution.md R190). -/
def floorNat (x : F32) : Nat := if isNaN x || isNeg x then 0 else magUnits x / 2 ^ 149

/-- `v == floor(v)` of 30_encoding.md R118, for a finite `v`. -/
def isIntegral (x : F32) : Bool := isFinite x && decide (magUnits x % 2 ^ 149 = 0)

/-- A whole number rounded to binary32. -/
def natToF32 (n : Nat) : F32 := packF32 false (roundRat n 1)

/-- `1000` (R12: a literal is that decimal rounded to binary32). -/
def f1000 : F32 := 0x447A0000

/-- `262144` = 2^18. -/
def f262144 : F32 := 0x48800000

/-- `toK(t, C)` of R20: the literal is 273.15 rounded to binary32. -/
def celsiusToK (t : F32) : F32 := fadd t 0x43889333

/-- `toK(t, F)` of R20: `(((t - 32) * 5) / 9) + 273.15`. -/
def fahrenheitToK (t : F32) : F32 :=
  fadd (fdiv (fmul (fsub t 0x42000000) 0x40A00000) 0x41100000) 0x43889333

end Sys2Proof.Machine
end

