-- ==== Sys2Proof/Machine/Params.lean ====
section
/-! DEFINITION. The two OPEN limits (00_scope.md R6, R7, 92_eei_decisions.md D1) as the rules use
them: a finite binary32 greater than 0, whatever value the block has. -/

namespace Sys2Proof.Machine

open Sys2Proof

/-- The two limits an operation takes as arguments; a test may give its own. -/
structure Limits where
  maxVoltage : F32
  maxCurrent : F32
  deriving DecidableEq, Repr

/-- What 92_eei_decisions.md D1 requires of a limit. -/
def lawfulLimit (x : F32) : Bool := isFinite x && flt zeroF x

/-- Every lawful pattern stands for itself; an unlawful one, which no block has, for 1.0. Entry 1. -/
def limitOf (bits : F32) : F32 := if lawfulLimit bits then bits else 0x3F800000

/-- The limits of the block: any lawful pair, fixed for its life (R7). Entry 1. -/
def limits : Limits := ⟨limitOf Config.maxVoltageBits, limitOf Config.maxCurrentBits⟩

end Sys2Proof.Machine
end

