-- ==== Sys2Proof/Machine/Ops.lean ====
section
/-! DEFINITION. The named operations over registers, outputs and the store: access to a channel,
emission of actions, the output stage (41_dac_distribution.md), the register transport
(20_memory.md R80 to R95), entry into phase FAULT and HALTED, and Reset (70_reset_and_hazards.md
R370), the one way back from them. -/

namespace Sys2Proof.Machine

open Sys2Proof

/-! ### Outcomes -/

/-- Goes on with the next state of an outcome; a fault or a refusal stays. -/
def onNext (o : Host.Outcome State Fault Refusal) (f : State → State) :
    Host.Outcome State Fault Refusal :=
  match o with
  | .next s => .next (f s)
  | .fault r => .fault r
  | .refused r => .refused r

/-- The outcome of an operation that may meet a store fault. -/
def ofStore (r : Except Fault State) : Host.Outcome State Fault Refusal :=
  match r with
  | .ok s => .next s
  | .error e => .fault e

/-! ### Register files (00_scope.md R15) -/

def State.heater (s : State) (h : HeaterIx) : Heater := s.htr[h]
def State.highPower (s : State) (j : HpIx) : HighPower := s.hp[j]
def State.sensor (s : State) (n : SensorIx) : Sensor := s.sns[n]

def State.setHeater (s : State) (h : HeaterIx) (c : Heater) : State := { s with htr := s.htr.set h c }
def State.setHighPower (s : State) (j : HpIx) (c : HighPower) : State := { s with hp := s.hp.set j c }
def State.setSensor (s : State) (n : SensorIx) (c : Sensor) : State := { s with sns := s.sns.set n c }

/-- `phase <- P` (00_scope.md R18). -/
def State.setPhase (s : State) (p : Phase) : State := { s with phase := p }

/-! ### Actions (00_scope.md R17) -/

/-- Emits actions, in order. -/
def State.emit (s : State) (as : List Action) : State := { s with log := s.log ++ as }

/-- Emits the response to the command being executed, to its connection only (43_cmd_dispatch.md
R241). -/
def State.respond (s : State) (r : Reply) : State := s.emit [.resp s.conn r]

/-! ### The output stage -/

/-- `code_of` (41_dac_distribution.md R190). -/
def codeOf (cv mc : F32) : Nat := min (floorNat (fmul (fdiv cv mc) f262144)) Config.codeScale

/-- Fills `n` sub-channels in turn from what is left of the code (41_dac_distribution.md R191). -/
def spill : Nat → Nat → List Nat
  | 0, _ => []
  | n + 1, rem => min rem Config.subMax :: spill n (rem - min rem Config.subMax)

/-- `distribute` (41_dac_distribution.md R191): saturate, then spill; what is left is dropped. -/
def distribute (code : Nat) : List Nat := spill 4 code

/-- Sub-channel `k` of the distributed code. -/
def subCode (code : Nat) (k : Nat) : BitVec 16 := BitVec.ofNat 16 ((distribute code).getD k 0)

/-- The four sub-channel registers of a code. -/
def subCodes (code : Nat) : Vector (BitVec 16) 4 :=
  #v[subCode code 0, subCode code 1, subCode code 2, subCode code 3]

/-- The four writes of a heater output, in rising k (41_dac_distribution.md R194). -/
def dacActions (h : HeaterIx) (code : Nat) : List Action :=
  [.dacWrite h 0 (subCode code 0), .dacWrite h 1 (subCode code 1),
   .dacWrite h 2 (subCode code 2), .dacWrite h 3 (subCode code 3)]

/-- Stores a code and its distribution and writes all four sub-channels (41_dac_distribution.md
R194). -/
def State.writeCode (s : State) (h : HeaterIx) (code : Nat) : State :=
  (s.setHeater h { s.heater h with code := BitVec.ofNat 19 code, dac := subCodes code }).emit
    (dacActions h code)

/-- `Output` (41_dac_distribution.md R194). -/
def State.output (s : State) (h : HeaterIx) (cv mc : F32) : State := s.writeCode h (codeOf cv mc)

/-- `OutputZero` (41_dac_distribution.md R196): `Output` with a zero code. -/
def State.outputZero (s : State) (h : HeaterIx) : State := s.writeCode h 0

/-- Drives an actuator: `state` and the output change together (10_state.md R44). -/
def State.driveHp (s : State) (j : HpIx) (b : Bool) : State :=
  (s.setHighPower j { s.highPower j with state := b }).emit [.hp j b]

/-- Zero control variable and zero output of one heater (44_cmd_set.md R261, R283). -/
def State.heaterOff (s : State) (h : HeaterIx) : State :=
  (s.setHeater h { s.heater h with cv := zeroF }).outputZero h

/-- All heater outputs zero, then all actuators off (44_cmd_set.md R283). -/
def State.allOutputsOff (s : State) : State :=
  ((((((s.heaterOff 0).heaterOff 1).heaterOff 2).heaterOff 3).driveHp 0 false).driveHp 1 false)

/-! ### The register transport (00_scope.md R16, 20_memory.md R80 to R82) -/

/-- What a payload does to the store and to the count of marker writes that will not take. A marker
write that does not take leaves the byte as it was (70_reset_and_hazards.md R371, 60_exceptions.md
R346). Entry 10. -/
def storeWrite (nvm : Memory) (misses addr : Nat) (bytes : List Byte) : Memory × Nat :=
  if addr = Config.markerAddr ∧ 0 < misses then (nvm, misses - 1)
  else (nvm.writeBytes addr bytes, misses)

/-- `MemWrite(addr, n, v)`. An access past address 255 faults (20_memory.md R81). Entry 22. -/
def State.memWrite (s : State) (addr : Nat) (bytes : List Byte) : Except Fault State :=
  if addr + bytes.length ≤ Config.storeSize then
    .ok { s with
      nvm := (storeWrite s.nvm s.markerMisses addr bytes).1
      markerMisses := (storeWrite s.nvm s.markerMisses addr bytes).2
      log := s.log ++ [.memWrite addr bytes] }
  else .error (.storeAddress addr)

/-- `MemRead(addr, n)`. An access past address 255 faults (20_memory.md R81). Entry 22. -/
def State.memRead (s : State) (addr n : Nat) : Except Fault (List Byte × State) :=
  if addr + n ≤ Config.storeSize then .ok (s.nvm.readBytes addr n, s.emit [.memRead addr n])
  else .error (.storeAddress addr)

/-- Writes payloads one after the other (20_memory.md R90). -/
def State.writeAll : State → List (Nat × List Byte) → Except Fault State
  | s, [] => .ok s
  | s, (a, bs) :: ws => do
    let s ← s.memWrite a bs
    s.writeAll ws

/-- The bytes of a slot from the registers (20_memory.md R85 to R87); `none` is `CodecRange`. -/
def State.slotBytes (s : State) : Slot → Option (List Byte)
  | .heater h => encodeHeater (s.heater h)
  | .highPower j => encodeHighPower (s.highPower j)
  | .sensor n => encodeSensor (s.sensor n)

/-- The payloads of a COMMIT over some slots, in their order (20_memory.md R95); `none` is
`CodecRange` (R73). -/
def State.commitWrites (s : State) : List Slot → Option (List (Nat × List Byte))
  | [] => some []
  | id :: ids => do
    let bytes ← s.slotBytes id
    let rest ← s.commitWrites ids
    some ((slotBase id, bytes) :: rest)

/-- Sets the configuration registers of a slot from its bytes (20_memory.md R96). -/
def State.loadSlot (s : State) (bytes : List Byte) : Slot → State
  | .heater h => s.setHeater h (decodeHeater bytes (s.heater h))
  | .highPower j => s.setHighPower j (decodeHighPower bytes (s.highPower j))
  | .sensor n => s.setSensor n (decodeSensor bytes (s.sensor n))

/-- READOUT over some slots, in their order (70_reset_and_hazards.md R373). -/
def State.readSlots : State → List Slot → Except Fault State
  | s, [] => .ok s
  | s, id :: ids => do
    let (bytes, s) ← s.memRead (slotBase id) (slotSize id)
    (s.loadSlot bytes id).readSlots ids

/-! ### Faults, stop and Reset -/

/-- `raise ConfigStoreFault` (60_exceptions.md R346): phase FAULT; outputs and registers stay. -/
def State.configStoreFault (s : State) : State := s.setPhase .fault

/-- `raise CodecRange` reached in a COMMIT (60_exceptions.md R347): all outputs off first, then phase
FAULT. Entry 16. -/
def State.codecRangeFault (s : State) : State := s.allOutputsOff.setPhase .fault

/-- The stop handler (44_cmd_set.md R283): all outputs off, then phase HALTED. -/
def State.stop (s : State) : State := s.allOutputsOff.setPhase .halted

/-- Reset (70_reset_and_hazards.md R370): the only return from HALTED and FAULT (60_exceptions.md
R346, R357). Every register takes its reset value, every output is written zero or off; the store,
what the environment holds and the record of the past actions stay. The configuration registers are
unspecified (entry 5). -/
def State.applyReset (s : State) : State :=
  { State.reset with
    nvm := s.nvm
    log := s.log ++ resetActions
    conn := s.conn
    inbox := s.inbox
    resetAsserted := true
    markerMisses := s.markerMisses }

/-- The store after the store writes among some actions. -/
def replayStore : Memory × Nat → List Action → Memory × Nat
  | st, [] => st
  | st, .memWrite a bs :: as => replayStore (storeWrite st.1 st.2 a bs) as
  | st, _ :: as => replayStore st as

/-- A reset the environment has set to come after `t.cut` more actions, applied to a step from `s` to
`t` (70_reset_and_hazards.md R370, R378). If the step does that many actions, only that many are
done, the store holds the writes among them, and Reset follows; else the rest is left to come.
Entry 9. -/
def State.strike (s t : State) : State :=
  match t.cut with
  | none => t
  | some k =>
    let fresh := t.log.drop s.log.length
    if fresh.length < k then { t with cut := some (k - fresh.length) }
    else
      { t with
        nvm := (replayStore (s.nvm, s.markerMisses) (fresh.take k)).1
        markerMisses := (replayStore (s.nvm, s.markerMisses) (fresh.take k)).2
        log := s.log ++ fresh.take k }.applyReset

/-! ### Telemetry (10_state.md R45) -/

/-- The telemetry view of the registers as they stand. -/
def State.telemetryView (s : State) : Telemetry where
  sns := Vector.ofFn fun n => ⟨(s.sensor n).temp, (s.sensor n).units⟩
  htr := Vector.ofFn fun h => ⟨(s.heater h).cv, (s.heater h).pwr, (s.heater h).sp⟩
  hp := Vector.ofFn fun j => (s.highPower j).state

end Sys2Proof.Machine
end

