-- ==== Sys2Proof/Machine/Boot.lean ====
section
/-! DEFINITION. LOAD, the boot sequence (70_reset_and_hazards.md R371 to R373). -/

namespace Sys2Proof.Machine

open Sys2Proof

/-- The writes of STAMP: every slot all zero bytes, then the marker (70_reset_and_hazards.md R372). -/
def stampWrites : List (Nat × List Byte) :=
  allSlots.map (fun id => (slotBase id, List.replicate (slotSize id) 0)) ++
    [(Config.markerAddr, [Config.sentinel])]

/-- READOUT, then phase RUN (70_reset_and_hazards.md R371, R373). -/
def State.readout (s : State) : Except Fault State := do
  let s ← s.readSlots allSlots
  .ok (s.setPhase .run)

/-- STAMP and the read-back of the marker: whether it reads as `SENTINEL`
(70_reset_and_hazards.md R371, R372). -/
def State.stamp (s : State) : Except Fault (Bool × State) := do
  let s ← s.writeAll stampWrites
  let (m, s) ← s.memRead Config.markerAddr 1
  .ok (decide (m = [Config.sentinel]), s)

/-- STAMP with re-tries left, then READOUT, or `ConfigStoreFault` (70_reset_and_hazards.md R371). -/
def State.stampAndRead : Nat → State → Except Fault State
  | 0, s => do
    let (good, s) ← s.stamp
    if good then s.readout else .ok s.configStoreFault
  | r + 1, s => do
    let (good, s) ← s.stamp
    if good then s.readout else State.stampAndRead r s

/-- LOAD (70_reset_and_hazards.md R371). -/
def State.bootLoad (s : State) : Except Fault State := do
  let (m, s) ← (s.setPhase .load).memRead Config.markerAddr 1
  if m = [Config.sentinel] then s.readout else State.stampAndRead Config.initRetries s

/-- `LOAD` (70_reset_and_hazards.md R371). -/
def execLoad (s : State) : Host.Outcome State Fault Refusal := ofStore s.bootLoad

end Sys2Proof.Machine
end

