-- ==== Sys2Proof/Machine/Text.lean ====
section
/-! DEFINITION. ASCII text: the grammar of numbers and their value (30_encoding.md R117), decimal
text, and the text of a binary32 (R127). -/

namespace Sys2Proof.Machine

open Sys2Proof

/-- The bytes of an ASCII text. -/
def ascii (t : String) : List Byte := t.toList.map fun c => BitVec.ofNat 8 c.toNat

abbrev commaByte : Byte := 0x2C
abbrev dollarByte : Byte := 0x24
abbrev qByte : Byte := 0x71
abbrev newlineByte : Byte := 0x0A

/-! ### Decimal digits -/

def isDigit (c : Byte) : Bool := decide (0x30 ≤ c.toNat) && decide (c.toNat ≤ 0x39)

/-- The number a string of digits denotes. -/
def digitsVal (ds : List Byte) : Nat := ds.foldl (fun n c => 10 * n + (c.toNat - 0x30)) 0

/-- The digits of `n` before the digits `acc`; `fuel` bounds their number. -/
def digitsFrom : Nat → Nat → List Byte → List Byte
  | 0, _, acc => acc
  | fuel + 1, n, acc =>
    let acc' := BitVec.ofNat 8 (0x30 + n % 10) :: acc
    if n < 10 then acc' else digitsFrom fuel (n / 10) acc'

/-- Decimal digits of a number, no leading zero (R127). -/
def natText (n : Nat) : List Byte := digitsFrom (n + 1) n []

/-! ### Numbers (R117) -/

/-- An optional sign: whether it is `-`, and what follows it. -/
def takeSign : List Byte → Bool × List Byte
  | [] => (false, [])
  | c :: cs => if c = 0x2D then (true, cs) else if c = 0x2B then (false, cs) else (false, c :: cs)

/-- An optional `.` and the digits after it. -/
def takeFraction : List Byte → List Byte × List Byte
  | [] => ([], [])
  | c :: cs => if c = 0x2E then (cs.takeWhile isDigit, cs.dropWhile isDigit) else ([], c :: cs)

/-- The optional exponent, which must be all that is left of the token; `none` when what is left is
no exponent. -/
def takeExponent : List Byte → Option Int
  | [] => some 0
  | c :: cs =>
    if c = 0x65 ∨ c = 0x45 then
      let ds := (takeSign cs).2
      if ds ≠ [] ∧ ds.all isDigit then
        some (if (takeSign cs).1 then -(digitsVal ds : Int) else digitsVal ds)
      else none
    else none

/-- `n * 10^e` with a sign, rounded to binary32; `none` when it rounds to an infinity. -/
def decimalToF32 (neg : Bool) (n : Nat) (e : Int) : Option F32 :=
  let mag := roundRat (n * 10 ^ e.toNat) (10 ^ (-e).toNat)
  if mag = infBits then none else some (packF32 neg mag)

/-- `dec_to_f32` of R117 on a whole argument token; `none` is the parse failure. -/
def parseNumber (token : List Byte) : Option F32 :=
  let neg := (takeSign token).1
  let body := (takeSign token).2
  let whole := body.takeWhile isDigit
  let frac := (takeFraction (body.dropWhile isDigit)).1
  if whole = [] ∧ frac = [] then none
  else
    match takeExponent (takeFraction (body.dropWhile isDigit)).2 with
    | none => none
    | some e => decimalToF32 neg (digitsVal (whole ++ frac)) (e - frac.length)

/-! ### The text of a binary32 -/

/-- The exact value of a finite binary32 as a number of the grammar of R117: a whole number as its
digits, any other value as a whole number of units of 10^-149. -/
def exactText (x : F32) : List Byte :=
  (if isNeg x then [0x2D] else []) ++
    if magUnits x % 2 ^ 149 = 0 then natText (magUnits x / 2 ^ 149)
    else natText (magUnits x * 5 ^ 149) ++ ascii "e-149"

/-- `fmt_f32` of R127 on a finite pattern: any text the OPEN parameter gives that parses back to the
pattern, as (a) and (b) of R127 require; a text that does not is replaced. Entry 2. -/
def fmtF32 (x : F32) : List Byte :=
  if parseNumber (Config.fmtText x) = some x then Config.fmtText x else exactText x

/-- The rendering of any pattern (R127): `nan`, `inf`, `-inf`, or `fmt_f32`. -/
def renderF32 (x : F32) : List Byte :=
  if isNaN x then ascii "nan"
  else if isInf x then (if isNeg x then ascii "-inf" else ascii "inf")
  else fmtF32 x

end Sys2Proof.Machine
end

