-- ==== Sys2Proof/Machine/Render.lean ====
section
/-! DEFINITION. Responses: what a `get` answers (45_cmd_get.md R300), and the bytes of a response on the
wire (30_encoding.md R112, R126 to R128, 60_exceptions.md R341). -/

namespace Sys2Proof.Machine

open Sys2Proof

/-- Answers a `get`: the key is the command name (30_encoding.md R126, 45_cmd_get.md R300). -/
def State.answer (s : State) (key : String) (v : Value) : State := s.respond (.value (ascii key) v)

/-- The rendering of a value (30_encoding.md R127). -/
def renderValue : Value → List Byte
  | .u8 n => natText n.toNat
  | .bit b => natText b.toNat
  | .real x => renderF32 x
  | .opt none => ascii "NA"
  | .opt (some x) => renderF32 x

/-- The numeric code of a reason (60_exceptions.md R341). -/
def badCode : Bad → Nat
  | .emptyLine => 1
  | .badPrefix => 2
  | .badVerb => 3
  | .unknownCommand => 4
  | .argCount _ => 5
  | .argNotNumber _ => 6
  | .argRange _ => 7

/-- The text of a reason (60_exceptions.md R341). -/
def badText : Bad → List Byte
  | .emptyLine => ascii "empty command"
  | .badPrefix => ascii "unrecognized prefix"
  | .badVerb => ascii "command failure: unknown verb"
  | .unknownCommand => ascii "command failure: unknown command"
  | .argCount n => ascii "command failure: requires " ++ natText n ++ ascii " args"
  | .argNotNumber i => ascii "command failure: arg " ++ natText i ++ ascii " not a number"
  | .argRange i => ascii "command failure: arg " ++ natText i ++ ascii " out of range"

/-- The text of a response (30_encoding.md R112, R126). -/
def replyText : Reply → List Byte
  | .ok => ascii "OK"
  | .value key v => ascii "OK," ++ key ++ ascii "=" ++ renderValue v
  | .bad r => ascii "BAD," ++ badText r

/-- The bytes the response port sends: the text and the newline it appends (30_encoding.md R112). -/
def replyLine (r : Reply) : List Byte := replyText r ++ [newlineByte]

end Sys2Proof.Machine
end

