-- ==== Sys2Proof/Machine/GetHeater.lean ====
section
/-! DEFINITION. The meanings of the heater getters (45_cmd_get.md R300 to R313): one register read, nothing
written. -/

namespace Sys2Proof.Machine

open Sys2Proof

/-- `get dac_mode` (45_cmd_get.md R301). -/
def execGetDacMode (h : HeaterIx) (s : State) : Host.Outcome State Fault Refusal :=
  .next (s.answer "dac_mode" (.u8 (heaterModeCode (s.heater h).mode)))

/-- `get dac_sns` (45_cmd_get.md R302). -/
def execGetDacSns (h : HeaterIx) (s : State) : Host.Outcome State Fault Refusal :=
  .next (s.answer "dac_sns" (.u8 (s.heater h).sns))

/-- `get dac_sp` (45_cmd_get.md R303). -/
def execGetDacSp (h : HeaterIx) (s : State) : Host.Outcome State Fault Refusal :=
  .next (s.answer "dac_sp" (.real (s.heater h).sp))

/-- `get dac_kp` (45_cmd_get.md R304). -/
def execGetDacKp (h : HeaterIx) (s : State) : Host.Outcome State Fault Refusal :=
  .next (s.answer "dac_kp" (.real (s.heater h).kp))

/-- `get dac_ki` (45_cmd_get.md R305). -/
def execGetDacKi (h : HeaterIx) (s : State) : Host.Outcome State Fault Refusal :=
  .next (s.answer "dac_ki" (.real (s.heater h).ki))

/-- `get dac_kd` (45_cmd_get.md R306). -/
def execGetDacKd (h : HeaterIx) (s : State) : Host.Outcome State Fault Refusal :=
  .next (s.answer "dac_kd" (.real (s.heater h).kd))

/-- `get dac_res` (45_cmd_get.md R307). -/
def execGetDacRes (h : HeaterIx) (s : State) : Host.Outcome State Fault Refusal :=
  .next (s.answer "dac_res" (.real (s.heater h).res))

/-- `get dac_fp` (45_cmd_get.md R308). -/
def execGetDacFp (h : HeaterIx) (s : State) : Host.Outcome State Fault Refusal :=
  .next (s.answer "dac_fp" (.real (s.heater h).fp))

/-- `get dac_tmax` (45_cmd_get.md R309). -/
def execGetDacTmax (h : HeaterIx) (s : State) : Host.Outcome State Fault Refusal :=
  .next (s.answer "dac_tmax" (.real (s.heater h).tmax))

/-- `get dac_tmin` (45_cmd_get.md R310). -/
def execGetDacTmin (h : HeaterIx) (s : State) : Host.Outcome State Fault Refusal :=
  .next (s.answer "dac_tmin" (.real (s.heater h).tmin))

/-- `get dac_cur` (45_cmd_get.md R311). -/
def execGetDacCur (h : HeaterIx) (s : State) : Host.Outcome State Fault Refusal :=
  .next (s.answer "dac_cur" (.real (s.heater h).curCmd))

/-- `get dac_cv` (45_cmd_get.md R312). -/
def execGetDacCv (h : HeaterIx) (s : State) : Host.Outcome State Fault Refusal :=
  .next (s.answer "dac_cv" (.real (s.heater h).cv))

/-- `get dac_pwr` (45_cmd_get.md R313). -/
def execGetDacPwr (h : HeaterIx) (s : State) : Host.Outcome State Fault Refusal :=
  .next (s.answer "dac_pwr" (.real (s.heater h).pwr))

end Sys2Proof.Machine
end

