-- ==== Sys2Proof/Machine/GetHighPower.lean ====
section
/-! DEFINITION. The meanings of the high-power getters (45_cmd_get.md R314 to R320). -/

namespace Sys2Proof.Machine

open Sys2Proof

/-- `get hp_mode` (45_cmd_get.md R314). -/
def execGetHpMode (j : HpIx) (s : State) : Host.Outcome State Fault Refusal :=
  .next (s.answer "hp_mode" (.u8 (hpModeCode (s.highPower j).mode)))

/-- `get hp_sns` (45_cmd_get.md R315). -/
def execGetHpSns (j : HpIx) (s : State) : Host.Outcome State Fault Refusal :=
  .next (s.answer "hp_sns" (.u8 (s.highPower j).sns))

/-- `get hp_sp` (45_cmd_get.md R316). -/
def execGetHpSp (j : HpIx) (s : State) : Host.Outcome State Fault Refusal :=
  .next (s.answer "hp_sp" (.real (s.highPower j).sp))

/-- `get hp_hyst` (45_cmd_get.md R317). -/
def execGetHpHyst (j : HpIx) (s : State) : Host.Outcome State Fault Refusal :=
  .next (s.answer "hp_hyst" (.real (s.highPower j).hyst))

/-- `get hp_tmax` (45_cmd_get.md R318). -/
def execGetHpTmax (j : HpIx) (s : State) : Host.Outcome State Fault Refusal :=
  .next (s.answer "hp_tmax" (.real (s.highPower j).tmax))

/-- `get hp_tmin` (45_cmd_get.md R319). -/
def execGetHpTmin (j : HpIx) (s : State) : Host.Outcome State Fault Refusal :=
  .next (s.answer "hp_tmin" (.real (s.highPower j).tmin))

/-- `get hp_state` (45_cmd_get.md R320). -/
def execGetHpState (j : HpIx) (s : State) : Host.Outcome State Fault Refusal :=
  .next (s.answer "hp_state" (.bit (s.highPower j).state))

end Sys2Proof.Machine
end

