-- ==== Sys2Proof/Machine/GetSensor.lean ====
section
/-! DEFINITION. The meanings of the sensor getters (45_cmd_get.md R321 to R323). -/

namespace Sys2Proof.Machine

open Sys2Proof

/-- `get sns_type` (45_cmd_get.md R321). -/
def execGetSnsType (n : SensorIx) (s : State) : Host.Outcome State Fault Refusal :=
  .next (s.answer "sns_type" (.u8 (sensorTypeCode (s.sensor n).type)))

/-- `get sns_units` (45_cmd_get.md R322). -/
def execGetSnsUnits (n : SensorIx) (s : State) : Host.Outcome State Fault Refusal :=
  .next (s.answer "sns_units" (.u8 (tempUnitCode (s.sensor n).units)))

/-- `get sns_temp` (45_cmd_get.md R323). -/
def execGetSnsTemp (n : SensorIx) (s : State) : Host.Outcome State Fault Refusal :=
  .next (s.answer "sns_temp" (.opt (s.sensor n).temp))

end Sys2Proof.Machine
end

