-- ==== Sys2Proof/Machine/Flags.lean ====
section
/-! DEFINITION. The block has no status flags (10_state.md R46). What it computes in their place are
the conditions of a tick: the guards, the interlock and the comparator. -/

namespace Sys2Proof.Machine

open Sys2Proof

/-- `inside` of the interlocks, both ends inside, no unit conversion; a NaN bound is outside
(40_heater_control.md R159, 42_highpower_control.md R215). -/
def inside (tmin pv tmax : F32) : Bool := fle tmin pv && fle pv tmax

/-- The resistance guard `R > 0 and isfinite(R)` (40_heater_control.md R151, R152). -/
def usableResistance (r : F32) : Bool := flt zeroF r && isFinite r

/-- The comparator of 42_highpower_control.md R214: at or above `sp + hyst` off, else at or below
`sp - hyst` on, else as it was. -/
def comparator (sp hyst pv : F32) (state : Bool) : Bool :=
  if fle (fadd sp hyst) pv then false
  else if fle pv (fsub sp hyst) then true
  else state

end Sys2Proof.Machine
end

