-- ==== Sys2Proof/Machine/Operands.lean ====
section
/-! DEFINITION. The operands an operation reads from the state: the sensor a channel is assigned to,
its sample and its unit (10_state.md R47, 00_scope.md R20). -/

namespace Sys2Proof.Machine

open Sys2Proof

/-- The sensor a channel is assigned to: none for index 0 and above 12 (10_state.md R47). -/
def assignedSensor (sns : Byte) : Option SensorIx :=
  if h : 1 ≤ sns.toNat ∧ sns.toNat ≤ 12 then some ⟨sns.toNat - 1, by omega⟩ else none

/-- The resolution of a raw sample: an `UNSET` sensor has the sample `NA` (10_state.md R42, R47). -/
def resolveSample (type : SensorType) (raw : OptF32) : OptF32 :=
  if type = .unset then none else raw

/-- `sample_of` of a channel's assignment, from the samples the Tick stored (10_state.md R47,
40_heater_control.md R150). Entry 26. -/
def State.sampleOf (s : State) (sns : Byte) : OptF32 :=
  match assignedSensor sns with
  | none => none
  | some n => resolveSample (s.sensor n).type (s.sensor n).temp

/-- The unit of a channel's assigned sensor (40_heater_control.md R155 `u`). A law reads it only when
the channel has a sample, hence a sensor. -/
def State.unitOf (s : State) (sns : Byte) : TempUnit :=
  match assignedSensor sns with
  | none => .kelvin
  | some n => (s.sensor n).units

/-- `toK(t, u)` (00_scope.md R20). -/
def toK (t : F32) : TempUnit → F32
  | .kelvin => t
  | .celsius => celsiusToK t
  | .fahrenheit => fahrenheitToK t

/-- The duty of the environment on a raw sample: `NA` or a finite number (10_state.md R47). -/
def lawfulSample : OptF32 → Bool
  | none => true
  | some x => isFinite x

end Sys2Proof.Machine
end

