-- ==== Sys2Proof/Machine/HeaterTick.lean ====
section
/-! DEFINITION. The heater tick operations (40_heater_control.md R150 to R167): the laws, the guards,
the interlock and the output, and the meanings of the four `HTR.TICK` rows. -/

namespace Sys2Proof.Machine

open Sys2Proof

/-! ### Limits and the power to current converter -/

/-- `mc`, the `max_current` of a channel (40_heater_control.md R154). -/
def maxCurrentOf (lim : Limits) (r : F32) : F32 := fmin (fdiv lim.maxVoltage r) lim.maxCurrent

/-- `mit`, the `max_i_term` (40_heater_control.md R154). -/
def maxITerm (mc r : F32) : F32 := fmul (fmul (fmul mc mc) r) f1000

/-- `cur_of` (40_heater_control.md R156). -/
def currentOf (pw r mc : F32) : F32 := clamp (fsqrt (fdiv (pos pw) r)) zeroF mc

/-! ### The laws -/

/-- What a law gives: the current, the power, and the PID registers after it. -/
structure LawResult where
  cur : F32
  pw : F32
  it : F32
  eprev : F32
  deriving DecidableEq, Repr

/-- The fixed-percent law (40_heater_control.md R157); no PID state touched. -/
def fixedLaw (c : Heater) (mc : F32) : LawResult :=
  let pw := fmul (fmul (fmul mc mc) c.res) c.fp
  { cur := currentOf pw c.res mc, pw := pw, it := c.it, eprev := c.eprev }

/-- The finite number the accumulator holds where `it1` and `mit` have both overflowed, a free value of the
two terms of step 3: 40_heater_control.md R164 says that the accumulator never holds an infinity, and no
rule which number it then holds. A free value that is no finite number from 0 on, which no block has,
stands for the largest finite number. Entry 19. -/
def someTerm (it inc : F32) : F32 :=
  let x := Config.overflowTerm it inc
  if isFinite x && fle zeroF x then x else 0x7F7FFFFF

/-- Steps 3 and 5 of the PID law: the integral term, clamped to `[0, mit]` (40_heater_control.md R155,
R162), and never an infinity (R164). -/
def integralTerm (c : Heater) (e dt mit : F32) : F32 :=
  let inc := fmul (fmul c.ki e) dt
  let it := clamp (fadd c.it inc) zeroF mit
  if isInf it then someTerm c.it inc else it

/-- The PID law, its eight steps (40_heater_control.md R155); with `ki` equal to zero the term is
zero and the accumulator is kept (R161). -/
def pidLaw (c : Heater) (u : TempUnit) (dt pv mc : F32) : LawResult :=
  let e := fsub (toK c.sp u) (toK pv u)
  let de := fdiv (fsub e c.eprev) dt
  let off := feq c.ki zeroF
  let it := if off then c.it else integralTerm c e dt (maxITerm mc c.res)
  let iterm := if off then zeroF else it
  let pw := fdiv (fadd (fadd (fmul c.kp e) iterm) (fmul c.kd de)) f1000
  { cur := currentOf pw c.res mc, pw := pw, it := it, eprev := e }

/-- The direct-current law (40_heater_control.md R158): the commanded current, verbatim. -/
def directLaw (c : Heater) : LawResult :=
  { cur := c.curCmd, pw := fmul (fmul c.curCmd c.curCmd) c.res, it := c.it, eprev := c.eprev }

/-! ### Guards, interlock and output -/

/-- `GuardOff` (40_heater_control.md R152), and all of `HTR.TICK.DISABLED` (R153): no current, no
power, zeros written; `it`, `eprev`, `cur_cmd` kept. -/
def State.guardOff (s : State) (h : HeaterIx) : State :=
  (s.setHeater h { s.heater h with cv := zeroF, pwr := zeroF }).outputZero h

/-- The end of a heater tick whose law ran: the power is stored, the interlock has the last word on
the current (40_heater_control.md R151, R159), the output is written (41_dac_distribution.md R194). -/
def State.finishHeater (s : State) (h : HeaterIx) (pv mc : F32) (r : LawResult) : State :=
  let c := s.heater h
  let cv := if inside c.tmin pv c.tmax then r.cur else zeroF
  (s.setHeater h { c with it := r.it, eprev := r.eprev, pwr := r.pw, cv := cv }).output h cv mc

/-- The tick of a channel in an active mode: guards, law, interlock, output (40_heater_control.md
R151, 60_exceptions.md R352). The law is given the channel, the unit of its sensor, the sample and
`mc`. -/
def State.heaterTickWith (lim : Limits) (s : State) (h : HeaterIx)
    (law : Heater → TempUnit → F32 → F32 → LawResult) : State :=
  let c := s.heater h
  match s.sampleOf c.sns with
  | none => s.guardOff h
  | some pv =>
    if usableResistance c.res then
      let mc := maxCurrentOf lim c.res
      if flt zeroF mc then s.finishHeater h pv mc (law c (s.unitOf c.sns) pv mc)
      else s.guardOff h
    else s.guardOff h

/-- The same at the limits of the block. -/
def State.heaterTick (s : State) (h : HeaterIx)
    (law : Heater → TempUnit → F32 → F32 → LawResult) : State :=
  s.heaterTickWith limits h law

/-! ### Meanings -/

/-- `HTR.TICK.DISABLED` (40_heater_control.md R153): no sample read, no guard. -/
def execHtrTickDisabled (h : HeaterIx) (s : State) : Host.Outcome State Fault Refusal :=
  .next (s.guardOff h)

/-- `HTR.TICK.FIXED` (40_heater_control.md R157, inside R151). -/
def execHtrTickFixed (h : HeaterIx) (s : State) : Host.Outcome State Fault Refusal :=
  .next (s.heaterTick h fun c _ _ mc => fixedLaw c mc)

/-- `HTR.TICK.PID` (40_heater_control.md R155, inside R151). -/
def execHtrTickPid (h : HeaterIx) (dt : F32) (s : State) : Host.Outcome State Fault Refusal :=
  .next (s.heaterTick h fun c u pv mc => pidLaw c u dt pv mc)

/-- `HTR.TICK.DIRECT` (40_heater_control.md R158, inside R151). -/
def execHtrTickDirect (h : HeaterIx) (s : State) : Host.Outcome State Fault Refusal :=
  .next (s.heaterTick h fun c _ _ _ => directLaw c)

end Sys2Proof.Machine
end

