-- ==== Sys2Proof/Machine/HighPowerTick.lean ====
section
/-! DEFINITION. The high-power tick operations (42_highpower_control.md R210 to R217): the guard, the
laws, the interlock, and the meanings of the three `HP.TICK` rows. -/

namespace Sys2Proof.Machine

open Sys2Proof

/-- The tick of a high-power channel in an active mode: guard, law, interlock, output
(42_highpower_control.md R210, R212, R215). The law is given the channel and the sample. -/
def State.highPowerTick (s : State) (j : HpIx) (law : HighPower → F32 → Bool) : State :=
  let c := s.highPower j
  match s.sampleOf c.sns with
  | none => s.driveHp j false
  | some pv => s.driveHp j (inside c.tmin pv c.tmax && law c pv)

/-- `HP.TICK.DISABLED` (42_highpower_control.md R211): off, no sample read. -/
def execHpTickDisabled (j : HpIx) (s : State) : Host.Outcome State Fault Refusal :=
  .next (s.driveHp j false)

/-- `HP.TICK.DIRECT` (42_highpower_control.md R213, inside R210): the commanded state. -/
def execHpTickDirect (j : HpIx) (s : State) : Host.Outcome State Fault Refusal :=
  .next (s.highPowerTick j fun c _ => c.cmd)

/-- `HP.TICK.HYST` (42_highpower_control.md R214, inside R210): the comparator. -/
def execHpTickHyst (j : HpIx) (s : State) : Host.Outcome State Fault Refusal :=
  .next (s.highPowerTick j fun c pv => comparator c.sp c.hyst pv c.state)

end Sys2Proof.Machine
end

