-- ==== Sys2Proof/Machine/Process.lean ====
section
/-! DEFINITION. The meanings of the commands without arguments: `commit`, `stop_program` and its alias `exit`
(44_cmd_set.md R282 to R284), and of the bare line `q` (43_cmd_dispatch.md R232). -/

namespace Sys2Proof.Machine

open Sys2Proof

/-- COMMIT (20_memory.md R95), then `OK` (44_cmd_set.md R282). A register too wide for its field would
be `CodecRange`, with no response (60_exceptions.md R347); none is (20_memory.md R73). -/
def State.commitOk (s : State) : Host.Outcome State Fault Refusal :=
  match s.commitWrites allSlots with
  | none => .next s.codecRangeFault
  | some ws => onNext (ofStore (s.writeAll ws)) fun t => t.respond .ok

/-- `set commit` (44_cmd_set.md R282). -/
def execSetCommit (s : State) : Host.Outcome State Fault Refusal := s.commitOk

/-- `set stop_program` (44_cmd_set.md R283): the `OK` is the last event until reset. -/
def execSetStopProgram (s : State) : Host.Outcome State Fault Refusal := .next (s.stop.respond .ok)

/-- `set exit` (44_cmd_set.md R284), the alias of `stop_program` (30_encoding.md R125). -/
def execSetExit (s : State) : Host.Outcome State Fault Refusal := .next (s.stop.respond .ok)

/-- `q` (43_cmd_dispatch.md R232): asks the environment to close the connection; no response. -/
def execQ (s : State) : Host.Outcome State Fault Refusal := .next (s.emit [.close s.conn])

end Sys2Proof.Machine
end

