-- ==== Sys2Proof/Machine/SetHeater.lean ====
section
/-! DEFINITION. The meanings of the heater setters (44_cmd_set.md R260 to R271). A setter writes its register,
touches no output and no store byte unless its rule says so, and answers `OK` (R260). -/

namespace Sys2Proof.Machine

open Sys2Proof

/-- Writes the registers of a heater channel and answers `OK` (44_cmd_set.md R260). -/
def State.setHeaterOk (s : State) (h : HeaterIx) (c : Heater) : State := (s.setHeater h c).respond .ok

/-- `set dac_mode` (44_cmd_set.md R261): a change to `DISABLED` zeroes the control variable and the
output before the `OK`. -/
def execSetDacMode (h : HeaterIx) (n : HeaterMode) (s : State) : Host.Outcome State Fault Refusal :=
  let t := s.setHeater h { s.heater h with mode := n }
  .next ((if n = .disabled then t.heaterOff h else t).respond .ok)

/-- `set dac_sns` (44_cmd_set.md R262). -/
def execSetDacSns (h : HeaterIx) (n : Fin 13) (s : State) : Host.Outcome State Fault Refusal :=
  .next (s.setHeaterOk h { s.heater h with sns := BitVec.ofNat 8 n.val })

/-- `set dac_sp` (44_cmd_set.md R263). -/
def execSetDacSp (h : HeaterIx) (x : F32) (s : State) : Host.Outcome State Fault Refusal :=
  .next (s.setHeaterOk h { s.heater h with sp := x })

/-- `set dac_kp` (44_cmd_set.md R264). -/
def execSetDacKp (h : HeaterIx) (x : F32) (s : State) : Host.Outcome State Fault Refusal :=
  .next (s.setHeaterOk h { s.heater h with kp := x })

/-- `set dac_ki` (44_cmd_set.md R265). -/
def execSetDacKi (h : HeaterIx) (x : F32) (s : State) : Host.Outcome State Fault Refusal :=
  .next (s.setHeaterOk h { s.heater h with ki := x })

/-- `set dac_kd` (44_cmd_set.md R266). -/
def execSetDacKd (h : HeaterIx) (x : F32) (s : State) : Host.Outcome State Fault Refusal :=
  .next (s.setHeaterOk h { s.heater h with kd := x })

/-- `set dac_res` (44_cmd_set.md R267). -/
def execSetDacRes (h : HeaterIx) (x : F32) (s : State) : Host.Outcome State Fault Refusal :=
  .next (s.setHeaterOk h { s.heater h with res := x })

/-- `set dac_fp` (44_cmd_set.md R268). -/
def execSetDacFp (h : HeaterIx) (x : F32) (s : State) : Host.Outcome State Fault Refusal :=
  .next (s.setHeaterOk h { s.heater h with fp := x })

/-- `set dac_tmax` (44_cmd_set.md R269). -/
def execSetDacTmax (h : HeaterIx) (x : F32) (s : State) : Host.Outcome State Fault Refusal :=
  .next (s.setHeaterOk h { s.heater h with tmax := x })

/-- `set dac_tmin` (44_cmd_set.md R270). -/
def execSetDacTmin (h : HeaterIx) (x : F32) (s : State) : Host.Outcome State Fault Refusal :=
  .next (s.setHeaterOk h { s.heater h with tmin := x })

/-- `set dac_cur` (44_cmd_set.md R271): the commanded current only, not the output. -/
def execSetDacCur (h : HeaterIx) (x : F32) (s : State) : Host.Outcome State Fault Refusal :=
  .next (s.setHeaterOk h { s.heater h with curCmd := x })

end Sys2Proof.Machine
end

