-- ==== Sys2Proof/Machine/SetHighPower.lean ====
section
/-! DEFINITION. The meanings of the high-power setters (44_cmd_set.md R272 to R278). -/

namespace Sys2Proof.Machine

open Sys2Proof

/-- Writes the registers of a high-power channel and answers `OK` (44_cmd_set.md R260). -/
def State.setHighPowerOk (s : State) (j : HpIx) (c : HighPower) : State :=
  (s.setHighPower j c).respond .ok

/-- `set hp_mode` (44_cmd_set.md R272): a change to `DISABLED` turns the actuator off before the
`OK`. -/
def execSetHpMode (j : HpIx) (n : HpMode) (s : State) : Host.Outcome State Fault Refusal :=
  let t := s.setHighPower j { s.highPower j with mode := n }
  .next ((if n = .disabled then t.driveHp j false else t).respond .ok)

/-- `set hp_sns` (44_cmd_set.md R273). -/
def execSetHpSns (j : HpIx) (n : Fin 13) (s : State) : Host.Outcome State Fault Refusal :=
  .next (s.setHighPowerOk j { s.highPower j with sns := BitVec.ofNat 8 n.val })

/-- `set hp_sp` (44_cmd_set.md R274). -/
def execSetHpSp (j : HpIx) (x : F32) (s : State) : Host.Outcome State Fault Refusal :=
  .next (s.setHighPowerOk j { s.highPower j with sp := x })

/-- `set hp_hyst` (44_cmd_set.md R275). -/
def execSetHpHyst (j : HpIx) (x : F32) (s : State) : Host.Outcome State Fault Refusal :=
  .next (s.setHighPowerOk j { s.highPower j with hyst := x })

/-- `set hp_tmax` (44_cmd_set.md R276). -/
def execSetHpTmax (j : HpIx) (x : F32) (s : State) : Host.Outcome State Fault Refusal :=
  .next (s.setHighPowerOk j { s.highPower j with tmax := x })

/-- `set hp_tmin` (44_cmd_set.md R277). -/
def execSetHpTmin (j : HpIx) (x : F32) (s : State) : Host.Outcome State Fault Refusal :=
  .next (s.setHighPowerOk j { s.highPower j with tmin := x })

/-- `set hp_state` (44_cmd_set.md R278): the commanded state only, not the actuator. -/
def execSetHpState (j : HpIx) (n : Bool) (s : State) : Host.Outcome State Fault Refusal :=
  .next (s.setHighPowerOk j { s.highPower j with cmd := n })

end Sys2Proof.Machine
end

