-- ==== Sys2Proof/Machine/SetSensor.lean ====
section
/-! DEFINITION. The meanings of the sensor setters (44_cmd_set.md R279, R280): both discard the last sample. -/

namespace Sys2Proof.Machine

open Sys2Proof

/-- Writes the registers of a sensor channel and answers `OK` (44_cmd_set.md R260). -/
def State.setSensorOk (s : State) (n : SensorIx) (c : Sensor) : State :=
  (s.setSensor n c).respond .ok

/-- `set sns_type` (44_cmd_set.md R279). -/
def execSetSnsType (i : SensorIx) (n : SensorType) (s : State) : Host.Outcome State Fault Refusal :=
  .next (s.setSensorOk i { s.sensor i with type := n, temp := none })

/-- `set sns_units` (44_cmd_set.md R280). -/
def execSetSnsUnits (i : SensorIx) (n : TempUnit) (s : State) : Host.Outcome State Fault Refusal :=
  .next (s.setSensorOk i { s.sensor i with units := n, temp := none })

end Sys2Proof.Machine
end

