-- ==== Sys2Proof/Machine/Dispatch.lean ====
section
/-! DEFINITION. `exec`: one arm per operation, one direct call of its meaning. -/

namespace Sys2Proof.Machine

open Sys2Proof

def exec (i : Instr) (s : State) : Host.Outcome State Fault Refusal :=
  match i with
  | .setDacMode h n => Sys2Proof.Machine.execSetDacMode h n s
  | .setDacSns h n => Sys2Proof.Machine.execSetDacSns h n s
  | .setDacSp h x => Sys2Proof.Machine.execSetDacSp h x s
  | .setDacKp h x => Sys2Proof.Machine.execSetDacKp h x s
  | .setDacKi h x => Sys2Proof.Machine.execSetDacKi h x s
  | .setDacKd h x => Sys2Proof.Machine.execSetDacKd h x s
  | .setDacRes h x => Sys2Proof.Machine.execSetDacRes h x s
  | .setDacFp h x => Sys2Proof.Machine.execSetDacFp h x s
  | .setDacTmax h x => Sys2Proof.Machine.execSetDacTmax h x s
  | .setDacTmin h x => Sys2Proof.Machine.execSetDacTmin h x s
  | .setDacCur h x => Sys2Proof.Machine.execSetDacCur h x s
  | .setHpMode j n => Sys2Proof.Machine.execSetHpMode j n s
  | .setHpSns j n => Sys2Proof.Machine.execSetHpSns j n s
  | .setHpSp j x => Sys2Proof.Machine.execSetHpSp j x s
  | .setHpHyst j x => Sys2Proof.Machine.execSetHpHyst j x s
  | .setHpTmax j x => Sys2Proof.Machine.execSetHpTmax j x s
  | .setHpTmin j x => Sys2Proof.Machine.execSetHpTmin j x s
  | .setHpState j n => Sys2Proof.Machine.execSetHpState j n s
  | .setSnsType c n => Sys2Proof.Machine.execSetSnsType c n s
  | .setSnsUnits c n => Sys2Proof.Machine.execSetSnsUnits c n s
  | .setCommit => Sys2Proof.Machine.execSetCommit s
  | .setStopProgram => Sys2Proof.Machine.execSetStopProgram s
  | .setExit => Sys2Proof.Machine.execSetExit s
  | .getDacMode h => Sys2Proof.Machine.execGetDacMode h s
  | .getDacSns h => Sys2Proof.Machine.execGetDacSns h s
  | .getDacSp h => Sys2Proof.Machine.execGetDacSp h s
  | .getDacKp h => Sys2Proof.Machine.execGetDacKp h s
  | .getDacKi h => Sys2Proof.Machine.execGetDacKi h s
  | .getDacKd h => Sys2Proof.Machine.execGetDacKd h s
  | .getDacRes h => Sys2Proof.Machine.execGetDacRes h s
  | .getDacFp h => Sys2Proof.Machine.execGetDacFp h s
  | .getDacTmax h => Sys2Proof.Machine.execGetDacTmax h s
  | .getDacTmin h => Sys2Proof.Machine.execGetDacTmin h s
  | .getDacCur h => Sys2Proof.Machine.execGetDacCur h s
  | .getDacCv h => Sys2Proof.Machine.execGetDacCv h s
  | .getDacPwr h => Sys2Proof.Machine.execGetDacPwr h s
  | .getHpMode j => Sys2Proof.Machine.execGetHpMode j s
  | .getHpSns j => Sys2Proof.Machine.execGetHpSns j s
  | .getHpSp j => Sys2Proof.Machine.execGetHpSp j s
  | .getHpHyst j => Sys2Proof.Machine.execGetHpHyst j s
  | .getHpTmax j => Sys2Proof.Machine.execGetHpTmax j s
  | .getHpTmin j => Sys2Proof.Machine.execGetHpTmin j s
  | .getHpState j => Sys2Proof.Machine.execGetHpState j s
  | .getSnsType c => Sys2Proof.Machine.execGetSnsType c s
  | .getSnsUnits c => Sys2Proof.Machine.execGetSnsUnits c s
  | .getSnsTemp c => Sys2Proof.Machine.execGetSnsTemp c s
  | .htrTickDisabled h => Sys2Proof.Machine.execHtrTickDisabled h s
  | .htrTickFixed h => Sys2Proof.Machine.execHtrTickFixed h s
  | .htrTickPid h dt => Sys2Proof.Machine.execHtrTickPid h dt s
  | .htrTickDirect h => Sys2Proof.Machine.execHtrTickDirect h s
  | .hpTickDisabled j => Sys2Proof.Machine.execHpTickDisabled j s
  | .hpTickDirect j => Sys2Proof.Machine.execHpTickDirect j s
  | .hpTickHyst j => Sys2Proof.Machine.execHpTickHyst j s
  | .load => Sys2Proof.Machine.execLoad s
  | .q => Sys2Proof.Machine.execQ s

end Sys2Proof.Machine
end

