-- ==== Sys2Proof/WellFormed.lean ====
section
/-! DEFINITION. The operands the command table admits (30_encoding.md R117 to R120) that the types of
`Instr` do not already hold to their ranges, and the duty on `dt` (10_state.md R48). -/

namespace Sys2Proof

open Sys2Proof.Machine

/-- A `real` argument without a range: any finite binary32 (R117, R120 "unchecked"). -/
def wfReal (x : F32) : Bool := isFinite x

/-- A `real` argument with the range [0, none) (R120). -/
def wfNonNegative (x : F32) : Bool := isFinite x && fle zeroF x

/-- A `real` argument with the range [0, hi] (R120). -/
def wfUpTo (hi x : F32) : Bool := isFinite x && fle zeroF x && fle x hi

/-- `dt` (10_state.md R48): finite and not below 1. -/
def wfDt (dt : F32) : Bool := isFinite dt && fle 0x3F800000 dt

/-- An operation whose operands are inside their ranges, for given limits. -/
def wfInstrWith (lim : Limits) : Instr → Bool
  | .setDacSp _ x => wfReal x
  | .setDacKp _ x => wfReal x
  | .setDacKi _ x => wfReal x
  | .setDacKd _ x => wfReal x
  | .setDacRes _ x => wfNonNegative x
  | .setDacFp _ x => wfUpTo 0x3F800000 x
  | .setDacTmax _ x => wfReal x
  | .setDacTmin _ x => wfReal x
  | .setDacCur _ x => wfUpTo lim.maxCurrent x
  | .setHpSp _ x => wfReal x
  | .setHpHyst _ x => wfNonNegative x
  | .setHpTmax _ x => wfReal x
  | .setHpTmin _ x => wfReal x
  | .htrTickPid _ dt => wfDt dt
  | .setDacMode _ _ | .setDacSns _ _ | .setHpMode _ _ | .setHpSns _ _ | .setHpState _ _
  | .setSnsType _ _ | .setSnsUnits _ _ | .setCommit | .setStopProgram | .setExit
  | .getDacMode _ | .getDacSns _ | .getDacSp _ | .getDacKp _ | .getDacKi _ | .getDacKd _
  | .getDacRes _ | .getDacFp _ | .getDacTmax _ | .getDacTmin _ | .getDacCur _ | .getDacCv _
  | .getDacPwr _ | .getHpMode _ | .getHpSns _ | .getHpSp _ | .getHpHyst _ | .getHpTmax _
  | .getHpTmin _ | .getHpState _ | .getSnsType _ | .getSnsUnits _ | .getSnsTemp _
  | .htrTickDisabled _ | .htrTickFixed _ | .htrTickDirect _
  | .hpTickDisabled _ | .hpTickDirect _ | .hpTickHyst _ | .load | .q => true

/-- An operation of the block whose operands are inside their ranges. -/
def WellFormed (i : Instr) : Bool := wfInstrWith limits i

end Sys2Proof
end

