-- ==== Sys2Proof/Decode.lean ====
section
/-! DEFINITION. The decoder (43_cmd_dispatch.md R230 to R239, 30_encoding.md R113 to R124) and, after
it, the encoder, both from the tables of 30_encoding.md R120, R121 and R123. -/

namespace Sys2Proof

open Sys2Proof.Machine

/-! ### Lines and tokens -/

/-- The bytes stripped at the end of a line (43_cmd_dispatch.md R231). -/
def isSpaceByte (c : Byte) : Bool := (decide (0x09 ≤ c.toNat) && decide (c.toNat ≤ 0x0D)) || c == 0x20

/-- `rstrip` of 43_cmd_dispatch.md R231. -/
def rstrip (line : List Byte) : List Byte := (line.reverse.dropWhile isSpaceByte).reverse

/-- Cuts at every comma, keeps empty tokens, trims nothing (30_encoding.md R115). -/
def splitCommas : List Byte → List (List Byte)
  | [] => [[]]
  | c :: cs =>
    if c = commaByte then [] :: splitCommas cs
    else
      match splitCommas cs with
      | [] => [[c]]
      | t :: ts => (c :: t) :: ts

/-! ### Arguments -/

/-- Kind and range check of one parsed argument (30_encoding.md R118, R119). -/
def inRange (a : ArgSpec) (v : F32) : Bool :=
  (match a.lo with | none => true | some lo => fle lo v) &&
  (match a.hi with | none => true | some hi => fle v hi) &&
  (match a.kind with | .int => isIntegral v | .real => true)

/-- An `int` argument with the range [1, n]: a channel number. -/
def chanSpec (n : Nat) : ArgSpec := ⟨.int, some 0x3F800000, some (natToF32 n)⟩

/-- An `int` argument with the range [0, n]. -/
def codeSpec (n : Nat) : ArgSpec := ⟨.int, some zeroF, some (natToF32 n)⟩

/-- A `real` argument, "unchecked". -/
def anyReal : ArgSpec := ⟨.real, none, none⟩

/-- A `real` argument with the range [0, none). -/
def nonNegative : ArgSpec := ⟨.real, some zeroF, none⟩

/-- A `real` argument with the range [0, hi]. -/
def upTo (hi : F32) : ArgSpec := ⟨.real, some zeroF, some hi⟩

/-- The operand of a checked channel number. -/
def heaterArg (v : F32) : HeaterIx := Fin.ofNat 4 (floorNat v - 1)
def hpArg (v : F32) : HpIx := Fin.ofNat 2 (floorNat v - 1)
def sensorArg (v : F32) : SensorIx := Fin.ofNat 12 (floorNat v - 1)

/-- The operand of a checked sensor assignment, 0 = none. -/
def indexArg (v : F32) : Fin 13 := Fin.ofNat 13 (floorNat v)

/-- The operand of a checked enum code or bit. -/
def heaterModeArg (v : F32) : HeaterMode := heaterModeOf (floorNat v)
def hpModeArg (v : F32) : HpMode := hpModeOf (floorNat v)
def sensorTypeArg (v : F32) : SensorType := sensorTypeOf (floorNat v)
def tempUnitArg (v : F32) : TempUnit := tempUnitOf (floorNat v)
def bitArg (v : F32) : Bool := decide (floorNat v = 1)

/-! ### The command tables -/

/-- The `set` table (30_encoding.md R120). -/
def setTable (lim : Limits) : List Entry := [
  ⟨ascii "dac_mode", .two (chanSpec 4) (codeSpec 3) fun a b => .setDacMode (heaterArg a) (heaterModeArg b)⟩,
  ⟨ascii "dac_sns", .two (chanSpec 4) (codeSpec 12) fun a b => .setDacSns (heaterArg a) (indexArg b)⟩,
  ⟨ascii "dac_sp", .two (chanSpec 4) anyReal fun a b => .setDacSp (heaterArg a) b⟩,
  ⟨ascii "dac_kp", .two (chanSpec 4) anyReal fun a b => .setDacKp (heaterArg a) b⟩,
  ⟨ascii "dac_ki", .two (chanSpec 4) anyReal fun a b => .setDacKi (heaterArg a) b⟩,
  ⟨ascii "dac_kd", .two (chanSpec 4) anyReal fun a b => .setDacKd (heaterArg a) b⟩,
  ⟨ascii "dac_res", .two (chanSpec 4) nonNegative fun a b => .setDacRes (heaterArg a) b⟩,
  ⟨ascii "dac_fp", .two (chanSpec 4) (upTo 0x3F800000) fun a b => .setDacFp (heaterArg a) b⟩,
  ⟨ascii "dac_tmax", .two (chanSpec 4) anyReal fun a b => .setDacTmax (heaterArg a) b⟩,
  ⟨ascii "dac_tmin", .two (chanSpec 4) anyReal fun a b => .setDacTmin (heaterArg a) b⟩,
  ⟨ascii "dac_cur", .two (chanSpec 4) (upTo lim.maxCurrent) fun a b => .setDacCur (heaterArg a) b⟩,
  ⟨ascii "hp_mode", .two (chanSpec 2) (codeSpec 2) fun a b => .setHpMode (hpArg a) (hpModeArg b)⟩,
  ⟨ascii "hp_sns", .two (chanSpec 2) (codeSpec 12) fun a b => .setHpSns (hpArg a) (indexArg b)⟩,
  ⟨ascii "hp_sp", .two (chanSpec 2) anyReal fun a b => .setHpSp (hpArg a) b⟩,
  ⟨ascii "hp_hyst", .two (chanSpec 2) nonNegative fun a b => .setHpHyst (hpArg a) b⟩,
  ⟨ascii "hp_tmax", .two (chanSpec 2) anyReal fun a b => .setHpTmax (hpArg a) b⟩,
  ⟨ascii "hp_tmin", .two (chanSpec 2) anyReal fun a b => .setHpTmin (hpArg a) b⟩,
  ⟨ascii "hp_state", .two (chanSpec 2) (codeSpec 1) fun a b => .setHpState (hpArg a) (bitArg b)⟩,
  ⟨ascii "sns_type", .two (chanSpec 12) (codeSpec 6) fun a b => .setSnsType (sensorArg a) (sensorTypeArg b)⟩,
  ⟨ascii "sns_units", .two (chanSpec 12) (codeSpec 2) fun a b => .setSnsUnits (sensorArg a) (tempUnitArg b)⟩,
  ⟨ascii "commit", .zero .setCommit⟩,
  ⟨ascii "stop_program", .zero .setStopProgram⟩,
  ⟨ascii "exit", .zero .setExit⟩]

/-- The `get` table (30_encoding.md R121). -/
def getTable : List Entry := [
  ⟨ascii "dac_mode", .one (chanSpec 4) fun a => .getDacMode (heaterArg a)⟩,
  ⟨ascii "dac_sns", .one (chanSpec 4) fun a => .getDacSns (heaterArg a)⟩,
  ⟨ascii "dac_sp", .one (chanSpec 4) fun a => .getDacSp (heaterArg a)⟩,
  ⟨ascii "dac_kp", .one (chanSpec 4) fun a => .getDacKp (heaterArg a)⟩,
  ⟨ascii "dac_ki", .one (chanSpec 4) fun a => .getDacKi (heaterArg a)⟩,
  ⟨ascii "dac_kd", .one (chanSpec 4) fun a => .getDacKd (heaterArg a)⟩,
  ⟨ascii "dac_res", .one (chanSpec 4) fun a => .getDacRes (heaterArg a)⟩,
  ⟨ascii "dac_fp", .one (chanSpec 4) fun a => .getDacFp (heaterArg a)⟩,
  ⟨ascii "dac_tmax", .one (chanSpec 4) fun a => .getDacTmax (heaterArg a)⟩,
  ⟨ascii "dac_tmin", .one (chanSpec 4) fun a => .getDacTmin (heaterArg a)⟩,
  ⟨ascii "dac_cur", .one (chanSpec 4) fun a => .getDacCur (heaterArg a)⟩,
  ⟨ascii "dac_cv", .one (chanSpec 4) fun a => .getDacCv (heaterArg a)⟩,
  ⟨ascii "dac_pwr", .one (chanSpec 4) fun a => .getDacPwr (heaterArg a)⟩,
  ⟨ascii "hp_mode", .one (chanSpec 2) fun a => .getHpMode (hpArg a)⟩,
  ⟨ascii "hp_sns", .one (chanSpec 2) fun a => .getHpSns (hpArg a)⟩,
  ⟨ascii "hp_sp", .one (chanSpec 2) fun a => .getHpSp (hpArg a)⟩,
  ⟨ascii "hp_hyst", .one (chanSpec 2) fun a => .getHpHyst (hpArg a)⟩,
  ⟨ascii "hp_tmax", .one (chanSpec 2) fun a => .getHpTmax (hpArg a)⟩,
  ⟨ascii "hp_tmin", .one (chanSpec 2) fun a => .getHpTmin (hpArg a)⟩,
  ⟨ascii "hp_state", .one (chanSpec 2) fun a => .getHpState (hpArg a)⟩,
  ⟨ascii "sns_type", .one (chanSpec 12) fun a => .getSnsType (sensorArg a)⟩,
  ⟨ascii "sns_units", .one (chanSpec 12) fun a => .getSnsUnits (sensorArg a)⟩,
  ⟨ascii "sns_temp", .one (chanSpec 12) fun a => .getSnsTemp (sensorArg a)⟩]

/-- The table a verb selects (30_encoding.md R122, 43_cmd_dispatch.md R235). -/
def tableOf (lim : Limits) (verb : List Byte) : Option (List Entry) :=
  if verb = ascii "set" then some (setTable lim)
  else if verb = ascii "get" then some getTable
  else none

/-- The entry with exactly this name (43_cmd_dispatch.md R236). -/
def lookupEntry (table : List Entry) (name : List Byte) : Option Entry :=
  table.find? fun e => e.name == name

/-! ### The decoder -/

/-- Parses argument `i` (43_cmd_dispatch.md R238). -/
def parseArg (i : Nat) (token : List Byte) : Except Bad F32 :=
  match parseNumber token with
  | some v => .ok v
  | none => .error (.argNotNumber i)

/-- Range-checks argument `i` (43_cmd_dispatch.md R239). -/
def checkArg (i : Nat) (a : ArgSpec) (v : F32) : Except Bad Unit :=
  if inRange a v then .ok () else .error (.argRange i)

/-- The argument count an entry requires (30_encoding.md R116, R120, R121). -/
def argCount : Handler → Nat
  | .zero _ => 0
  | .one _ _ => 1
  | .two _ _ _ => 2

/-- Steps 4 (count), 5 (all arguments parsed) and 6 (then each checked) on the argument tokens, and
the operation they give (43_cmd_dispatch.md R237 to R240). -/
def runHandler : Handler → List (List Byte) → Except Bad Instr
  | .zero i, [] => .ok i
  | .one a f, [t] => do
    let v ← parseArg 1 t
    checkArg 1 a v
    .ok (f v)
  | .two a b f, [t, u] => do
    let v ← parseArg 1 t
    let w ← parseArg 2 u
    checkArg 1 a v
    checkArg 2 b w
    .ok (f v w)
  | handler, _ => .error (.argCount (argCount handler))

/-- Steps 3 and 4 on the tokens after the prefix byte (43_cmd_dispatch.md R234 to R237): the verb,
the name (empty when there is none) and the arguments. -/
def decodeTokens (lim : Limits) : List (List Byte) → Except Bad Instr
  | [] => .error .badVerb
  | verb :: rest =>
    match tableOf lim verb with
    | none => .error .badVerb
    | some table =>
      match lookupEntry table (rest.headD []) with
      | none => .error .unknownCommand
      | some entry => runHandler entry.handler (rest.drop 1)

/-- Steps 1 to 6 on a command line, for given limits (43_cmd_dispatch.md R230). -/
def decodeLineWith (lim : Limits) (line : List Byte) : Except Bad Instr :=
  match rstrip line with
  | [] => .error .emptyLine
  | c :: cs =>
    if c = qByte ∧ cs = [] then .ok .q
    else if c = dollarByte then decodeTokens lim (splitCommas cs)
    else .error .badPrefix

/-- The decoder of the block on a command line. -/
def decodeLine (line : List Byte) : Except Bad Instr := decodeLineWith limits line

/-- The heater tick operation a mode code selects (30_encoding.md R123). -/
def decodeHeaterMode (h : HeaterIx) (dt : F32) (code : Byte) : Except DecodeError Instr :=
  if code = 0 then .ok (.htrTickDisabled h)
  else if code = 1 then .ok (.htrTickFixed h)
  else if code = 2 then .ok (.htrTickPid h dt)
  else if code = 3 then .ok (.htrTickDirect h)
  else .error (.reservedCode code)

/-- The high-power tick operation a mode code selects (30_encoding.md R123). -/
def decodeHpMode (j : HpIx) (code : Byte) : Except DecodeError Instr :=
  if code = 0 then .ok (.hpTickDisabled j)
  else if code = 1 then .ok (.hpTickDirect j)
  else if code = 2 then .ok (.hpTickHyst j)
  else .error (.reservedCode code)

/-- The sequencer operation a phase code selects (30_encoding.md R123): LOAD in phase RESET. -/
def decodePhase (code : Byte) : Except DecodeError Instr :=
  if code = 0 then .ok .load else .error (.reservedCode code)

/-- The decoder, total on every source. -/
def decode : Source → Except DecodeError Instr
  | .wire line => (decodeLine line).mapError .bad
  | .heaterMode h dt code => decodeHeaterMode h dt code
  | .hpMode j code => decodeHpMode j code
  | .phase code => decodePhase code

/-! ### The encoder -/

/-- A structured command line (30_encoding.md R111). -/
def lineOf (verb name : String) (args : List (List Byte)) : List Byte :=
  dollarByte :: (ascii verb ++ commaByte :: (ascii name ++ args.flatMap fun a => commaByte :: a))

/-- The least `dt` (10_state.md R48), for the tick operations that do not read theirs. -/
abbrev leastDt : F32 := 0x3F800000

/-- The source that selects an operation. A `real` operand is written as its exact decimal value. -/
def encode : Instr → Source
  | .setDacMode h n => .wire (lineOf "set" "dac_mode" [natText (h.val + 1), natText (heaterModeCode n).toNat])
  | .setDacSns h n => .wire (lineOf "set" "dac_sns" [natText (h.val + 1), natText n.val])
  | .setDacSp h x => .wire (lineOf "set" "dac_sp" [natText (h.val + 1), exactText x])
  | .setDacKp h x => .wire (lineOf "set" "dac_kp" [natText (h.val + 1), exactText x])
  | .setDacKi h x => .wire (lineOf "set" "dac_ki" [natText (h.val + 1), exactText x])
  | .setDacKd h x => .wire (lineOf "set" "dac_kd" [natText (h.val + 1), exactText x])
  | .setDacRes h x => .wire (lineOf "set" "dac_res" [natText (h.val + 1), exactText x])
  | .setDacFp h x => .wire (lineOf "set" "dac_fp" [natText (h.val + 1), exactText x])
  | .setDacTmax h x => .wire (lineOf "set" "dac_tmax" [natText (h.val + 1), exactText x])
  | .setDacTmin h x => .wire (lineOf "set" "dac_tmin" [natText (h.val + 1), exactText x])
  | .setDacCur h x => .wire (lineOf "set" "dac_cur" [natText (h.val + 1), exactText x])
  | .setHpMode j n => .wire (lineOf "set" "hp_mode" [natText (j.val + 1), natText (hpModeCode n).toNat])
  | .setHpSns j n => .wire (lineOf "set" "hp_sns" [natText (j.val + 1), natText n.val])
  | .setHpSp j x => .wire (lineOf "set" "hp_sp" [natText (j.val + 1), exactText x])
  | .setHpHyst j x => .wire (lineOf "set" "hp_hyst" [natText (j.val + 1), exactText x])
  | .setHpTmax j x => .wire (lineOf "set" "hp_tmax" [natText (j.val + 1), exactText x])
  | .setHpTmin j x => .wire (lineOf "set" "hp_tmin" [natText (j.val + 1), exactText x])
  | .setHpState j n => .wire (lineOf "set" "hp_state" [natText (j.val + 1), natText n.toNat])
  | .setSnsType s n => .wire (lineOf "set" "sns_type" [natText (s.val + 1), natText (sensorTypeCode n).toNat])
  | .setSnsUnits s n => .wire (lineOf "set" "sns_units" [natText (s.val + 1), natText (tempUnitCode n).toNat])
  | .setCommit => .wire (lineOf "set" "commit" [])
  | .setStopProgram => .wire (lineOf "set" "stop_program" [])
  | .setExit => .wire (lineOf "set" "exit" [])
  | .getDacMode h => .wire (lineOf "get" "dac_mode" [natText (h.val + 1)])
  | .getDacSns h => .wire (lineOf "get" "dac_sns" [natText (h.val + 1)])
  | .getDacSp h => .wire (lineOf "get" "dac_sp" [natText (h.val + 1)])
  | .getDacKp h => .wire (lineOf "get" "dac_kp" [natText (h.val + 1)])
  | .getDacKi h => .wire (lineOf "get" "dac_ki" [natText (h.val + 1)])
  | .getDacKd h => .wire (lineOf "get" "dac_kd" [natText (h.val + 1)])
  | .getDacRes h => .wire (lineOf "get" "dac_res" [natText (h.val + 1)])
  | .getDacFp h => .wire (lineOf "get" "dac_fp" [natText (h.val + 1)])
  | .getDacTmax h => .wire (lineOf "get" "dac_tmax" [natText (h.val + 1)])
  | .getDacTmin h => .wire (lineOf "get" "dac_tmin" [natText (h.val + 1)])
  | .getDacCur h => .wire (lineOf "get" "dac_cur" [natText (h.val + 1)])
  | .getDacCv h => .wire (lineOf "get" "dac_cv" [natText (h.val + 1)])
  | .getDacPwr h => .wire (lineOf "get" "dac_pwr" [natText (h.val + 1)])
  | .getHpMode j => .wire (lineOf "get" "hp_mode" [natText (j.val + 1)])
  | .getHpSns j => .wire (lineOf "get" "hp_sns" [natText (j.val + 1)])
  | .getHpSp j => .wire (lineOf "get" "hp_sp" [natText (j.val + 1)])
  | .getHpHyst j => .wire (lineOf "get" "hp_hyst" [natText (j.val + 1)])
  | .getHpTmax j => .wire (lineOf "get" "hp_tmax" [natText (j.val + 1)])
  | .getHpTmin j => .wire (lineOf "get" "hp_tmin" [natText (j.val + 1)])
  | .getHpState j => .wire (lineOf "get" "hp_state" [natText (j.val + 1)])
  | .getSnsType s => .wire (lineOf "get" "sns_type" [natText (s.val + 1)])
  | .getSnsUnits s => .wire (lineOf "get" "sns_units" [natText (s.val + 1)])
  | .getSnsTemp s => .wire (lineOf "get" "sns_temp" [natText (s.val + 1)])
  | .htrTickDisabled h => .heaterMode h leastDt 0
  | .htrTickFixed h => .heaterMode h leastDt 1
  | .htrTickPid h dt => .heaterMode h dt 2
  | .htrTickDirect h => .heaterMode h leastDt 3
  | .hpTickDisabled j => .hpMode j 0
  | .hpTickDirect j => .hpMode j 1
  | .hpTickHyst j => .hpMode j 2
  | .load => .phase 0
  | .q => .wire [qByte]

/-! ### Words of the opcode table -/

/-- The `n` bytes of a number, the least significant first. -/
def wordBytes : Nat → Nat → List Byte
  | 0, _ => []
  | n + 1, w => BitVec.ofNat 8 w :: wordBytes n (w / 256)

/-- The line whose bytes are the number `w`: the first byte the least significant one, unless the
most significant byte is `$`, as in the `match` numbers of the table's wire rows (30_encoding.md
R129), which are written first byte first. No line of a command ends with `$`, so a command line is
read one way only. -/
def wordLine (nbits w : Nat) : List Byte :=
  let bytes := wordBytes (nbits / 8) w
  if bytes.getLast? = some dollarByte then bytes.reverse else bytes

/-- A table word of formats S2 and G1 is only the fixed leading bytes of the line (30_encoding.md
R129); the arguments have no bits in it. A line that lacks all its arguments stands for the one with
channel 1 and a second argument of 0, which every entry admits. DESIGN CHOICE of this adapter alone: on
the wire such a line is `BAD` (43_cmd_dispatch.md R237). Entry 14. -/
def completeLine (line : List Byte) : List Byte :=
  match decodeLine line with
  | .error (.argCount 1) => line ++ ascii ",1"
  | .error (.argCount 2) => line ++ ascii ",1,0"
  | _ => line

/-- The command line of a table word. -/
def tableLine (nbits w : Nat) : List Byte := completeLine (wordLine nbits w)

/-- Where a word of the opcode table is read from. The 8-bit codes 0 to 3 stand for several rows of
the table (the phase and the two mode registers are three selectors): 0 is read as the phase code of
LOAD, 1 to 3 as heater mode codes, on channel 1. Every other word is a command line. Entry 14. -/
def tableSource (nbits w : Nat) : Source :=
  if nbits = 8 ∧ w = 0 then .phase 0
  else if nbits = 8 ∧ w < 4 then .heaterMode 0 leastDt (BitVec.ofNat 8 w)
  else .wire (tableLine nbits w)

/-- The operation the decoder reads from a word numbered as spec/opcode_table.json numbers it. -/
def decodeTableWord (nbits w : Nat) : Option Instr := (decode (tableSource nbits w)).toOption

end Sys2Proof
end

