-- ==== Sys2Proof/Machine/Fetch.lean ====
section
/-! DEFINITION. What the sequencer runs next, in the place of an instruction fetch (10_state.md R31,
30_encoding.md R123, 60_exceptions.md R349), and the handling of the stimuli that run no operation of
the opcode table by themselves. -/

namespace Sys2Proof.Machine

open Sys2Proof

/-- The channels of a Tick in their order (40_heater_control.md R150, 92_eei_decisions.md D42). -/
def allChannels : List Channel :=
  [.heater 0, .heater 1, .heater 2, .heater 3, .highPower 0, .highPower 1]

/-- The selector of a channel at a tick: its mode register (30_encoding.md R123). -/
def State.channelSource (s : State) (dt : F32) : Channel → Source
  | .heater h => .heaterMode h dt (heaterModeCode (s.heater h).mode)
  | .highPower j => .hpMode j (hpModeCode (s.highPower j).mode)

/-- The code of the phase register (10_state.md R31). -/
def phaseCode : Phase → Byte
  | .reset => 0
  | .load => 1
  | .run => 2
  | .halted => 3
  | .fault => 4

/-- The source of the operation that runs next, if one does: LOAD once reset is released
(70_reset_and_hazards.md R370); in RUN the next channel of the Tick in progress, else a command line
that is presented (43_cmd_dispatch.md R230). Other phases run nothing (60_exceptions.md R358). -/
def State.fetch (s : State) : Option Source :=
  match s.phase with
  | .reset => if s.resetAsserted then none else some (.phase (phaseCode s.phase))
  | .run =>
    match s.tick with
    | some { dt := dt, todo := c :: _ } => some (s.channelSource dt c)
    | _ =>
      match s.inbox with
      | .command _ line :: _ => some (.wire line)
      | _ => none
  | _ => none

/-- The state in which the fetched operation runs: the channel is taken off the Tick in progress, or
the command off the environment's list, its connection kept for the response. -/
def State.accept (s : State) : Source → State
  | .wire _ =>
    match s.inbox with
    | .command conn _ :: rest => { s with conn := conn, inbox := rest }
    | _ => s
  | .heaterMode _ _ _ | .hpMode _ _ =>
    match s.tick with
    | some { dt := dt, todo := _ :: cs } => { s with tick := some { dt := dt, todo := cs } }
    | _ => s
  | .phase _ => s

/-- After an operation: a Tick with no channel left is over, and the telemetry view is sampled
(10_state.md R45). -/
def State.settle (s : State) : State :=
  match s.tick with
  | some { dt := _, todo := [] } => { s with tick := none, telemetry := some s.telemetryView }
  | _ => s

/-- The duty of the environment at a tick strobe (10_state.md R47, R48). Entry 15. -/
def lawfulStrobe (dt : F32) (samp : Vector OptF32 12) : Bool :=
  wfDt dt && samp.toList.all lawfulSample

/-- The start of a Tick: all twelve samples are stored, then the six channels are to run
(40_heater_control.md R150, 10_state.md R47). -/
def State.startTick (s : State) (dt : F32) (samp : Vector OptF32 12) : State :=
  { s with
    sns := Vector.ofFn fun n => { s.sensor n with temp := resolveSample (s.sensor n).type samp[n] }
    tick := some { dt := dt, todo := allChannels } }

/-- A stimulus when no operation is fetched. A strobe or a command presented outside RUN is not
consumed by the block: it changes nothing (60_exceptions.md R353, R358), and the environment has
presented it. Entry 7. -/
def State.stimulate (s : State) : Host.Outcome State Fault Refusal :=
  match s.inbox with
  | [] => .next s
  | .reset :: rest => .next { s with inbox := rest }.applyReset
  | .release :: rest => .next { s with inbox := rest, resetAsserted := false }
  | .resetAfter k :: rest => .next { s with inbox := rest, cut := some k }
  | .command _ _ :: rest => .next { s with inbox := rest }
  | .tick dt samp :: rest =>
    if s.phase = .run then
      if lawfulStrobe dt samp then .next ({ s with inbox := rest }.startTick dt samp)
      else .refused .tickDuty
    else .next { s with inbox := rest }

/-- What a source that decodes to no operation does: a line answers `BAD,<reason>` and changes nothing
else (00_scope.md R18, 43_cmd_dispatch.md R242); a reserved selector code has no operation. -/
def State.reject (s : State) : DecodeError → Host.Outcome State Fault Refusal
  | .bad r => .next (s.respond (.bad r))
  | .reservedCode code => .refused (.reservedSelector code)

/-- The state in which a source is what the sequencer runs next. -/
def State.place (s : State) : Source → State
  | .wire line =>
    { s with phase := .run, tick := none, cut := none, inbox := .command s.conn line :: s.inbox }
  | .heaterMode h dt code =>
    { s.setHeater h { s.heater h with mode := heaterModeOf code.toNat } with
      phase := .run, tick := some { dt := dt, todo := [.heater h] }, cut := none }
  | .hpMode j code =>
    { s.setHighPower j { s.highPower j with mode := hpModeOf code.toNat } with
      phase := .run, tick := some { dt := leastDt, todo := [.highPower j] }, cut := none }
  | .phase _ => { s with phase := .reset, resetAsserted := false, cut := none }

end Sys2Proof.Machine
end

