-- ==== Sys2Proof/Machine/Step.lean ====
section
/-! DEFINITION. One step of the block: the operation the sequencer runs next, or one stimulus of the
environment, or nothing; then a reset that falls inside it. -/

namespace Sys2Proof.Machine

open Sys2Proof

/-- What runs in a step, before a reset inside it is looked at. -/
def State.stepWhole (s : State) : Host.Outcome State Fault Refusal :=
  match s.fetch with
  | none => s.stimulate
  | some src =>
    match decode src with
    | .ok i => onNext (exec i (s.accept src)) State.settle
    | .error e => (s.accept src).reject e

/-- One step. Operations are atomic (00_scope.md R8) but for a reset, which may fall inside one
(70_reset_and_hazards.md R370). -/
def step (s : State) : Host.Outcome State Fault Refusal := onNext s.stepWhole s.strike

/-- `s` with the operation of an opcode-table word as the very next one to run: the phase, and the
mode register and the Tick in progress or the command line that select it. Entries 6, 14. -/
def State.withFetchWord (s : State) (nbits w : Nat) : State := s.place (tableSource nbits w)

end Sys2Proof.Machine
end

