-- ==== Sys2Proof/Safety.lean ====
section
/-! DEFINITION. The terms claims about the block are stated in: its registers by name, what an
operation leaves unchanged, what the output devices hold, and the invariants of a run. -/

namespace Sys2Proof.Machine

open Sys2Proof

/-! ### Binary32 (00_scope.md R11, R12) -/

/-- The number a finite pattern stands for. -/
def valueOf (x : F32) : ℚ := intUnits x / 2 ^ 149

/-- `r` is the number `v` rounded once to binary32 (00_scope.md R12): from 2^128 - 2^103 on the infinity
with the sign of `v`; else a finite number with the sign of `v` to which no other is nearer, the even
pattern of two that are as near. -/
def RoundsTo (v : ℝ) (r : F32) : Prop :=
  (v ≠ 0 → (isNeg r = true ↔ v < 0)) ∧
    (2 ^ 128 - 2 ^ 103 ≤ |v| → isInf r = true) ∧
    (|v| < 2 ^ 128 - 2 ^ 103 → isFinite r = true ∧
      ∀ y, isFinite y = true → valueOf y ≠ valueOf r →
        |(valueOf r : ℝ) - v| < |(valueOf y : ℝ) - v| ∨
          (|(valueOf r : ℝ) - v| = |(valueOf y : ℝ) - v| ∧ magBits r % 2 = 0))

/-- The four operations on finite operands: the exact result rounded once, with the sign IEEE-754 gives a
zero; a division by zero gives the infinity, zero by zero and the root of a negative number a NaN
(00_scope.md R12). -/
def FiniteArithmetic (a b : F32) : Prop :=
  RoundsTo (valueOf a + valueOf b) (fadd a b) ∧
    (valueOf a + valueOf b = 0 → isNeg (fadd a b) = (isNeg a && isNeg b)) ∧
  RoundsTo (valueOf a - valueOf b) (fsub a b) ∧
    (valueOf a - valueOf b = 0 → isNeg (fsub a b) = (isNeg a && !isNeg b)) ∧
  RoundsTo (valueOf a * valueOf b) (fmul a b) ∧ isNeg (fmul a b) = (isNeg a != isNeg b) ∧
  (valueOf b ≠ 0 → RoundsTo (valueOf a / valueOf b) (fdiv a b) ∧ isNeg (fdiv a b) = (isNeg a != isNeg b)) ∧
  (valueOf b = 0 → valueOf a ≠ 0 → isInf (fdiv a b) = true ∧ isNeg (fdiv a b) = (isNeg a != isNeg b)) ∧
  (valueOf b = 0 → valueOf a = 0 → isNaN (fdiv a b) = true) ∧
  (0 < valueOf a → RoundsTo (Real.sqrt (valueOf a)) (fsqrt a)) ∧
  (valueOf a = 0 → fsqrt a = a) ∧
  (valueOf a < 0 → isNaN (fsqrt a) = true)

/-- The four operations where an operand is an infinity or a NaN: the IEEE-754 default results
(00_scope.md R12). -/
def DefaultArithmetic (a b : F32) : Prop :=
  (isNaN a = true ∨ isNaN b = true →
    isNaN (fadd a b) = true ∧ isNaN (fsub a b) = true ∧ isNaN (fmul a b) = true ∧ isNaN (fdiv a b) = true) ∧
  (isNaN a = true → isNaN (fsqrt a) = true) ∧
  (isInf a = true → isInf b = true →
    (if isNeg a = isNeg b then fadd a b = a ∧ isNaN (fsub a b) = true
      else isNaN (fadd a b) = true ∧ fsub a b = a) ∧
    isInf (fmul a b) = true ∧ isNeg (fmul a b) = (isNeg a != isNeg b) ∧ isNaN (fdiv a b) = true) ∧
  (isInf a = true → isFinite b = true →
    fadd a b = a ∧ fadd b a = a ∧ fsub a b = a ∧ fsub b a = fneg a ∧
    (if valueOf b = 0 then isNaN (fmul a b) = true ∧ isNaN (fmul b a) = true
      else isInf (fmul a b) = true ∧ isNeg (fmul a b) = (isNeg a != isNeg b) ∧
        isInf (fmul b a) = true ∧ isNeg (fmul b a) = (isNeg a != isNeg b)) ∧
    isInf (fdiv a b) = true ∧ isNeg (fdiv a b) = (isNeg a != isNeg b) ∧
    valueOf (fdiv b a) = 0 ∧ isFinite (fdiv b a) = true ∧ isNeg (fdiv b a) = (isNeg a != isNeg b)) ∧
  (isInf a = true → if isNeg a then isNaN (fsqrt a) = true else fsqrt a = a)

/-- The comparisons are those of the numbers, `-0` equal to `+0`; the infinities lie outside all numbers, and
nothing compares with a NaN (00_scope.md R13). -/
def ComparesAsNumbers (a b : F32) : Prop :=
  (isFinite a = true → isFinite b = true →
    (flt a b = true ↔ valueOf a < valueOf b) ∧ (fle a b = true ↔ valueOf a ≤ valueOf b) ∧
      (feq a b = true ↔ valueOf a = valueOf b)) ∧
  (isFinite a = true → isInf b = true →
    flt a b = !isNeg b ∧ fle a b = !isNeg b ∧ feq a b = false ∧
      flt b a = isNeg b ∧ fle b a = isNeg b ∧ feq b a = false) ∧
  (isInf a = true → isInf b = true →
    flt a b = (isNeg a && !isNeg b) ∧ fle a b = (isNeg a || !isNeg b) ∧ feq a b = (isNeg a == isNeg b)) ∧
  (isNaN a = true ∨ isNaN b = true → flt a b = false ∧ fle a b = false ∧ feq a b = false)

/-- `fmin`, `pos` and `clamp` in the terms of the numbers (00_scope.md R13). -/
def SelectsAsNumbers (x lo hi : F32) : Prop :=
  (isFinite x = true → isFinite hi = true → valueOf (fmin x hi) = min (valueOf x) (valueOf hi)) ∧
  (isInf x = true → isNeg x = false → isFinite hi = true → fmin x hi = hi) ∧
  (isFinite x = true → valueOf (pos x) = max (valueOf x) 0) ∧ isNeg (pos x) = false ∧
  (isNaN x = true → pos x = zeroF) ∧
  (isFinite lo = true → isFinite hi = true → valueOf lo ≤ valueOf hi →
    (isFinite x = true → valueOf (clamp x lo hi) = max (valueOf lo) (min (valueOf x) (valueOf hi))) ∧
      (isNaN x = true → clamp x lo hi = lo) ∧
      (isInf x = true → clamp x lo hi = if isNeg x then lo else hi))

/-- `toK` of each unit, its literals rounded to binary32 (00_scope.md R12, R20). -/
def KelvinConversion : Prop :=
  (∀ t, toK t .kelvin = t) ∧
    (∃ c, RoundsTo (27315 / 100) c ∧ ∀ t, toK t .celsius = fadd t c ∧
      toK t .fahrenheit = fadd (fdiv (fmul (fsub t 0x42000000) 0x40A00000) 0x41100000) c) ∧
    valueOf 0x42000000 = 32 ∧ valueOf 0x40A00000 = 5 ∧ valueOf 0x41100000 = 9

/-! ### Numbers of a command line (30_encoding.md R117) -/

/-- The exponent of a number: its letter `E` or `e`, its sign, if any (`true` for `-`), its digits. -/
structure DecimalExponent where
  capital : Bool
  sign : Option Bool
  digits : List (Fin 10)
  deriving DecidableEq, Repr

/-- A number as the grammar builds it: the sign, if any (`true` for `-`), the digits before the point, those
after it, if there is a point, and the exponent, if any. -/
structure Decimal where
  sign : Option Bool
  whole : List (Fin 10)
  fraction : Option (List (Fin 10))
  exponent : Option DecimalExponent
  deriving DecidableEq, Repr

/-- The mantissa has a digit, before or after the point, and so has the exponent, if there is one. -/
def Decimal.Lawful (d : Decimal) : Prop :=
  (d.whole ≠ [] ∨ d.fraction.getD [] ≠ []) ∧ ∀ x, d.exponent = some x → x.digits ≠ []

def signText : Option Bool → List Byte
  | none => []
  | some false => ascii "+"
  | some true => ascii "-"

def digitsText (ds : List (Fin 10)) : List Byte := ds.map fun d => BitVec.ofNat 8 (0x30 + d.val)

/-- The token a number is written as. -/
def Decimal.text (d : Decimal) : List Byte :=
  signText d.sign ++ digitsText d.whole ++
    (match d.fraction with
      | none => []
      | some ds => ascii "." ++ digitsText ds) ++
    match d.exponent with
    | none => []
    | some x => (if x.capital then ascii "E" else ascii "e") ++ signText x.sign ++ digitsText x.digits

/-- The whole number a string of digits denotes. -/
def digitsNumber (ds : List (Fin 10)) : Nat := ds.foldl (fun n d => 10 * n + d.val) 0

def Decimal.isNegative (d : Decimal) : Bool := d.sign.getD false

/-- The power of ten of the exponent. -/
def Decimal.power (d : Decimal) : Int :=
  match d.exponent with
  | none => 0
  | some x => if x.sign.getD false then -(digitsNumber x.digits : Int) else digitsNumber x.digits

/-- The exact decimal value of a number. -/
def Decimal.value (d : Decimal) : ℚ :=
  (if d.isNegative then -1 else 1) *
    (digitsNumber d.whole + digitsNumber (d.fraction.getD []) / 10 ^ (d.fraction.getD []).length) * 10 ^ d.power

/-! ### Commands by name (30_encoding.md R120, R121) -/

/-- An argument of a command: a whole number (a channel, an index, a code or a bit) or a pattern. -/
inductive Operand where
  | int (n : Nat)
  | real (x : F32)
  deriving DecidableEq, Repr

/-- The parsed argument `v` is this operand: that whole number exactly, or that pattern (30_encoding.md
R118). -/
def Operand.Is : Operand → F32 → Prop
  | .int n, v => valueOf v = n
  | .real x, v => v = x

/-- The verb, the name and the arguments of a command, as the tables give them; channel and sensor numbers
start at 1. The ranges of the whole numbers are those of the operand types. -/
def commandOf : Instr → Option (String × String × List Operand)
  | .setDacMode h n => some ("set", "dac_mode", [.int (h.val + 1), .int (heaterModeCode n).toNat])
  | .setDacSns h n => some ("set", "dac_sns", [.int (h.val + 1), .int n.val])
  | .setDacSp h x => some ("set", "dac_sp", [.int (h.val + 1), .real x])
  | .setDacKp h x => some ("set", "dac_kp", [.int (h.val + 1), .real x])
  | .setDacKi h x => some ("set", "dac_ki", [.int (h.val + 1), .real x])
  | .setDacKd h x => some ("set", "dac_kd", [.int (h.val + 1), .real x])
  | .setDacRes h x => some ("set", "dac_res", [.int (h.val + 1), .real x])
  | .setDacFp h x => some ("set", "dac_fp", [.int (h.val + 1), .real x])
  | .setDacTmax h x => some ("set", "dac_tmax", [.int (h.val + 1), .real x])
  | .setDacTmin h x => some ("set", "dac_tmin", [.int (h.val + 1), .real x])
  | .setDacCur h x => some ("set", "dac_cur", [.int (h.val + 1), .real x])
  | .setHpMode h n => some ("set", "hp_mode", [.int (h.val + 1), .int (hpModeCode n).toNat])
  | .setHpSns h n => some ("set", "hp_sns", [.int (h.val + 1), .int n.val])
  | .setHpSp h x => some ("set", "hp_sp", [.int (h.val + 1), .real x])
  | .setHpHyst h x => some ("set", "hp_hyst", [.int (h.val + 1), .real x])
  | .setHpTmax h x => some ("set", "hp_tmax", [.int (h.val + 1), .real x])
  | .setHpTmin h x => some ("set", "hp_tmin", [.int (h.val + 1), .real x])
  | .setHpState h b => some ("set", "hp_state", [.int (h.val + 1), .int b.toNat])
  | .setSnsType h n => some ("set", "sns_type", [.int (h.val + 1), .int (sensorTypeCode n).toNat])
  | .setSnsUnits h n => some ("set", "sns_units", [.int (h.val + 1), .int (tempUnitCode n).toNat])
  | .setCommit => some ("set", "commit", [])
  | .setStopProgram => some ("set", "stop_program", [])
  | .setExit => some ("set", "exit", [])
  | .getDacMode h => some ("get", "dac_mode", [.int (h.val + 1)])
  | .getDacSns h => some ("get", "dac_sns", [.int (h.val + 1)])
  | .getDacSp h => some ("get", "dac_sp", [.int (h.val + 1)])
  | .getDacKp h => some ("get", "dac_kp", [.int (h.val + 1)])
  | .getDacKi h => some ("get", "dac_ki", [.int (h.val + 1)])
  | .getDacKd h => some ("get", "dac_kd", [.int (h.val + 1)])
  | .getDacRes h => some ("get", "dac_res", [.int (h.val + 1)])
  | .getDacFp h => some ("get", "dac_fp", [.int (h.val + 1)])
  | .getDacTmax h => some ("get", "dac_tmax", [.int (h.val + 1)])
  | .getDacTmin h => some ("get", "dac_tmin", [.int (h.val + 1)])
  | .getDacCur h => some ("get", "dac_cur", [.int (h.val + 1)])
  | .getDacCv h => some ("get", "dac_cv", [.int (h.val + 1)])
  | .getDacPwr h => some ("get", "dac_pwr", [.int (h.val + 1)])
  | .getHpMode h => some ("get", "hp_mode", [.int (h.val + 1)])
  | .getHpSns h => some ("get", "hp_sns", [.int (h.val + 1)])
  | .getHpSp h => some ("get", "hp_sp", [.int (h.val + 1)])
  | .getHpHyst h => some ("get", "hp_hyst", [.int (h.val + 1)])
  | .getHpTmax h => some ("get", "hp_tmax", [.int (h.val + 1)])
  | .getHpTmin h => some ("get", "hp_tmin", [.int (h.val + 1)])
  | .getHpState h => some ("get", "hp_state", [.int (h.val + 1)])
  | .getSnsType h => some ("get", "sns_type", [.int (h.val + 1)])
  | .getSnsUnits h => some ("get", "sns_units", [.int (h.val + 1)])
  | .getSnsTemp h => some ("get", "sns_temp", [.int (h.val + 1)])
  | .htrTickDisabled _ | .htrTickFixed _ | .htrTickPid _ _ | .htrTickDirect _
  | .hpTickDisabled _ | .hpTickDirect _ | .hpTickHyst _ | .load | .q => none

/-- The bytes stripped at the end of a line (43_cmd_dispatch.md R231). -/
def whitespace : List Byte := [0x09, 0x0A, 0x0B, 0x0C, 0x0D, 0x20]

/-- The line is the written form of the operation: its tokens are the verb, the name and texts of the
arguments, which are in range (30_encoding.md R113 to R122). -/
def Spells (line : List Byte) (i : Instr) : Prop :=
  ∃ verb name operands cs args vs, commandOf i = some (verb, name, operands) ∧ WellFormed i = true ∧
    rstrip line = 0x24 :: cs ∧ splitCommas cs = ascii verb :: ascii name :: args ∧
    args.map parseNumber = vs.map some ∧ List.Forall₂ Operand.Is operands vs

/-! ### Registers by name (00_scope.md R15) -/

/-- The registers of a heater channel (10_state.md R32, R33, R43). -/
inductive HeaterReg where
  | mode | sns | sp | kp | ki | kd | res | fp | tmax | tmin
  | it | eprev | curCmd | cv | pwr | code | dac (k : SubIx)
  deriving DecidableEq, Repr

/-- The registers of a high-power channel (10_state.md R36, R37). -/
inductive HpReg where
  | mode | sns | sp | hyst | tmax | tmin | cmd | state
  deriving DecidableEq, Repr

/-- The registers of a sensor channel (10_state.md R39). -/
inductive SensorReg where
  | type | units | temp
  deriving DecidableEq, Repr

/-- Every register of the block (10_state.md R30). -/
inductive Reg where
  | phase
  | heater (h : HeaterIx) (r : HeaterReg)
  | highPower (j : HpIx) (r : HpReg)
  | sensor (n : SensorIx) (r : SensorReg)
  deriving DecidableEq, Repr

/-- The content of a register. -/
inductive RegVal where
  | phase (p : Phase)
  | heaterMode (m : HeaterMode)
  | hpMode (m : HpMode)
  | sensorType (t : SensorType)
  | unit (u : TempUnit)
  | byte (b : Byte)
  | bit (b : Bool)
  | real (x : F32)
  | opt (x : OptF32)
  | code (c : BitVec 19)
  | sub (c : BitVec 16)
  deriving DecidableEq, Repr

def readHeaterReg (c : Heater) : HeaterReg → RegVal
  | .mode => .heaterMode c.mode
  | .sns => .byte c.sns
  | .sp => .real c.sp
  | .kp => .real c.kp
  | .ki => .real c.ki
  | .kd => .real c.kd
  | .res => .real c.res
  | .fp => .real c.fp
  | .tmax => .real c.tmax
  | .tmin => .real c.tmin
  | .it => .real c.it
  | .eprev => .real c.eprev
  | .curCmd => .real c.curCmd
  | .cv => .real c.cv
  | .pwr => .real c.pwr
  | .code => .code c.code
  | .dac k => .sub c.dac[k]

def readHpReg (c : HighPower) : HpReg → RegVal
  | .mode => .hpMode c.mode
  | .sns => .byte c.sns
  | .sp => .real c.sp
  | .hyst => .real c.hyst
  | .tmax => .real c.tmax
  | .tmin => .real c.tmin
  | .cmd => .bit c.cmd
  | .state => .bit c.state

def readSensorReg (c : Sensor) : SensorReg → RegVal
  | .type => .sensorType c.type
  | .units => .unit c.units
  | .temp => .opt c.temp

/-- The content of a register in a state. -/
def State.readReg (s : State) : Reg → RegVal
  | .phase => .phase s.phase
  | .heater h r => readHeaterReg (s.heater h) r
  | .highPower j r => readHpReg (s.highPower j) r
  | .sensor n r => readSensorReg (s.sensor n) r

/-! ### What stays -/

/-- Every byte of the store reads as before. -/
def StoreKept (s t : State) : Prop := ∀ a, t.nvm.read a = s.nvm.read a

/-- Nothing of the environment and of the telemetry view has changed. -/
def EdgeKept (s t : State) : Prop :=
  t.telemetry = s.telemetry ∧ t.conn = s.conn ∧ t.tick = s.tick ∧ t.inbox = s.inbox ∧
    t.resetAsserted = s.resetAsserted ∧ t.cut = s.cut ∧ t.markerMisses = s.markerMisses

/-- Every register outside `rs` reads as before. -/
def RegsKept (rs : List Reg) (s t : State) : Prop := ∀ r, r ∉ rs → t.readReg r = s.readReg r

/-- From `s` to `t` only the registers `rs` may have changed, no store byte has, and exactly the
actions `as` were emitted. -/
def Changes (rs : List Reg) (as : List Action) (s t : State) : Prop :=
  RegsKept rs s t ∧ StoreKept s t ∧ EdgeKept s t ∧ t.log = s.log ++ as

/-- The output registers of a heater channel (10_state.md R43). -/
def outputRegs (h : HeaterIx) : List Reg :=
  [.heater h .code, .heater h (.dac 0), .heater h (.dac 1), .heater h (.dac 2), .heater h (.dac 3)]

/-- The registers a heater tick may write (40_heater_control.md R167). -/
def heaterTickRegs (h : HeaterIx) : List Reg :=
  [.heater h .it, .heater h .eprev, .heater h .pwr, .heater h .cv] ++ outputRegs h

/-! ### Configuration registers -/

/-- The configuration registers of two heater channels agree (10_state.md R32). -/
def SameHeaterConfig (c d : Heater) : Prop :=
  d.mode = c.mode ∧ d.sns = c.sns ∧ d.sp = c.sp ∧ d.kp = c.kp ∧ d.ki = c.ki ∧ d.kd = c.kd ∧
    d.res = c.res ∧ d.fp = c.fp ∧ d.tmax = c.tmax ∧ d.tmin = c.tmin

/-- The configuration registers of two high-power channels agree (10_state.md R36). -/
def SameHpConfig (c d : HighPower) : Prop :=
  d.mode = c.mode ∧ d.sns = c.sns ∧ d.sp = c.sp ∧ d.hyst = c.hyst ∧ d.tmax = c.tmax ∧ d.tmin = c.tmin

/-- The configuration registers of two sensor channels agree (10_state.md R39). -/
def SameSensorConfig (c d : Sensor) : Prop := d.type = c.type ∧ d.units = c.units

/-- Every configuration register of the block agrees. -/
def SameConfig (s t : State) : Prop :=
  (∀ h, SameHeaterConfig (s.heater h) (t.heater h)) ∧
    (∀ j, SameHpConfig (s.highPower j) (t.highPower j)) ∧
    ∀ n, SameSensorConfig (s.sensor n) (t.sensor n)

/-! ### Outputs -/

/-- Every heater output is zero and every actuator off (10_state.md R53). -/
def OutputsOff (s : State) : Prop :=
  (∀ h, (s.heater h).cv = zeroF ∧ (s.heater h).code = 0 ∧ ∀ k : SubIx, (s.heater h).dac[k] = 0) ∧
    ∀ j, (s.highPower j).state = false

/-- What a sub-channel of an output device that held `held` holds after some actions
(41_dac_distribution.md R195). -/
def heldDac (h : HeaterIx) (k : SubIx) (held : Option (BitVec 16)) (as : List Action) : Option (BitVec 16) :=
  as.foldl (fun held a =>
    match a with
    | .dacWrite h' k' c => if h' = h ∧ k' = k then some c else held
    | _ => held) held

/-- What an actuator that was driven to `held` is driven to after some actions (10_state.md R44). -/
def heldHp (j : HpIx) (held : Option Bool) (as : List Action) : Option Bool :=
  as.foldl (fun held a =>
    match a with
    | .hp j' b => if j' = j then some b else held
    | _ => held) held

/-- What a sub-channel of an output device holds after all the actions. -/
def lastDac (h : HeaterIx) (k : SubIx) (log : List Action) : Option (BitVec 16) := heldDac h k none log

/-- What an actuator is driven to after all the actions. -/
def lastHp (j : HpIx) (log : List Action) : Option Bool := heldHp j none log

/-! ### Invariants -/

/-- The store is in its canonical form. -/
def StoreCanonical (s : State) : Prop := s.nvm.wf = true

/-- The output devices hold what the output registers say (10_state.md R43, R44). -/
def DevicesMatch (s : State) : Prop :=
  (∀ h k, lastDac h k s.log = some (s.heater h).dac[k]) ∧
    ∀ j, lastHp j s.log = some (s.highPower j).state

/-- Outside phase RUN all outputs are off (10_state.md R53). -/
def OffOutsideRun (s : State) : Prop := s.phase ≠ .run → OutputsOff s

/-- In RUN the store is stamped: the marker holds `SENTINEL` (20_memory.md R88,
70_reset_and_hazards.md R371). -/
def MarkerInRun (s : State) : Prop := s.phase = .run → s.nvm.read Config.markerAddr = Config.sentinel

/-- A finite number that is not negative. -/
def finiteNonNegative (x : F32) : Bool := isFinite x && fle zeroF x

/-- A finite number from 0 to `MAX_CURRENT` (30_encoding.md R120). -/
def currentLegal (x : F32) : Bool := finiteNonNegative x && fle x limits.maxCurrent

/-- A heater channel whose registers are inside the ranges the rules keep them in: the assignment
(10_state.md R32), the accumulator finite and not negative (40_heater_control.md R162, R164), the
commanded current and the current from 0 to `MAX_CURRENT` (44_cmd_set.md R271, 40_heater_control.md R154,
R156), the code at most 2^18 and distributed (41_dac_distribution.md R190, R191). -/
def HeaterLegal (c : Heater) : Prop :=
  c.sns.toNat ≤ 12 ∧ finiteNonNegative c.it = true ∧ currentLegal c.curCmd = true ∧
    currentLegal c.cv = true ∧ c.code.toNat ≤ Config.codeScale ∧ c.dac = subCodes c.code.toNat

/-- Every register is inside the range the rules keep it in. -/
def RegistersLegal (s : State) : Prop :=
  (∀ h, HeaterLegal (s.heater h)) ∧ ∀ j, (s.highPower j).sns.toNat ≤ 12

/-- Every number a sensor holds and the `dt` of a Tick in progress are lawful (10_state.md R47, R48). -/
def InputsLawful (s : State) : Prop :=
  (∀ n, lawfulSample (s.sensor n).temp = true) ∧ ∀ job, s.tick = some job → wfDt job.dt = true

/-! ### What an operation does -/

/-- The operation runs, register `r` then reads `v`, no other register and no store byte has changed,
and the only action is the answer `OK` (44_cmd_set.md R260). -/
def SetsOnly (i : Instr) (r : Reg) (v : RegVal) (s : State) : Prop :=
  ∃ t, exec i s = .next t ∧ t.readReg r = v ∧ Changes [r] [.resp s.conn .ok] s t

/-- The operation runs, nothing has changed, and the only action is the answer `OK,<key>=<v>`
(45_cmd_get.md R300). -/
def Answers (i : Instr) (key : String) (v : Value) (s : State) : Prop :=
  ∃ t, exec i s = .next t ∧ Changes [] [.resp s.conn (.value (ascii key) v)] s t

/-- The four writes that put a channel's sub-channel registers on its output device, in rising k
(41_dac_distribution.md R194). -/
def outputActions (h : HeaterIx) (c : Heater) : List Action :=
  [.dacWrite h 0 c.dac[0], .dacWrite h 1 c.dac[1], .dacWrite h 2 c.dac[2], .dacWrite h 3 c.dac[3]]

/-- The output registers hold a code and its distribution, in the closed form of
41_dac_distribution.md R192 (e). -/
def OutputIs (c : Heater) (code : Nat) : Prop :=
  c.code.toNat = code ∧ ∀ k : SubIx, c.dac[k].toNat = min (code - 65535 * k.val) 65535

/-- The operation runs and leaves heater channel `h` with these runtime registers and this code on its
output; only the registers a heater tick may write have changed, and the only actions are the four
writes of the output (40_heater_control.md R167). -/
def HeaterTickGives (i : Instr) (h : HeaterIx) (it eprev pwr cv : F32) (code : Nat) (s : State) : Prop :=
  ∃ t, exec i s = .next t ∧ (t.heater h).it = it ∧ (t.heater h).eprev = eprev ∧
    (t.heater h).pwr = pwr ∧ (t.heater h).cv = cv ∧ OutputIs (t.heater h) code ∧
    Changes (heaterTickRegs h) (outputActions h (t.heater h)) s t

/-- The operation runs and leaves the actuator of channel `j` at `b`; nothing else has changed, and the
only action is the drive of the actuator (42_highpower_control.md R210). -/
def HpTickGives (i : Instr) (j : HpIx) (b : Bool) (s : State) : Prop :=
  ∃ t, exec i s = .next t ∧ (t.highPower j).state = b ∧
    Changes [.highPower j .state] [.hp j b] s t

/-! ### Samples and guards -/

/-- The assignment names sensor `n`, which is typed and holds the sample `pv` (10_state.md R47). -/
def HasSample (s : State) (sns : Byte) (n : SensorIx) (pv : F32) : Prop :=
  sns.toNat = n.val + 1 ∧ (s.sensor n).type ≠ .unset ∧ (s.sensor n).temp = some pv

/-- The assignment gives no sample: no sensor, an untyped one, or one whose sample is `NA`
(10_state.md R47, 40_heater_control.md R152). -/
def NoSample (s : State) (sns : Byte) : Prop :=
  sns.toNat = 0 ∨ 12 < sns.toNat ∨
    ∃ n : SensorIx, sns.toNat = n.val + 1 ∧ ((s.sensor n).type = .unset ∨ (s.sensor n).temp = none)

/-- The guards of heater channel `h` hold with the sample `pv` of sensor `n` and the limit `mc`
(40_heater_control.md R151, R154). -/
def HeaterReady (s : State) (h : HeaterIx) (n : SensorIx) (pv mc : F32) : Prop :=
  HasSample s (s.heater h).sns n pv ∧ flt zeroF (s.heater h).res = true ∧
    isFinite (s.heater h).res = true ∧
    mc = fmin (fdiv limits.maxVoltage (s.heater h).res) limits.maxCurrent ∧ flt zeroF mc = true

/-- A guard of heater channel `h` fails (40_heater_control.md R152). -/
def HeaterGuardFails (s : State) (h : HeaterIx) : Prop :=
  NoSample s (s.heater h).sns ∨ flt zeroF (s.heater h).res = false ∨ isFinite (s.heater h).res = false ∨
    flt zeroF (fmin (fdiv limits.maxVoltage (s.heater h).res) limits.maxCurrent) = false

/-- The sample is inside the bounds, both ends included (40_heater_control.md R159,
42_highpower_control.md R215). -/
def Inside (tmin pv tmax : F32) : Prop := fle tmin pv = true ∧ fle pv tmax = true

/-! ### The store, field by field (20_memory.md R84 to R87) -/

/-- The 4-byte field at an address, the most significant byte first (20_memory.md R71, R74). -/
def storeF32 (m : Memory) (a : Nat) : F32 := m.read a ++ m.read (a + 1) ++ m.read (a + 2) ++ m.read (a + 3)

/-- Heater slot `h` of the store holds these configuration registers (20_memory.md R84, R85). -/
def HeaterInStore (m : Memory) (h : HeaterIx) (c : Heater) : Prop :=
  m.read (34 * h.val) = heaterModeCode c.mode ∧ m.read (34 * h.val + 1) = c.sns ∧
    storeF32 m (34 * h.val + 2) = c.sp ∧ storeF32 m (34 * h.val + 6) = c.kp ∧
    storeF32 m (34 * h.val + 10) = c.ki ∧ storeF32 m (34 * h.val + 14) = c.kd ∧
    storeF32 m (34 * h.val + 18) = c.res ∧ storeF32 m (34 * h.val + 22) = c.fp ∧
    storeF32 m (34 * h.val + 26) = c.tmax ∧ storeF32 m (34 * h.val + 30) = c.tmin

/-- High-power slot `j` of the store holds these configuration registers (20_memory.md R84, R86). -/
def HighPowerInStore (m : Memory) (j : HpIx) (c : HighPower) : Prop :=
  m.read (0x88 + 18 * j.val) = hpModeCode c.mode ∧ m.read (0x88 + 18 * j.val + 1) = c.sns ∧
    storeF32 m (0x88 + 18 * j.val + 2) = c.sp ∧ storeF32 m (0x88 + 18 * j.val + 6) = c.hyst ∧
    storeF32 m (0x88 + 18 * j.val + 10) = c.tmax ∧ storeF32 m (0x88 + 18 * j.val + 14) = c.tmin

/-- Sensor slot `n` of the store holds these configuration registers (20_memory.md R84, R87). -/
def SensorInStore (m : Memory) (n : SensorIx) (c : Sensor) : Prop :=
  m.read (0xAC + 2 * n.val) = sensorTypeCode c.type ∧ m.read (0xAC + 2 * n.val + 1) = tempUnitCode c.units

/-- The store holds every configuration register. -/
def ConfigInStore (m : Memory) (s : State) : Prop :=
  (∀ h, HeaterInStore m h (s.heater h)) ∧ (∀ j, HighPowerInStore m j (s.highPower j)) ∧
    ∀ n, SensorInStore m n (s.sensor n)

/-- A heater channel's configuration registers are what slot `h` decodes to: reserved codes are coerced
to 0, every number is taken as it is (20_memory.md R96). -/
def HeaterFromStore (m : Memory) (h : HeaterIx) (c : Heater) : Prop :=
  heaterModeCode c.mode = (if (m.read (34 * h.val)).toNat ≤ 3 then m.read (34 * h.val) else 0) ∧
    c.sns = (if (m.read (34 * h.val + 1)).toNat ≤ 12 then m.read (34 * h.val + 1) else 0) ∧
    c.sp = storeF32 m (34 * h.val + 2) ∧ c.kp = storeF32 m (34 * h.val + 6) ∧
    c.ki = storeF32 m (34 * h.val + 10) ∧ c.kd = storeF32 m (34 * h.val + 14) ∧
    c.res = storeF32 m (34 * h.val + 18) ∧ c.fp = storeF32 m (34 * h.val + 22) ∧
    c.tmax = storeF32 m (34 * h.val + 26) ∧ c.tmin = storeF32 m (34 * h.val + 30)

/-- A high-power channel's configuration registers are what slot `j` decodes to (20_memory.md R96). -/
def HighPowerFromStore (m : Memory) (j : HpIx) (c : HighPower) : Prop :=
  hpModeCode c.mode =
      (if (m.read (0x88 + 18 * j.val)).toNat ≤ 2 then m.read (0x88 + 18 * j.val) else 0) ∧
    c.sns = (if (m.read (0x88 + 18 * j.val + 1)).toNat ≤ 12 then m.read (0x88 + 18 * j.val + 1) else 0) ∧
    c.sp = storeF32 m (0x88 + 18 * j.val + 2) ∧ c.hyst = storeF32 m (0x88 + 18 * j.val + 6) ∧
    c.tmax = storeF32 m (0x88 + 18 * j.val + 10) ∧ c.tmin = storeF32 m (0x88 + 18 * j.val + 14)

/-- A sensor channel's configuration registers are what slot `n` decodes to (20_memory.md R96). -/
def SensorFromStore (m : Memory) (n : SensorIx) (c : Sensor) : Prop :=
  sensorTypeCode c.type =
      (if (m.read (0xAC + 2 * n.val)).toNat ≤ 6 then m.read (0xAC + 2 * n.val) else 0) ∧
    tempUnitCode c.units =
      (if (m.read (0xAC + 2 * n.val + 1)).toNat ≤ 2 then m.read (0xAC + 2 * n.val + 1) else 0)

/-- Every configuration register is what the store decodes to. -/
def ConfigFromStore (m : Memory) (s : State) : Prop :=
  (∀ h, HeaterFromStore m h (s.heater h)) ∧ (∀ j, HighPowerFromStore m j (s.highPower j)) ∧
    ∀ n, SensorFromStore m n (s.sensor n)

/-- Every configuration register holds the default of 10_state.md R52. -/
def ConfigDefault (s : State) : Prop :=
  (∀ h, SameHeaterConfig Heater.reset (s.heater h)) ∧
    (∀ j, SameHpConfig HighPower.reset (s.highPower j)) ∧
    ∀ n, SameSensorConfig Sensor.reset (s.sensor n)

/-- The registers outside the register maps agree (10_state.md R33, R37, R39, R43). -/
def SameRuntime (s t : State) : Prop :=
  (∀ h, (t.heater h).it = (s.heater h).it ∧ (t.heater h).eprev = (s.heater h).eprev ∧
    (t.heater h).curCmd = (s.heater h).curCmd ∧ (t.heater h).cv = (s.heater h).cv ∧
    (t.heater h).pwr = (s.heater h).pwr ∧ (t.heater h).code = (s.heater h).code ∧
    (t.heater h).dac = (s.heater h).dac) ∧
    (∀ j, (t.highPower j).cmd = (s.highPower j).cmd ∧ (t.highPower j).state = (s.highPower j).state) ∧
    ∀ n, (t.sensor n).temp = (s.sensor n).temp

/-- Every register outside the register maps holds its reset value (10_state.md R52,
70_reset_and_hazards.md R370). -/
def RuntimeReset (s : State) : Prop :=
  (∀ h, (s.heater h).it = zeroF ∧ (s.heater h).eprev = zeroF ∧ (s.heater h).curCmd = zeroF ∧
    (s.heater h).cv = zeroF ∧ (s.heater h).pwr = zeroF ∧ (s.heater h).code = 0 ∧
    ∀ k : SubIx, (s.heater h).dac[k] = 0) ∧
    (∀ j, (s.highPower j).cmd = false ∧ (s.highPower j).state = false) ∧
    ∀ n, (s.sensor n).temp = none

/-- The base and the size of the 18 slots, in the order of COMMIT and READOUT (20_memory.md R84). -/
def slotRanges : List (Nat × Nat) :=
  [(0x00, 34), (0x22, 34), (0x44, 34), (0x66, 34), (0x88, 18), (0x9A, 18), (0xAC, 2), (0xAE, 2),
   (0xB0, 2), (0xB2, 2), (0xB4, 2), (0xB6, 2), (0xB8, 2), (0xBA, 2), (0xBC, 2), (0xBE, 2), (0xC0, 2),
   (0xC2, 2)]

/-- The 18 reads of READOUT (70_reset_and_hazards.md R373). -/
def readoutActions : List Action := slotRanges.map fun r => .memRead r.1 r.2

/-- The 19 writes of STAMP (70_reset_and_hazards.md R372). -/
def stampActions : List Action :=
  (slotRanges.map fun r => .memWrite r.1 (List.replicate r.2 0)) ++ [.memWrite 0xFF [0xA5]]

/-- The store after a STAMP: zeros in the slots, the unused bytes as before (70_reset_and_hazards.md
R372). -/
def Stamped (before after : Memory) : Prop :=
  (∀ a, a < 0xC4 → after.read a = 0) ∧ ∀ a, 0xC4 ≤ a → a < 0xFF → after.read a = before.read a

/-! ### Runs -/

/-- `k` steps, as far as they give next states. -/
def runSteps : Nat → State → Host.Outcome State Fault Refusal
  | 0, s => .next s
  | k + 1, s =>
    match step s with
    | .next t => runSteps k t
    | .fault r => .fault r
    | .refused r => .refused r

/-- The tick operation the mode of a channel selects (30_encoding.md R123). -/
def channelOp (s : State) (dt : F32) : Channel → Instr
  | .heater h =>
    match (s.heater h).mode with
    | .disabled => .htrTickDisabled h
    | .fixed => .htrTickFixed h
    | .pid => .htrTickPid h dt
    | .direct => .htrTickDirect h
  | .highPower j =>
    match (s.highPower j).mode with
    | .disabled => .hpTickDisabled j
    | .direct => .hpTickDirect j
    | .hyst => .hpTickHyst j

/-- A lawful tick strobe is what the block takes next, and no reset is set to fall inside the Tick. -/
def Strikes (s : State) (dt : F32) (samp : Vector OptF32 12) (rest : List Stimulus) : Prop :=
  s.phase = .run ∧ s.tick = none ∧ s.cut = none ∧ s.inbox = .tick dt samp :: rest ∧
    lawfulStrobe dt samp = true

/-- The block takes no line and no strobe (70_reset_and_hazards.md R370, 60_exceptions.md R358,
93_implementation_defined.md U20): reset is asserted, or it is in LOAD, HALTED or FAULT. -/
def Deaf (s : State) : Prop :=
  (s.phase = .reset ∧ s.resetAsserted = true) ∨ s.phase = .load ∨ s.phase = .halted ∨ s.phase = .fault

/-- A command is what the block takes next, and no reset is set to fall inside it. -/
def Presents (s : State) (conn : Nat) (line : List Byte) (rest : List Stimulus) : Prop :=
  s.phase = .run ∧ s.tick = none ∧ s.cut = none ∧ s.inbox = .command conn line :: rest

/-- The state in which a presented command is executed. -/
def State.taken (s : State) (conn : Nat) (rest : List Stimulus) : State :=
  { s with conn := conn, inbox := rest }

/-- Whether an action is a response. -/
def isResponse : Action → Bool
  | .resp _ _ => true
  | _ => false

/-- Whether an action is a store write. -/
def isStoreWrite : Action → Bool
  | .memWrite _ _ => true
  | _ => false

/-- The argument specifications of a table entry, in order (30_encoding.md R118, R119). -/
def argSpecs : Handler → List ArgSpec
  | .zero _ => []
  | .one a _ => [a]
  | .two a b _ => [a, b]

end Sys2Proof.Machine
end

