-- ==== Sys2Proof/Certificates/Slice0/Obligations.lean ====
section
/-! DEFINITION. The statements about the block, for the provers. Each one is a claim; nothing is proved
here. A docstring names the rules of the spec a statement comes from. -/

open Sys2Proof Sys2Proof.Machine

/-! ### Encoding and decoding -/

/-- 30_encoding.md R117 to R123, 43_cmd_dispatch.md R230: every operation with operands the tables admit
is read back from its own encoding, with every operand. -/
def Obligations.DecodeOfEncodeIsIdentity : Prop :=
  ∀ i, WellFormed i = true → decode (encode i) = .ok i

/-- 95_test_vectors.md P1 to P4: lines printed there in hexadecimal, and the codes of R123. -/
def Obligations.PrintedLinesDecode : Prop :=
  decodeLine [0x24, 0x73, 0x65, 0x74, 0x2C, 0x73, 0x6E, 0x73, 0x5F, 0x74, 0x79, 0x70, 0x65, 0x2C, 0x35,
      0x2C, 0x32] = .ok (.setSnsType 4 .pt100W4) ∧
    decodeLine [0x24, 0x73, 0x65, 0x74, 0x2C, 0x64, 0x61, 0x63, 0x5F, 0x6D, 0x6F, 0x64, 0x65, 0x2C, 0x31,
      0x2C, 0x32] = .ok (.setDacMode 0 .pid) ∧
    decodeLine [0x24, 0x73, 0x65, 0x74, 0x2C, 0x68, 0x70, 0x5F, 0x73, 0x6E, 0x73, 0x2C, 0x31, 0x2C, 0x37]
      = .ok (.setHpSns 0 7) ∧
    decodeLine [0x24, 0x67, 0x65, 0x74, 0x2C, 0x64, 0x61, 0x63, 0x5F, 0x63, 0x76, 0x2C, 0x31]
      = .ok (.getDacCv 0) ∧
    decodeLine [0x24, 0x73, 0x65, 0x74, 0x2C, 0x63, 0x6F, 0x6D, 0x6D, 0x69, 0x74] = .ok .setCommit ∧
    decodeLine [0x71] = .ok .q ∧
    decode (.heaterMode 2 0x40000000 2) = .ok (.htrTickPid 2 0x40000000) ∧
    decode (.hpMode 1 1) = .ok (.hpTickDirect 1) ∧
    decode (.phase 0) = .ok .load

/-- 30_encoding.md R113 to R122, 43_cmd_dispatch.md R231 to R240, 10_state.md R54: a line decodes to an
operation exactly when its tokens are the verb and the name of that operation and numbers that are its
operands: a whole number for a channel, an index, a code or a bit, no other value, and for a `real` operand
the pattern itself, inside its range. The line `q` alone decodes to `q`. So whatever line a client sends, the
operation it decodes to has its operands inside the ranges of its table entry. -/
def Obligations.DecodedLineIsWellFormed : Prop :=
  (∀ line i, decodeLine line = .ok i → WellFormed i = true) ∧
  ∀ line i, decodeLine line = .ok i ↔ Spells line i ∨ (i = .q ∧ rstrip line = [0x71])

/-- 30_encoding.md R117, R127 (a), (b): a token that the grammar builds parses to its exact decimal value
rounded to binary32, with its sign (so `-0` and what rounds to it give -0.0), and fails where that is an
infinity; every other token fails. The text of a finite number parses, and back to the same pattern. -/
def Obligations.FloatTextParsesBack : Prop :=
  (∀ d : Decimal, d.Lawful → |d.value| < 2 ^ 128 - 2 ^ 103 →
    ∃ x, parseNumber d.text = some x ∧ isFinite x = true ∧ RoundsTo d.value x ∧ isNeg x = d.isNegative) ∧
  (∀ d : Decimal, d.Lawful → 2 ^ 128 - 2 ^ 103 ≤ |d.value| → parseNumber d.text = none) ∧
  (∀ token, (∀ d : Decimal, d.Lawful → d.text ≠ token) → parseNumber token = none) ∧
  ∀ x, isFinite x = true → renderF32 x = fmtF32 x ∧ parseNumber (fmtF32 x) = some x

/-- 20_memory.md R75: the register codec is exact, in both directions of its use. -/
def Obligations.CodecRoundTrip : Prop :=
  (∀ (v : Int) (w : Nat), 1 ≤ w → 0 ≤ v → v < 2 ^ (8 * w) →
    ∃ bs, encodeInt v w false = some bs ∧ bs.length = w ∧ decodeInt bs false = v) ∧
  (∀ (v : Int) (w : Nat), 1 ≤ w → -(2 ^ (8 * w - 1) : Int) ≤ v → v < 2 ^ (8 * w - 1) →
    ∃ bs, encodeInt v w true = some bs ∧ bs.length = w ∧ decodeInt bs true = v) ∧
  ∀ p : F32, (encodeF32 p).length = 4 ∧ f32At (encodeF32 p) 0 = p

/-- 43_cmd_dispatch.md R231 to R239, 60_exceptions.md R351: the reason a line is rejected with is that of
the first step that fails; a line that passes them all gives its entry's operation. What is stripped is the
longest tail of whitespace bytes (R231; the set is the spec's general knowledge, entry 24), and the tokens are
the parts between the commas (30_encoding.md R115). -/
def Obligations.FirstFailingStepGivesReason : Prop :=
  (∀ line, (∃ tail, line = rstrip line ++ tail ∧ ∀ c, c ∈ tail → c ∈ whitespace) ∧
    ∀ start c, rstrip line = start ++ [c] → c ∉ whitespace) ∧
  (∀ cs, splitCommas cs ≠ [] ∧ (∀ t, t ∈ splitCommas cs → 0x2C ∉ t) ∧
    List.intercalate [0x2C] (splitCommas cs) = cs) ∧
  ∀ line : List Byte,
    (rstrip line = [] → decodeLine line = .error .emptyLine) ∧
    (rstrip line = [0x71] → decodeLine line = .ok .q) ∧
    (∀ c cs, rstrip line = c :: cs → c ≠ 0x24 → c :: cs ≠ [0x71] →
      decodeLine line = .error .badPrefix) ∧
    ∀ cs verb rest, rstrip line = 0x24 :: cs → splitCommas cs = verb :: rest →
      (tableOf limits verb = none → decodeLine line = .error .badVerb) ∧
      ∀ table, tableOf limits verb = some table →
        (lookupEntry table (rest.headD []) = none → decodeLine line = .error .unknownCommand) ∧
        ∀ e, lookupEntry table (rest.headD []) = some e →
          let args := rest.drop 1
          let specs := argSpecs e.handler
          (args.length ≠ specs.length → decodeLine line = .error (.argCount specs.length)) ∧
          (args.length = specs.length →
            (∀ i, i < args.length → (∀ k, k < i → parseNumber (args.getD k []) ≠ none) →
              parseNumber (args.getD i []) = none →
              decodeLine line = .error (.argNotNumber (i + 1))) ∧
            ∀ vs : List F32, args.map parseNumber = vs.map some →
              (∀ i a v, specs[i]? = some a → vs[i]? = some v →
                (∀ k b w, k < i → specs[k]? = some b → vs[k]? = some w → inRange b w = true) →
                inRange a v = false → decodeLine line = .error (.argRange (i + 1))) ∧
              ((∀ (i : Nat) a v, specs[i]? = some a → vs[i]? = some v → inRange a v = true) →
                ∃ op, decodeLine line = .ok op ∧ runHandler e.handler args = .ok op))

/-! ### Steps -/

/-- 10_state.md R31, 30_encoding.md R123: where the selector the sequencer reads decodes to an operation,
the step is that operation's meaning, in the state with the selector taken; after it a Tick with no
channel left is over, and a reset set to fall inside it is applied. -/
def Obligations.StepRunsDecodedOperation : Prop :=
  ∀ s src i, s.fetch = some src → decode src = .ok i →
    step s = onNext (onNext (exec i (s.accept src)) State.settle) s.strike

/-- 30_encoding.md R123, 40_heater_control.md R150: in a Tick the mode register of the channel whose turn
it is selects the operation. -/
def Obligations.ModeSelectsTickOperation : Prop :=
  ∀ s dt c cs, s.phase = .run → s.tick = some ⟨dt, c :: cs⟩ →
    ∃ src, s.fetch = some src ∧ decode src = .ok (channelOp s dt c)

/-- 43_cmd_dispatch.md R230, R240: a presented line that decodes is executed, with its connection kept for
the response, and the step ends with it. -/
def Obligations.StepRunsPresentedCommand : Prop :=
  ∀ s conn line rest i, Presents s conn line rest → decodeLine line = .ok i →
    ∃ t, exec i (s.taken conn rest) = .next t ∧ step s = .next t

/-- 43_cmd_dispatch.md R242, 60_exceptions.md R342: a rejected line changes no register, no store byte and
no output; the one trace is the response to its connection. -/
def Obligations.RejectedLineChangesNothing : Prop :=
  ∀ s conn line rest r, Presents s conn line rest → decodeLine line = .error r →
    ∃ t, step s = .next t ∧ Changes [] [.resp conn (.bad r)] (s.taken conn rest) t

/-- 43_cmd_dispatch.md R230, R241: a command emits exactly one response, as its last action and to its own
connection; `q` emits `Close` and no response. -/
def Obligations.OneResponsePerCommand : Prop :=
  ∀ s conn line rest, Presents s conn line rest →
    ∃ t before, step s = .next t ∧
      ((decodeLine line = .ok .q ∧ t.log = s.log ++ [.close conn]) ∨
        (decodeLine line ≠ .ok .q ∧ ∃ r, t.log = s.log ++ before ++ [.resp conn r] ∧
          ∀ a, a ∈ before → isResponse a = false))

/-- 40_heater_control.md R150, 70_reset_and_hazards.md R389 (d), 10_state.md R45, R47: a tick strobe starts
a Tick that ends after its six channels; the samples are stored first, the output events come heater 1
to 4 with their sub-channels 0 to 3, then high-power 1 and 2, and the telemetry view is sampled. That a
Tick is seven steps, and that no command comes between them, is the model's choice (entry 8). -/
def Obligations.TickRunsSixChannelsInOrder : Prop :=
  ∀ s dt samp rest, s.phase = .run → s.tick = none → s.cut = none → s.inbox = .tick dt samp :: rest →
    lawfulStrobe dt samp = true →
    ∃ t, runSteps 7 s = .next t ∧ t.phase = .run ∧ t.tick = none ∧ t.inbox = rest ∧ StoreKept s t ∧
      (∀ n : SensorIx, (t.sensor n).temp =
        if (s.sensor n).type = .unset then none else samp[n]) ∧
      t.telemetry = some t.telemetryView ∧
      t.log = s.log ++ outputActions 0 (t.heater 0) ++ outputActions 1 (t.heater 1) ++
        outputActions 2 (t.heater 2) ++ outputActions 3 (t.heater 3) ++
        [.hp 0 (t.highPower 0).state, .hp 1 (t.highPower 1).state]

/-- 40_heater_control.md R150 "No channel reads another channel's registers": what a Tick leaves in a channel
is the same in any two states that agree on that channel's own registers and on the types and units of the
sensors, whatever the other channels hold; and it is what the channel's operation alone leaves, run on the
stored samples. That a Tick is seven steps is the model's choice (entry 8). -/
def Obligations.TickChannelsAreIndependent : Prop :=
  (∀ s s' dt samp rest rest' t t', Strikes s dt samp rest → Strikes s' dt samp rest' →
    runSteps 7 s = .next t → runSteps 7 s' = .next t' → (∀ n, SameSensorConfig (s.sensor n) (s'.sensor n)) →
    (∀ h, s'.heater h = s.heater h → t'.heater h = t.heater h) ∧
      ∀ j, s'.highPower j = s.highPower j → t'.highPower j = t.highPower j) ∧
  ∀ s dt samp rest t, Strikes s dt samp rest → runSteps 7 s = .next t →
    (∀ h, ∃ u, exec (channelOp s dt (.heater h)) (s.startTick dt samp) = .next u ∧
      t.heater h = u.heater h) ∧
    ∀ j, ∃ u, exec (channelOp s dt (.highPower j)) (s.startTick dt samp) = .next u ∧
      t.highPower j = u.highPower j

/-- 10_state.md R45, 92_eei_decisions.md D16: the telemetry view is sampled at the end of a Tick, dropped
by Reset, and otherwise does not move. That Reset drops it is the model's choice (entry 11). -/
def Obligations.TelemetryMovesAtTickEndOnly : Prop :=
  ∀ s t, step s = .next t → t.telemetry ≠ s.telemetry →
    (t.phase = .reset ∧ t.telemetry = none) ∨
      (s.tick ≠ none ∧ t.tick = none ∧ t.telemetry = some t.telemetryView)

/-- 70_reset_and_hazards.md R370: Reset, in any phase. The sixteen zero writes come first, in order, then
the two actuators; the store is unchanged. What the configuration registers then hold is the model's
choice (entry 5) and not stated. -/
def Obligations.ResetOperation : Prop :=
  ∀ s rest, s.fetch = none → s.cut = none → s.inbox = .reset :: rest →
    ∃ t, step s = .next t ∧ t.phase = .reset ∧ t.inbox = rest ∧ t.resetAsserted = true ∧ t.tick = none ∧
      RuntimeReset t ∧ t.nvm = s.nvm ∧
      t.log = s.log ++ outputActions 0 (t.heater 0) ++ outputActions 1 (t.heater 1) ++
        outputActions 2 (t.heater 2) ++ outputActions 3 (t.heater 3) ++ [.hp 0 false, .hp 1 false]

/-- 70_reset_and_hazards.md R370 "It may come in any phase and during any operation": a reset set to come
after `k` more actions falls inside the operation that does that many; the actions done are the first
`k` of that operation, and then those of Reset, and the store holds the writes among the first `k`. For a
LOAD that stamps the store (R372, 93_implementation_defined.md U16) those are a prefix of the slots, and
the marker last. That a reset falls between two actions is the model's choice (entry 9). -/
def Obligations.ResetAbandonsOperation : Prop :=
  (∀ s k t as, s.cut = some k → State.stepWhole s = .next t → t.cut = s.cut → t.log = s.log ++ as →
    k ≤ as.length →
    ∃ u, step s = .next u ∧ u.phase = .reset ∧ u.cut = none ∧ RuntimeReset u ∧
      u.log = s.log ++ as.take k ++ resetActions ∧
      u.nvm = (replayStore (s.nvm, s.markerMisses) (as.take k)).1) ∧
  ∀ s k, s.phase = .reset → s.resetAsserted = false → s.cut = some k → k ≤ 39 → StoreCanonical s →
    s.nvm.read 0xFF ≠ 0xA5 → s.markerMisses = 0 →
    ∃ u, step s = .next u ∧ u.phase = .reset ∧ RuntimeReset u ∧
      u.log = s.log ++
        (.memRead 0xFF 1 :: (stampActions ++ .memRead 0xFF 1 :: readoutActions)).take k ++ resetActions ∧
      (∀ i r a, slotRanges[i]? = some r → r.1 ≤ a → a < r.1 + r.2 →
        u.nvm.read a = if i + 2 ≤ k then 0 else s.nvm.read a) ∧
      (∀ a, 0xC4 ≤ a → a < 0xFF → u.nvm.read a = s.nvm.read a) ∧
      u.nvm.read 0xFF = if 20 ≤ k then 0xA5 else s.nvm.read 0xFF

/-- 10_state.md R52, 70_reset_and_hazards.md R370: the state after reset. The values of the configuration
registers (entry 5) and of the store (entry 4) are not stated. That the record of actions holds those of
Reset, and nothing before them, is the model's choice (entry 20). -/
def Obligations.StateAfterReset : Prop :=
  State.reset.phase = .reset ∧ RuntimeReset State.reset ∧
    State.reset.log = (List.range 16).map (fun n => Action.dacWrite (Fin.ofNat 4 (n / 4)) (Fin.ofNat 4 n) 0) ++
      [.hp 0 false, .hp 1 false]

/-- 60_exceptions.md R358, 70_reset_and_hazards.md R370, 93_implementation_defined.md U20: a line or a tick
strobe that is presented in HALTED, FAULT or LOAD, or while reset stays asserted, does nothing, and the
outputs stay off; and nothing happens by itself. That such a line or strobe passes with no effect, where U20
leaves it with the environment, is the model's choice (entry 7); that nothing happens by itself in LOAD, a
phase that no step ends in, is its inference (entry 18). -/
def Obligations.StoppedBlockIgnoresInputs : Prop :=
  (∀ s x rest, Deaf s → OffOutsideRun s → s.cut = none → s.inbox = x :: rest →
    (∃ conn line, x = .command conn line) ∨ (∃ dt samp, x = .tick dt samp) →
    ∃ t, step s = .next t ∧ t.log = s.log ∧ t.phase = s.phase ∧ t.resetAsserted = s.resetAsserted ∧
      RegsKept [] s t ∧ StoreKept s t ∧ OutputsOff t) ∧
  ∀ s, Deaf s → s.cut = none → s.inbox = [] → step s = .next s

/-- 10_state.md R31: the phase changes only from RESET to RUN or FAULT by LOAD, from RUN to HALTED by a stop
command, and to RESET by a reset. That LOAD is one step, so that phase LOAD is never seen between two
steps, is the model's inference (entry 18). -/
def Obligations.PhaseChangesOnlyAsStated : Prop :=
  ∀ s t, step s = .next t → t.phase ≠ s.phase →
    (s.phase = .reset ∧ (t.phase = .run ∨ t.phase = .fault) ∧ s.fetch = some (.phase 0)) ∨
      (s.phase = .run ∧ t.phase = .halted ∧
        ∃ conn line rest, s.tick.all (fun job => job.todo = []) = true ∧
          s.inbox = .command conn line :: rest ∧
          (decodeLine line = .ok .setStopProgram ∨ decodeLine line = .ok .setExit)) ∨
      (t.phase = .reset ∧ t.resetAsserted = true)

/-- 70_reset_and_hazards.md R374: a boot with a valid marker writes nothing to the store, and no operation
but LOAD, in its STAMP, and COMMIT writes it. -/
def Obligations.StoreWrittenByStampAndCommitOnly : Prop :=
  (∀ s t, exec .load s = .next t → s.nvm.read 0xFF = 0xA5 →
    t.nvm = s.nvm ∧ ∃ as, t.log = s.log ++ as ∧ ∀ a, a ∈ as → isStoreWrite a = false) ∧
  (∀ i s t, exec i s = .next t → i ≠ .load → i ≠ .setCommit →
    t.nvm = s.nvm ∧ ∃ as, t.log = s.log ++ as ∧ ∀ a, a ∈ as → isStoreWrite a = false) ∧
  ∀ s t, step s = .next t → t.nvm ≠ s.nvm →
    ∃ src, s.fetch = some src ∧ (decode src = .ok .load ∨ decode src = .ok .setCommit)

/-- 40_heater_control.md R151, 42_highpower_control.md R210, 43_cmd_dispatch.md R246: no step ends in a
fault, and the only refusal is of a tick strobe that breaks the environment's duty. That such a strobe is
refused is the model's choice (entry 15). -/
def Obligations.OnlyUnlawfulStrobeStops : Prop :=
  (∀ s r, step s ≠ .fault r) ∧
    ∀ s r, step s = .refused r → r = .tickDuty ∧
      ∃ dt samp rest, s.phase = .run ∧ s.inbox = .tick dt samp :: rest ∧ lawfulStrobe dt samp = false

/-! ### The setters -/

/-- 44_cmd_set.md R263 to R271: each setter of a number of a heater channel. -/
def Obligations.HeaterNumberSetters : Prop :=
  ∀ h x s,
    SetsOnly (.setDacSp h x) (.heater h .sp) (.real x) s ∧
    SetsOnly (.setDacKp h x) (.heater h .kp) (.real x) s ∧
    SetsOnly (.setDacKi h x) (.heater h .ki) (.real x) s ∧
    SetsOnly (.setDacKd h x) (.heater h .kd) (.real x) s ∧
    SetsOnly (.setDacRes h x) (.heater h .res) (.real x) s ∧
    SetsOnly (.setDacFp h x) (.heater h .fp) (.real x) s ∧
    SetsOnly (.setDacTmax h x) (.heater h .tmax) (.real x) s ∧
    SetsOnly (.setDacTmin h x) (.heater h .tmin) (.real x) s ∧
    SetsOnly (.setDacCur h x) (.heater h .curCmd) (.real x) s

/-- 44_cmd_set.md R262, R273: the two assignments of a sensor. -/
def Obligations.AssignmentSetters : Prop :=
  ∀ (n : Fin 13) s,
    (∀ h, SetsOnly (.setDacSns h n) (.heater h .sns) (.byte (BitVec.ofNat 8 n.val)) s) ∧
    ∀ j, SetsOnly (.setHpSns j n) (.highPower j .sns) (.byte (BitVec.ofNat 8 n.val)) s

/-- 44_cmd_set.md R274 to R278: the setters of a high-power channel; `hp_state` writes the commanded state
and not the actuator. -/
def Obligations.HighPowerSetters : Prop :=
  ∀ j s,
    (∀ x, SetsOnly (.setHpSp j x) (.highPower j .sp) (.real x) s ∧
      SetsOnly (.setHpHyst j x) (.highPower j .hyst) (.real x) s ∧
      SetsOnly (.setHpTmax j x) (.highPower j .tmax) (.real x) s ∧
      SetsOnly (.setHpTmin j x) (.highPower j .tmin) (.real x) s) ∧
    ∀ b, SetsOnly (.setHpState j b) (.highPower j .cmd) (.bit b) s

/-- 44_cmd_set.md R261, 40_heater_control.md R166: a change to an active mode writes the mode only; a change
to `DISABLED` also zeroes the control variable and the output, before the answer. -/
def Obligations.SetDacModeZeroesWhenDisabled : Prop :=
  ∀ h s,
    (∀ n, n ≠ .disabled → SetsOnly (.setDacMode h n) (.heater h .mode) (.heaterMode n) s) ∧
    ∃ t, exec (.setDacMode h .disabled) s = .next t ∧ (t.heater h).mode = .disabled ∧
      (t.heater h).cv = zeroF ∧ OutputIs (t.heater h) 0 ∧
      Changes ([.heater h .mode, .heater h .cv] ++ outputRegs h)
        [.dacWrite h 0 0, .dacWrite h 1 0, .dacWrite h 2 0, .dacWrite h 3 0, .resp s.conn .ok] s t

/-- 44_cmd_set.md R272, 42_highpower_control.md R216: a change to an active mode writes the mode only; a
change to `DISABLED` also turns the actuator off, before the answer. -/
def Obligations.SetHpModeTurnsOffWhenDisabled : Prop :=
  ∀ j s,
    (∀ n, n ≠ .disabled → SetsOnly (.setHpMode j n) (.highPower j .mode) (.hpMode n) s) ∧
    ∃ t, exec (.setHpMode j .disabled) s = .next t ∧ (t.highPower j).mode = .disabled ∧
      (t.highPower j).state = false ∧
      Changes [.highPower j .mode, .highPower j .state] [.hp j false, .resp s.conn .ok] s t

/-- 44_cmd_set.md R279, R280: the type and the unit of a sensor; both discard the last sample. -/
def Obligations.SensorSettersDiscardSample : Prop :=
  ∀ n s,
    (∀ ty, ∃ t, exec (.setSnsType n ty) s = .next t ∧ (t.sensor n).type = ty ∧ (t.sensor n).temp = none ∧
      Changes [.sensor n .type, .sensor n .temp] [.resp s.conn .ok] s t) ∧
    ∀ u, ∃ t, exec (.setSnsUnits n u) s = .next t ∧ (t.sensor n).units = u ∧ (t.sensor n).temp = none ∧
      Changes [.sensor n .units, .sensor n .temp] [.resp s.conn .ok] s t

/-- 44_cmd_set.md R283, R284, 60_exceptions.md R359 (a): `stop_program` and its alias drive every output off,
then halt, then answer. -/
def Obligations.StopTurnsEverythingOff : Prop :=
  ∀ i s, i = .setStopProgram ∨ i = .setExit →
    ∃ t, exec i s = .next t ∧ t.phase = .halted ∧ OutputsOff t ∧
      Changes (.phase :: ([0, 1, 2, 3] : List HeaterIx).flatMap (fun h => .heater h .cv :: outputRegs h) ++
          [.highPower 0 .state, .highPower 1 .state])
        (outputActions 0 (t.heater 0) ++ outputActions 1 (t.heater 1) ++ outputActions 2 (t.heater 2) ++
          outputActions 3 (t.heater 3) ++ [.hp 0 false, .hp 1 false, .resp s.conn .ok]) s t

/-- 43_cmd_dispatch.md R232: `q` asks for the connection to be closed, changes nothing and answers
nothing. -/
def Obligations.QClosesConnection : Prop :=
  ∀ s, ∃ t, exec .q s = .next t ∧ Changes [] [.close s.conn] s t

/-! ### The getters -/

/-- 45_cmd_get.md R301 to R323, 30_encoding.md R126: each getter answers its register and changes
nothing. -/
def Obligations.GettersAnswerTheirRegister : Prop :=
  ∀ s,
    (∀ h,
      Answers (.getDacMode h) "dac_mode" (.u8 (heaterModeCode (s.heater h).mode)) s ∧
      Answers (.getDacSns h) "dac_sns" (.u8 (s.heater h).sns) s ∧
      Answers (.getDacSp h) "dac_sp" (.real (s.heater h).sp) s ∧
      Answers (.getDacKp h) "dac_kp" (.real (s.heater h).kp) s ∧
      Answers (.getDacKi h) "dac_ki" (.real (s.heater h).ki) s ∧
      Answers (.getDacKd h) "dac_kd" (.real (s.heater h).kd) s ∧
      Answers (.getDacRes h) "dac_res" (.real (s.heater h).res) s ∧
      Answers (.getDacFp h) "dac_fp" (.real (s.heater h).fp) s ∧
      Answers (.getDacTmax h) "dac_tmax" (.real (s.heater h).tmax) s ∧
      Answers (.getDacTmin h) "dac_tmin" (.real (s.heater h).tmin) s ∧
      Answers (.getDacCur h) "dac_cur" (.real (s.heater h).curCmd) s ∧
      Answers (.getDacCv h) "dac_cv" (.real (s.heater h).cv) s ∧
      Answers (.getDacPwr h) "dac_pwr" (.real (s.heater h).pwr) s) ∧
    (∀ j,
      Answers (.getHpMode j) "hp_mode" (.u8 (hpModeCode (s.highPower j).mode)) s ∧
      Answers (.getHpSns j) "hp_sns" (.u8 (s.highPower j).sns) s ∧
      Answers (.getHpSp j) "hp_sp" (.real (s.highPower j).sp) s ∧
      Answers (.getHpHyst j) "hp_hyst" (.real (s.highPower j).hyst) s ∧
      Answers (.getHpTmax j) "hp_tmax" (.real (s.highPower j).tmax) s ∧
      Answers (.getHpTmin j) "hp_tmin" (.real (s.highPower j).tmin) s ∧
      Answers (.getHpState j) "hp_state" (.bit (s.highPower j).state) s) ∧
    ∀ n,
      Answers (.getSnsType n) "sns_type" (.u8 (sensorTypeCode (s.sensor n).type)) s ∧
      Answers (.getSnsUnits n) "sns_units" (.u8 (tempUnitCode (s.sensor n).units)) s ∧
      Answers (.getSnsTemp n) "sns_temp" (.opt (s.sensor n).temp) s

/-- 60_exceptions.md R341, 30_encoding.md R112, R126: the bytes of the answers, with the newline of the
port. -/
def Obligations.AnswerTexts : Prop :=
  replyLine .ok = ascii "OK\n" ∧
    replyLine (.value (ascii "dac_mode") (.u8 2)) = ascii "OK,dac_mode=2\n" ∧
    replyLine (.value (ascii "sns_temp") (.opt none)) = ascii "OK,sns_temp=NA\n" ∧
    replyLine (.bad .emptyLine) = ascii "BAD,empty command\n" ∧
    replyLine (.bad .badPrefix) = ascii "BAD,unrecognized prefix\n" ∧
    replyLine (.bad .badVerb) = ascii "BAD,command failure: unknown verb\n" ∧
    replyLine (.bad .unknownCommand) = ascii "BAD,command failure: unknown command\n" ∧
    replyLine (.bad (.argCount 2)) = ascii "BAD,command failure: requires 2 args\n" ∧
    replyLine (.bad (.argNotNumber 2)) = ascii "BAD,command failure: arg 2 not a number\n" ∧
    replyLine (.bad (.argRange 2)) = ascii "BAD,command failure: arg 2 out of range\n"

/-! ### The store -/

/-- 20_memory.md R95, 44_cmd_set.md R282: COMMIT writes the 18 slots in order, touches no byte from 0xC4 on,
no register and no output, and then answers. -/
def Obligations.CommitWritesAllSlots : Prop :=
  ∀ s, StoreCanonical s →
    ∃ t, ∃ ws : List (Nat × List Byte), exec .setCommit s = .next t ∧ ConfigInStore t.nvm s ∧
      (∀ a, 0xC4 ≤ a → t.nvm.read a = s.nvm.read a) ∧ RegsKept [] s t ∧ EdgeKept s t ∧
      t.log = s.log ++ ws.map (fun w => Action.memWrite w.1 w.2) ++ [.resp s.conn .ok] ∧
      ws.map (fun w => (w.1, w.2.length)) = slotRanges

/-- 70_reset_and_hazards.md R371, R373: LOAD over a stamped store reads it out and writes nothing. -/
def Obligations.LoadReadsStampedStore : Prop :=
  ∀ s, s.nvm.read 0xFF = 0xA5 →
    ∃ t, exec .load s = .next t ∧ t.phase = .run ∧ ConfigFromStore s.nvm t ∧ SameRuntime s t ∧
      t.nvm = s.nvm ∧ EdgeKept s t ∧ t.log = s.log ++ .memRead 0xFF 1 :: readoutActions

/-- 70_reset_and_hazards.md R371, R372, 60_exceptions.md R346: LOAD over an unstamped store whose marker
byte takes the first write, or only the second, stamps it once or twice and ends in RUN with the
defaults. How many writes miss is the model's own field (entry 10). -/
def Obligations.LoadStampsUnmarkedStore : Prop :=
  ∀ s, StoreCanonical s → s.nvm.read 0xFF ≠ 0xA5 → s.markerMisses ≤ 1 →
    ∃ t, exec .load s = .next t ∧ t.phase = .run ∧ ConfigDefault t ∧ SameRuntime s t ∧
      Stamped s.nvm t.nvm ∧ t.nvm.read 0xFF = 0xA5 ∧ t.markerMisses = 0 ∧ t.inbox = s.inbox ∧
      t.log = s.log ++ .memRead 0xFF 1 ::
        ((List.replicate (s.markerMisses + 1) (stampActions ++ [.memRead 0xFF 1])).flatten ++
          readoutActions)

/-- 60_exceptions.md R346, 70_reset_and_hazards.md R371: a marker byte that takes neither of the two
stampings is `ConfigStoreFault`; no slot is read and no register changes but the phase. How many writes of
the marker miss, and that a write that misses leaves the byte as it was, is the model's choice (entry 10). -/
def Obligations.LoadFaultsWhenMarkerFails : Prop :=
  ∀ s, StoreCanonical s → s.nvm.read 0xFF ≠ 0xA5 → 2 ≤ s.markerMisses →
    ∃ t, exec .load s = .next t ∧ t.phase = .fault ∧ RegsKept [.phase] s t ∧ Stamped s.nvm t.nvm ∧
      t.nvm.read 0xFF = s.nvm.read 0xFF ∧
      t.log = s.log ++ .memRead 0xFF 1 ::
        (stampActions ++ [.memRead 0xFF 1] ++ stampActions ++ [.memRead 0xFF 1])

/-- 20_memory.md R97: what is committed is what the next boot loads, bit for bit. That these are four steps,
the command, the reset, its release and LOAD, is the model's choice (entries 7, 18). -/
def Obligations.CommitThenReload : Prop :=
  ∀ s conn line rest, Presents s conn line (.reset :: .release :: rest) → decodeLine line = .ok .setCommit →
    StoreCanonical s → MarkerInRun s → RegistersLegal s →
    ∃ t, runSteps 4 s = .next t ∧ t.phase = .run ∧ SameConfig s t ∧ RuntimeReset t ∧ t.inbox = rest

/-- 70_reset_and_hazards.md R378: a reset that cuts a COMMIT after its k-th write leaves the first k slots
as the whole COMMIT would and every other byte, the marker included, as it was. That no slot is torn is
92_eei_decisions.md D29 (entry 9). -/
def Obligations.CutCommitIsPrefixOfSlots : Prop :=
  ∀ s conn line rest k u, s.phase = .run → s.tick = none → s.inbox = .command conn line :: rest →
    decodeLine line = .ok .setCommit → s.cut = some k → k ≤ 18 → StoreCanonical s →
    exec .setCommit s = .next u →
    ∃ t, step s = .next t ∧ t.phase = .reset ∧ RuntimeReset t ∧
      (∀ i r a, slotRanges[i]? = some r → r.1 ≤ a → a < r.1 + r.2 →
        t.nvm.read a = if i < k then u.nvm.read a else s.nvm.read a) ∧
      ∀ a, 0xC4 ≤ a → t.nvm.read a = s.nvm.read a

/-! ### The heater tick -/

/-- 40_heater_control.md R153: a disabled channel's tick, whatever its sensor, sample and resistance. -/
def Obligations.HeaterTickDisabled : Prop :=
  ∀ h s, HeaterTickGives (.htrTickDisabled h) h (s.heater h).it (s.heater h).eprev zeroF zeroF 0 s

/-- 40_heater_control.md R152: when a guard fails the law is skipped, in every active mode. -/
def Obligations.HeaterTickGuard : Prop :=
  ∀ i h dt s, i = .htrTickFixed h ∨ i = .htrTickPid h dt ∨ i = .htrTickDirect h → HeaterGuardFails s h →
    HeaterTickGives i h (s.heater h).it (s.heater h).eprev zeroF zeroF 0 s

/-- 40_heater_control.md R157 inside R151, R156, R159, 41_dac_distribution.md R194: the fixed-percent tick. -/
def Obligations.HeaterTickFixed : Prop :=
  ∀ h n pv mc s, HeaterReady s h n pv mc →
    let c := s.heater h
    let pw := fmul (fmul (fmul mc mc) c.res) c.fp
    let cur := clamp (fsqrt (fdiv (pos pw) c.res)) zeroF mc
    (Inside c.tmin pv c.tmax →
      HeaterTickGives (.htrTickFixed h) h c.it c.eprev pw cur (codeOf cur mc) s) ∧
    (¬Inside c.tmin pv c.tmax → HeaterTickGives (.htrTickFixed h) h c.it c.eprev pw zeroF 0 s)

/-- 40_heater_control.md R155 inside R151, R154, R159, R161, R162, R164, 41_dac_distribution.md R194: the PID
tick, its eight steps; with `ki` zero the term is +0.0 and the accumulator is kept. The accumulator is the
clamp of step 5; where that is an infinity, `it1` and `mit` both overflowed, it is some finite number from 0
on (R164), which one is free (entry 19). The conversion to kelvin is that of 00_scope.md R20, its constants
the spec's general knowledge (entry 24); the other literal is 1000. -/
def Obligations.HeaterTickPid : Prop :=
  KelvinConversion ∧ valueOf 0x447A0000 = 1000 ∧
  ∀ h n pv mc dt s, HeaterReady s h n pv mc →
    let c := s.heater h
    let u := (s.sensor n).units
    let e := fsub (toK c.sp u) (toK pv u)
    let de := fdiv (fsub e c.eprev) dt
    let mit := fmul (fmul (fmul mc mc) c.res) 0x447A0000
    let bounded := clamp (fadd c.it (fmul (fmul c.ki e) dt)) zeroF mit
    ∃ it,
      (feq c.ki zeroF = true → it = c.it) ∧
      (feq c.ki zeroF = false → isInf bounded = false → it = bounded) ∧
      (feq c.ki zeroF = false → isInf bounded = true → isFinite it = true ∧ fle zeroF it = true) ∧
      let iterm := if feq c.ki zeroF then zeroF else it
      let pw := fdiv (fadd (fadd (fmul c.kp e) iterm) (fmul c.kd de)) 0x447A0000
      let cur := clamp (fsqrt (fdiv (pos pw) c.res)) zeroF mc
      (Inside c.tmin pv c.tmax →
        HeaterTickGives (.htrTickPid h dt) h it e pw cur (codeOf cur mc) s) ∧
      (¬Inside c.tmin pv c.tmax → HeaterTickGives (.htrTickPid h dt) h it e pw zeroF 0 s)

/-- 40_heater_control.md R158 inside R151, R159, 41_dac_distribution.md R194: the direct-current tick; the
commanded current is applied verbatim. -/
def Obligations.HeaterTickDirect : Prop :=
  ∀ h n pv mc s, HeaterReady s h n pv mc →
    let c := s.heater h
    let pw := fmul (fmul c.curCmd c.curCmd) c.res
    (Inside c.tmin pv c.tmax →
      HeaterTickGives (.htrTickDirect h) h c.it c.eprev pw c.curCmd (codeOf c.curCmd mc) s) ∧
    (¬Inside c.tmin pv c.tmax → HeaterTickGives (.htrTickDirect h) h c.it c.eprev pw zeroF 0 s)

/-- 40_heater_control.md R159, 42_highpower_control.md R215: no mode bypasses the interlock. -/
def Obligations.InterlockForcesOff : Prop :=
  ∀ s dt,
    (∀ h n pv, HasSample s (s.heater h).sns n pv → ¬Inside (s.heater h).tmin pv (s.heater h).tmax →
      ∃ t, exec (channelOp s dt (.heater h)) s = .next t ∧ (t.heater h).cv = zeroF ∧
        OutputIs (t.heater h) 0) ∧
    ∀ j n pv, HasSample s (s.highPower j).sns n pv →
      ¬Inside (s.highPower j).tmin pv (s.highPower j).tmax →
      ∃ t, exec (channelOp s dt (.highPower j)) s = .next t ∧ (t.highPower j).state = false

/-- 40_heater_control.md R162, R164: after a PID tick with `ki` not zero the accumulator is a finite number
between +0.0 and `mit`, whatever it, the gain, the error, `dt` and the limits were. Which finite number it
is where `it1` and `mit` both overflow is free (entry 19). -/
def Obligations.IntegralTermBounded : Prop :=
  ∀ h n pv mc dt s t, HeaterReady s h n pv mc → feq (s.heater h).ki zeroF = false →
    exec (.htrTickPid h dt) s = .next t →
    isFinite (t.heater h).it = true ∧ fle zeroF (t.heater h).it = true ∧
      fle (t.heater h).it (fmul (fmul (fmul mc mc) (s.heater h).res) 0x447A0000) = true

/-- 40_heater_control.md R156: the converter gives a number in [+0.0, mc], never a NaN; a negative power, a
zero and a NaN give +0.0. -/
def Obligations.CurrentOfIsBounded : Prop :=
  ∀ pw r mc, flt zeroF mc = true → isFinite mc = true → flt zeroF r = true → isFinite r = true →
    isNaN (currentOf pw r mc) = false ∧ fle zeroF (currentOf pw r mc) = true ∧
      fle (currentOf pw r mc) mc = true ∧ (flt zeroF pw = false → currentOf pw r mc = zeroF)

/-- 70_reset_and_hazards.md R383: the integrator and the previous error of a channel are written only by its
PID tick; LOAD, every command and every other tick keep them. -/
def Obligations.PidStateWrittenByPidOnly : Prop :=
  ∀ i s t h, exec i s = .next t → (∀ dt, i ≠ .htrTickPid h dt) →
    (t.heater h).it = (s.heater h).it ∧ (t.heater h).eprev = (s.heater h).eprev

/-- 10_state.md R33, R37: the commanded current and the commanded state are written only by their setters. -/
def Obligations.CommandedRegistersWrittenBySetOnly : Prop :=
  ∀ i s t, exec i s = .next t →
    (∀ h, (∀ x, i ≠ .setDacCur h x) → (t.heater h).curCmd = (s.heater h).curCmd) ∧
    ∀ j, (∀ b, i ≠ .setHpState j b) → (t.highPower j).cmd = (s.highPower j).cmd

/-! ### The high-power tick -/

/-- 42_highpower_control.md R211, R212: a disabled channel's tick, and an active one's without a usable
sample. -/
def Obligations.HighPowerTickOff : Prop :=
  ∀ j s, HpTickGives (.hpTickDisabled j) j false s ∧
    (NoSample s (s.highPower j).sns →
      HpTickGives (.hpTickDirect j) j false s ∧ HpTickGives (.hpTickHyst j) j false s)

/-- 42_highpower_control.md R213, R214 inside R210, R215: the direct and the hysteresis tick with a usable
sample. -/
def Obligations.HighPowerTickLaws : Prop :=
  ∀ j n pv s, HasSample s (s.highPower j).sns n pv →
    let c := s.highPower j
    (¬Inside c.tmin pv c.tmax →
      HpTickGives (.hpTickDirect j) j false s ∧ HpTickGives (.hpTickHyst j) j false s) ∧
    (Inside c.tmin pv c.tmax → HpTickGives (.hpTickDirect j) j c.cmd s ∧
      (fle (fadd c.sp c.hyst) pv = true → HpTickGives (.hpTickHyst j) j false s) ∧
      (fle (fadd c.sp c.hyst) pv = false → fle pv (fsub c.sp c.hyst) = true →
        HpTickGives (.hpTickHyst j) j true s) ∧
      (fle (fadd c.sp c.hyst) pv = false → fle pv (fsub c.sp c.hyst) = false →
        HpTickGives (.hpTickHyst j) j c.state s))

/-! ### The output stage -/

/-- 41_dac_distribution.md R192: the five laws of the distributor. -/
def Obligations.DistributorLaws : Prop :=
  ∀ code, (distribute code).length = 4 ∧
    (∀ k, k < 4 → (distribute code).getD k 0 ≤ 65535) ∧
    (distribute code).sum = min code 262140 ∧
    (∀ k i, k < 4 → i < k → 0 < (distribute code).getD k 0 → (distribute code).getD i 0 = 65535) ∧
    (∀ more k, code ≤ more → (distribute code).getD k 0 ≤ (distribute more).getD k 0) ∧
    ∀ k, k < 4 → (distribute code).getD k 0 = min (code - 65535 * k) 65535

/-- 41_dac_distribution.md R193: the codes that fill all four sub-channels are those from 262140 on. -/
def Obligations.DistributorCapacity : Prop :=
  ∀ code, code ≤ 262144 →
    (distribute code).sum ≤ 262140 ∧
      (distribute code = [65535, 65535, 65535, 65535] ↔ 262140 ≤ code)

/-- 41_dac_distribution.md R190: the code is the quotient times 2^18, the fraction dropped, and at most 2^18; a
quotient of +infinity gives 2^18. Zero current gives 0, `mc` and more give 2^18. -/
def Obligations.CodeOfIsBounded : Prop :=
  valueOf 0x48800000 = 262144 ∧
  ∀ cv mc, flt zeroF mc = true → isFinite mc = true → fle zeroF cv = true →
    let product := fmul (fdiv cv mc) 0x48800000
    (isFinite product = true → codeOf cv mc = min ⌊valueOf product⌋₊ 262144) ∧
      (isFinite product = false → codeOf cv mc = 262144) ∧
      codeOf cv mc ≤ 262144 ∧ (feq cv zeroF = true → codeOf cv mc = 0) ∧
      (fle mc cv = true → codeOf cv mc = 262144)

/-- 00_scope.md R12: every operation gives the exact result rounded once, to the nearest pattern, the even
one of two that are as near, to an infinity from 2^128 - 2^103 on; infinities, NaNs and divisions by zero
give the IEEE-754 default results. R13: the comparisons, and what is made of them, follow the order of the
numbers. The last part is the rounding step itself, its magnitudes in units of
2^-149. The layout and the rounding of binary32 are the spec's general knowledge (entry 24); which NaN a
result is, is free (entry 3). -/
def Obligations.RoundingIsNearestEven : Prop :=
  (∀ a b, isFinite a = true → isFinite b = true → FiniteArithmetic a b) ∧
  (∀ a b, DefaultArithmetic a b) ∧
  (∀ a b, ComparesAsNumbers a b) ∧
  (∀ x lo hi, SelectsAsNumbers x lo hi) ∧
  ∀ num den, 0 < den → roundUnits num den < 0x7F800000 →
    ∀ p, p < 0x7F800000 → p ≠ roundUnits num den →
      let near := ((unitsOfMag (roundUnits num den) : Int) * den - num).natAbs
      let other := ((unitsOfMag p : Int) * den - num).natAbs
      near < other ∨ (near = other ∧ roundUnits num den % 2 = 0)

/-! ### Invariants -/

/-- 20_memory.md R84, R88, 10_state.md R43, R44, R53: the state after reset meets every invariant stated
below. Its blank store (entry 4) and its configuration registers (entry 5) are the model's choice. -/
def Obligations.InvariantsHoldAtReset : Prop :=
  StoreCanonical State.reset ∧ DevicesMatch State.reset ∧ OffOutsideRun State.reset ∧
    MarkerInRun State.reset ∧ RegistersLegal State.reset ∧ InputsLawful State.reset

/-- 20_memory.md R80 to R82: every step keeps the store inside its 256 bytes, in its canonical form. -/
def Obligations.StepKeepsStoreCanonical : Prop :=
  ∀ s t, StoreCanonical s → step s = .next t → StoreCanonical t

/-- 10_state.md R43, R44: after every step the output devices hold what the output registers say. -/
def Obligations.StepKeepsDevicesMatching : Prop :=
  ∀ s t, DevicesMatch s → step s = .next t → DevicesMatch t

/-- 10_state.md R53: outside RUN every output is zero and every actuator off, after every step. -/
def Obligations.StepKeepsOutputsOffOutsideRun : Prop :=
  ∀ s t, OffOutsideRun s → step s = .next t → OffOutsideRun t

/-- 20_memory.md R88, 70_reset_and_hazards.md R371: the block is in RUN only over a stamped store. -/
def Obligations.StepKeepsMarkerInRun : Prop :=
  ∀ s t, StoreCanonical s → MarkerInRun s → step s = .next t → MarkerInRun t

/-- 10_state.md R32, R36, R43, R54, 30_encoding.md R120, 44_cmd_set.md R271, 40_heater_control.md R154, R156,
R162, R164: every step keeps the registers inside the ranges the rules give them, the commanded current and
the current from 0 to `MAX_CURRENT` among them, the accumulator finite whatever the limits (entry 19). -/
def Obligations.StepKeepsRegistersLegal : Prop :=
  ∀ s t, RegistersLegal s → step s = .next t → RegistersLegal t

/-- 10_state.md R47, R48: every step keeps the stored samples finite or `NA` and the `dt` of a Tick finite
and not below 1. -/
def Obligations.StepKeepsInputsLawful : Prop :=
  ∀ s t, InputsLawful s → step s = .next t → InputsLawful t
end

