-- ==== Sys2Proof/Laws/State.lean ====
section
/-! SUPPORT. The small lemmas of the state record: what each named update leaves of each field, what it
writes, and what the accessors read after it. -/

namespace Sys2Proof.Machine

open Sys2Proof

/-! ### `setHeater` -/

@[simp] theorem setHeater_phase (s : State) (h : HeaterIx) (c : Heater) : (s.setHeater h c).phase = s.phase := rfl
@[simp] theorem setHeater_htr (s : State) (h : HeaterIx) (c : Heater) : (s.setHeater h c).htr = s.htr.set h c := rfl
@[simp] theorem setHeater_hp (s : State) (h : HeaterIx) (c : Heater) : (s.setHeater h c).hp = s.hp := rfl
@[simp] theorem setHeater_sns (s : State) (h : HeaterIx) (c : Heater) : (s.setHeater h c).sns = s.sns := rfl
@[simp] theorem setHeater_nvm (s : State) (h : HeaterIx) (c : Heater) : (s.setHeater h c).nvm = s.nvm := rfl
@[simp] theorem setHeater_telemetry (s : State) (h : HeaterIx) (c : Heater) : (s.setHeater h c).telemetry = s.telemetry := rfl
@[simp] theorem setHeater_log (s : State) (h : HeaterIx) (c : Heater) : (s.setHeater h c).log = s.log := rfl
@[simp] theorem setHeater_conn (s : State) (h : HeaterIx) (c : Heater) : (s.setHeater h c).conn = s.conn := rfl
@[simp] theorem setHeater_tick (s : State) (h : HeaterIx) (c : Heater) : (s.setHeater h c).tick = s.tick := rfl
@[simp] theorem setHeater_inbox (s : State) (h : HeaterIx) (c : Heater) : (s.setHeater h c).inbox = s.inbox := rfl
@[simp] theorem setHeater_resetAsserted (s : State) (h : HeaterIx) (c : Heater) : (s.setHeater h c).resetAsserted = s.resetAsserted := rfl
@[simp] theorem setHeater_cut (s : State) (h : HeaterIx) (c : Heater) : (s.setHeater h c).cut = s.cut := rfl
@[simp] theorem setHeater_markerMisses (s : State) (h : HeaterIx) (c : Heater) : (s.setHeater h c).markerMisses = s.markerMisses := rfl

/-! ### `setHighPower` -/

@[simp] theorem setHighPower_phase (s : State) (j : HpIx) (c : HighPower) : (s.setHighPower j c).phase = s.phase := rfl
@[simp] theorem setHighPower_htr (s : State) (j : HpIx) (c : HighPower) : (s.setHighPower j c).htr = s.htr := rfl
@[simp] theorem setHighPower_hp (s : State) (j : HpIx) (c : HighPower) : (s.setHighPower j c).hp = s.hp.set j c := rfl
@[simp] theorem setHighPower_sns (s : State) (j : HpIx) (c : HighPower) : (s.setHighPower j c).sns = s.sns := rfl
@[simp] theorem setHighPower_nvm (s : State) (j : HpIx) (c : HighPower) : (s.setHighPower j c).nvm = s.nvm := rfl
@[simp] theorem setHighPower_telemetry (s : State) (j : HpIx) (c : HighPower) : (s.setHighPower j c).telemetry = s.telemetry := rfl
@[simp] theorem setHighPower_log (s : State) (j : HpIx) (c : HighPower) : (s.setHighPower j c).log = s.log := rfl
@[simp] theorem setHighPower_conn (s : State) (j : HpIx) (c : HighPower) : (s.setHighPower j c).conn = s.conn := rfl
@[simp] theorem setHighPower_tick (s : State) (j : HpIx) (c : HighPower) : (s.setHighPower j c).tick = s.tick := rfl
@[simp] theorem setHighPower_inbox (s : State) (j : HpIx) (c : HighPower) : (s.setHighPower j c).inbox = s.inbox := rfl
@[simp] theorem setHighPower_resetAsserted (s : State) (j : HpIx) (c : HighPower) : (s.setHighPower j c).resetAsserted = s.resetAsserted := rfl
@[simp] theorem setHighPower_cut (s : State) (j : HpIx) (c : HighPower) : (s.setHighPower j c).cut = s.cut := rfl
@[simp] theorem setHighPower_markerMisses (s : State) (j : HpIx) (c : HighPower) : (s.setHighPower j c).markerMisses = s.markerMisses := rfl

/-! ### `setSensor` -/

@[simp] theorem setSensor_phase (s : State) (n : SensorIx) (c : Sensor) : (s.setSensor n c).phase = s.phase := rfl
@[simp] theorem setSensor_htr (s : State) (n : SensorIx) (c : Sensor) : (s.setSensor n c).htr = s.htr := rfl
@[simp] theorem setSensor_hp (s : State) (n : SensorIx) (c : Sensor) : (s.setSensor n c).hp = s.hp := rfl
@[simp] theorem setSensor_sns (s : State) (n : SensorIx) (c : Sensor) : (s.setSensor n c).sns = s.sns.set n c := rfl
@[simp] theorem setSensor_nvm (s : State) (n : SensorIx) (c : Sensor) : (s.setSensor n c).nvm = s.nvm := rfl
@[simp] theorem setSensor_telemetry (s : State) (n : SensorIx) (c : Sensor) : (s.setSensor n c).telemetry = s.telemetry := rfl
@[simp] theorem setSensor_log (s : State) (n : SensorIx) (c : Sensor) : (s.setSensor n c).log = s.log := rfl
@[simp] theorem setSensor_conn (s : State) (n : SensorIx) (c : Sensor) : (s.setSensor n c).conn = s.conn := rfl
@[simp] theorem setSensor_tick (s : State) (n : SensorIx) (c : Sensor) : (s.setSensor n c).tick = s.tick := rfl
@[simp] theorem setSensor_inbox (s : State) (n : SensorIx) (c : Sensor) : (s.setSensor n c).inbox = s.inbox := rfl
@[simp] theorem setSensor_resetAsserted (s : State) (n : SensorIx) (c : Sensor) : (s.setSensor n c).resetAsserted = s.resetAsserted := rfl
@[simp] theorem setSensor_cut (s : State) (n : SensorIx) (c : Sensor) : (s.setSensor n c).cut = s.cut := rfl
@[simp] theorem setSensor_markerMisses (s : State) (n : SensorIx) (c : Sensor) : (s.setSensor n c).markerMisses = s.markerMisses := rfl

/-! ### `emit` -/

@[simp] theorem emit_phase (s : State) (as : List Action) : (s.emit as).phase = s.phase := rfl
@[simp] theorem emit_htr (s : State) (as : List Action) : (s.emit as).htr = s.htr := rfl
@[simp] theorem emit_hp (s : State) (as : List Action) : (s.emit as).hp = s.hp := rfl
@[simp] theorem emit_sns (s : State) (as : List Action) : (s.emit as).sns = s.sns := rfl
@[simp] theorem emit_nvm (s : State) (as : List Action) : (s.emit as).nvm = s.nvm := rfl
@[simp] theorem emit_telemetry (s : State) (as : List Action) : (s.emit as).telemetry = s.telemetry := rfl
@[simp] theorem emit_log (s : State) (as : List Action) : (s.emit as).log = s.log ++ as := rfl
@[simp] theorem emit_conn (s : State) (as : List Action) : (s.emit as).conn = s.conn := rfl
@[simp] theorem emit_tick (s : State) (as : List Action) : (s.emit as).tick = s.tick := rfl
@[simp] theorem emit_inbox (s : State) (as : List Action) : (s.emit as).inbox = s.inbox := rfl
@[simp] theorem emit_resetAsserted (s : State) (as : List Action) : (s.emit as).resetAsserted = s.resetAsserted := rfl
@[simp] theorem emit_cut (s : State) (as : List Action) : (s.emit as).cut = s.cut := rfl
@[simp] theorem emit_markerMisses (s : State) (as : List Action) : (s.emit as).markerMisses = s.markerMisses := rfl

/-! ### `respond` -/

@[simp] theorem respond_phase (s : State) (r : Reply) : (s.respond r).phase = s.phase := rfl
@[simp] theorem respond_htr (s : State) (r : Reply) : (s.respond r).htr = s.htr := rfl
@[simp] theorem respond_hp (s : State) (r : Reply) : (s.respond r).hp = s.hp := rfl
@[simp] theorem respond_sns (s : State) (r : Reply) : (s.respond r).sns = s.sns := rfl
@[simp] theorem respond_nvm (s : State) (r : Reply) : (s.respond r).nvm = s.nvm := rfl
@[simp] theorem respond_telemetry (s : State) (r : Reply) : (s.respond r).telemetry = s.telemetry := rfl
@[simp] theorem respond_log (s : State) (r : Reply) : (s.respond r).log = s.log ++ [.resp s.conn r] := rfl
@[simp] theorem respond_conn (s : State) (r : Reply) : (s.respond r).conn = s.conn := rfl
@[simp] theorem respond_tick (s : State) (r : Reply) : (s.respond r).tick = s.tick := rfl
@[simp] theorem respond_inbox (s : State) (r : Reply) : (s.respond r).inbox = s.inbox := rfl
@[simp] theorem respond_resetAsserted (s : State) (r : Reply) : (s.respond r).resetAsserted = s.resetAsserted := rfl
@[simp] theorem respond_cut (s : State) (r : Reply) : (s.respond r).cut = s.cut := rfl
@[simp] theorem respond_markerMisses (s : State) (r : Reply) : (s.respond r).markerMisses = s.markerMisses := rfl

/-! ### `writeCode` -/

@[simp] theorem writeCode_phase (s : State) (h : HeaterIx) (code : Nat) : (s.writeCode h code).phase = s.phase := rfl
@[simp] theorem writeCode_htr (s : State) (h : HeaterIx) (code : Nat) : (s.writeCode h code).htr = s.htr.set h { s.heater h with code := BitVec.ofNat 19 code, dac := subCodes code } := rfl
@[simp] theorem writeCode_hp (s : State) (h : HeaterIx) (code : Nat) : (s.writeCode h code).hp = s.hp := rfl
@[simp] theorem writeCode_sns (s : State) (h : HeaterIx) (code : Nat) : (s.writeCode h code).sns = s.sns := rfl
@[simp] theorem writeCode_nvm (s : State) (h : HeaterIx) (code : Nat) : (s.writeCode h code).nvm = s.nvm := rfl
@[simp] theorem writeCode_telemetry (s : State) (h : HeaterIx) (code : Nat) : (s.writeCode h code).telemetry = s.telemetry := rfl
@[simp] theorem writeCode_log (s : State) (h : HeaterIx) (code : Nat) : (s.writeCode h code).log = s.log ++ dacActions h code := rfl
@[simp] theorem writeCode_conn (s : State) (h : HeaterIx) (code : Nat) : (s.writeCode h code).conn = s.conn := rfl
@[simp] theorem writeCode_tick (s : State) (h : HeaterIx) (code : Nat) : (s.writeCode h code).tick = s.tick := rfl
@[simp] theorem writeCode_inbox (s : State) (h : HeaterIx) (code : Nat) : (s.writeCode h code).inbox = s.inbox := rfl
@[simp] theorem writeCode_resetAsserted (s : State) (h : HeaterIx) (code : Nat) : (s.writeCode h code).resetAsserted = s.resetAsserted := rfl
@[simp] theorem writeCode_cut (s : State) (h : HeaterIx) (code : Nat) : (s.writeCode h code).cut = s.cut := rfl
@[simp] theorem writeCode_markerMisses (s : State) (h : HeaterIx) (code : Nat) : (s.writeCode h code).markerMisses = s.markerMisses := rfl

/-! ### `output` -/

@[simp] theorem output_phase (s : State) (h : HeaterIx) (cv mc : F32) : (s.output h cv mc).phase = s.phase := rfl
@[simp] theorem output_hp (s : State) (h : HeaterIx) (cv mc : F32) : (s.output h cv mc).hp = s.hp := rfl
@[simp] theorem output_sns (s : State) (h : HeaterIx) (cv mc : F32) : (s.output h cv mc).sns = s.sns := rfl
@[simp] theorem output_nvm (s : State) (h : HeaterIx) (cv mc : F32) : (s.output h cv mc).nvm = s.nvm := rfl
@[simp] theorem output_telemetry (s : State) (h : HeaterIx) (cv mc : F32) : (s.output h cv mc).telemetry = s.telemetry := rfl
@[simp] theorem output_log (s : State) (h : HeaterIx) (cv mc : F32) : (s.output h cv mc).log = s.log ++ dacActions h (codeOf cv mc) := rfl
@[simp] theorem output_conn (s : State) (h : HeaterIx) (cv mc : F32) : (s.output h cv mc).conn = s.conn := rfl
@[simp] theorem output_tick (s : State) (h : HeaterIx) (cv mc : F32) : (s.output h cv mc).tick = s.tick := rfl
@[simp] theorem output_inbox (s : State) (h : HeaterIx) (cv mc : F32) : (s.output h cv mc).inbox = s.inbox := rfl
@[simp] theorem output_resetAsserted (s : State) (h : HeaterIx) (cv mc : F32) : (s.output h cv mc).resetAsserted = s.resetAsserted := rfl
@[simp] theorem output_cut (s : State) (h : HeaterIx) (cv mc : F32) : (s.output h cv mc).cut = s.cut := rfl
@[simp] theorem output_markerMisses (s : State) (h : HeaterIx) (cv mc : F32) : (s.output h cv mc).markerMisses = s.markerMisses := rfl

/-! ### `outputZero` -/

@[simp] theorem outputZero_phase (s : State) (h : HeaterIx) : (s.outputZero h).phase = s.phase := rfl
@[simp] theorem outputZero_hp (s : State) (h : HeaterIx) : (s.outputZero h).hp = s.hp := rfl
@[simp] theorem outputZero_sns (s : State) (h : HeaterIx) : (s.outputZero h).sns = s.sns := rfl
@[simp] theorem outputZero_nvm (s : State) (h : HeaterIx) : (s.outputZero h).nvm = s.nvm := rfl
@[simp] theorem outputZero_telemetry (s : State) (h : HeaterIx) : (s.outputZero h).telemetry = s.telemetry := rfl
@[simp] theorem outputZero_log (s : State) (h : HeaterIx) : (s.outputZero h).log = s.log ++ dacActions h 0 := rfl
@[simp] theorem outputZero_conn (s : State) (h : HeaterIx) : (s.outputZero h).conn = s.conn := rfl
@[simp] theorem outputZero_tick (s : State) (h : HeaterIx) : (s.outputZero h).tick = s.tick := rfl
@[simp] theorem outputZero_inbox (s : State) (h : HeaterIx) : (s.outputZero h).inbox = s.inbox := rfl
@[simp] theorem outputZero_resetAsserted (s : State) (h : HeaterIx) : (s.outputZero h).resetAsserted = s.resetAsserted := rfl
@[simp] theorem outputZero_cut (s : State) (h : HeaterIx) : (s.outputZero h).cut = s.cut := rfl
@[simp] theorem outputZero_markerMisses (s : State) (h : HeaterIx) : (s.outputZero h).markerMisses = s.markerMisses := rfl

/-! ### `driveHp` -/

@[simp] theorem driveHp_phase (s : State) (j : HpIx) (b : Bool) : (s.driveHp j b).phase = s.phase := rfl
@[simp] theorem driveHp_htr (s : State) (j : HpIx) (b : Bool) : (s.driveHp j b).htr = s.htr := rfl
@[simp] theorem driveHp_hp (s : State) (j : HpIx) (b : Bool) : (s.driveHp j b).hp = s.hp.set j { s.highPower j with state := b } := rfl
@[simp] theorem driveHp_sns (s : State) (j : HpIx) (b : Bool) : (s.driveHp j b).sns = s.sns := rfl
@[simp] theorem driveHp_nvm (s : State) (j : HpIx) (b : Bool) : (s.driveHp j b).nvm = s.nvm := rfl
@[simp] theorem driveHp_telemetry (s : State) (j : HpIx) (b : Bool) : (s.driveHp j b).telemetry = s.telemetry := rfl
@[simp] theorem driveHp_log (s : State) (j : HpIx) (b : Bool) : (s.driveHp j b).log = s.log ++ [.hp j b] := rfl
@[simp] theorem driveHp_conn (s : State) (j : HpIx) (b : Bool) : (s.driveHp j b).conn = s.conn := rfl
@[simp] theorem driveHp_tick (s : State) (j : HpIx) (b : Bool) : (s.driveHp j b).tick = s.tick := rfl
@[simp] theorem driveHp_inbox (s : State) (j : HpIx) (b : Bool) : (s.driveHp j b).inbox = s.inbox := rfl
@[simp] theorem driveHp_resetAsserted (s : State) (j : HpIx) (b : Bool) : (s.driveHp j b).resetAsserted = s.resetAsserted := rfl
@[simp] theorem driveHp_cut (s : State) (j : HpIx) (b : Bool) : (s.driveHp j b).cut = s.cut := rfl
@[simp] theorem driveHp_markerMisses (s : State) (j : HpIx) (b : Bool) : (s.driveHp j b).markerMisses = s.markerMisses := rfl

/-! ### `heaterOff` -/

@[simp] theorem heaterOff_phase (s : State) (h : HeaterIx) : (s.heaterOff h).phase = s.phase := rfl
@[simp] theorem heaterOff_hp (s : State) (h : HeaterIx) : (s.heaterOff h).hp = s.hp := rfl
@[simp] theorem heaterOff_sns (s : State) (h : HeaterIx) : (s.heaterOff h).sns = s.sns := rfl
@[simp] theorem heaterOff_nvm (s : State) (h : HeaterIx) : (s.heaterOff h).nvm = s.nvm := rfl
@[simp] theorem heaterOff_telemetry (s : State) (h : HeaterIx) : (s.heaterOff h).telemetry = s.telemetry := rfl
@[simp] theorem heaterOff_log (s : State) (h : HeaterIx) : (s.heaterOff h).log = s.log ++ dacActions h 0 := rfl
@[simp] theorem heaterOff_conn (s : State) (h : HeaterIx) : (s.heaterOff h).conn = s.conn := rfl
@[simp] theorem heaterOff_tick (s : State) (h : HeaterIx) : (s.heaterOff h).tick = s.tick := rfl
@[simp] theorem heaterOff_inbox (s : State) (h : HeaterIx) : (s.heaterOff h).inbox = s.inbox := rfl
@[simp] theorem heaterOff_resetAsserted (s : State) (h : HeaterIx) : (s.heaterOff h).resetAsserted = s.resetAsserted := rfl
@[simp] theorem heaterOff_cut (s : State) (h : HeaterIx) : (s.heaterOff h).cut = s.cut := rfl
@[simp] theorem heaterOff_markerMisses (s : State) (h : HeaterIx) : (s.heaterOff h).markerMisses = s.markerMisses := rfl

/-! ### `allOutputsOff` -/

@[simp] theorem allOutputsOff_phase (s : State) : s.allOutputsOff.phase = s.phase := by
  simp only [State.allOutputsOff, driveHp_phase, heaterOff_phase]
@[simp] theorem allOutputsOff_sns (s : State) : s.allOutputsOff.sns = s.sns := by
  simp only [State.allOutputsOff, driveHp_sns, heaterOff_sns]
@[simp] theorem allOutputsOff_nvm (s : State) : s.allOutputsOff.nvm = s.nvm := by
  simp only [State.allOutputsOff, driveHp_nvm, heaterOff_nvm]
@[simp] theorem allOutputsOff_telemetry (s : State) : s.allOutputsOff.telemetry = s.telemetry := by
  simp only [State.allOutputsOff, driveHp_telemetry, heaterOff_telemetry]
@[simp] theorem allOutputsOff_conn (s : State) : s.allOutputsOff.conn = s.conn := by
  simp only [State.allOutputsOff, driveHp_conn, heaterOff_conn]
@[simp] theorem allOutputsOff_tick (s : State) : s.allOutputsOff.tick = s.tick := by
  simp only [State.allOutputsOff, driveHp_tick, heaterOff_tick]
@[simp] theorem allOutputsOff_inbox (s : State) : s.allOutputsOff.inbox = s.inbox := by
  simp only [State.allOutputsOff, driveHp_inbox, heaterOff_inbox]
@[simp] theorem allOutputsOff_resetAsserted (s : State) : s.allOutputsOff.resetAsserted = s.resetAsserted := by
  simp only [State.allOutputsOff, driveHp_resetAsserted, heaterOff_resetAsserted]
@[simp] theorem allOutputsOff_cut (s : State) : s.allOutputsOff.cut = s.cut := by
  simp only [State.allOutputsOff, driveHp_cut, heaterOff_cut]
@[simp] theorem allOutputsOff_markerMisses (s : State) : s.allOutputsOff.markerMisses = s.markerMisses := by
  simp only [State.allOutputsOff, driveHp_markerMisses, heaterOff_markerMisses]

/-! ### `guardOff` -/

@[simp] theorem guardOff_phase (s : State) (h : HeaterIx) : (s.guardOff h).phase = s.phase := rfl
@[simp] theorem guardOff_hp (s : State) (h : HeaterIx) : (s.guardOff h).hp = s.hp := rfl
@[simp] theorem guardOff_sns (s : State) (h : HeaterIx) : (s.guardOff h).sns = s.sns := rfl
@[simp] theorem guardOff_nvm (s : State) (h : HeaterIx) : (s.guardOff h).nvm = s.nvm := rfl
@[simp] theorem guardOff_telemetry (s : State) (h : HeaterIx) : (s.guardOff h).telemetry = s.telemetry := rfl
@[simp] theorem guardOff_log (s : State) (h : HeaterIx) : (s.guardOff h).log = s.log ++ dacActions h 0 := rfl
@[simp] theorem guardOff_conn (s : State) (h : HeaterIx) : (s.guardOff h).conn = s.conn := rfl
@[simp] theorem guardOff_tick (s : State) (h : HeaterIx) : (s.guardOff h).tick = s.tick := rfl
@[simp] theorem guardOff_inbox (s : State) (h : HeaterIx) : (s.guardOff h).inbox = s.inbox := rfl
@[simp] theorem guardOff_resetAsserted (s : State) (h : HeaterIx) : (s.guardOff h).resetAsserted = s.resetAsserted := rfl
@[simp] theorem guardOff_cut (s : State) (h : HeaterIx) : (s.guardOff h).cut = s.cut := rfl
@[simp] theorem guardOff_markerMisses (s : State) (h : HeaterIx) : (s.guardOff h).markerMisses = s.markerMisses := rfl

/-! ### `finishHeater` -/

@[simp] theorem finishHeater_phase (s : State) (h : HeaterIx) (pv mc : F32) (r : LawResult) : (s.finishHeater h pv mc r).phase = s.phase := rfl
@[simp] theorem finishHeater_hp (s : State) (h : HeaterIx) (pv mc : F32) (r : LawResult) : (s.finishHeater h pv mc r).hp = s.hp := rfl
@[simp] theorem finishHeater_sns (s : State) (h : HeaterIx) (pv mc : F32) (r : LawResult) : (s.finishHeater h pv mc r).sns = s.sns := rfl
@[simp] theorem finishHeater_nvm (s : State) (h : HeaterIx) (pv mc : F32) (r : LawResult) : (s.finishHeater h pv mc r).nvm = s.nvm := rfl
@[simp] theorem finishHeater_telemetry (s : State) (h : HeaterIx) (pv mc : F32) (r : LawResult) : (s.finishHeater h pv mc r).telemetry = s.telemetry := rfl
@[simp] theorem finishHeater_conn (s : State) (h : HeaterIx) (pv mc : F32) (r : LawResult) : (s.finishHeater h pv mc r).conn = s.conn := rfl
@[simp] theorem finishHeater_tick (s : State) (h : HeaterIx) (pv mc : F32) (r : LawResult) : (s.finishHeater h pv mc r).tick = s.tick := rfl
@[simp] theorem finishHeater_inbox (s : State) (h : HeaterIx) (pv mc : F32) (r : LawResult) : (s.finishHeater h pv mc r).inbox = s.inbox := rfl
@[simp] theorem finishHeater_resetAsserted (s : State) (h : HeaterIx) (pv mc : F32) (r : LawResult) : (s.finishHeater h pv mc r).resetAsserted = s.resetAsserted := rfl
@[simp] theorem finishHeater_cut (s : State) (h : HeaterIx) (pv mc : F32) (r : LawResult) : (s.finishHeater h pv mc r).cut = s.cut := rfl
@[simp] theorem finishHeater_markerMisses (s : State) (h : HeaterIx) (pv mc : F32) (r : LawResult) : (s.finishHeater h pv mc r).markerMisses = s.markerMisses := rfl

/-! ### `setPhase` -/

@[simp] theorem setPhase_phase (s : State) (p : Phase) : (s.setPhase p).phase = p := rfl
@[simp] theorem setPhase_htr (s : State) (p : Phase) : (s.setPhase p).htr = s.htr := rfl
@[simp] theorem setPhase_hp (s : State) (p : Phase) : (s.setPhase p).hp = s.hp := rfl
@[simp] theorem setPhase_sns (s : State) (p : Phase) : (s.setPhase p).sns = s.sns := rfl
@[simp] theorem setPhase_nvm (s : State) (p : Phase) : (s.setPhase p).nvm = s.nvm := rfl
@[simp] theorem setPhase_telemetry (s : State) (p : Phase) : (s.setPhase p).telemetry = s.telemetry := rfl
@[simp] theorem setPhase_log (s : State) (p : Phase) : (s.setPhase p).log = s.log := rfl
@[simp] theorem setPhase_conn (s : State) (p : Phase) : (s.setPhase p).conn = s.conn := rfl
@[simp] theorem setPhase_tick (s : State) (p : Phase) : (s.setPhase p).tick = s.tick := rfl
@[simp] theorem setPhase_inbox (s : State) (p : Phase) : (s.setPhase p).inbox = s.inbox := rfl
@[simp] theorem setPhase_resetAsserted (s : State) (p : Phase) : (s.setPhase p).resetAsserted = s.resetAsserted := rfl
@[simp] theorem setPhase_cut (s : State) (p : Phase) : (s.setPhase p).cut = s.cut := rfl
@[simp] theorem setPhase_markerMisses (s : State) (p : Phase) : (s.setPhase p).markerMisses = s.markerMisses := rfl
@[simp] theorem heater_setPhase (s : State) (p : Phase) (h : HeaterIx) : (s.setPhase p).heater h = s.heater h := rfl
@[simp] theorem highPower_setPhase (s : State) (p : Phase) (j : HpIx) : (s.setPhase p).highPower j = s.highPower j := rfl
@[simp] theorem sensor_setPhase (s : State) (p : Phase) (n : SensorIx) : (s.setPhase p).sensor n = s.sensor n := rfl

/-! ### `configStoreFault` -/

@[simp] theorem configStoreFault_phase (s : State) : (s.configStoreFault).phase = .fault := rfl
@[simp] theorem configStoreFault_htr (s : State) : (s.configStoreFault).htr = s.htr := rfl
@[simp] theorem configStoreFault_hp (s : State) : (s.configStoreFault).hp = s.hp := rfl
@[simp] theorem configStoreFault_sns (s : State) : (s.configStoreFault).sns = s.sns := rfl
@[simp] theorem configStoreFault_nvm (s : State) : (s.configStoreFault).nvm = s.nvm := rfl
@[simp] theorem configStoreFault_telemetry (s : State) : (s.configStoreFault).telemetry = s.telemetry := rfl
@[simp] theorem configStoreFault_log (s : State) : (s.configStoreFault).log = s.log := rfl
@[simp] theorem configStoreFault_conn (s : State) : (s.configStoreFault).conn = s.conn := rfl
@[simp] theorem configStoreFault_tick (s : State) : (s.configStoreFault).tick = s.tick := rfl
@[simp] theorem configStoreFault_inbox (s : State) : (s.configStoreFault).inbox = s.inbox := rfl
@[simp] theorem configStoreFault_resetAsserted (s : State) : (s.configStoreFault).resetAsserted = s.resetAsserted := rfl
@[simp] theorem configStoreFault_cut (s : State) : (s.configStoreFault).cut = s.cut := rfl
@[simp] theorem configStoreFault_markerMisses (s : State) : (s.configStoreFault).markerMisses = s.markerMisses := rfl

/-! ### `codecRangeFault` -/

@[simp] theorem codecRangeFault_phase (s : State) : s.codecRangeFault.phase = .fault := rfl
@[simp] theorem codecRangeFault_htr (s : State) : s.codecRangeFault.htr = s.allOutputsOff.htr := rfl
@[simp] theorem codecRangeFault_hp (s : State) : s.codecRangeFault.hp = s.allOutputsOff.hp := rfl
@[simp] theorem codecRangeFault_sns (s : State) : s.codecRangeFault.sns = s.sns := allOutputsOff_sns s
@[simp] theorem codecRangeFault_nvm (s : State) : s.codecRangeFault.nvm = s.nvm := allOutputsOff_nvm s
@[simp] theorem codecRangeFault_telemetry (s : State) : s.codecRangeFault.telemetry = s.telemetry := allOutputsOff_telemetry s
@[simp] theorem codecRangeFault_log (s : State) : s.codecRangeFault.log = s.allOutputsOff.log := rfl
@[simp] theorem codecRangeFault_conn (s : State) : s.codecRangeFault.conn = s.conn := allOutputsOff_conn s
@[simp] theorem codecRangeFault_tick (s : State) : s.codecRangeFault.tick = s.tick := allOutputsOff_tick s
@[simp] theorem codecRangeFault_inbox (s : State) : s.codecRangeFault.inbox = s.inbox := allOutputsOff_inbox s
@[simp] theorem codecRangeFault_resetAsserted (s : State) : s.codecRangeFault.resetAsserted = s.resetAsserted := allOutputsOff_resetAsserted s
@[simp] theorem codecRangeFault_cut (s : State) : s.codecRangeFault.cut = s.cut := allOutputsOff_cut s
@[simp] theorem codecRangeFault_markerMisses (s : State) : s.codecRangeFault.markerMisses = s.markerMisses := allOutputsOff_markerMisses s

/-! ### `stop` -/

@[simp] theorem stop_phase (s : State) : s.stop.phase = .halted := rfl
@[simp] theorem stop_htr (s : State) : s.stop.htr = s.allOutputsOff.htr := rfl
@[simp] theorem stop_hp (s : State) : s.stop.hp = s.allOutputsOff.hp := rfl
@[simp] theorem stop_sns (s : State) : s.stop.sns = s.sns := allOutputsOff_sns s
@[simp] theorem stop_nvm (s : State) : s.stop.nvm = s.nvm := allOutputsOff_nvm s
@[simp] theorem stop_telemetry (s : State) : s.stop.telemetry = s.telemetry := allOutputsOff_telemetry s
@[simp] theorem stop_log (s : State) : s.stop.log = s.allOutputsOff.log := rfl
@[simp] theorem stop_conn (s : State) : s.stop.conn = s.conn := allOutputsOff_conn s
@[simp] theorem stop_tick (s : State) : s.stop.tick = s.tick := allOutputsOff_tick s
@[simp] theorem stop_inbox (s : State) : s.stop.inbox = s.inbox := allOutputsOff_inbox s
@[simp] theorem stop_resetAsserted (s : State) : s.stop.resetAsserted = s.resetAsserted := allOutputsOff_resetAsserted s
@[simp] theorem stop_cut (s : State) : s.stop.cut = s.cut := allOutputsOff_cut s
@[simp] theorem stop_markerMisses (s : State) : s.stop.markerMisses = s.markerMisses := allOutputsOff_markerMisses s

/-! ### `applyReset` -/

@[simp] theorem applyReset_phase (s : State) : s.applyReset.phase = .reset := rfl
@[simp] theorem applyReset_htr (s : State) : s.applyReset.htr = State.reset.htr := rfl
@[simp] theorem applyReset_hp (s : State) : s.applyReset.hp = State.reset.hp := rfl
@[simp] theorem applyReset_sns (s : State) : s.applyReset.sns = State.reset.sns := rfl
@[simp] theorem applyReset_nvm (s : State) : s.applyReset.nvm = s.nvm := rfl
@[simp] theorem applyReset_telemetry (s : State) : s.applyReset.telemetry = none := rfl
@[simp] theorem applyReset_log (s : State) : s.applyReset.log = s.log ++ resetActions := rfl
@[simp] theorem applyReset_conn (s : State) : s.applyReset.conn = s.conn := rfl
@[simp] theorem applyReset_tick (s : State) : s.applyReset.tick = none := rfl
@[simp] theorem applyReset_inbox (s : State) : s.applyReset.inbox = s.inbox := rfl
@[simp] theorem applyReset_resetAsserted (s : State) : s.applyReset.resetAsserted = true := rfl
@[simp] theorem applyReset_cut (s : State) : s.applyReset.cut = none := rfl
@[simp] theorem applyReset_markerMisses (s : State) : s.applyReset.markerMisses = s.markerMisses := rfl

/-! ### Accessors -/

/-- Reading a heater channel after writing one. -/
theorem heater_setHeater (s : State) (h h' : HeaterIx) (c : Heater) :
    (s.setHeater h c).heater h' = if h' = h then c else s.heater h' := by
  by_cases e : h' = h
  · subst e; simp [State.heater, State.setHeater]
  · have : (h : Nat) ≠ h' := fun q => e (Fin.ext q.symm)
    simp [State.heater, State.setHeater, e, this]

@[simp] theorem heater_setHeater_same (s : State) (h : HeaterIx) (c : Heater) :
    (s.setHeater h c).heater h = c := by simp [heater_setHeater]

theorem heater_setHeater_ne (s : State) {h h' : HeaterIx} (c : Heater) (e : h' ≠ h) :
    (s.setHeater h c).heater h' = s.heater h' := by simp [heater_setHeater, e]

/-- Reading a high-power channel after writing one. -/
theorem highPower_setHighPower (s : State) (j j' : HpIx) (c : HighPower) :
    (s.setHighPower j c).highPower j' = if j' = j then c else s.highPower j' := by
  by_cases e : j' = j
  · subst e; simp [State.highPower, State.setHighPower]
  · have : (j : Nat) ≠ j' := fun q => e (Fin.ext q.symm)
    simp [State.highPower, State.setHighPower, e, this]

@[simp] theorem highPower_setHighPower_same (s : State) (j : HpIx) (c : HighPower) :
    (s.setHighPower j c).highPower j = c := by simp [highPower_setHighPower]

theorem highPower_setHighPower_ne (s : State) {j j' : HpIx} (c : HighPower) (e : j' ≠ j) :
    (s.setHighPower j c).highPower j' = s.highPower j' := by simp [highPower_setHighPower, e]

/-- Reading a sensor channel after writing one. -/
theorem sensor_setSensor (s : State) (n n' : SensorIx) (c : Sensor) :
    (s.setSensor n c).sensor n' = if n' = n then c else s.sensor n' := by
  by_cases e : n' = n
  · subst e; simp [State.sensor, State.setSensor]
  · have : (n : Nat) ≠ n' := fun q => e (Fin.ext q.symm)
    simp [State.sensor, State.setSensor, e, this]

@[simp] theorem sensor_setSensor_same (s : State) (n : SensorIx) (c : Sensor) :
    (s.setSensor n c).sensor n = c := by simp [sensor_setSensor]

theorem sensor_setSensor_ne (s : State) {n n' : SensorIx} (c : Sensor) (e : n' ≠ n) :
    (s.setSensor n c).sensor n' = s.sensor n' := by simp [sensor_setSensor, e]

@[simp] theorem heater_setHighPower (s : State) (j : HpIx) (c : HighPower) (h : HeaterIx) :
    (s.setHighPower j c).heater h = s.heater h := rfl
@[simp] theorem heater_setSensor (s : State) (n : SensorIx) (c : Sensor) (h : HeaterIx) :
    (s.setSensor n c).heater h = s.heater h := rfl
@[simp] theorem heater_emit (s : State) (as : List Action) (h : HeaterIx) :
    (s.emit as).heater h = s.heater h := rfl
@[simp] theorem heater_respond (s : State) (r : Reply) (h : HeaterIx) :
    (s.respond r).heater h = s.heater h := rfl
@[simp] theorem highPower_setHeater (s : State) (h : HeaterIx) (c : Heater) (j : HpIx) :
    (s.setHeater h c).highPower j = s.highPower j := rfl
@[simp] theorem highPower_setSensor (s : State) (n : SensorIx) (c : Sensor) (j : HpIx) :
    (s.setSensor n c).highPower j = s.highPower j := rfl
@[simp] theorem highPower_emit (s : State) (as : List Action) (j : HpIx) :
    (s.emit as).highPower j = s.highPower j := rfl
@[simp] theorem highPower_respond (s : State) (r : Reply) (j : HpIx) :
    (s.respond r).highPower j = s.highPower j := rfl
@[simp] theorem sensor_setHeater (s : State) (h : HeaterIx) (c : Heater) (n : SensorIx) :
    (s.setHeater h c).sensor n = s.sensor n := rfl
@[simp] theorem sensor_setHighPower (s : State) (j : HpIx) (c : HighPower) (n : SensorIx) :
    (s.setHighPower j c).sensor n = s.sensor n := rfl
@[simp] theorem sensor_emit (s : State) (as : List Action) (n : SensorIx) :
    (s.emit as).sensor n = s.sensor n := rfl
@[simp] theorem sensor_respond (s : State) (r : Reply) (n : SensorIx) :
    (s.respond r).sensor n = s.sensor n := rfl

end Sys2Proof.Machine
end

