-- ==== Sys2Proof/Laws/Frame.lean ====
section
/-! SUPPORT. Registers by name after the named updates: what `readReg` gives, and the frames built from
it. -/

namespace Sys2Proof.Machine

open Sys2Proof

@[simp] theorem readReg_emit (s : State) (as : List Action) (r : Reg) :
    (s.emit as).readReg r = s.readReg r := by cases r <;> rfl

@[simp] theorem readReg_respond (s : State) (a : Reply) (r : Reg) :
    (s.respond a).readReg r = s.readReg r := by cases r <;> rfl

/-- A heater channel written: its registers are the new ones, the others as before. -/
theorem readReg_setHeater (s : State) (h : HeaterIx) (c : Heater) (r : Reg) :
    (s.setHeater h c).readReg r =
      match r with
      | .heater h' f => if h' = h then readHeaterReg c f else s.readReg r
      | _ => s.readReg r := by
  cases r with
  | heater h' f =>
    simp only [State.readReg, heater_setHeater]
    split <;> rfl
  | _ => rfl

/-- A high-power channel written: its registers are the new ones, the others as before. -/
theorem readReg_setHighPower (s : State) (j : HpIx) (c : HighPower) (r : Reg) :
    (s.setHighPower j c).readReg r =
      match r with
      | .highPower j' f => if j' = j then readHpReg c f else s.readReg r
      | _ => s.readReg r := by
  cases r with
  | highPower j' f =>
    simp only [State.readReg, highPower_setHighPower]
    split <;> rfl
  | _ => rfl

/-- A sensor channel written: its registers are the new ones, the others as before. -/
theorem readReg_setSensor (s : State) (n : SensorIx) (c : Sensor) (r : Reg) :
    (s.setSensor n c).readReg r =
      match r with
      | .sensor n' f => if n' = n then readSensorReg c f else s.readReg r
      | _ => s.readReg r := by
  cases r with
  | sensor n' f =>
    simp only [State.readReg, sensor_setSensor]
    split <;> rfl
  | _ => rfl

/-- The frame of a heater channel written: the registers of the list, and those that keep their value. -/
theorem regsKept_setHeater {s : State} {h : HeaterIx} {c : Heater} {rs : List Reg}
    (k : ∀ f, Reg.heater h f ∉ rs → readHeaterReg c f = readHeaterReg (s.heater h) f) :
    RegsKept rs s (s.setHeater h c) := by
  intro r hr
  rw [readReg_setHeater]
  cases r with
  | heater h' f =>
    by_cases e : h' = h
    · subst e; simpa [State.readReg] using k f hr
    · simp [e]
  | _ => rfl

/-- The frame of a high-power channel written. -/
theorem regsKept_setHighPower {s : State} {j : HpIx} {c : HighPower} {rs : List Reg}
    (k : ∀ f, Reg.highPower j f ∉ rs → readHpReg c f = readHpReg (s.highPower j) f) :
    RegsKept rs s (s.setHighPower j c) := by
  intro r hr
  rw [readReg_setHighPower]
  cases r with
  | highPower j' f =>
    by_cases e : j' = j
    · subst e; simpa [State.readReg] using k f hr
    · simp [e]
  | _ => rfl

/-- The frame of a sensor channel written. -/
theorem regsKept_setSensor {s : State} {n : SensorIx} {c : Sensor} {rs : List Reg}
    (k : ∀ f, Reg.sensor n f ∉ rs → readSensorReg c f = readSensorReg (s.sensor n) f) :
    RegsKept rs s (s.setSensor n c) := by
  intro r hr
  rw [readReg_setSensor]
  cases r with
  | sensor n' f =>
    by_cases e : n' = n
    · subst e; simpa [State.readReg] using k f hr
    · simp [e]
  | _ => rfl

theorem regsKept_emit {rs : List Reg} {s t : State} {as : List Action} :
    RegsKept rs s (t.emit as) ↔ RegsKept rs s t := by simp [RegsKept]

theorem regsKept_respond {rs : List Reg} {s t : State} {a : Reply} :
    RegsKept rs s (t.respond a) ↔ RegsKept rs s t := by simp [RegsKept]

theorem RegsKept.trans {rs rs' : List Reg} {s t u : State} (h : RegsKept rs s t) (h' : RegsKept rs' t u) :
    RegsKept (rs ++ rs') s u := by
  intro r hr
  simp only [List.mem_append, not_or] at hr
  exact (h' r hr.2).trans (h r hr.1)

theorem RegsKept.mono {rs rs' : List Reg} {s t : State} (h : RegsKept rs s t) (k : rs ⊆ rs') :
    RegsKept rs' s t := fun r hr => h r fun m => hr (k m)

end Sys2Proof.Machine
end

