-- ==== Sys2Proof/Laws/Memory.lean ====
section
/-! SUPPORT. The laws of the store: a read after a write, and that every operation on the store keeps
its canonical form. -/

namespace Sys2Proof.Machine

open Sys2Proof

/-! ### Canonical form -/

theorem Memory.wfFrom_cons {lo k : Nat} {v : Byte} {m : Memory} :
    Memory.wfFrom lo ((k, v) :: m) = true ↔
      lo ≤ k ∧ k < Config.storeSize ∧ v ≠ Config.blankByte ∧ Memory.wfFrom (k + 1) m = true := by
  simp [Memory.wfFrom, and_assoc]

/-- A lower starting address is no harder. -/
theorem Memory.wfFrom_mono {lo lo' : Nat} {m : Memory} (h : lo' ≤ lo)
    (w : Memory.wfFrom lo m = true) : Memory.wfFrom lo' m = true := by
  cases m with
  | nil => rfl
  | cons e m =>
    obtain ⟨k, v⟩ := e
    rw [Memory.wfFrom_cons] at w ⊢
    exact ⟨h.trans w.1, w.2⟩

/-- Below its starting address a canonical store holds blank bytes. -/
theorem Memory.read_below {lo a : Nat} {m : Memory} (w : Memory.wfFrom lo m = true) (h : a < lo) :
    Memory.read m a = Config.blankByte := by
  induction m generalizing lo with
  | nil => rfl
  | cons e m ih =>
    obtain ⟨k, v⟩ := e
    rw [Memory.wfFrom_cons] at w
    have : k ≠ a := by omega
    simp only [Memory.read, this, if_false]
    exact ih w.2.2.2 (by omega)

/-- A write keeps the canonical form. -/
theorem Memory.write_wfFrom {lo a : Nat} {b : Byte} {m : Memory} (w : Memory.wfFrom lo m = true)
    (hl : lo ≤ a) (ha : a < Config.storeSize) : Memory.wfFrom lo (Memory.write m a b) = true := by
  induction m generalizing lo with
  | nil =>
    simp only [Memory.write]
    split
    · rfl
    · rw [Memory.wfFrom_cons]; exact ⟨hl, ha, ‹_›, rfl⟩
  | cons e m ih =>
    obtain ⟨k, v⟩ := e
    have w' := Memory.wfFrom_cons.1 w
    simp only [Memory.write]
    split
    · split
      · exact w
      · rw [Memory.wfFrom_cons, Memory.wfFrom_cons]
        exact ⟨hl, ha, ‹_›, by omega, w'.2⟩
    · split
      · subst a
        split
        · exact Memory.wfFrom_mono (by omega) w'.2.2.2
        · rw [Memory.wfFrom_cons]; exact ⟨w'.1, w'.2.1, ‹_›, w'.2.2.2⟩
      · rw [Memory.wfFrom_cons]
        exact ⟨w'.1, w'.2.1, w'.2.2.1, ih w'.2.2.2 (by omega)⟩

/-- A read after a write gives the byte written, and every other byte as before. -/
theorem Memory.read_write {lo : Nat} {m : Memory} (w : Memory.wfFrom lo m = true) (a a' : Nat)
    (b : Byte) : Memory.read (Memory.write m a b) a' = if a' = a then b else Memory.read m a' := by
  induction m generalizing lo with
  | nil =>
    simp only [Memory.write]
    split
    · simp_all [Memory.read]
    · simp [Memory.read, eq_comm]
  | cons e m ih =>
    obtain ⟨k, v⟩ := e
    have w' := Memory.wfFrom_cons.1 w
    have ih := ih w'.2.2.2
    simp only [Memory.write]
    split
    · have hb := Memory.read_below (a := a) (Memory.wfFrom_mono (Nat.le_refl k)
        (Memory.wfFrom_cons.2 ⟨Nat.le_refl k, w'.2⟩)) ‹_›
      split
      · by_cases e : a' = a
        · subst e; simp_all
        · simp [e]
      · by_cases e : a' = a
        · subst e; simp [Memory.read]
        · simp [Memory.read, Ne.symm e, e]
    · split
      · subst a
        have hb := Memory.read_below (a := k) w'.2.2.2 (by omega)
        split
        · by_cases e : a' = k
          · subst e; simp_all
          · simp [Memory.read, Ne.symm e, e]
        · by_cases e : a' = k
          · subst e; simp [Memory.read]
          · simp [Memory.read, Ne.symm e, e]
      · by_cases e : a' = k
        · subst e
          have : ¬a' = a := fun q => by omega
          simp [Memory.read, this]
        · simp [Memory.read, Ne.symm e, ih]

/-- Writing a payload inside the store keeps the canonical form. -/
theorem Memory.writeBytes_wf {m : Memory} {a : Nat} {bs : List Byte} (w : m.wf = true)
    (h : a + bs.length ≤ Config.storeSize) : (m.writeBytes a bs).wf = true := by
  induction bs generalizing m a with
  | nil => exact w
  | cons b bs ih =>
    simp only [List.length_cons] at h
    exact ih (Memory.write_wfFrom w (Nat.zero_le _) (by omega)) (by omega)

/-- A payload's bytes stand at its addresses, and every other byte as before. -/
theorem Memory.read_writeBytes {m : Memory} {a : Nat} {bs : List Byte} (w : m.wf = true)
    (h : a + bs.length ≤ Config.storeSize) (a' : Nat) :
    (m.writeBytes a bs).read a' =
      if a ≤ a' ∧ a' < a + bs.length then bs.getD (a' - a) 0 else m.read a' := by
  induction bs generalizing m a with
  | nil => simp [Memory.writeBytes]
  | cons b bs ih =>
    simp only [List.length_cons] at h
    rw [Memory.writeBytes, ih (Memory.write_wfFrom w (Nat.zero_le _) (by omega)) (by omega),
      Memory.read_write w]
    simp only [List.length_cons]
    by_cases e : a' = a
    · subst e; simp
    · by_cases q : a + 1 ≤ a' ∧ a' < a + 1 + bs.length
      · have : a' - a = (a' - (a + 1)) + 1 := by omega
        rw [if_pos q, if_pos (by omega), this, List.getD_cons_succ]
      · rw [if_neg q, if_neg e, if_neg (by omega)]

/-- Reading a range gives as many bytes as asked for. -/
@[simp] theorem Memory.length_readBytes (m : Memory) (a n : Nat) : (m.readBytes a n).length = n := by
  induction n generalizing a with
  | zero => rfl
  | succ n ih => simp [Memory.readBytes, ih]

/-- Byte `i` of a range read. -/
theorem Memory.getD_readBytes (m : Memory) (a n i : Nat) (h : i < n) :
    (m.readBytes a n).getD i 0 = m.read (a + i) := by
  induction n generalizing a i with
  | zero => omega
  | succ n ih =>
    cases i with
    | zero => simp [Memory.readBytes]
    | succ i =>
      rw [Memory.readBytes, List.getD_cons_succ, ih (a + 1) i (by omega)]
      congr 1; omega

/-- A range read depends on the bytes of the range only. -/
theorem Memory.readBytes_congr {m m' : Memory} {a n : Nat}
    (h : ∀ a', a ≤ a' → a' < a + n → m'.read a' = m.read a') :
    m'.readBytes a n = m.readBytes a n := by
  induction n generalizing a with
  | zero => rfl
  | succ n ih =>
    simp only [Memory.readBytes]
    rw [h a (Nat.le_refl a) (by omega), ih fun a' h1 h2 => h a' (by omega) (by omega)]

/-- Reading back a payload. -/
theorem Memory.readBytes_writeBytes {m : Memory} {a : Nat} {bs : List Byte} (w : m.wf = true)
    (h : a + bs.length ≤ Config.storeSize) : (m.writeBytes a bs).readBytes a bs.length = bs := by
  apply List.ext_getElem (by simp)
  intro i h1 h2
  have := Memory.getD_readBytes (m.writeBytes a bs) a bs.length i h2
  rw [List.getD_eq_getElem _ _ h1] at this
  rw [this, Memory.read_writeBytes w h, if_pos (by omega), Nat.add_sub_cancel_left,
    List.getD_eq_getElem _ _ h2]

/-! ### The ports -/

/-- A payload on its way through the port keeps the canonical form. -/
theorem storeWrite_wf {nvm : Memory} {misses a : Nat} {bs : List Byte} (w : nvm.wf = true)
    (h : a + bs.length ≤ Config.storeSize) : (storeWrite nvm misses a bs).1.wf = true := by
  unfold storeWrite
  split
  · exact w
  · exact Memory.writeBytes_wf w h

/-- Off the marker, or with no miss to come, the port writes the payload. -/
theorem storeWrite_takes {nvm : Memory} {misses a : Nat} {bs : List Byte}
    (h : a ≠ Config.markerAddr ∨ misses = 0) :
    storeWrite nvm misses a bs = (nvm.writeBytes a bs, misses) := by
  unfold storeWrite
  rw [if_neg]
  rintro ⟨h1, h2⟩
  omega

/-- All a store write can do: inside the store it takes effect and is logged, else it faults. -/
theorem memWrite_eq (s : State) (a : Nat) (bs : List Byte) :
    s.memWrite a bs =
      if a + bs.length ≤ Config.storeSize then
        .ok { s with
          nvm := (storeWrite s.nvm s.markerMisses a bs).1
          markerMisses := (storeWrite s.nvm s.markerMisses a bs).2
          log := s.log ++ [.memWrite a bs] }
      else .error (.storeAddress a) := rfl

/-- All a store read can do: inside the store it gives the bytes and is logged, else it faults. -/
theorem memRead_eq (s : State) (a n : Nat) :
    s.memRead a n =
      if a + n ≤ Config.storeSize then .ok (s.nvm.readBytes a n, s.emit [.memRead a n])
      else .error (.storeAddress a) := rfl

/-- The actions of a list of store writes. -/
def writeActions (ws : List (Nat × List Byte)) : List Action := ws.map fun w => .memWrite w.1 w.2

/-- All a list of store writes inside the store does: the writes, in order, and their actions. -/
theorem writeAll_eq {ws : List (Nat × List Byte)} (s : State)
    (h : ∀ w ∈ ws, w.1 + w.2.length ≤ Config.storeSize) :
    s.writeAll ws =
      .ok { s with
        nvm := (replayStore (s.nvm, s.markerMisses) (writeActions ws)).1
        markerMisses := (replayStore (s.nvm, s.markerMisses) (writeActions ws)).2
        log := s.log ++ writeActions ws } := by
  induction ws generalizing s with
  | nil => simp [State.writeAll, writeActions, replayStore]
  | cons w ws ih =>
    obtain ⟨a, bs⟩ := w
    have h1 : a + bs.length ≤ Config.storeSize := h (a, bs) (by simp)
    simp only [State.writeAll, memWrite_eq, if_pos h1, bind, Except.bind]
    rw [ih _ fun w hw => h w (by simp [hw])]
    simp [writeActions, replayStore]

/-- Replaying actions that stay inside the store keeps the canonical form. -/
theorem replayStore_wf {as : List Action} {st : Memory × Nat} (w : st.1.wf = true)
    (h : ∀ a bs, Action.memWrite a bs ∈ as → a + bs.length ≤ Config.storeSize) :
    (replayStore st as).1.wf = true := by
  induction as generalizing st with
  | nil => exact w
  | cons x as ih =>
    cases x <;>
      first
      | exact ih (st := storeWrite _ _ _ _) (storeWrite_wf w (h _ _ (by simp)))
          fun a bs m => h a bs (by simp [m])
      | exact ih w fun a bs m => h a bs (by simp [m])

end Sys2Proof.Machine
end

