-- ==== Sys2Proof/Laws/Boot.lean ====
section
/-! SUPPORT. All that COMMIT, READOUT, STAMP and LOAD can do, said once: the codec, the payloads, the store
after them and the registers after them. -/

namespace Sys2Proof.Machine

open Sys2Proof

/-! ### The codec -/

theorem decodeF32_encodeF32 (p : F32) :
    p.extractLsb' 24 8 ++ p.extractLsb' 16 8 ++ p.extractLsb' 8 8 ++ p.extractLsb' 0 8 = p := by
  ext i hi
  simp only [BitVec.getElem_append, BitVec.getElem_extractLsb']
  split
  · rw [BitVec.getLsbD_eq_getElem (by omega)]; congr 1; omega
  · split
    · rw [BitVec.getLsbD_eq_getElem (by omega)]; congr 1; omega
    · split
      · rw [BitVec.getLsbD_eq_getElem (by omega)]; congr 1; omega
      · rw [BitVec.getLsbD_eq_getElem (by omega)]; congr 1; omega

@[simp] theorem encodeU8_eq (b : Byte) : encodeU8 b = some [b] := by
  have h : (b.toNat : Int) < 2 ^ 8 := by have := b.isLt; omega
  simp only [encodeU8, encodeInt, Bool.false_eq_true, if_false, Nat.mul_one]
  rw [if_pos ⟨by omega, h⟩]
  simp [natBytes]

/-- The bytes of a slot from the registers; the codec never fails on them (20_memory.md R73). -/
def State.slotData (s : State) : Slot → List Byte
  | .heater h =>
    let c := s.heater h
    [heaterModeCode c.mode, c.sns] ++ (encodeF32 c.sp ++ (encodeF32 c.kp ++ (encodeF32 c.ki ++
      (encodeF32 c.kd ++ (encodeF32 c.res ++ (encodeF32 c.fp ++ (encodeF32 c.tmax ++
        encodeF32 c.tmin)))))))
  | .highPower j =>
    let c := s.highPower j
    [hpModeCode c.mode, c.sns] ++ (encodeF32 c.sp ++ (encodeF32 c.hyst ++ (encodeF32 c.tmax ++
      encodeF32 c.tmin)))
  | .sensor n => [sensorTypeCode (s.sensor n).type, tempUnitCode (s.sensor n).units]

theorem slotBytes_eq (s : State) (id : Slot) : s.slotBytes id = some (s.slotData id) := by
  cases id <;> simp [State.slotBytes, encodeHeater, encodeHighPower, encodeSensor, State.slotData]

@[simp] theorem length_slotData (s : State) (id : Slot) : (s.slotData id).length = slotSize id := by
  cases id <;> simp [State.slotData, encodeF32, slotSize]

/-- The payloads of COMMIT over some slots. -/
def State.payloads (s : State) (ids : List Slot) : List (Nat × List Byte) :=
  ids.map fun id => (slotBase id, s.slotData id)

theorem commitWrites_eq (s : State) (ids : List Slot) : s.commitWrites ids = some (s.payloads ids) := by
  induction ids with
  | nil => rfl
  | cons id ids ih => simp [State.commitWrites, slotBytes_eq, ih, State.payloads]

/-! ### Slots -/

theorem slotRanges_eq : allSlots.map (fun id => (slotBase id, slotSize id)) = slotRanges := by decide

theorem mem_allSlots (id : Slot) : id ∈ allSlots := by
  rcases id with h | j | n
  · revert h; decide
  · revert j; decide
  · revert n; decide

/-- The slots lie one after the other, below address 0xC4 (20_memory.md R84). -/
theorem allSlots_disjoint :
    allSlots.Pairwise fun i j => slotBase i + slotSize i ≤ slotBase j := by decide

theorem slot_below (id : Slot) : slotBase id + slotSize id ≤ 0xC4 := by
  have : ∀ id ∈ allSlots, slotBase id + slotSize id ≤ 0xC4 := by decide
  exact this id (mem_allSlots id)

/-! ### The store after some payloads -/

/-- The store after payloads that all take. -/
def putAll (m : Memory) (ws : List (Nat × List Byte)) : Memory :=
  ws.foldl (fun m w => m.writeBytes w.1 w.2) m

theorem putAll_cons (m : Memory) (w : Nat × List Byte) (ws : List (Nat × List Byte)) :
    putAll m (w :: ws) = putAll (m.writeBytes w.1 w.2) ws := rfl

theorem putAll_wf {m : Memory} {ws : List (Nat × List Byte)} (w : m.wf = true)
    (h : ∀ w ∈ ws, w.1 + w.2.length ≤ Config.storeSize) : (putAll m ws).wf = true := by
  induction ws generalizing m with
  | nil => exact w
  | cons x ws ih =>
    rw [putAll_cons]
    exact ih (Memory.writeBytes_wf w (h x (by simp))) fun y hy => h y (by simp [hy])

/-- Outside the payloads every byte is as before. -/
theorem read_putAll_outside {m : Memory} {ws : List (Nat × List Byte)} {a : Nat} (w : m.wf = true)
    (h : ∀ w ∈ ws, w.1 + w.2.length ≤ Config.storeSize)
    (o : ∀ w ∈ ws, ¬(w.1 ≤ a ∧ a < w.1 + w.2.length)) : (putAll m ws).read a = m.read a := by
  induction ws generalizing m with
  | nil => rfl
  | cons x ws ih =>
    rw [putAll_cons, ih (Memory.writeBytes_wf w (h x (by simp))) (fun y hy => h y (by simp [hy]))
      fun y hy => o y (by simp [hy]), Memory.read_writeBytes w (h x (by simp)), if_neg (o x (by simp))]

/-- Inside a payload stands its byte, when no other payload lies over it. -/
theorem read_putAll_inside {m : Memory} {ws : List (Nat × List Byte)} {x : Nat × List Byte} {a : Nat}
    (w : m.wf = true) (h : ∀ w ∈ ws, w.1 + w.2.length ≤ Config.storeSize)
    (p : ws.Pairwise fun x y => x.1 + x.2.length ≤ y.1) (hx : x ∈ ws) (h1 : x.1 ≤ a)
    (h2 : a < x.1 + x.2.length) : (putAll m ws).read a = x.2.getD (a - x.1) 0 := by
  induction ws generalizing m with
  | nil => simp at hx
  | cons y ws ih =>
    rw [List.pairwise_cons] at p
    rw [putAll_cons]
    have hw := Memory.writeBytes_wf w (h y (by simp))
    have hs : ∀ w ∈ ws, w.1 + w.2.length ≤ Config.storeSize := fun z hz => h z (by simp [hz])
    rcases List.mem_cons.1 hx with rfl | hx
    · rw [read_putAll_outside hw hs fun z hz => by have := p.1 z hz; omega,
        Memory.read_writeBytes w (h x (by simp)), if_pos ⟨h1, h2⟩]
    · exact ih hw hs p.2 hx

/-- Payloads off the marker are not subject to a miss. -/
theorem replayStore_writeActions {m : Memory} {k : Nat} {ws : List (Nat × List Byte)}
    (h : ∀ w ∈ ws, w.1 ≠ Config.markerAddr) :
    replayStore (m, k) (writeActions ws) = (putAll m ws, k) := by
  induction ws generalizing m with
  | nil => rfl
  | cons x ws ih =>
    simp only [writeActions, List.map_cons, replayStore]
    rw [storeWrite_takes (.inl (h x (by simp))), putAll_cons]
    exact ih fun y hy => h y (by simp [hy])

theorem replayStore_append (st : Memory × Nat) (as bs : List Action) :
    replayStore st (as ++ bs) = replayStore (replayStore st as) bs := by
  induction as generalizing st with
  | nil => rfl
  | cons a as ih => cases a <;> simp only [List.cons_append, replayStore, ih]

theorem payloads_fit (s : State) (ids : List Slot) :
    ∀ w ∈ s.payloads ids, w.1 + w.2.length ≤ Config.storeSize := by
  intro w hw
  obtain ⟨id, -, rfl⟩ := List.mem_map.1 hw
  have := slot_below id
  simp only [length_slotData, Config.storeSize]; omega

theorem payloads_off_marker (s : State) (ids : List Slot) :
    ∀ w ∈ s.payloads ids, w.1 ≠ Config.markerAddr := by
  intro w hw
  obtain ⟨id, -, rfl⟩ := List.mem_map.1 hw
  have := slot_below id
  simp only [Config.markerAddr]; omega

/-! ### COMMIT -/

/-- The state after COMMIT, before its answer. -/
def State.committed (s : State) : State :=
  { s with
    nvm := putAll s.nvm (s.payloads allSlots)
    log := s.log ++ writeActions (s.payloads allSlots) }

@[simp] theorem committed_phase (s : State) : s.committed.phase = s.phase := by simp only [State.committed]
@[simp] theorem committed_htr (s : State) : s.committed.htr = s.htr := by simp only [State.committed]
@[simp] theorem committed_hp (s : State) : s.committed.hp = s.hp := by simp only [State.committed]
@[simp] theorem committed_sns (s : State) : s.committed.sns = s.sns := by simp only [State.committed]
@[simp] theorem committed_telemetry (s : State) : s.committed.telemetry = s.telemetry := by simp only [State.committed]
@[simp] theorem committed_conn (s : State) : s.committed.conn = s.conn := by simp only [State.committed]
@[simp] theorem committed_tick (s : State) : s.committed.tick = s.tick := by simp only [State.committed]
@[simp] theorem committed_inbox (s : State) : s.committed.inbox = s.inbox := by simp only [State.committed]
@[simp] theorem committed_resetAsserted (s : State) : s.committed.resetAsserted = s.resetAsserted := by simp only [State.committed]
@[simp] theorem committed_cut (s : State) : s.committed.cut = s.cut := by simp only [State.committed]
@[simp] theorem committed_markerMisses (s : State) : s.committed.markerMisses = s.markerMisses := by simp only [State.committed]
theorem committed_nvm (s : State) : s.committed.nvm = putAll s.nvm (s.payloads allSlots) := by
  simp only [State.committed]
theorem committed_log (s : State) : s.committed.log = s.log ++ writeActions (s.payloads allSlots) := by
  simp only [State.committed]
@[simp] theorem heater_committed (s : State) (h : HeaterIx) : s.committed.heater h = s.heater h := by
  simp only [State.heater, committed_htr]
@[simp] theorem highPower_committed (s : State) (j : HpIx) : s.committed.highPower j = s.highPower j := by
  simp only [State.highPower, committed_hp]
@[simp] theorem sensor_committed (s : State) (n : SensorIx) : s.committed.sensor n = s.sensor n := by
  simp only [State.sensor, committed_sns]

theorem writeAll_payloads (s : State) : s.writeAll (s.payloads allSlots) = .ok s.committed := by
  rw [writeAll_eq s (payloads_fit s allSlots), replayStore_writeActions (payloads_off_marker s allSlots)]
  simp only [State.committed]

/-- All that COMMIT does (20_memory.md R95). -/
theorem commitOk_eq (s : State) : s.commitOk = .next (s.committed.respond .ok) := by
  have h := writeAll_payloads s
  unfold State.commitOk
  rw [commitWrites_eq]
  simp only [h, ofStore, onNext]

/-- After COMMIT the bytes of a slot are those of its registers. -/
theorem read_commit_slot {s : State} (w : s.nvm.wf = true) (id : Slot) (i : Nat) (h : i < slotSize id) :
    (putAll s.nvm (s.payloads allSlots)).read (slotBase id + i) = (s.slotData id).getD i 0 := by
  have pw : (s.payloads allSlots).Pairwise fun x y => x.1 + x.2.length ≤ y.1 := by
    unfold State.payloads
    rw [List.pairwise_map]
    refine allSlots_disjoint.imp ?_
    intro i j q
    simp only [length_slotData]
    exact q
  have := read_putAll_inside (a := slotBase id + i) (x := (slotBase id, s.slotData id)) w
    (payloads_fit s allSlots) pw
    (List.mem_map.2 ⟨id, mem_allSlots id, rfl⟩) (Nat.le_add_right _ _)
    (by rw [length_slotData]; exact Nat.add_lt_add_left h _)
  rw [this, Nat.add_sub_cancel_left]

/-- COMMIT touches no byte from 0xC4 on. -/
theorem read_commit_above {s : State} (w : s.nvm.wf = true) {a : Nat} (h : 0xC4 ≤ a) :
    (putAll s.nvm (s.payloads allSlots)).read a = s.nvm.read a := by
  refine read_putAll_outside w (payloads_fit s allSlots) ?_
  intro w hw
  obtain ⟨id, -, rfl⟩ := List.mem_map.1 hw
  have := slot_below id
  simp only [length_slotData]; omega

/-! ### READOUT -/

@[simp] theorem loadSlot_nvm (s : State) (bs : List Byte) (id : Slot) :
    (s.loadSlot bs id).nvm = s.nvm := by cases id <;> rfl
@[simp] theorem loadSlot_log (s : State) (bs : List Byte) (id : Slot) :
    (s.loadSlot bs id).log = s.log := by cases id <;> rfl

theorem heater_loadSlot (s : State) (bs : List Byte) (id : Slot) (h : HeaterIx) :
    (s.loadSlot bs id).heater h = if id = .heater h then decodeHeater bs (s.heater h) else s.heater h := by
  cases id with
  | heater h' =>
    simp only [State.loadSlot, heater_setHeater, Slot.heater.injEq]
    by_cases e : h = h'
    · subst e; simp
    · rw [if_neg e, if_neg (Ne.symm e)]
  | highPower j => simp [State.loadSlot]
  | sensor n => simp [State.loadSlot]

theorem highPower_loadSlot (s : State) (bs : List Byte) (id : Slot) (j : HpIx) :
    (s.loadSlot bs id).highPower j =
      if id = .highPower j then decodeHighPower bs (s.highPower j) else s.highPower j := by
  cases id with
  | highPower j' =>
    simp only [State.loadSlot, highPower_setHighPower, Slot.highPower.injEq]
    by_cases e : j = j'
    · subst e; simp
    · rw [if_neg e, if_neg (Ne.symm e)]
  | heater h => simp [State.loadSlot]
  | sensor n => simp [State.loadSlot]

theorem sensor_loadSlot (s : State) (bs : List Byte) (id : Slot) (n : SensorIx) :
    (s.loadSlot bs id).sensor n = if id = .sensor n then decodeSensor bs (s.sensor n) else s.sensor n := by
  cases id with
  | sensor n' =>
    simp only [State.loadSlot, sensor_setSensor, Slot.sensor.injEq]
    by_cases e : n = n'
    · subst e; simp
    · rw [if_neg e, if_neg (Ne.symm e)]
  | heater h => simp [State.loadSlot]
  | highPower j => simp [State.loadSlot]

/-- The bytes READOUT takes for a slot. -/
def Memory.slot (m : Memory) (id : Slot) : List Byte := m.readBytes (slotBase id) (slotSize id)

/-- The registers after READOUT of some slots. -/
def State.loaded (s : State) (m : Memory) (ids : List Slot) : State :=
  ids.foldl (fun t id => t.loadSlot (m.slot id) id) s

/-- The actions of READOUT of some slots. -/
def readActions (ids : List Slot) : List Action := ids.map fun id => .memRead (slotBase id) (slotSize id)

theorem emit_emit (s : State) (as bs : List Action) : (s.emit as).emit bs = s.emit (as ++ bs) := by
  simp [State.emit]

theorem loadSlot_emit (s : State) (as : List Action) (bs : List Byte) (id : Slot) :
    (s.emit as).loadSlot bs id = (s.loadSlot bs id).emit as := by cases id <;> rfl

theorem loaded_emit (s : State) (as : List Action) (m : Memory) (ids : List Slot) :
    (s.emit as).loaded m ids = (s.loaded m ids).emit as := by
  induction ids generalizing s with
  | nil => rfl
  | cons id ids ih =>
    simp only [State.loaded, List.foldl_cons] at ih ⊢
    rw [loadSlot_emit, ih]

/-- All that READOUT over some slots does (70_reset_and_hazards.md R373). -/
theorem readSlots_eq (s : State) (ids : List Slot) :
    s.readSlots ids = .ok ((s.loaded s.nvm ids).emit (readActions ids)) := by
  induction ids generalizing s with
  | nil => simp [State.readSlots, State.loaded, readActions, State.emit]
  | cons id ids ih =>
    have hb : slotBase id + slotSize id ≤ Config.storeSize := by
      have := slot_below id
      simp only [Config.storeSize]; omega
    simp only [State.readSlots, memRead_eq, if_pos hb, bind, Except.bind]
    rw [ih, loadSlot_nvm, emit_nvm, loadSlot_emit, loaded_emit, emit_emit]
    rfl

theorem loaded_cons (s : State) (m : Memory) (id : Slot) (ids : List Slot) :
    s.loaded m (id :: ids) = (s.loadSlot (m.slot id) id).loaded m ids := rfl

@[simp] theorem loaded_phase (s : State) (m : Memory) (ids : List Slot) : (s.loaded m ids).phase = s.phase := by
  induction ids generalizing s with
  | nil => rfl
  | cons id ids ih => rw [loaded_cons, ih]; cases id <;> rfl
@[simp] theorem loaded_nvm (s : State) (m : Memory) (ids : List Slot) : (s.loaded m ids).nvm = s.nvm := by
  induction ids generalizing s with
  | nil => rfl
  | cons id ids ih => rw [loaded_cons, ih]; cases id <;> rfl
@[simp] theorem loaded_telemetry (s : State) (m : Memory) (ids : List Slot) : (s.loaded m ids).telemetry = s.telemetry := by
  induction ids generalizing s with
  | nil => rfl
  | cons id ids ih => rw [loaded_cons, ih]; cases id <;> rfl
@[simp] theorem loaded_conn (s : State) (m : Memory) (ids : List Slot) : (s.loaded m ids).conn = s.conn := by
  induction ids generalizing s with
  | nil => rfl
  | cons id ids ih => rw [loaded_cons, ih]; cases id <;> rfl
@[simp] theorem loaded_tick (s : State) (m : Memory) (ids : List Slot) : (s.loaded m ids).tick = s.tick := by
  induction ids generalizing s with
  | nil => rfl
  | cons id ids ih => rw [loaded_cons, ih]; cases id <;> rfl
@[simp] theorem loaded_inbox (s : State) (m : Memory) (ids : List Slot) : (s.loaded m ids).inbox = s.inbox := by
  induction ids generalizing s with
  | nil => rfl
  | cons id ids ih => rw [loaded_cons, ih]; cases id <;> rfl
@[simp] theorem loaded_resetAsserted (s : State) (m : Memory) (ids : List Slot) : (s.loaded m ids).resetAsserted = s.resetAsserted := by
  induction ids generalizing s with
  | nil => rfl
  | cons id ids ih => rw [loaded_cons, ih]; cases id <;> rfl
@[simp] theorem loaded_cut (s : State) (m : Memory) (ids : List Slot) : (s.loaded m ids).cut = s.cut := by
  induction ids generalizing s with
  | nil => rfl
  | cons id ids ih => rw [loaded_cons, ih]; cases id <;> rfl
@[simp] theorem loaded_markerMisses (s : State) (m : Memory) (ids : List Slot) : (s.loaded m ids).markerMisses = s.markerMisses := by
  induction ids generalizing s with
  | nil => rfl
  | cons id ids ih => rw [loaded_cons, ih]; cases id <;> rfl
@[simp] theorem loaded_log (s : State) (m : Memory) (ids : List Slot) : (s.loaded m ids).log = s.log := by
  induction ids generalizing s with
  | nil => rfl
  | cons id ids ih => rw [loaded_cons, ih]; cases id <;> rfl

theorem heater_loaded (s : State) (m : Memory) {ids : List Slot} (nd : ids.Nodup) (h : HeaterIx) :
    (s.loaded m ids).heater h =
      if .heater h ∈ ids then decodeHeater (m.slot (.heater h)) (s.heater h) else s.heater h := by
  induction ids generalizing s with
  | nil => simp [State.loaded]
  | cons id ids ih =>
    rw [List.nodup_cons] at nd
    have := ih (s.loadSlot (m.slot id) id) nd.2
    simp only [State.loaded, List.foldl_cons] at this ⊢
    rw [this, heater_loadSlot]
    by_cases e : id = .heater h
    · subst e; simp [nd.1]
    · simp [e, Ne.symm e]

theorem highPower_loaded (s : State) (m : Memory) {ids : List Slot} (nd : ids.Nodup) (j : HpIx) :
    (s.loaded m ids).highPower j =
      if .highPower j ∈ ids then decodeHighPower (m.slot (.highPower j)) (s.highPower j)
      else s.highPower j := by
  induction ids generalizing s with
  | nil => simp [State.loaded]
  | cons id ids ih =>
    rw [List.nodup_cons] at nd
    have := ih (s.loadSlot (m.slot id) id) nd.2
    simp only [State.loaded, List.foldl_cons] at this ⊢
    rw [this, highPower_loadSlot]
    by_cases e : id = .highPower j
    · subst e; simp [nd.1]
    · simp [e, Ne.symm e]

theorem sensor_loaded (s : State) (m : Memory) {ids : List Slot} (nd : ids.Nodup) (n : SensorIx) :
    (s.loaded m ids).sensor n =
      if .sensor n ∈ ids then decodeSensor (m.slot (.sensor n)) (s.sensor n) else s.sensor n := by
  induction ids generalizing s with
  | nil => simp [State.loaded]
  | cons id ids ih =>
    rw [List.nodup_cons] at nd
    have := ih (s.loadSlot (m.slot id) id) nd.2
    simp only [State.loaded, List.foldl_cons] at this ⊢
    rw [this, sensor_loadSlot]
    by_cases e : id = .sensor n
    · subst e; simp [nd.1]
    · simp [e, Ne.symm e]

theorem allSlots_nodup : allSlots.Nodup := by decide

/-- The whole READOUT: every channel from its slot, 18 reads, then phase RUN
(70_reset_and_hazards.md R371, R373). -/
theorem readout_eq (s : State) :
    s.readout = .ok (((s.loaded s.nvm allSlots).emit (readActions allSlots)).setPhase .run) := by
  simp only [State.readout, readSlots_eq, bind, Except.bind]

theorem readActions_allSlots : readActions allSlots = readoutActions := by decide

/-! ### STAMP and LOAD -/

theorem stampWrites_fit : ∀ w ∈ stampWrites, w.1 + w.2.length ≤ Config.storeSize := by decide

theorem writeActions_stamp : writeActions stampWrites = stampActions := by decide

/-- The payloads of STAMP but for the marker. -/
def stampSlots : List (Nat × List Byte) :=
  allSlots.map fun id => (slotBase id, List.replicate (slotSize id) 0)

/-- The store after a STAMP: the slots always take, the marker only when no miss is to come. -/
theorem replayStore_stamp (m : Memory) (k : Nat) :
    replayStore (m, k) (writeActions stampWrites) =
      if k = 0 then ((putAll m stampSlots).writeBytes Config.markerAddr [Config.sentinel], 0)
      else (putAll m stampSlots, k - 1) := by
  have e : writeActions stampWrites =
      writeActions stampSlots ++ [.memWrite Config.markerAddr [Config.sentinel]] := by
    simp [writeActions, stampWrites, stampSlots]
  rw [e, replayStore_append, replayStore_writeActions]
  · simp only [replayStore, storeWrite]
    by_cases h : k = 0
    · subst h; simp
    · rw [if_pos ⟨trivial, by omega⟩, if_neg h]
  · intro w hw
    obtain ⟨id, -, rfl⟩ := List.mem_map.1 hw
    have := slot_below id
    simp only [Config.markerAddr]; omega

/-- The store and the misses after a STAMP. -/
def State.afterStamp (s : State) : State :=
  { s with
    nvm := (replayStore (s.nvm, s.markerMisses) (writeActions stampWrites)).1
    markerMisses := (replayStore (s.nvm, s.markerMisses) (writeActions stampWrites)).2
    log := s.log ++ (stampActions ++ [.memRead Config.markerAddr 1]) }

@[simp] theorem afterStamp_phase (s : State) : s.afterStamp.phase = s.phase := by simp only [State.afterStamp]
@[simp] theorem afterStamp_htr (s : State) : s.afterStamp.htr = s.htr := by simp only [State.afterStamp]
@[simp] theorem afterStamp_hp (s : State) : s.afterStamp.hp = s.hp := by simp only [State.afterStamp]
@[simp] theorem afterStamp_sns (s : State) : s.afterStamp.sns = s.sns := by simp only [State.afterStamp]
@[simp] theorem afterStamp_telemetry (s : State) : s.afterStamp.telemetry = s.telemetry := by simp only [State.afterStamp]
@[simp] theorem afterStamp_conn (s : State) : s.afterStamp.conn = s.conn := by simp only [State.afterStamp]
@[simp] theorem afterStamp_tick (s : State) : s.afterStamp.tick = s.tick := by simp only [State.afterStamp]
@[simp] theorem afterStamp_inbox (s : State) : s.afterStamp.inbox = s.inbox := by simp only [State.afterStamp]
@[simp] theorem afterStamp_resetAsserted (s : State) : s.afterStamp.resetAsserted = s.resetAsserted := by simp only [State.afterStamp]
@[simp] theorem afterStamp_cut (s : State) : s.afterStamp.cut = s.cut := by simp only [State.afterStamp]
@[simp] theorem afterStamp_log (s : State) :
    s.afterStamp.log = s.log ++ (stampActions ++ [.memRead Config.markerAddr 1]) := by
  simp only [State.afterStamp]
@[simp] theorem heater_afterStamp (s : State) (h : HeaterIx) : s.afterStamp.heater h = s.heater h := by
  simp only [State.heater, afterStamp_htr]
@[simp] theorem highPower_afterStamp (s : State) (j : HpIx) : s.afterStamp.highPower j = s.highPower j := by
  simp only [State.highPower, afterStamp_hp]
@[simp] theorem sensor_afterStamp (s : State) (n : SensorIx) : s.afterStamp.sensor n = s.sensor n := by
  simp only [State.sensor, afterStamp_sns]

theorem readBytes_one (m : Memory) (a : Nat) : m.readBytes a 1 = [m.read a] := rfl

/-- All that STAMP with its read-back does (70_reset_and_hazards.md R371, R372). -/
theorem stamp_eq (s : State) :
    s.stamp = .ok (decide (s.afterStamp.nvm.read Config.markerAddr = Config.sentinel), s.afterStamp) := by
  rw [State.stamp, writeAll_eq s stampWrites_fit, writeActions_stamp]
  simp only [bind, Except.bind, memRead_eq, readBytes_one]
  rw [if_pos (by decide)]
  simp [State.afterStamp, writeActions_stamp, State.emit]

/-- All that LOAD does (70_reset_and_hazards.md R371): no STAMP, one, two, or two and a fault. -/
theorem bootLoad_eq (s : State) :
    s.bootLoad =
      let s0 := (s.setPhase .load).emit [.memRead Config.markerAddr 1]
      if s.nvm.read Config.markerAddr = Config.sentinel then s0.readout
      else if s0.afterStamp.nvm.read Config.markerAddr = Config.sentinel then s0.afterStamp.readout
      else if s0.afterStamp.afterStamp.nvm.read Config.markerAddr = Config.sentinel then
        s0.afterStamp.afterStamp.readout
      else .ok s0.afterStamp.afterStamp.configStoreFault := by
  rw [State.bootLoad]
  simp only [bind, Except.bind, memRead_eq, readBytes_one]
  rw [if_pos (by decide)]
  simp only [List.cons.injEq, and_true, setPhase_nvm]
  split
  · rfl
  · simp only [State.stampAndRead, stamp_eq, bind, Except.bind, decide_eq_true_eq]

end Sys2Proof.Machine
end

