-- ==== Sys2Proof/Laws/Float.lean ====
section
/-! SUPPORT. The laws of binary32: a pattern and its fields, exact values round to themselves, the order
of the comparisons, and the bounds of `fmin` and `clamp`. -/

namespace Sys2Proof.Machine

open Sys2Proof

/-! ### Fields of a pattern -/

theorem magBits_lt (x : F32) : magBits x < 2 ^ 31 := Nat.mod_lt _ (by decide)

theorem isNeg_eq (x : F32) : isNeg x = decide (2 ^ 31 ≤ x.toNat) := by
  simp [isNeg, BitVec.msb_eq_decide]

theorem toNat_packF32 (n : Bool) {mag : Nat} (h : mag < 2 ^ 31) :
    (packF32 n mag).toNat = mag + if n then 2 ^ 31 else 0 := by
  rw [packF32, BitVec.toNat_ofNat, Nat.mod_eq_of_lt]
  cases n
  · simp; omega
  · simp; omega

@[simp] theorem magBits_packF32 (n : Bool) {mag : Nat} (h : mag < 2 ^ 31) :
    magBits (packF32 n mag) = mag := by
  rw [magBits, toNat_packF32 n h]
  cases n <;> simp <;> omega

@[simp] theorem isNeg_packF32 (n : Bool) {mag : Nat} (h : mag < 2 ^ 31) :
    isNeg (packF32 n mag) = n := by
  rw [isNeg_eq, toNat_packF32 n h]
  cases n <;> simp <;> omega

/-- A pattern is its sign and its magnitude. -/
theorem packF32_self (x : F32) : packF32 (isNeg x) (magBits x) = x := by
  apply BitVec.eq_of_toNat_eq
  rw [toNat_packF32 _ (magBits_lt x), isNeg_eq, magBits]
  have := x.isLt
  by_cases h : 2 ^ 31 ≤ x.toNat
  · rw [decide_eq_true h, if_pos rfl]; omega
  · rw [decide_eq_false h, if_neg (by decide)]; omega

/-- A pattern is finite, infinite or a NaN, and only one of the three. -/
theorem isNaN_eq_false {x : F32} : isNaN x = false ↔ magBits x ≤ infBits := by simp [isNaN]

theorem isFinite_iff {x : F32} : isFinite x = true ↔ magBits x < infBits := by simp [isFinite]

theorem isNaN_of_isFinite {x : F32} (h : isFinite x = true) : isNaN x = false := by
  rw [isNaN_eq_false]; exact (isFinite_iff.1 h).le

theorem isInf_of_isFinite {x : F32} (h : isFinite x = true) : isInf x = false := by
  have := isFinite_iff.1 h
  simp only [isInf, decide_eq_false_iff_not]; omega

/-- Whatever the free value is, the result of an invalid operation is a NaN. -/
@[simp] theorem isNaN_someNaN (op : Config.ArithOp) (a b : F32) : isNaN (someNaN op a b) = true := by
  unfold someNaN
  split
  · assumption
  · decide

/-! ### Rounding -/

theorem roundUnits_le (num den : Nat) : roundUnits num den ≤ infBits := Nat.min_le_right _ _

theorem roundUnits_lt (num den : Nat) : roundUnits num den < 2 ^ 31 :=
  Nat.lt_of_le_of_lt (roundUnits_le num den) (by decide)

/-- A whole quotient is not rounded. -/
theorem roundHalfEven_mul (n : Nat) {d : Nat} (h : 0 < d) : roundHalfEven (n * d) d = n := by
  have h1 : n * d % d = 0 := Nat.mul_mod_left n d
  rw [roundHalfEven, h1, Nat.mul_div_cancel n h, if_neg]
  omega

/-- A larger pattern stands for a larger magnitude. -/
theorem unitsOfMag_strictMono : StrictMono unitsOfMag := by
  refine strictMono_nat_of_lt_succ fun p => ?_
  have hf : p % 2 ^ 23 < 2 ^ 23 := Nat.mod_lt _ (by decide)
  unfold unitsOfMag
  by_cases h0 : p / 2 ^ 23 = 0
  · rw [if_pos h0]
    by_cases h1 : (p + 1) / 2 ^ 23 = 0
    · rw [if_pos h1]; omega
    · have hk : (p + 1) / 2 ^ 23 - 1 = 0 := by omega
      rw [if_neg h1, hk, Nat.pow_zero, Nat.mul_one]; omega
  · rw [if_neg h0, if_neg (by omega)]
    by_cases h1 : (p + 1) / 2 ^ 23 = p / 2 ^ 23
    · rw [h1]; exact Nat.mul_lt_mul_of_pos_right (by omega) (by positivity)
    · have hk : (p + 1) / 2 ^ 23 - 1 = p / 2 ^ 23 - 1 + 1 := by omega
      have hm : (p + 1) % 2 ^ 23 = 0 := by omega
      rw [hk, hm]
      generalize p / 2 ^ 23 - 1 = k
      have h2 : 2 ^ (k + 1) = 2 * 2 ^ k := pow_succ' 2 k
      rw [h2, ← Nat.mul_assoc]
      exact Nat.mul_lt_mul_of_pos_right (by omega) (by positivity)

/-- A number that is the value of a finite pattern rounds to that pattern. -/
theorem roundUnits_unitsOfMag {p d : Nat} (hp : p < infBits) (hd : 0 < d) :
    roundUnits (unitsOfMag p * d) d = p := by
  have hq : unitsOfMag p * d / d = unitsOfMag p := Nat.mul_div_cancel _ hd
  simp only [roundUnits, hq]
  by_cases h0 : p / 2 ^ 23 = 0
  · have hp23 : p < 2 ^ 23 := by omega
    have hu : unitsOfMag p = p := by rw [unitsOfMag, if_pos h0, Nat.mod_eq_of_lt hp23]
    have hl : Nat.log2 p - 23 = 0 := by
      rcases Nat.eq_zero_or_pos p with rfl | hpos
      · simp
      · have := (Nat.log2_lt (by omega : p ≠ 0)).2 hp23
        omega
    rw [hu, hl]
    simp only [Nat.pow_zero, Nat.mul_one, Nat.zero_mul, Nat.zero_add, roundHalfEven_mul p hd]
    exact Nat.min_eq_left hp.le
  · have hu : unitsOfMag p = (p % 2 ^ 23 + 2 ^ 23) * 2 ^ (p / 2 ^ 23 - 1) := by
      rw [unitsOfMag, if_neg h0]
    have hf : p % 2 ^ 23 < 2 ^ 23 := Nat.mod_lt _ (by decide)
    have hl : Nat.log2 (unitsOfMag p) = 23 + (p / 2 ^ 23 - 1) := by
      rw [hu, (Nat.log2_eq_iff (by positivity))]
      constructor
      · rw [pow_add]; exact Nat.mul_le_mul_right _ (by omega)
      · rw [show 23 + (p / 2 ^ 23 - 1) + 1 = 24 + (p / 2 ^ 23 - 1) by omega, pow_add]
        exact Nat.mul_lt_mul_of_pos_right (by omega) (by positivity)
    have hs : 23 + (p / 2 ^ 23 - 1) - 23 = p / 2 ^ 23 - 1 := by omega
    rw [hl, hs, hu, show (p % 2 ^ 23 + 2 ^ 23) * 2 ^ (p / 2 ^ 23 - 1) * d =
      (p % 2 ^ 23 + 2 ^ 23) * (d * 2 ^ (p / 2 ^ 23 - 1)) by ring,
      roundHalfEven_mul _ (by positivity)]
    have : (p / 2 ^ 23 - 1) * 2 ^ 23 + (p % 2 ^ 23 + 2 ^ 23) = p := by omega
    rw [this]
    exact Nat.min_eq_left hp.le

/-- Dividing a finite number by 1.0 gives it back. -/
theorem fdiv_one {x : F32} (h : isFinite x = true) : fdiv x 0x3F800000 = x := by
  have h1 : magUnits (0x3F800000 : F32) = 2 ^ 149 := by decide +kernel
  have h2 : isNeg (0x3F800000 : F32) = false := by decide
  have h3 : isNaN (0x3F800000 : F32) = false := by decide
  have h4 : isInf (0x3F800000 : F32) = false := by decide
  have h5 : magBits (0x3F800000 : F32) ≠ 0 := by decide
  rw [fdiv, isNaN_of_isFinite h, isInf_of_isFinite h, h3, h4, if_neg (by decide), if_neg (by decide),
    if_neg (by decide), if_neg h5, h1, h2, roundRat, magUnits,
    roundUnits_unitsOfMag (isFinite_iff.1 h) (by positivity)]
  simpa using packF32_self x

/-! ### Order -/

theorem fle_iff {a b : F32} :
    fle a b = true ↔ isNaN a = false ∧ isNaN b = false ∧ orderKey a ≤ orderKey b := by
  simp [fle, and_assoc]

theorem flt_iff {a b : F32} :
    flt a b = true ↔ isNaN a = false ∧ isNaN b = false ∧ orderKey a < orderKey b := by
  simp [flt, and_assoc]

theorem fle_refl {a : F32} (h : isNaN a = false) : fle a a = true := fle_iff.2 ⟨h, h, le_refl _⟩

theorem fle_of_flt {a b : F32} (h : flt a b = true) : fle a b = true := by
  rw [flt_iff] at h; exact fle_iff.2 ⟨h.1, h.2.1, h.2.2.le⟩

/-- Of two numbers that are no NaN, one is not above the other. -/
theorem fle_of_not_flt {a b : F32} (ha : isNaN a = false) (hb : isNaN b = false)
    (h : ¬flt b a = true) : fle a b = true := by
  rw [flt_iff] at h
  exact fle_iff.2 ⟨ha, hb, not_lt.1 fun q => h ⟨hb, ha, q⟩⟩

theorem fle_trans {a b c : F32} (h : fle a b = true) (h' : fle b c = true) : fle a c = true := by
  rw [fle_iff] at *; exact ⟨h.1, h'.2.1, h.2.2.trans h'.2.2⟩

theorem isNaN_zeroF : isNaN zeroF = false := by decide

/-- A number from 0 to a finite number is finite. -/
theorem isFinite_of_between {x y : F32} (h0 : fle zeroF x = true) (h : fle x y = true)
    (hy : isFinite y = true) : isFinite x = true := by
  rw [fle_iff] at h0 h
  have hz : orderKey zeroF = 0 := by decide
  rw [hz] at h0
  have hy := isFinite_iff.1 hy
  rw [isFinite_iff]
  obtain ⟨-, -, h0⟩ := h0
  obtain ⟨-, -, h⟩ := h
  simp only [orderKey] at h0 h
  (split at h0 <;> split at h <;> simp_all); all_goals omega

/-- `clamp` to `[lo, hi]` stays in it, whatever is clamped. -/
theorem clamp_mem {x lo hi : F32} (h : fle lo hi = true) :
    fle lo (clamp x lo hi) = true ∧ fle (clamp x lo hi) hi = true := by
  obtain ⟨h1, h2, -⟩ := fle_iff.1 h
  unfold clamp
  split
  · exact ⟨h, fle_refl h2⟩
  · split
    · rename_i g g'
      exact ⟨g', fle_of_not_flt (fle_iff.1 g').2.1 h2 g⟩
    · exact ⟨fle_refl h1, h⟩

/-- `fmin` is not above its second operand, nor above its first when neither is a NaN. -/
theorem fmin_le {a b : F32} (ha : isNaN a = false) (hb : isNaN b = false) :
    fle (fmin a b) a = true ∧ fle (fmin a b) b = true := by
  unfold fmin
  split
  · exact ⟨fle_refl ha, fle_of_flt ‹_›⟩
  · exact ⟨fle_of_not_flt hb ha ‹_›, fle_refl hb⟩

/-! ### The limits -/

theorem lawfulLimit_limitOf (b : F32) : lawfulLimit (limitOf b) = true := by
  unfold limitOf
  split
  · assumption
  · decide

/-- Both limits are finite and above 0 (00_scope.md R6). -/
theorem limits_lawful :
    (isFinite limits.maxVoltage = true ∧ flt zeroF limits.maxVoltage = true) ∧
      isFinite limits.maxCurrent = true ∧ flt zeroF limits.maxCurrent = true := by
  have h1 := lawfulLimit_limitOf Config.maxVoltageBits
  have h2 := lawfulLimit_limitOf Config.maxCurrentBits
  simp only [lawfulLimit, Bool.and_eq_true] at h1 h2
  exact ⟨h1, h2⟩

end Sys2Proof.Machine
end

