-- ==== Sys2Proof/Laws/Text.lean ====
section
/-! SUPPORT. Numbers printed and read back: the digits of a whole number, and the exact text of a binary32
(30_encoding.md R117, R127). -/

namespace Sys2Proof.Machine

open Sys2Proof

/-! ### Digits -/

theorem digitsFrom_append (fuel n : Nat) (acc : List Byte) :
    digitsFrom fuel n acc = digitsFrom fuel n [] ++ acc := by
  induction fuel generalizing n acc with
  | zero => rfl
  | succ fuel ih =>
    simp only [digitsFrom]
    split
    · rfl
    · rw [ih, ih _ [_], List.append_assoc]
      rfl

theorem digitsVal_concat (ds : List Byte) (d : Byte) :
    digitsVal (ds ++ [d]) = 10 * digitsVal ds + (d.toNat - 0x30) := by
  simp [digitsVal]

/-- The digit of a number below ten. -/
theorem toNat_digit (n : Nat) : (BitVec.ofNat 8 (0x30 + n % 10)).toNat = 0x30 + n % 10 := by
  rw [BitVec.toNat_ofNat]
  exact Nat.mod_eq_of_lt (by omega)

/-- Digits with enough fuel: they denote the number, all are digits, and there is at least one. -/
theorem digitsFrom_spec (fuel n : Nat) (h : n < fuel) :
    digitsVal (digitsFrom fuel n []) = n ∧ (∀ c ∈ digitsFrom fuel n [], isDigit c = true) ∧
      digitsFrom fuel n [] ≠ [] := by
  have dig : isDigit (BitVec.ofNat 8 (0x30 + n % 10)) = true := by
    simp only [isDigit, toNat_digit, Bool.and_eq_true, decide_eq_true_eq]
    omega
  induction fuel generalizing n with
  | zero => omega
  | succ fuel ih =>
    simp only [digitsFrom]
    split
    · rename_i hn
      refine ⟨?_, by simpa using dig, by simp⟩
      simp only [digitsVal, List.foldl_cons, List.foldl_nil, toNat_digit]
      omega
    · rename_i hn
      rw [digitsFrom_append]
      obtain ⟨a, b, -⟩ := ih (n / 10) (by omega) (by
        simp only [isDigit, toNat_digit, Bool.and_eq_true, decide_eq_true_eq]; omega)
      refine ⟨?_, ?_, by simp⟩
      · rw [digitsVal_concat, a, toNat_digit]; omega
      · intro c hc
        rcases List.mem_append.1 hc with hc | hc
        · exact b c hc
        · simp only [List.mem_singleton] at hc; exact hc ▸ dig

/-- The decimal text of a number denotes it. -/
theorem digitsVal_natText (n : Nat) : digitsVal (natText n) = n := (digitsFrom_spec (n + 1) n (by omega)).1

theorem isDigit_natText (n : Nat) : ∀ c ∈ natText n, isDigit c = true :=
  (digitsFrom_spec (n + 1) n (by omega)).2.1

theorem natText_ne_nil (n : Nat) : natText n ≠ [] := (digitsFrom_spec (n + 1) n (by omega)).2.2

/-! ### Reading a number back -/

/-- A byte that is no digit, sign or point. -/
theorem isDigit_ne {c : Byte} (h : isDigit c = true) : c ≠ 0x2D ∧ c ≠ 0x2B ∧ c ≠ 0x2E ∧ c ≠ commaByte := by
  simp only [isDigit, Bool.and_eq_true, decide_eq_true_eq] at h
  refine ⟨?_, ?_, ?_, ?_⟩ <;> rintro rfl <;> revert h <;> decide

/-- The sign of a number that starts with a digit. -/
theorem takeSign_digits (n : Nat) (rest : List Byte) :
    takeSign (natText n ++ rest) = (false, natText n ++ rest) := by
  have h := isDigit_natText n
  cases e : natText n with
  | nil => exact absurd e (natText_ne_nil n)
  | cons c cs =>
    obtain ⟨h1, h2, -⟩ := isDigit_ne (h c (by rw [e]; simp))
    rw [List.cons_append, takeSign, if_neg h1, if_neg h2]

theorem takeWhile_digits {ds rest : List Byte} (h : ∀ c ∈ ds, isDigit c = true)
    (r : ∀ c cs, rest = c :: cs → isDigit c = false) :
    (ds ++ rest).takeWhile isDigit = ds ∧ (ds ++ rest).dropWhile isDigit = rest := by
  induction ds with
  | nil =>
    cases rest with
    | nil => exact ⟨rfl, rfl⟩
    | cons c cs => simp [r c cs rfl]
  | cons d ds ih =>
    have hd := h d (by simp)
    obtain ⟨a, b⟩ := ih fun c hc => h c (by simp [hc])
    simp [hd, a, b]

/-- Reading a sign, a whole number and an exponent. -/
theorem parseNumber_whole {neg : Bool} {n : Nat} {rest : List Byte} {e : Int}
    (r : ∀ c cs, rest = c :: cs → isDigit c = false ∧ c ≠ 0x2E) (he : takeExponent rest = some e) :
    parseNumber ((if neg then [0x2D] else []) ++ (natText n ++ rest)) = decimalToF32 neg n e := by
  have sign : takeSign ((if neg then [0x2D] else []) ++ (natText n ++ rest)) = (neg, natText n ++ rest) := by
    cases neg
    · exact takeSign_digits n rest
    · simp [takeSign]
  obtain ⟨a, b⟩ := takeWhile_digits (isDigit_natText n) fun c cs h => (r c cs h).1
  have frac : takeFraction rest = ([], rest) := by
    cases rest with
    | nil => rfl
    | cons c cs => rw [takeFraction, if_neg (r c cs rfl).2]
  unfold parseNumber
  simp only [sign, a, b, frac, he, natText_ne_nil, false_and, if_false, List.append_nil, digitsVal_natText,
    List.length_nil, Int.ofNat_zero, Int.sub_zero]

/-- A whole number parses to its value rounded. -/
theorem parseNumber_natText (n : Nat) : parseNumber (natText n) = decimalToF32 false n 0 := by
  have := parseNumber_whole (neg := false) (n := n) (rest := []) (e := 0) (by simp) rfl
  simpa using this

/-- The exact text of a finite number parses back to its pattern. -/
theorem parseNumber_exactText {x : F32} (h : isFinite x = true) : parseNumber (exactText x) = some x := by
  have hp := isFinite_iff.1 h
  have fin : ∀ (n : Nat) (e : Int) (d : Nat), 0 < d →
      n * 10 ^ e.toNat * 2 ^ 149 = unitsOfMag (magBits x) * d → 10 ^ (-e).toNat = d →
      decimalToF32 (isNeg x) n e = some x := by
    intro n e d hd h1 h2
    unfold decimalToF32
    simp only [roundRat, h1, h2, roundUnits_unitsOfMag hp hd]
    rw [if_neg (by omega), packF32_self]
  by_cases hm : magUnits x % 2 ^ 149 = 0
  · rw [exactText, if_pos hm]
    have := parseNumber_whole (neg := isNeg x) (n := magUnits x / 2 ^ 149) (rest := []) (e := 0) (by simp) rfl
    rw [List.append_nil] at this
    rw [this]
    refine fin _ _ 1 (by decide) ?_ rfl
    show magUnits x / 2 ^ 149 * 1 * 2 ^ 149 = magUnits x * 1
    rw [Nat.mul_one, Nat.mul_one, Nat.div_mul_cancel (Nat.dvd_of_mod_eq_zero hm)]
  · rw [exactText, if_neg hm, parseNumber_whole (e := -149) (by
      intro c cs hc
      have : c = 0x65 := by injection hc with hc; exact hc.symm
      subst this
      decide) (by decide)]
    refine fin _ _ (10 ^ 149) (by decide) ?_ rfl
    show magUnits x * 5 ^ 149 * 1 * 2 ^ 149 = magUnits x * 10 ^ 149
    rw [Nat.mul_one, Nat.mul_assoc]
    rfl

end Sys2Proof.Machine
end

