-- ==== Sys2Proof/Laws/Decimal.lean ====
section
/-! SUPPORT. The parser on the tokens the grammar builds (30_encoding.md R117): the sign, the digits and the
exponent it finds, and the decimal it hands to the rounding. -/

namespace Sys2Proof.Machine

open Sys2Proof

/-! ### The parts of a token -/

theorem isDigit_digitsText (ds : List (Fin 10)) : ∀ c ∈ digitsText ds, isDigit c = true := by
  intro c hc
  obtain ⟨d, -, rfl⟩ := List.mem_map.1 hc
  exact (show ∀ d : Fin 10, isDigit (BitVec.ofNat 8 (0x30 + d.val)) = true by decide) d

theorem digitsVal_digitsText (ds : List (Fin 10)) : digitsVal (digitsText ds) = digitsNumber ds := by
  have digit : ∀ d : Fin 10, (BitVec.ofNat 8 (0x30 + d.val)).toNat - 0x30 = d.val := by decide
  have fold : ∀ n, (digitsText ds).foldl (fun n c => 10 * n + (c.toNat - 0x30)) n =
      ds.foldl (fun n d => 10 * n + d.val) n := by
    induction ds with
    | nil => intro n; rfl
    | cons d ds ih =>
      intro n
      have := ih (10 * n + d.val)
      simp only [digitsText, List.map_cons, List.foldl_cons, digit] at this ⊢
      exact this
  exact fold 0

theorem digitsText_append (ds es : List (Fin 10)) : digitsText (ds ++ es) = digitsText ds ++ digitsText es :=
  List.map_append

theorem digitsText_eq_nil {ds : List (Fin 10)} : digitsText ds = [] ↔ ds = [] := List.map_eq_nil_iff

/-- A sign before what starts with none. -/
theorem takeSign_signText (sign : Option Bool) {rest : List Byte}
    (h : ∀ c cs, rest = c :: cs → c ≠ 0x2D ∧ c ≠ 0x2B) :
    takeSign (signText sign ++ rest) = (sign.getD false, rest) := by
  match sign with
  | some true => simp [signText, ascii, takeSign]
  | some false => simp [signText, ascii, takeSign]
  | none =>
    cases rest with
    | nil => rfl
    | cons c cs =>
      obtain ⟨h1, h2⟩ := h c cs rfl
      rw [signText, List.nil_append, takeSign, if_neg h1, if_neg h2]
      rfl

/-- The bytes after the digits of a number: a point and digits, if there is a point. -/
def fractionText : Option (List (Fin 10)) → List Byte
  | none => []
  | some ds => ascii "." ++ digitsText ds

/-- The bytes of the exponent, if there is one. -/
def exponentText : Option DecimalExponent → List Byte
  | none => []
  | some x => (if x.capital then ascii "E" else ascii "e") ++ signText x.sign ++ digitsText x.digits

theorem Decimal.text_eq (d : Decimal) :
    d.text = signText d.sign ++ (digitsText d.whole ++ (fractionText d.fraction ++ exponentText d.exponent)) := by
  obtain ⟨sign, whole, fraction, exponent⟩ := d
  cases fraction <;> cases exponent <;> simp [Decimal.text, fractionText, exponentText]

/-- The exponent starts with its letter, which is no digit, sign or point. -/
theorem exponentText_head {x : Option DecimalExponent} {c : Byte} {cs : List Byte} (h : exponentText x = c :: cs) :
    isDigit c = false ∧ c ≠ 0x2E ∧ c ≠ 0x2D ∧ c ≠ 0x2B := by
  have : c = 0x45 ∨ c = 0x65 := by
    match x with
    | none => cases h
    | some ⟨true, _, _⟩ => left; injection h with h; exact h.symm
    | some ⟨false, _, _⟩ => right; injection h with h; exact h.symm
  rcases this with rfl | rfl <;> decide

theorem digitsText_head {ds : List (Fin 10)} {rest : List Byte} {c : Byte} {cs : List Byte}
    (r : ∀ c cs, rest = c :: cs → c ≠ 0x2D ∧ c ≠ 0x2B) (h : digitsText ds ++ rest = c :: cs) :
    c ≠ 0x2D ∧ c ≠ 0x2B := by
  cases ds with
  | nil => exact r c cs h
  | cons d ds =>
    injection h with h
    have := isDigit_ne (h ▸ isDigit_digitsText (d :: ds) _ (by simp [digitsText]) : isDigit c = true)
    exact ⟨this.1, this.2.1⟩

theorem takeExponent_exponentText {d : Decimal} (h : ∀ x, d.exponent = some x → x.digits ≠ []) :
    takeExponent (exponentText d.exponent) = some d.power := by
  obtain ⟨sign, whole, fraction, exponent⟩ := d
  match exponent with
  | none => rfl
  | some ⟨capital, esign, digits⟩ =>
    have hs : takeSign (signText esign ++ digitsText digits) = (esign.getD false, digitsText digits) :=
      takeSign_signText esign fun c cs e => by
        have := isDigit_ne (isDigit_digitsText digits c (e ▸ List.mem_cons_self))
        exact ⟨this.1, this.2.1⟩
    have hd : digitsText digits ≠ [] := fun e => h _ rfl (digitsText_eq_nil.1 e)
    have ha : (digitsText digits).all isDigit = true := List.all_eq_true.2 (isDigit_digitsText digits)
    have letter : ∀ b : Bool, ∃ c : Byte, (c = 0x65 ∨ c = 0x45) ∧ (if b then ascii "E" else ascii "e") = [c] := by
      decide
    obtain ⟨c, hc, e⟩ := letter capital
    simp only [exponentText, e, List.cons_append, List.nil_append, takeExponent, if_pos hc, hs, hd, ha, ne_eq,
      not_false_eq_true, and_self, if_true, digitsVal_digitsText, Decimal.power]

/-! ### The token -/

/-- What the parser hands to the rounding. -/
theorem parseNumber_text {d : Decimal} (h : d.Lawful) :
    parseNumber d.text = decimalToF32 d.isNegative (digitsNumber (d.whole ++ d.fraction.getD []))
      (d.power - (d.fraction.getD []).length) := by
  have tail : ∀ c cs, fractionText d.fraction ++ exponentText d.exponent = c :: cs →
      isDigit c = false ∧ c ≠ 0x2D ∧ c ≠ 0x2B := by
    intro c cs e
    cases hf : d.fraction with
    | none =>
      rw [hf] at e
      have := exponentText_head (x := d.exponent) e
      exact ⟨this.1, this.2.2⟩
    | some ds =>
      rw [hf] at e
      injection e with e
      subst e
      decide
  have sign := takeSign_signText d.sign
    (rest := digitsText d.whole ++ (fractionText d.fraction ++ exponentText d.exponent))
    fun c cs e => digitsText_head (fun c cs e => (tail c cs e).2) e
  obtain ⟨a, b⟩ := takeWhile_digits (isDigit_digitsText d.whole) fun c cs e => (tail c cs e).1
  have frac : takeFraction (fractionText d.fraction ++ exponentText d.exponent) =
      (digitsText (d.fraction.getD []), exponentText d.exponent) := by
    cases d.fraction with
    | none =>
      cases hx : exponentText d.exponent with
      | nil => simp [fractionText, takeFraction, digitsText]
      | cons c cs =>
        show takeFraction (c :: cs) = ([], c :: cs)
        rw [takeFraction, if_neg (exponentText_head hx).2.1]
    | some ds =>
      obtain ⟨a, b⟩ := takeWhile_digits (isDigit_digitsText ds) fun c cs e => (exponentText_head (x := d.exponent) e).1
      have point : ascii "." = [0x2E] := by decide
      simp only [fractionText, point, List.cons_append, List.nil_append, takeFraction, if_true, a, b, Option.getD_some]
  have some_digit : ¬(digitsText d.whole = [] ∧ digitsText (d.fraction.getD []) = []) := by
    rw [digitsText_eq_nil, digitsText_eq_nil]
    rintro ⟨e, e'⟩
    rcases h.1 with q | q
    · exact q e
    · exact q e'
  unfold parseNumber
  simp only [Decimal.text_eq, sign, a, b, frac, takeExponent_exponentText h.2, some_digit, if_false,
    ← digitsText_append, digitsVal_digitsText, Decimal.isNegative]
  simp [digitsText]

end Sys2Proof.Machine
end

