-- ==== Sys2Proof/Laws/Decode.lean ====
section
/-! SUPPORT. All that the decoder can answer, said once: an operation of a table entry with arguments that
parse and are in range, or `q`. -/

namespace Sys2Proof.Machine

open Sys2Proof

/-! ### Arguments -/

/-- A parsed number is finite (30_encoding.md R117). -/
theorem isFinite_of_parseNumber {t : List Byte} {x : F32} (h : parseNumber t = some x) : isFinite x = true := by
  have dec : ∀ neg n e, decimalToF32 neg n e = some x → isFinite x = true := by
    intro neg n e h
    unfold decimalToF32 at h
    simp only at h
    split at h
    · cases h
    · rename_i g
      injection h with h
      have := roundUnits_le (n * 10 ^ e.toNat * 2 ^ 149) (10 ^ (-e).toNat)
      unfold roundRat at g h
      rw [← h, isFinite_iff, magBits_packF32 _ (roundUnits_lt _ _)]
      omega
  unfold parseNumber at h
  simp only at h
  split at h
  · cases h
  · split at h
    · cases h
    · exact dec _ _ _ h

theorem parseArg_ok {i : Nat} {t : List Byte} {v : F32} (h : parseArg i t = .ok v) :
    parseNumber t = some v := by
  unfold parseArg at h
  split at h
  · injection h with h; rw [← h]; assumption
  · cases h

theorem checkArg_ok {i : Nat} {a : ArgSpec} {v : F32} {u : Unit} (h : checkArg i a v = .ok u) :
    inRange a v = true := by
  unfold checkArg at h
  split at h
  · assumption
  · cases h

/-! ### Entries -/

/-- Every operation an entry can give has the property, its arguments being finite and in range. -/
def HandlerGives (P : Instr → Prop) : Handler → Prop
  | .zero i => P i
  | .one a f => ∀ v, isFinite v = true → inRange a v = true → P (f v)
  | .two a b f => ∀ v w, isFinite v = true → isFinite w = true → inRange a v = true → inRange b w = true →
      P (f v w)

theorem runHandler_ok {P : Instr → Prop} {e : Handler} {args : List (List Byte)} {i : Instr}
    (g : HandlerGives P e) (h : runHandler e args = .ok i) : P i := by
  unfold runHandler at h
  split at h
  · injection h with h; exact h ▸ g
  · simp only [bind, Except.bind] at h
    split at h
    · cases h
    · split at h
      · cases h
      · rename_i v hv _ u hc
        injection h with h
        exact h ▸ g v (isFinite_of_parseNumber (parseArg_ok hv)) (checkArg_ok hc)
  · simp only [bind, Except.bind] at h
    split at h
    · cases h
    · split at h
      · cases h
      · split at h
        · cases h
        · split at h
          · cases h
          · rename_i v hv _ w hw _ u hc _ u' hc'
            injection h with h
            exact h ▸ g v w (isFinite_of_parseNumber (parseArg_ok hv))
              (isFinite_of_parseNumber (parseArg_ok hw)) (checkArg_ok hc) (checkArg_ok hc')
  · cases h

/-- A property of every entry's operations, and of `q`, is one of whatever a line decodes to. -/
theorem decodeLine_forall {P : Instr → Prop} (hq : P .q)
    (hs : ∀ e ∈ setTable limits, HandlerGives P e.handler) (hg : ∀ e ∈ getTable, HandlerGives P e.handler)
    {line : List Byte} {i : Instr} (h : decodeLine line = .ok i) : P i := by
  unfold decodeLine decodeLineWith at h
  split at h
  · cases h
  · split at h
    · injection h with h; exact h ▸ hq
    · split at h
      · unfold decodeTokens at h
        split at h
        · cases h
        · split at h
          · cases h
          · rename_i table ht
            split at h
            · cases h
            · rename_i e he
              have hm : e ∈ table := List.mem_of_find?_eq_some he
              unfold tableOf at ht
              split at ht
              · injection ht with ht
                exact runHandler_ok (hs e (ht ▸ hm)) h
              · split at ht
                · injection ht with ht
                  exact runHandler_ok (hg e (ht ▸ hm)) h
                · cases ht
      · cases h

/-- No line is a tick or LOAD (30_encoding.md R120 to R123). -/
theorem decodeLine_command {line : List Byte} {i : Instr} (h : decodeLine line = .ok i) :
    i ≠ .load ∧ (∀ h', i ≠ .htrTickDisabled h' ∧ i ≠ .htrTickFixed h' ∧ (∀ dt, i ≠ .htrTickPid h' dt) ∧
      i ≠ .htrTickDirect h') ∧ ∀ j, i ≠ .hpTickDisabled j ∧ i ≠ .hpTickDirect j ∧ i ≠ .hpTickHyst j := by
  refine decodeLine_forall (P := fun i => i ≠ .load ∧ (∀ h', i ≠ .htrTickDisabled h' ∧ i ≠ .htrTickFixed h' ∧
    (∀ dt, i ≠ .htrTickPid h' dt) ∧ i ≠ .htrTickDirect h') ∧
    ∀ j, i ≠ .hpTickDisabled j ∧ i ≠ .hpTickDirect j ∧ i ≠ .hpTickHyst j) (by simp) ?_ ?_ h
  · simp [setTable, HandlerGives]
  · simp [getTable, HandlerGives]

end Sys2Proof.Machine
end

