-- ==== Sys2Proof/Laws/Output.lean ====
section
/-! SUPPORT. The laws of the output stage: the closed form of the distributor, the range of the code, and
all that a write of an output does. -/

namespace Sys2Proof.Machine

open Sys2Proof

/-! ### The distributor -/

/-- Filling in turn gives each sub-channel what is left above those before it (41_dac_distribution.md
R192 (e)). -/
theorem getD_spill (n rem k : Nat) :
    (spill n rem).getD k 0 = if k < n then min (rem - Config.subMax * k) Config.subMax else 0 := by
  induction n generalizing rem k with
  | zero => simp [spill]
  | succ n ih =>
    cases k with
    | zero => simp [spill]
    | succ k =>
      rw [spill, List.getD_cons_succ, ih]
      simp only [Nat.add_lt_add_iff_right, Config.subMax]
      split <;> omega

@[simp] theorem length_spill (n rem : Nat) : (spill n rem).length = n := by
  induction n generalizing rem with
  | zero => rfl
  | succ n ih => simp [spill, ih]

theorem sum_spill (n rem : Nat) : (spill n rem).sum = min rem (Config.subMax * n) := by
  induction n generalizing rem with
  | zero => simp [spill]
  | succ n ih => simp only [spill, List.sum_cons, ih, Config.subMax]; omega

/-- The closed form of a sub-channel register. -/
theorem toNat_subCode (code k : Nat) (h : k < 4) :
    (subCode code k).toNat = min (code - Config.subMax * k) Config.subMax := by
  rw [subCode, distribute, getD_spill, if_pos h, BitVec.toNat_ofNat, Nat.mod_eq_of_lt]
  simp only [Config.subMax]; omega

theorem getElem_subCodes (code : Nat) (k : SubIx) : (subCodes code)[k] = subCode code k := by
  obtain ⟨k, hk⟩ := k
  match k, hk with
  | 0, _ => rfl
  | 1, _ => rfl
  | 2, _ => rfl
  | 3, _ => rfl

/-! ### The code -/

theorem codeOf_le (cv mc : F32) : codeOf cv mc ≤ Config.codeScale := Nat.min_le_right _ _

theorem magUnits_eq_zero {x : F32} (h : magBits x = 0) : magUnits x = 0 := by
  simp [magUnits, h, unitsOfMag]

theorem roundUnits_zero (d : Nat) : roundUnits 0 d = 0 := by
  simp [roundUnits, roundHalfEven]

/-- Zero current gives code 0 (41_dac_distribution.md R190). -/
theorem codeOf_zero {cv mc : F32} (h : magBits cv = 0) (hm : isNaN mc = false) (hm0 : magBits mc ≠ 0) :
    codeOf cv mc = 0 := by
  have hc : isNaN cv = false := by simp [isNaN, h]
  have hi : isInf cv = false := by simp [isInf, h]
  have hq : magBits (fdiv cv mc) = 0 := by
    unfold fdiv
    rw [hc, hm, hi]
    simp only [Bool.or_self, Bool.false_eq_true, if_false, hm0]
    split
    · simp
    · rw [magUnits_eq_zero h, roundRat, Nat.zero_mul, roundUnits_zero]; simp
  have h2 : magBits (fmul (fdiv cv mc) f262144) = 0 := by
    have n1 : isNaN (fdiv cv mc) = false := by simp [isNaN, hq]
    have n2 : isInf (fdiv cv mc) = false := by simp [isInf, hq]
    have n3 : isNaN f262144 = false := by decide
    have n4 : isInf f262144 = false := by decide
    unfold fmul
    rw [n1, n2, n3, n4]
    simp only [Bool.or_self, Bool.false_eq_true, if_false, magUnits_eq_zero hq, Nat.zero_mul,
      roundUnits_zero]
    simp
  have h3 : floorNat (fmul (fdiv cv mc) f262144) = 0 := by
    rw [floorNat, magUnits_eq_zero h2, Nat.zero_div, ite_self]
  rw [codeOf, h3, Nat.zero_min]

theorem magBits_pos_of_flt {x : F32} (h : flt zeroF x = true) : isNeg x = false ∧ 0 < magBits x := by
  rw [flt_iff] at h
  have hz : orderKey zeroF = 0 := by decide
  rw [hz, orderKey] at h
  obtain ⟨-, -, h⟩ := h
  split at h
  · omega
  · exact ⟨by simpa using ‹¬isNeg x = true›, by omega⟩

/-! ### A write of an output -/

/-- The output registers after a write hold the code and its distribution. -/
theorem outputIs_writeCode {c : Heater} {code : Nat} (h : code ≤ Config.codeScale) :
    OutputIs { c with code := BitVec.ofNat 19 code, dac := subCodes code } code := by
  refine ⟨?_, fun k => ?_⟩
  · simp only [BitVec.toNat_ofNat]; exact Nat.mod_eq_of_lt (Nat.lt_of_le_of_lt h (by decide))
  · simp only [getElem_subCodes]; exact toNat_subCode code k k.isLt

theorem heater_writeCode (s : State) (h h' : HeaterIx) (code : Nat) :
    (s.writeCode h code).heater h' =
      if h' = h then { s.heater h with code := BitVec.ofNat 19 code, dac := subCodes code }
      else s.heater h' := by
  simp only [State.writeCode, heater_emit, heater_setHeater]

@[simp] theorem heater_writeCode_same (s : State) (h : HeaterIx) (code : Nat) :
    (s.writeCode h code).heater h =
      { s.heater h with code := BitVec.ofNat 19 code, dac := subCodes code } := by
  simp [heater_writeCode]

/-- The four writes of an output are the writes of its sub-channel registers. -/
theorem outputActions_writeCode (h : HeaterIx) (c : Heater) (code : Nat) :
    outputActions h { c with code := BitVec.ofNat 19 code, dac := subCodes code } =
      dacActions h code := rfl

theorem highPower_driveHp (s : State) (j j' : HpIx) (b : Bool) :
    (s.driveHp j b).highPower j' = if j' = j then { s.highPower j with state := b } else s.highPower j' := by
  simp only [State.driveHp, highPower_emit, highPower_setHighPower]

@[simp] theorem highPower_writeCode (s : State) (h : HeaterIx) (code : Nat) (j : HpIx) :
    (s.writeCode h code).highPower j = s.highPower j := rfl
@[simp] theorem sensor_writeCode (s : State) (h : HeaterIx) (code : Nat) (n : SensorIx) :
    (s.writeCode h code).sensor n = s.sensor n := rfl
@[simp] theorem heater_driveHp (s : State) (j : HpIx) (b : Bool) (h : HeaterIx) :
    (s.driveHp j b).heater h = s.heater h := rfl
@[simp] theorem sensor_driveHp (s : State) (j : HpIx) (b : Bool) (n : SensorIx) :
    (s.driveHp j b).sensor n = s.sensor n := rfl

/-- All a heater channel's write with its output does: the channel, the four actions, nothing else. -/
theorem writeCode_setHeater (s : State) (h : HeaterIx) (c : Heater) (code : Nat) :
    (s.setHeater h c).writeCode h code =
      (s.setHeater h { c with code := BitVec.ofNat 19 code, dac := subCodes code }).emit
        (dacActions h code) := by
  simp [State.writeCode, State.setHeater, State.heater, State.emit]

theorem dacActions_zero (h : HeaterIx) : dacActions h 0 = zeroDacActions h := rfl

/-- All outputs off emits what Reset emits (44_cmd_set.md R283, 70_reset_and_hazards.md R370). -/
theorem allOutputsOff_log (s : State) : s.allOutputsOff.log = s.log ++ resetActions := by
  simp only [State.allOutputsOff, driveHp_log, heaterOff_log, dacActions_zero, resetActions, List.append_assoc,
    List.cons_append, List.nil_append]

end Sys2Proof.Machine
end

