-- ==== Sys2Proof/Laws/Tick.lean ====
section
/-! SUPPORT. All that a tick of one channel can do, said once: which of the guard and the law runs, and
what each leaves. -/

namespace Sys2Proof.Machine

open Sys2Proof

/-! ### Samples -/

theorem assignedSensor_eq {sns : Byte} {n : SensorIx} (h : sns.toNat = n.val + 1) :
    assignedSensor sns = some n := by
  have := n.isLt
  unfold assignedSensor
  rw [dif_pos (by omega)]
  congr 1
  apply Fin.ext
  simp only; omega

theorem sampleOf_of_hasSample {s : State} {sns : Byte} {n : SensorIx} {pv : F32}
    (h : HasSample s sns n pv) : s.sampleOf sns = some pv := by
  rw [State.sampleOf, assignedSensor_eq h.1]
  simp [resolveSample, h.2.1, h.2.2]

theorem unitOf_of_hasSample {s : State} {sns : Byte} {n : SensorIx} {pv : F32}
    (h : HasSample s sns n pv) : s.unitOf sns = (s.sensor n).units := by
  rw [State.unitOf, assignedSensor_eq h.1]

theorem sampleOf_of_noSample {s : State} {sns : Byte} (h : NoSample s sns) : s.sampleOf sns = none := by
  rcases h with h | h | ⟨n, h1, h2⟩
  · have : assignedSensor sns = none := by unfold assignedSensor; rw [dif_neg (by omega)]
    rw [State.sampleOf, this]
  · have : assignedSensor sns = none := by unfold assignedSensor; rw [dif_neg (by omega)]
    rw [State.sampleOf, this]
  · rw [State.sampleOf, assignedSensor_eq h1]
    rcases h2 with h2 | h2 <;> simp [resolveSample, h2]

/-- A channel's assignment gives a sample of a sensor or none. -/
theorem hasSample_or_noSample (s : State) (sns : Byte) :
    (∃ n pv, HasSample s sns n pv) ∨ NoSample s sns := by
  by_cases h : 1 ≤ sns.toNat ∧ sns.toNat ≤ 12
  · let n : SensorIx := ⟨sns.toNat - 1, by omega⟩
    have hn : sns.toNat = n.val + 1 := by simp only [n]; omega
    by_cases ht : (s.sensor n).type = .unset
    · exact .inr (.inr (.inr ⟨n, hn, .inl ht⟩))
    · cases hv : (s.sensor n).temp with
      | none => exact .inr (.inr (.inr ⟨n, hn, .inr hv⟩))
      | some pv => exact .inl ⟨n, pv, hn, ht, hv⟩
  · right; unfold NoSample; omega

/-! ### The heater tick -/

/-- The two ways a tick of an active heater channel can go: a guard fails, or the law runs. -/
theorem heaterTick_guard {s : State} {h : HeaterIx} (law : Heater → TempUnit → F32 → F32 → LawResult)
    (g : HeaterGuardFails s h) : s.heaterTick h law = s.guardOff h := by
  unfold State.heaterTick State.heaterTickWith
  simp only
  rcases g with g | g | g | g
  · rw [sampleOf_of_noSample g]
  · cases s.sampleOf (s.heater h).sns <;> simp [usableResistance, g]
  · cases s.sampleOf (s.heater h).sns <;> simp [usableResistance, g]
  · cases s.sampleOf (s.heater h).sns with
    | none => rfl
    | some pv => simp [maxCurrentOf, g]

theorem heaterTick_law {s : State} {h : HeaterIx} {n : SensorIx} {pv mc : F32}
    (law : Heater → TempUnit → F32 → F32 → LawResult) (r : HeaterReady s h n pv mc) :
    s.heaterTick h law =
      s.finishHeater h pv mc (law (s.heater h) (s.sensor n).units pv mc) := by
  obtain ⟨hs, h1, h2, h3, h4⟩ := r
  subst h3
  unfold State.heaterTick State.heaterTickWith
  simp only
  rw [sampleOf_of_hasSample hs, unitOf_of_hasSample hs]
  simp only [usableResistance, h1, h2, Bool.and_self, if_true, maxCurrentOf, h4]

/-- One of the two always holds. -/
theorem heaterReady_or_guardFails (s : State) (h : HeaterIx) :
    (∃ n pv mc, HeaterReady s h n pv mc) ∨ HeaterGuardFails s h := by
  rcases hasSample_or_noSample s (s.heater h).sns with ⟨n, pv, hs⟩ | hn
  · unfold HeaterGuardFails
    cases h1 : flt zeroF (s.heater h).res
    · right; right; left; rfl
    · cases h2 : isFinite (s.heater h).res
      · right; right; right; left; rfl
      · cases h3 : flt zeroF (fmin (fdiv limits.maxVoltage (s.heater h).res) limits.maxCurrent)
        · right; right; right; right; rfl
        · exact .inl ⟨n, pv, _, hs, h1, h2, rfl, h3⟩
  · exact .inr (.inl hn)

/-- What a guard leaves (40_heater_control.md R152), and all of a disabled channel's tick. -/
theorem guardOff_eq (s : State) (h : HeaterIx) :
    s.guardOff h =
      (s.setHeater h
        { s.heater h with cv := zeroF, pwr := zeroF, code := 0, dac := subCodes 0 }).emit
          (dacActions h 0) := by
  rw [State.guardOff, State.outputZero, writeCode_setHeater]
  rfl

theorem isFinite_maxCurrent {r mc : F32} (h : flt zeroF mc = true)
    (hmc : mc = fmin (fdiv limits.maxVoltage r) limits.maxCurrent) : isFinite mc = true := by
  have hl := limits_lawful.2
  have hz := fle_of_flt h
  subst hmc
  unfold fmin at h hz ⊢
  split
  · rename_i g
    rw [if_pos g] at hz
    exact isFinite_of_between hz (fle_of_flt g) hl.1
  · exact hl.1

/-- What the end of a tick leaves when the law has run (40_heater_control.md R151, R159). -/
theorem finishHeater_inside {s : State} {h : HeaterIx} {pv mc : F32} {r : LawResult}
    (i : Inside (s.heater h).tmin pv (s.heater h).tmax) :
    s.finishHeater h pv mc r =
      (s.setHeater h
        { s.heater h with
          it := r.it, eprev := r.eprev, pwr := r.pw, cv := r.cur
          code := BitVec.ofNat 19 (codeOf r.cur mc), dac := subCodes (codeOf r.cur mc) }).emit
        (dacActions h (codeOf r.cur mc)) := by
  have : inside (s.heater h).tmin pv (s.heater h).tmax = true := by simp [inside, i.1, i.2]
  simp only [State.finishHeater, this, if_true, State.output, writeCode_setHeater]

theorem finishHeater_outside {s : State} {h : HeaterIx} {pv mc : F32} {r : LawResult}
    (m : flt zeroF mc = true) (i : ¬Inside (s.heater h).tmin pv (s.heater h).tmax) :
    s.finishHeater h pv mc r =
      (s.setHeater h
        { s.heater h with
          it := r.it, eprev := r.eprev, pwr := r.pw, cv := zeroF, code := 0, dac := subCodes 0 }).emit
        (dacActions h 0) := by
  have hi : inside (s.heater h).tmin pv (s.heater h).tmax = false := by
    unfold Inside at i
    simp only [inside, Bool.and_eq_false_iff]
    rcases not_and_or.1 i with q | q
    · exact .inl (by simpa using q)
    · exact .inr (by simpa using q)
  have hc : codeOf zeroF mc = 0 :=
    codeOf_zero (by decide) (flt_iff.1 m).2.1 (by have := magBits_pos_of_flt m; omega)
  simp only [State.finishHeater, hi, Bool.false_eq_true, if_false, State.output, writeCode_setHeater, hc]
  rfl

/-! ### The high-power tick -/

theorem highPowerTick_off {s : State} {j : HpIx} (law : HighPower → F32 → Bool)
    (h : NoSample s (s.highPower j).sns) : s.highPowerTick j law = s.driveHp j false := by
  unfold State.highPowerTick
  simp only
  rw [sampleOf_of_noSample h]

theorem highPowerTick_law {s : State} {j : HpIx} {n : SensorIx} {pv : F32} (law : HighPower → F32 → Bool)
    (h : HasSample s (s.highPower j).sns n pv) :
    s.highPowerTick j law =
      s.driveHp j (inside (s.highPower j).tmin pv (s.highPower j).tmax && law (s.highPower j) pv) := by
  unfold State.highPowerTick
  simp only
  rw [sampleOf_of_hasSample h]

/-- A tick of a high-power channel drives its actuator and nothing else. -/
theorem highPowerTick_drives (s : State) (j : HpIx) (law : HighPower → F32 → Bool) :
    ∃ b, s.highPowerTick j law = s.driveHp j b := by
  rcases hasSample_or_noSample s (s.highPower j).sns with ⟨n, pv, h⟩ | h
  · exact ⟨_, highPowerTick_law law h⟩
  · exact ⟨_, highPowerTick_off law h⟩

/-- A tick of a heater channel writes that channel and its output device and nothing else. -/
theorem heaterTick_writes (s : State) (h : HeaterIx) (law : Heater → TempUnit → F32 → F32 → LawResult) :
    ∃ it eprev pwr cv code, code ≤ Config.codeScale ∧
      s.heaterTick h law =
        (s.setHeater h
          { s.heater h with
            it := it, eprev := eprev, pwr := pwr, cv := cv
            code := BitVec.ofNat 19 code, dac := subCodes code }).emit (dacActions h code) := by
  rcases heaterReady_or_guardFails s h with ⟨n, pv, mc, r⟩ | g
  · rw [heaterTick_law law r]
    by_cases i : Inside (s.heater h).tmin pv (s.heater h).tmax
    · exact ⟨_, _, _, _, _, codeOf_le _ _, finishHeater_inside i⟩
    · exact ⟨_, _, _, _, 0, Nat.zero_le _, finishHeater_outside r.2.2.2.2 i⟩
  · rw [heaterTick_guard law g]
    exact ⟨_, _, _, _, 0, Nat.zero_le _, guardOff_eq s h⟩

end Sys2Proof.Machine
end

