-- ==== Sys2Proof/Laws/Exec.lean ====
section
/-! SUPPORT. What an operation can do, said once: the shapes of the next state of `exec`. -/

namespace Sys2Proof.Machine

open Sys2Proof

/-- A heater channel written, with the actions that go with it: either an answer and no output, or an
output and perhaps an answer. -/
def WritesHeater (s t : State) : Prop :=
  ∃ h c as, t = (s.setHeater h c).emit as ∧
    ((as = [.resp s.conn .ok] ∧ c.code = (s.heater h).code ∧ c.dac = (s.heater h).dac) ∨
      ∃ code, code ≤ Config.codeScale ∧ c.code = BitVec.ofNat 19 code ∧ c.dac = subCodes code ∧
        (as = dacActions h code ∨ as = dacActions h code ++ [.resp s.conn .ok]))

/-- A high-power channel written, with the actions that go with it. -/
def WritesHighPower (s t : State) : Prop :=
  ∃ j c as, t = (s.setHighPower j c).emit as ∧
    ((as = [.resp s.conn .ok] ∧ c.state = (s.highPower j).state) ∨
      as = [.hp j c.state] ∨ as = [.hp j c.state, .resp s.conn .ok])

/-- A sensor channel written, and the answer. -/
def WritesSensor (s t : State) : Prop :=
  ∃ n c, c.temp = none ∧ t = (s.setSensor n c).emit [.resp s.conn .ok]

/-- An answer or a `Close`, and nothing else. -/
def Speaks (s t : State) : Prop :=
  (∃ key v, t = s.emit [.resp s.conn (.value key v)]) ∨ t = s.emit [.close s.conn]

theorem writesHeater_tick (s : State) (h : HeaterIx) (law : Heater → TempUnit → F32 → F32 → LawResult) :
    WritesHeater s (s.heaterTick h law) := by
  obtain ⟨it, eprev, pwr, cv, code, hc, e⟩ := heaterTick_writes s h law
  exact ⟨h, _, _, e, .inr ⟨code, hc, rfl, rfl, .inl rfl⟩⟩

theorem writesHighPower_drive (s : State) (j : HpIx) (b : Bool) : WritesHighPower s (s.driveHp j b) :=
  ⟨j, _, _, rfl, .inr (.inl rfl)⟩

theorem writesHeater_off (s : State) (h : HeaterIx) (c : Heater) :
    WritesHeater s (((s.setHeater h c).heaterOff h).respond .ok) := by
  refine ⟨h, { c with cv := zeroF, code := 0, dac := subCodes 0 },
    dacActions h 0 ++ [.resp s.conn .ok], ?_, .inr ⟨0, Nat.zero_le _, rfl, rfl, .inr rfl⟩⟩
  rw [State.heaterOff, State.outputZero, writeCode_setHeater, State.respond, emit_emit]
  simp [State.setHeater, State.heater]

theorem writesHighPower_off (s : State) (j : HpIx) (c : HighPower) :
    WritesHighPower s (((s.setHighPower j c).driveHp j false).respond .ok) := by
  refine ⟨j, { c with state := false }, [.hp j false, .resp s.conn .ok], ?_, .inr (.inr rfl)⟩
  rw [State.driveHp, State.respond, emit_emit]
  simp [State.setHighPower, State.highPower]

/-- All that an operation can do when it runs to a next state. -/
theorem exec_shape {i : Instr} {s t : State} (h : exec i s = .next t) :
    WritesHeater s t ∨ WritesHighPower s t ∨ WritesSensor s t ∨ Speaks s t ∨
      ((i = .setStopProgram ∨ i = .setExit) ∧ t = s.stop.respond .ok) ∨
      (i = .setCommit ∧ t = s.committed.respond .ok) ∨ (i = .load ∧ s.bootLoad = .ok t) := by
  have inj : ∀ {a : State}, (Host.Outcome.next a : Host.Outcome State Fault Refusal) = .next t → t = a :=
    fun e => by injection e with e; exact e.symm
  cases i with
  | setDacMode h' n =>
    have e := inj h
    by_cases hn : n = .disabled
    · rw [if_pos hn] at e
      exact .inl (e ▸ writesHeater_off s h' _)
    · rw [if_neg hn] at e
      exact .inl ⟨h', _, _, e, .inl ⟨rfl, rfl, rfl⟩⟩
  | setHpMode j n =>
    have e := inj h
    by_cases hn : n = .disabled
    · rw [if_pos hn] at e
      exact .inr (.inl (e ▸ writesHighPower_off s j _))
    · rw [if_neg hn] at e
      exact .inr (.inl ⟨j, _, _, e, .inl ⟨rfl, rfl⟩⟩)
  | setCommit =>
    have e : s.commitOk = .next t := h
    rw [commitOk_eq] at e
    exact .inr (.inr (.inr (.inr (.inr (.inl ⟨rfl, inj e⟩)))))
  | load =>
    have e : ofStore s.bootLoad = .next t := h
    refine .inr (.inr (.inr (.inr (.inr (.inr ⟨rfl, ?_⟩)))))
    cases hb : s.bootLoad with
    | ok u => rw [hb] at e; rw [inj e]
    | error r => rw [hb] at e; cases e
  | setStopProgram => exact .inr (.inr (.inr (.inr (.inl ⟨.inl rfl, inj h⟩))))
  | setExit => exact .inr (.inr (.inr (.inr (.inl ⟨.inr rfl, inj h⟩))))
  | q => exact .inr (.inr (.inr (.inl (.inr (inj h)))))
  | htrTickDisabled h' =>
    exact .inl (inj h ▸ ⟨h', _, _, guardOff_eq s h', .inr ⟨0, Nat.zero_le _, rfl, rfl, .inl rfl⟩⟩)
  | htrTickFixed h' => exact .inl (inj h ▸ writesHeater_tick s h' _)
  | htrTickPid h' dt => exact .inl (inj h ▸ writesHeater_tick s h' _)
  | htrTickDirect h' => exact .inl (inj h ▸ writesHeater_tick s h' _)
  | hpTickDisabled j => exact .inr (.inl (inj h ▸ writesHighPower_drive s j false))
  | hpTickDirect j =>
    obtain ⟨b, e⟩ := highPowerTick_drives s j fun c _ => c.cmd
    exact .inr (.inl (inj h ▸ e ▸ writesHighPower_drive s j b))
  | hpTickHyst j =>
    obtain ⟨b, e⟩ := highPowerTick_drives s j fun c pv => comparator c.sp c.hyst pv c.state
    exact .inr (.inl (inj h ▸ e ▸ writesHighPower_drive s j b))
  | setDacSns h' n => exact .inl ⟨h', _, _, inj h, .inl ⟨rfl, rfl, rfl⟩⟩
  | setDacSp h' x => exact .inl ⟨h', _, _, inj h, .inl ⟨rfl, rfl, rfl⟩⟩
  | setDacKp h' x => exact .inl ⟨h', _, _, inj h, .inl ⟨rfl, rfl, rfl⟩⟩
  | setDacKi h' x => exact .inl ⟨h', _, _, inj h, .inl ⟨rfl, rfl, rfl⟩⟩
  | setDacKd h' x => exact .inl ⟨h', _, _, inj h, .inl ⟨rfl, rfl, rfl⟩⟩
  | setDacRes h' x => exact .inl ⟨h', _, _, inj h, .inl ⟨rfl, rfl, rfl⟩⟩
  | setDacFp h' x => exact .inl ⟨h', _, _, inj h, .inl ⟨rfl, rfl, rfl⟩⟩
  | setDacTmax h' x => exact .inl ⟨h', _, _, inj h, .inl ⟨rfl, rfl, rfl⟩⟩
  | setDacTmin h' x => exact .inl ⟨h', _, _, inj h, .inl ⟨rfl, rfl, rfl⟩⟩
  | setDacCur h' x => exact .inl ⟨h', _, _, inj h, .inl ⟨rfl, rfl, rfl⟩⟩
  | setHpSns j n => exact .inr (.inl ⟨j, _, _, inj h, .inl ⟨rfl, rfl⟩⟩)
  | setHpSp j x => exact .inr (.inl ⟨j, _, _, inj h, .inl ⟨rfl, rfl⟩⟩)
  | setHpHyst j x => exact .inr (.inl ⟨j, _, _, inj h, .inl ⟨rfl, rfl⟩⟩)
  | setHpTmax j x => exact .inr (.inl ⟨j, _, _, inj h, .inl ⟨rfl, rfl⟩⟩)
  | setHpTmin j x => exact .inr (.inl ⟨j, _, _, inj h, .inl ⟨rfl, rfl⟩⟩)
  | setHpState j b => exact .inr (.inl ⟨j, _, _, inj h, .inl ⟨rfl, rfl⟩⟩)
  | setSnsType n x => exact .inr (.inr (.inl ⟨n, _, rfl, inj h⟩))
  | setSnsUnits n x => exact .inr (.inr (.inl ⟨n, _, rfl, inj h⟩))
  | getDacMode h' => exact .inr (.inr (.inr (.inl (.inl ⟨_, _, inj h⟩))))
  | getDacSns h' => exact .inr (.inr (.inr (.inl (.inl ⟨_, _, inj h⟩))))
  | getDacSp h' => exact .inr (.inr (.inr (.inl (.inl ⟨_, _, inj h⟩))))
  | getDacKp h' => exact .inr (.inr (.inr (.inl (.inl ⟨_, _, inj h⟩))))
  | getDacKi h' => exact .inr (.inr (.inr (.inl (.inl ⟨_, _, inj h⟩))))
  | getDacKd h' => exact .inr (.inr (.inr (.inl (.inl ⟨_, _, inj h⟩))))
  | getDacRes h' => exact .inr (.inr (.inr (.inl (.inl ⟨_, _, inj h⟩))))
  | getDacFp h' => exact .inr (.inr (.inr (.inl (.inl ⟨_, _, inj h⟩))))
  | getDacTmax h' => exact .inr (.inr (.inr (.inl (.inl ⟨_, _, inj h⟩))))
  | getDacTmin h' => exact .inr (.inr (.inr (.inl (.inl ⟨_, _, inj h⟩))))
  | getDacCur h' => exact .inr (.inr (.inr (.inl (.inl ⟨_, _, inj h⟩))))
  | getDacCv h' => exact .inr (.inr (.inr (.inl (.inl ⟨_, _, inj h⟩))))
  | getDacPwr h' => exact .inr (.inr (.inr (.inl (.inl ⟨_, _, inj h⟩))))
  | getHpMode j => exact .inr (.inr (.inr (.inl (.inl ⟨_, _, inj h⟩))))
  | getHpSns j => exact .inr (.inr (.inr (.inl (.inl ⟨_, _, inj h⟩))))
  | getHpSp j => exact .inr (.inr (.inr (.inl (.inl ⟨_, _, inj h⟩))))
  | getHpHyst j => exact .inr (.inr (.inr (.inl (.inl ⟨_, _, inj h⟩))))
  | getHpTmax j => exact .inr (.inr (.inr (.inl (.inl ⟨_, _, inj h⟩))))
  | getHpTmin j => exact .inr (.inr (.inr (.inl (.inl ⟨_, _, inj h⟩))))
  | getHpState j => exact .inr (.inr (.inr (.inl (.inl ⟨_, _, inj h⟩))))
  | getSnsType n => exact .inr (.inr (.inr (.inl (.inl ⟨_, _, inj h⟩))))
  | getSnsUnits n => exact .inr (.inr (.inr (.inl (.inl ⟨_, _, inj h⟩))))
  | getSnsTemp n => exact .inr (.inr (.inr (.inl (.inl ⟨_, _, inj h⟩))))

/-- LOAD never meets the end of the store (20_memory.md R81). -/
theorem bootLoad_ok (s : State) : ∃ t, s.bootLoad = .ok t := by
  rw [bootLoad_eq]
  simp only [readout_eq]
  split
  · exact ⟨_, rfl⟩
  · split
    · exact ⟨_, rfl⟩
    · split
      · exact ⟨_, rfl⟩
      · exact ⟨_, rfl⟩

/-- Every operation runs to a next state (43_cmd_dispatch.md R246, 40_heater_control.md R151). -/
theorem exec_next (i : Instr) (s : State) : ∃ t, exec i s = .next t := by
  cases i with
  | setCommit => exact ⟨_, commitOk_eq s⟩
  | load =>
    obtain ⟨t, e⟩ := bootLoad_ok s
    exact ⟨t, by show ofStore s.bootLoad = _; rw [e]; rfl⟩
  | _ => exact ⟨_, rfl⟩

end Sys2Proof.Machine
end

