-- ==== Sys2Proof/Laws/Step.lean ====
section
/-! SUPPORT. What a step can do, said once: the three things a step runs, what is taken before an
operation and settled after it, and what a reset inside it leaves. -/

namespace Sys2Proof.Machine

open Sys2Proof

/-! ### Outcomes -/

theorem onNext_next {o : Host.Outcome State Fault Refusal} {f : State → State} {u : State}
    (h : onNext o f = .next u) : ∃ t, o = .next t ∧ u = f t := by
  cases o with
  | next t => exact ⟨t, rfl, by injection h with h; exact h.symm⟩
  | fault r => cases h
  | refused r => cases h

/-! ### Taking a selector -/

/-- Taking a selector touches the connection, the list of inputs and the Tick in progress only. -/
theorem accept_eq (s : State) (src : Source) :
    ∃ conn tick inbox, s.accept src = { s with conn := conn, tick := tick, inbox := inbox } := by
  cases src with
  | wire line =>
    simp only [State.accept]
    split
    · exact ⟨_, s.tick, _, rfl⟩
    · exact ⟨s.conn, s.tick, s.inbox, rfl⟩
  | heaterMode h dt code =>
    simp only [State.accept]
    split
    · exact ⟨s.conn, _, s.inbox, rfl⟩
    · exact ⟨s.conn, s.tick, s.inbox, rfl⟩
  | hpMode j code =>
    simp only [State.accept]
    split
    · exact ⟨s.conn, _, s.inbox, rfl⟩
    · exact ⟨s.conn, s.tick, s.inbox, rfl⟩
  | phase code => exact ⟨s.conn, s.tick, s.inbox, rfl⟩

@[simp] theorem accept_phase (s : State) (src : Source) : (s.accept src).phase = s.phase := by
  obtain ⟨a, b, c, e⟩ := accept_eq s src; rw [e]
@[simp] theorem accept_htr (s : State) (src : Source) : (s.accept src).htr = s.htr := by
  obtain ⟨a, b, c, e⟩ := accept_eq s src; rw [e]
@[simp] theorem accept_hp (s : State) (src : Source) : (s.accept src).hp = s.hp := by
  obtain ⟨a, b, c, e⟩ := accept_eq s src; rw [e]
@[simp] theorem accept_sns (s : State) (src : Source) : (s.accept src).sns = s.sns := by
  obtain ⟨a, b, c, e⟩ := accept_eq s src; rw [e]
@[simp] theorem accept_nvm (s : State) (src : Source) : (s.accept src).nvm = s.nvm := by
  obtain ⟨a, b, c, e⟩ := accept_eq s src; rw [e]
@[simp] theorem accept_log (s : State) (src : Source) : (s.accept src).log = s.log := by
  obtain ⟨a, b, c, e⟩ := accept_eq s src; rw [e]
@[simp] theorem accept_cut (s : State) (src : Source) : (s.accept src).cut = s.cut := by
  obtain ⟨a, b, c, e⟩ := accept_eq s src; rw [e]
@[simp] theorem accept_telemetry (s : State) (src : Source) : (s.accept src).telemetry = s.telemetry := by
  obtain ⟨a, b, c, e⟩ := accept_eq s src; rw [e]
@[simp] theorem accept_resetAsserted (s : State) (src : Source) :
    (s.accept src).resetAsserted = s.resetAsserted := by
  obtain ⟨a, b, c, e⟩ := accept_eq s src; rw [e]
@[simp] theorem accept_markerMisses (s : State) (src : Source) :
    (s.accept src).markerMisses = s.markerMisses := by
  obtain ⟨a, b, c, e⟩ := accept_eq s src; rw [e]
@[simp] theorem heater_accept (s : State) (src : Source) (h : HeaterIx) :
    (s.accept src).heater h = s.heater h := by simp [State.heater]
@[simp] theorem highPower_accept (s : State) (src : Source) (j : HpIx) :
    (s.accept src).highPower j = s.highPower j := by simp [State.highPower]
@[simp] theorem sensor_accept (s : State) (src : Source) (n : SensorIx) :
    (s.accept src).sensor n = s.sensor n := by simp [State.sensor]

/-! ### The end of a Tick -/

/-- Settling touches the Tick in progress and the telemetry view only. -/
theorem settle_eq (s : State) : ∃ tick tel, s.settle = { s with tick := tick, telemetry := tel } := by
  unfold State.settle
  split
  · exact ⟨_, _, rfl⟩
  · exact ⟨s.tick, s.telemetry, rfl⟩

@[simp] theorem settle_phase (s : State) : s.settle.phase = s.phase := by
  obtain ⟨a, b, e⟩ := settle_eq s; rw [e]
@[simp] theorem settle_htr (s : State) : s.settle.htr = s.htr := by obtain ⟨a, b, e⟩ := settle_eq s; rw [e]
@[simp] theorem settle_hp (s : State) : s.settle.hp = s.hp := by obtain ⟨a, b, e⟩ := settle_eq s; rw [e]
@[simp] theorem settle_sns (s : State) : s.settle.sns = s.sns := by obtain ⟨a, b, e⟩ := settle_eq s; rw [e]
@[simp] theorem settle_nvm (s : State) : s.settle.nvm = s.nvm := by obtain ⟨a, b, e⟩ := settle_eq s; rw [e]
@[simp] theorem settle_log (s : State) : s.settle.log = s.log := by obtain ⟨a, b, e⟩ := settle_eq s; rw [e]
@[simp] theorem settle_cut (s : State) : s.settle.cut = s.cut := by obtain ⟨a, b, e⟩ := settle_eq s; rw [e]
@[simp] theorem settle_conn (s : State) : s.settle.conn = s.conn := by
  obtain ⟨a, b, e⟩ := settle_eq s; rw [e]
@[simp] theorem settle_inbox (s : State) : s.settle.inbox = s.inbox := by
  obtain ⟨a, b, e⟩ := settle_eq s; rw [e]
@[simp] theorem settle_resetAsserted (s : State) : s.settle.resetAsserted = s.resetAsserted := by
  obtain ⟨a, b, e⟩ := settle_eq s; rw [e]
@[simp] theorem settle_markerMisses (s : State) : s.settle.markerMisses = s.markerMisses := by
  obtain ⟨a, b, e⟩ := settle_eq s; rw [e]
@[simp] theorem heater_settle (s : State) (h : HeaterIx) : s.settle.heater h = s.heater h := by
  simp [State.heater]
@[simp] theorem highPower_settle (s : State) (j : HpIx) : s.settle.highPower j = s.highPower j := by
  simp [State.highPower]
@[simp] theorem sensor_settle (s : State) (n : SensorIx) : s.settle.sensor n = s.sensor n := by
  simp [State.sensor]

/-- Outside a Tick nothing is settled. -/
theorem settle_of_none {s : State} (h : s.tick = none) : s.settle = s := by
  unfold State.settle; rw [h]

/-! ### A reset inside a step -/

/-- With no reset set to come, a step ends as it is. -/
theorem strike_none (s : State) {t : State} (h : t.cut = none) : s.strike t = t := by
  unfold State.strike; rw [h]

/-- A reset inside a step leaves the step whole with the reset still to come, or the store after some of its
actions and a Reset. -/
theorem strike_cases (s t : State) :
    s.strike t = t ∨ (∃ k, s.strike t = { t with cut := some k }) ∨
      ∃ k, t.cut = some k ∧
        s.strike t =
          { t with
            nvm := (replayStore (s.nvm, s.markerMisses) ((t.log.drop s.log.length).take k)).1
            markerMisses := (replayStore (s.nvm, s.markerMisses) ((t.log.drop s.log.length).take k)).2
            log := s.log ++ (t.log.drop s.log.length).take k }.applyReset := by
  cases h : t.cut with
  | none => exact .inl (strike_none s h)
  | some k =>
    simp only [State.strike, h]
    split
    · exact .inr (.inl ⟨_, rfl⟩)
    · exact .inr (.inr ⟨k, rfl, rfl⟩)

/-! ### A step -/

/-- A step that runs is what it runs whole, with the reset inside it. -/
theorem step_next {s u : State} (h : step s = .next u) : ∃ t, s.stepWhole = .next t ∧ u = s.strike t :=
  onNext_next h

/-- The three things a step runs: an operation, a rejected line, or a stimulus. -/
theorem stepWhole_cases {s t : State} (h : s.stepWhole = .next t) :
    (∃ src i u, s.fetch = some src ∧ decode src = .ok i ∧ exec i (s.accept src) = .next u ∧ t = u.settle) ∨
      (∃ src r, s.fetch = some src ∧ decode src = .error (.bad r) ∧ t = (s.accept src).respond (.bad r)) ∨
      s.fetch = none ∧ s.stimulate = .next t := by
  unfold State.stepWhole at h
  cases hf : s.fetch with
  | none => rw [hf] at h; exact .inr (.inr ⟨rfl, h⟩)
  | some src =>
    rw [hf] at h
    simp only at h
    cases hd : decode src with
    | ok i =>
      rw [hd] at h
      obtain ⟨u, e, e'⟩ := onNext_next h
      exact .inl ⟨src, i, u, rfl, hd, e, e'⟩
    | error e =>
      rw [hd] at h
      cases e with
      | bad r => injection h with h; exact .inr (.inl ⟨src, r, rfl, hd, h.symm⟩)
      | reservedCode c => cases h

/-- The six things a stimulus does. -/
theorem stimulate_cases {s t : State} (h : s.stimulate = .next t) :
    (s.inbox = [] ∧ t = s) ∨
      ∃ x rest, s.inbox = x :: rest ∧
        ((x = .reset ∧ t = { s with inbox := rest }.applyReset) ∨
          (x = .release ∧ t = { s with inbox := rest, resetAsserted := false }) ∨
          (∃ k, x = .resetAfter k ∧ t = { s with inbox := rest, cut := some k }) ∨
          (∃ conn line, x = .command conn line ∧ t = { s with inbox := rest }) ∨
          ∃ dt samp, x = .tick dt samp ∧
            ((s.phase ≠ .run ∧ t = { s with inbox := rest }) ∨
              s.phase = .run ∧ lawfulStrobe dt samp = true ∧ t = { s with inbox := rest }.startTick dt samp)) := by
  unfold State.stimulate at h
  split at h
  · injection h with h; exact .inl ⟨‹_›, h.symm⟩
  · injection h with h; exact .inr ⟨_, _, ‹_›, .inl ⟨rfl, h.symm⟩⟩
  · injection h with h; exact .inr ⟨_, _, ‹_›, .inr (.inl ⟨rfl, h.symm⟩)⟩
  · injection h with h; exact .inr ⟨_, _, ‹_›, .inr (.inr (.inl ⟨_, rfl, h.symm⟩))⟩
  · injection h with h; exact .inr ⟨_, _, ‹_›, .inr (.inr (.inr (.inl ⟨_, _, rfl, h.symm⟩)))⟩
  · refine .inr ⟨_, _, ‹_›, .inr (.inr (.inr (.inr ⟨_, _, rfl, ?_⟩)))⟩
    split at h
    · split at h
      · injection h with h; exact .inr ⟨‹_›, ‹_›, h.symm⟩
      · cases h
    · injection h with h; exact .inl ⟨‹_›, h.symm⟩

/-! ### A Tick -/

/-- The selector of a channel decodes to the operation of its mode (30_encoding.md R123). -/
theorem decode_channelSource (s : State) (dt : F32) (c : Channel) :
    decode (s.channelSource dt c) = .ok (channelOp s dt c) := by
  cases c with
  | heater h => simp only [State.channelSource, channelOp]; cases (s.heater h).mode <;> rfl
  | highPower j => simp only [State.channelSource, channelOp]; cases (s.highPower j).mode <;> rfl

theorem fetch_tick {s : State} {dt : F32} {c : Channel} {cs : List Channel} (hp : s.phase = .run)
    (ht : s.tick = some ⟨dt, c :: cs⟩) : s.fetch = some (s.channelSource dt c) := by
  unfold State.fetch; rw [hp, ht]

/-- One channel of a Tick is one step: its operation, then the end of the Tick if it was the last. -/
theorem step_channel {s : State} {dt : F32} {c : Channel} {cs : List Channel} (hp : s.phase = .run)
    (ht : s.tick = some ⟨dt, c :: cs⟩) :
    step s = onNext (onNext (exec (channelOp s dt c) { s with tick := some ⟨dt, cs⟩ }) State.settle)
      s.strike := by
  have ha : s.accept (s.channelSource dt c) = { s with tick := some ⟨dt, cs⟩ } := by
    cases c <;> simp only [State.channelSource, State.accept, ht]
  rw [step, State.stepWhole, fetch_tick hp ht]
  simp only [decode_channelSource, ha]

end Sys2Proof.Machine
end

