-- ==== Sys2Proof/Laws/Store.lean ====
section
/-! SUPPORT. What COMMIT, READOUT, STAMP and LOAD leave in the store and in the registers, in the terms of
Safety.lean. -/

namespace Sys2Proof.Machine

open Sys2Proof

/-! ### COMMIT and READOUT -/

/-- After COMMIT the store holds every configuration register (20_memory.md R84 to R87, R95). -/
theorem configInStore_commit {s : State} (w : s.nvm.wf = true) :
    ConfigInStore (putAll s.nvm (s.payloads allSlots)) s := by
  refine ⟨fun h => ?_, fun j => ?_, fun n => ?_⟩
  · have k : ∀ i, i < 34 → (putAll s.nvm (s.payloads allSlots)).read (34 * h.val + i) = (s.slotData (.heater h)).getD i 0 := by
      intro i hi
      have := read_commit_slot w (.heater h) i hi
      rwa [slotBase, Nat.zero_add] at this
    unfold HeaterInStore storeF32
    simp only [Nat.add_assoc, Nat.reduceAdd]
    refine ⟨k 0 (by decide), k 1 (by decide), ?_⟩
    repeat rw [k _ (by decide)]
    exact ⟨decodeF32_encodeF32 _, decodeF32_encodeF32 _, decodeF32_encodeF32 _, decodeF32_encodeF32 _,
      decodeF32_encodeF32 _, decodeF32_encodeF32 _, decodeF32_encodeF32 _, decodeF32_encodeF32 _⟩
  · have k : ∀ i, i < 18 → (putAll s.nvm (s.payloads allSlots)).read (0x88 + 18 * j.val + i) = (s.slotData (.highPower j)).getD i 0 := fun i hi => read_commit_slot w (.highPower j) i hi
    unfold HighPowerInStore storeF32
    simp only [Nat.add_assoc, Nat.reduceAdd] at k ⊢
    refine ⟨k 0 (by decide), k 1 (by decide), ?_⟩
    repeat rw [k _ (by decide)]
    exact ⟨decodeF32_encodeF32 _, decodeF32_encodeF32 _, decodeF32_encodeF32 _, decodeF32_encodeF32 _⟩
  · exact ⟨read_commit_slot w (.sensor n) 0 (by simp [slotSize]), read_commit_slot w (.sensor n) 1 (by simp [slotSize])⟩

/-- READOUT sets every configuration register to what its slot decodes to (20_memory.md R96). -/
theorem configFromStore_loaded (s : State) : ConfigFromStore s.nvm (s.loaded s.nvm allSlots) := by
  have g : ∀ (id : Slot) (i : Nat), i < slotSize id → (s.nvm.slot id).getD i 0 = s.nvm.read (slotBase id + i) := fun id i hi => Memory.getD_readBytes _ _ _ _ hi
  have u : ∀ bs i, u8At bs i = (bs.getD i 0).toNat := by intro bs i; simp [u8At, decodeInt, bytesNat]
  have b : ∀ x : Byte, BitVec.ofNat 8 x.toNat = x := by intro x; simp
  refine ⟨fun h => ?_, fun j => ?_, fun n => ?_⟩
  · rw [heater_loaded _ _ allSlots_nodup, if_pos (mem_allSlots _)]
    have k : ∀ i, i < 34 → (s.nvm.slot (.heater h)).getD i 0 = s.nvm.read (34 * h.val + i) := by
      intro i hi
      have := g (.heater h) i hi
      rwa [slotBase, Nat.zero_add] at this
    unfold HeaterFromStore storeF32 decodeHeater
    simp only [Nat.add_assoc, Nat.reduceAdd, u, f32At, decodeF32, b]
    repeat rw [k _ (by decide)]
    refine ⟨?_, rfl, rfl, rfl, rfl, rfl, rfl, rfl, rfl, rfl⟩
    generalize s.nvm.read (34 * h.val + 0) = x
    revert x; decide
  · rw [highPower_loaded _ _ allSlots_nodup, if_pos (mem_allSlots _)]
    have k : ∀ i, i < 18 → (s.nvm.slot (.highPower j)).getD i 0 = s.nvm.read (0x88 + 18 * j.val + i) := fun i hi => g (.highPower j) i hi
    unfold HighPowerFromStore storeF32 decodeHighPower
    simp only [Nat.add_assoc, Nat.reduceAdd, u, f32At, decodeF32, b] at k ⊢
    repeat rw [k _ (by decide)]
    refine ⟨?_, rfl, rfl, rfl, rfl, rfl⟩
    generalize s.nvm.read (0x88 + (18 * j.val + 0)) = x
    revert x; decide
  · rw [sensor_loaded _ _ allSlots_nodup, if_pos (mem_allSlots _)]
    have k : ∀ i, i < 2 → (s.nvm.slot (.sensor n)).getD i 0 = s.nvm.read (0xAC + 2 * n.val + i) := fun i hi => g (.sensor n) i hi
    unfold SensorFromStore decodeSensor
    simp only [u]
    rw [k 0 (by decide), k 1 (by decide)]
    refine ⟨?_, ?_⟩
    · generalize s.nvm.read (0xAC + 2 * n.val + 0) = x
      revert x; decide
    · generalize s.nvm.read (0xAC + 2 * n.val + 1) = x
      revert x; decide

/-- READOUT touches no register outside the maps (70_reset_and_hazards.md R373). -/
theorem sameRuntime_loaded (s : State) (m : Memory) : SameRuntime s (s.loaded m allSlots) := by
  refine ⟨fun h => ?_, fun j => ?_, fun n => ?_⟩
  · rw [heater_loaded _ _ allSlots_nodup, if_pos (mem_allSlots _)]; simp [decodeHeater]
  · rw [highPower_loaded _ _ allSlots_nodup, if_pos (mem_allSlots _)]; simp [decodeHighPower]
  · rw [sensor_loaded _ _ allSlots_nodup, if_pos (mem_allSlots _)]; simp [decodeSensor]

/-- All that READOUT and the entry into RUN do. -/
theorem readout_next (s : State) :
    ∃ t, s.readout = .ok t ∧ t.phase = .run ∧ ConfigFromStore s.nvm t ∧ SameRuntime s t ∧ t.nvm = s.nvm ∧
      EdgeKept s t ∧ t.log = s.log ++ readoutActions := by
  refine ⟨_, readout_eq s, rfl, ?_, ?_, by simp, by simp [EdgeKept], by simp [readActions_allSlots]⟩
  · simpa [ConfigFromStore] using configFromStore_loaded s
  · simpa [SameRuntime] using sameRuntime_loaded s s.nvm

/-! ### STAMP -/

/-- The slot writes of STAMP: zeros in the slots, every other byte as before. -/
theorem stamped_putAll {m : Memory} (w : m.wf = true) :
    Stamped m (putAll m stampSlots) ∧ (putAll m stampSlots).wf = true ∧
      (putAll m stampSlots).read 0xFF = m.read 0xFF := by
  have fit : ∀ w ∈ stampSlots, w.1 + w.2.length ≤ Config.storeSize := by decide
  have out : ∀ a, 0xC4 ≤ a → (putAll m stampSlots).read a = m.read a := by
    intro a h
    refine read_putAll_outside w fit ?_
    intro w hw
    obtain ⟨id, -, rfl⟩ := List.mem_map.1 hw
    have := slot_below id
    simp only [List.length_replicate]; omega
  refine ⟨⟨fun a ha => ?_, fun a h _ => out a h⟩, putAll_wf w fit, out _ (by decide)⟩
  have : ∀ a : Fin 0xC4, ∃ w ∈ stampSlots, w.1 ≤ a.val ∧ a.val < w.1 + w.2.length := by decide +kernel
  have := this ⟨a, ha⟩
  obtain ⟨x, hx, h1, h2⟩ := this
  rw [read_putAll_inside w fit (by decide) hx h1 h2]
  obtain ⟨id, -, rfl⟩ := List.mem_map.1 hx
  rw [List.getD_eq_getElem?_getD, List.getElem?_replicate]
  split <;> rfl

theorem Stamped.trans {m m' m'' : Memory} (h : Stamped m m') (h' : Stamped m' m'') : Stamped m m'' :=
  ⟨h'.1, fun a x y => (h'.2 a x y).trans (h.2 a x y)⟩

/-- The store after a STAMP: stamped, with the marker set unless its write misses. -/
theorem afterStamp_store {s : State} (w : s.nvm.wf = true) :
    Stamped s.nvm s.afterStamp.nvm ∧ s.afterStamp.nvm.wf = true ∧
      s.afterStamp.nvm.read 0xFF = (if s.markerMisses = 0 then 0xA5 else s.nvm.read 0xFF) ∧
      s.afterStamp.markerMisses = s.markerMisses - 1 := by
  obtain ⟨a, b, c⟩ := stamped_putAll w
  unfold State.afterStamp
  rw [replayStore_stamp]
  by_cases h : s.markerMisses = 0
  · simp only [h, if_true]
    have f : Config.markerAddr + [Config.sentinel].length ≤ Config.storeSize := by decide
    refine ⟨⟨fun x hx => ?_, fun x h1 h2 => ?_⟩, Memory.writeBytes_wf b f, ?_, trivial⟩
    · rw [Memory.read_writeBytes b f, if_neg (by simp only [Config.markerAddr]; omega)]; exact a.1 x hx
    · rw [Memory.read_writeBytes b f, if_neg (by simp only [Config.markerAddr]; omega)]; exact a.2 x h1 h2
    · rw [Memory.read_writeBytes b f, if_pos (by decide)]; rfl
  · simp only [h, if_false]
    exact ⟨a, b, c, by simp⟩

/-- Zeros in the slots decode to the defaults (10_state.md R52, 20_memory.md R96). -/
theorem configDefault_of_zeros {m : Memory} {t : State} (h : ConfigFromStore m t)
    (z : ∀ a, a < 0xC4 → m.read a = 0) : ConfigDefault t := by
  have zf : ∀ a, a + 3 < 0xC4 → storeF32 m a = 0 := by
    intro a ha
    rw [storeF32, z _ (by omega), z _ (by omega), z _ (by omega), z _ (by omega)]; rfl
  have m1 : ∀ x : HeaterMode, heaterModeCode x = 0 → x = .disabled := by intro x; cases x <;> decide
  have m2 : ∀ x : HpMode, hpModeCode x = 0 → x = .disabled := by intro x; cases x <;> decide
  have m3 : ∀ x : SensorType, sensorTypeCode x = 0 → x = .unset := by intro x; cases x <;> decide
  have m4 : ∀ x : TempUnit, tempUnitCode x = 0 → x = .kelvin := by intro x; cases x <;> decide
  refine ⟨fun h' => ?_, fun j => ?_, fun n => ?_⟩
  · have := h'.isLt
    have := h.1 h'
    unfold HeaterFromStore at this
    simp only [z (34*h'.val) (by omega), z (34*h'.val+1) (by omega), zf (34*h'.val+2) (by omega), zf (34*h'.val+6) (by omega), zf (34*h'.val+10) (by omega), zf (34*h'.val+14) (by omega), zf (34*h'.val+18) (by omega), zf (34*h'.val+22) (by omega), zf (34*h'.val+26) (by omega), zf (34*h'.val+30) (by omega)] at this
    exact ⟨m1 _ (by simpa using this.1), this.2.1.trans (by decide), this.2.2⟩
  · have := j.isLt
    have := h.2.1 j
    unfold HighPowerFromStore at this
    simp only [z (0x88+18*j.val) (by omega), z (0x88+18*j.val+1) (by omega), zf (0x88+18*j.val+2) (by omega), zf (0x88+18*j.val+6) (by omega), zf (0x88+18*j.val+10) (by omega), zf (0x88+18*j.val+14) (by omega)] at this
    exact ⟨m2 _ (by simpa using this.1), this.2.1.trans (by decide), this.2.2⟩
  · have := n.isLt
    have := h.2.2 n
    unfold SensorFromStore at this
    simp only [z (0xAC+2*n.val) (by omega), z (0xAC+2*n.val+1) (by omega)] at this
    exact ⟨m3 _ (by simpa using this.1), m4 _ (by simpa using this.2)⟩

/-! ### What LOAD can do -/

/-- An access of the register transport inside the store. -/
def InTransport : Action → Prop
  | .memRead a n => a + n ≤ Config.storeSize
  | .memWrite a bs => a + bs.length ≤ Config.storeSize
  | _ => False

/-- From `s` to `t` the block has only used the register transport: the store is what the writes make of it,
the registers outside the maps are as before, and so is what the environment holds. -/
def Transports (s t : State) : Prop :=
  (∃ as, t.log = s.log ++ as ∧ (∀ a ∈ as, InTransport a) ∧
    (t.nvm, t.markerMisses) = replayStore (s.nvm, s.markerMisses) as) ∧
  SameRuntime s t ∧ t.telemetry = s.telemetry ∧ t.conn = s.conn ∧ t.tick = s.tick ∧ t.inbox = s.inbox ∧
    t.resetAsserted = s.resetAsserted ∧ t.cut = s.cut

theorem SameRuntime.refl (s : State) : SameRuntime s s := by simp [SameRuntime]

theorem SameRuntime.trans {s t u : State} (h : SameRuntime s t) (h' : SameRuntime t u) : SameRuntime s u := by
  refine ⟨fun x => ?_, fun x => ?_, fun x => (h'.2.2 x).trans (h.2.2 x)⟩
  · have a := h.1 x
    have b := h'.1 x
    simp only [a] at b
    exact b
  · have a := h.2.1 x
    have b := h'.2.1 x
    simp only [a] at b
    exact b

theorem Transports.trans {s t u : State} (h : Transports s t) (h' : Transports t u) : Transports s u := by
  obtain ⟨⟨as, l, i, r⟩, q, a1, a2, a3, a4, a5, a6⟩ := h
  obtain ⟨⟨bs, l', i', r'⟩, q', b1, b2, b3, b4, b5, b6⟩ := h'
  refine ⟨⟨as ++ bs, by rw [l', l, List.append_assoc], ?_, by rw [r', r, replayStore_append]⟩, q.trans q',
    b1.trans a1, b2.trans a2, b3.trans a3, b4.trans a4, b5.trans a5, b6.trans a6⟩
  intro a ha
  rcases List.mem_append.1 ha with ha | ha
  · exact i a ha
  · exact i' a ha

theorem replayStore_reads (st : Memory × Nat) {as : List Action} (h : ∀ a ∈ as, isStoreWrite a = false) :
    replayStore st as = st := by
  induction as with
  | nil => rfl
  | cons a as ih =>
    have h1 := h a (by simp)
    have h2 : ∀ b ∈ as, isStoreWrite b = false := fun b hb => h b (by simp [hb])
    cases a <;> simp_all [replayStore, isStoreWrite]

theorem transports_reads {s t : State} {as : List Action} (l : t.log = s.log ++ as)
    (i : ∀ a ∈ as, InTransport a) (w : ∀ a ∈ as, isStoreWrite a = false) (m : t.nvm = s.nvm)
    (k : t.markerMisses = s.markerMisses) (q : SameRuntime s t)
    (e : t.telemetry = s.telemetry ∧ t.conn = s.conn ∧ t.tick = s.tick ∧ t.inbox = s.inbox ∧
      t.resetAsserted = s.resetAsserted ∧ t.cut = s.cut) : Transports s t :=
  ⟨⟨as, l, i, by rw [replayStore_reads _ w, m, k]⟩, q, e⟩

theorem transports_start (s : State) :
    Transports s ((s.setPhase .load).emit [.memRead Config.markerAddr 1]) := by
  refine transports_reads (as := [.memRead Config.markerAddr 1]) rfl ?_ ?_ rfl rfl ?_ ?_
  · intro a ha; simp only [List.mem_singleton] at ha; subst ha; show _ ≤ _; decide
  · intro a ha; simp only [List.mem_singleton] at ha; subst ha; rfl
  · simp [SameRuntime]
  · simp

theorem transports_readout {s t : State} (h : s.readout = .ok t) : Transports s t := by
  obtain ⟨u, e, -, -, q, m, k, l⟩ := readout_next s
  rw [e] at h
  injection h with h
  subst h
  exact transports_reads l
    (fun a ha => by
      obtain ⟨r, hr, rfl⟩ := List.mem_map.1 ha
      show r.1 + r.2 ≤ Config.storeSize
      revert r
      decide)
    (fun a ha => by obtain ⟨r, -, rfl⟩ := List.mem_map.1 ha; rfl) m k.2.2.2.2.2.2 q
    ⟨k.1, k.2.1, k.2.2.1, k.2.2.2.1, k.2.2.2.2.1, k.2.2.2.2.2.1⟩

theorem transports_stamp (s : State) : Transports s s.afterStamp := by
  refine ⟨⟨stampActions ++ [.memRead Config.markerAddr 1], afterStamp_log s, ?_, ?_⟩, ?_, ?_⟩
  · have : ∀ a ∈ stampActions ++ [.memRead Config.markerAddr 1],
        match a with
        | .memRead a n => a + n ≤ Config.storeSize
        | .memWrite a bs => a + bs.length ≤ Config.storeSize
        | _ => False := by
      intro a ha
      rcases List.mem_append.1 ha with ha | ha
      · rw [← writeActions_stamp] at ha
        obtain ⟨w, hw, rfl⟩ := List.mem_map.1 ha
        exact stampWrites_fit w hw
      · simp only [List.mem_singleton] at ha; subst ha; show _ ≤ _; decide
    exact this
  · rw [replayStore_append, ← writeActions_stamp]
    rfl
  · simp [SameRuntime]
  · simp

theorem transports_phase (s : State) (p : Phase) : Transports s (s.setPhase p) :=
  ⟨⟨[], by simp, by simp, rfl⟩, by simp [SameRuntime], by simp⟩

/-- All that LOAD can do, said once: it uses the register transport only and ends in RUN, with the registers
read out of the store it leaves, or in FAULT, with the registers as before. -/
theorem bootLoad_cases {s t : State} (h : s.bootLoad = .ok t) :
    Transports s t ∧
      ((t.phase = .run ∧ ConfigFromStore t.nvm t ∧ t.nvm.read 0xFF = 0xA5) ∨
        (t.phase = .fault ∧ SameConfig s t ∧ t.htr = s.htr ∧ t.hp = s.hp ∧ t.sns = s.sns)) := by
  have run : ∀ {u : State}, Transports s u → u.nvm.read 0xFF = 0xA5 → u.readout = .ok t →
      Transports s t ∧ ((t.phase = .run ∧ ConfigFromStore t.nvm t ∧ t.nvm.read 0xFF = 0xA5) ∨
        (t.phase = .fault ∧ SameConfig s t ∧ t.htr = s.htr ∧ t.hp = s.hp ∧ t.sns = s.sns)) := by
    intro u hu hm hr
    refine ⟨hu.trans (transports_readout hr), .inl ?_⟩
    obtain ⟨v, e, p, c, -, m, -⟩ := readout_next u
    rw [e] at hr
    injection hr with hr
    subst hr
    exact ⟨p, m ▸ c, by rw [m]; exact hm⟩
  rw [bootLoad_eq] at h
  simp only at h
  have t0 := transports_start s
  generalize hs : (s.setPhase .load).emit [.memRead Config.markerAddr 1] = s0 at h t0
  split at h
  · rename_i g
    exact run t0 (by subst hs; exact g) h
  · split at h
    · rename_i g
      exact run (t0.trans (transports_stamp _)) g h
    · split at h
      · rename_i g
        exact run ((t0.trans (transports_stamp _)).trans (transports_stamp _)) g h
      · injection h with h
        subst h
        refine ⟨((t0.trans (transports_stamp _)).trans (transports_stamp _)).trans (transports_phase _ _),
          .inr ?_⟩
        subst hs
        refine ⟨rfl, ?_, ?_, ?_, ?_⟩ <;>
          simp [SameConfig, SameHeaterConfig, SameHpConfig, SameSensorConfig, State.configStoreFault]

/-- LOAD keeps the canonical form of the store. -/
theorem Transports.wf {s t : State} (h : Transports s t) (w : s.nvm.wf = true) : t.nvm.wf = true := by
  obtain ⟨⟨as, -, i, r⟩, -⟩ := h
  have e : t.nvm = (replayStore (s.nvm, s.markerMisses) as).1 := by rw [← r]
  rw [e]
  exact replayStore_wf w fun a bs m => i _ m

end Sys2Proof.Machine
end

