-- ==== Sys2Proof/Laws/Run.lean ====
section
/-! SUPPORT. What an operation and a step leave at the edge of the block: the actions, the store, the phase,
what the environment holds. -/

namespace Sys2Proof.Machine

open Sys2Proof

/-- What every operation leaves alone, and what its actions do to the store. -/
theorem exec_edge {i : Instr} {s t : State} (h : exec i s = .next t) :
    (∃ as, t.log = s.log ++ as ∧ (∀ a bs, Action.memWrite a bs ∈ as → a + bs.length ≤ Config.storeSize) ∧
      (t.nvm, t.markerMisses) = replayStore (s.nvm, s.markerMisses) as ∧
      (i ≠ .load → i ≠ .setCommit → t.nvm = s.nvm ∧ ∀ a, a ∈ as → isStoreWrite a = false)) ∧
    t.telemetry = s.telemetry ∧ t.conn = s.conn ∧ t.tick = s.tick ∧ t.inbox = s.inbox ∧
      t.resetAsserted = s.resetAsserted ∧ t.cut = s.cut ∧
      (t.phase = s.phase ∨ (i = .load ∧ (t.phase = .run ∨ t.phase = .fault)) ∨
        ((i = .setStopProgram ∨ i = .setExit) ∧ t.phase = .halted)) := by
  have plain : ∀ as : List Action, t.log = s.log ++ as → (∀ a ∈ as, isStoreWrite a = false) → t.nvm = s.nvm →
      t.markerMisses = s.markerMisses →
      ∃ as, t.log = s.log ++ as ∧ (∀ a bs, Action.memWrite a bs ∈ as → a + bs.length ≤ Config.storeSize) ∧
      (t.nvm, t.markerMisses) = replayStore (s.nvm, s.markerMisses) as ∧
      (i ≠ .load → i ≠ .setCommit → t.nvm = s.nvm ∧ ∀ a, a ∈ as → isStoreWrite a = false) := by
    intro as l w m k
    refine ⟨as, l, fun a bs hm => ?_, by rw [replayStore_reads _ w, m, k], fun _ _ => ⟨m, w⟩⟩
    have := w _ hm
    simp [isStoreWrite] at this
  rcases exec_shape h with
    ⟨h', c, as, rfl, ha⟩ | ⟨j, c, as, rfl, ha⟩ | ⟨n, c, -, rfl⟩ | ha | ⟨hi, rfl⟩ | ⟨hi, rfl⟩ | ⟨hi, hb⟩
  · refine ⟨plain as (by simp) ?_ (by simp) (by simp), by simp⟩
    rcases ha with ⟨rfl, -⟩ | ⟨code, -, -, -, rfl | rfl⟩ <;> simp [isStoreWrite, dacActions]
  · refine ⟨plain as (by simp) ?_ (by simp) (by simp), by simp⟩
    rcases ha with ⟨rfl, -⟩ | rfl | rfl <;> simp [isStoreWrite]
  · exact ⟨plain _ (by simp; rfl) (by simp [isStoreWrite]) (by simp) (by simp), by simp⟩
  · rcases ha with ⟨k, v, rfl⟩ | rfl
    · exact ⟨plain _ (by simp; rfl) (by simp [isStoreWrite]) (by simp) (by simp), by simp⟩
    · exact ⟨plain _ (by simp; rfl) (by simp [isStoreWrite]) (by simp) (by simp), by simp⟩
  · refine ⟨plain (resetActions ++ [.resp s.conn .ok]) ?_ ?_ (by simp) (by simp), by simp, by simp, by simp,
      by simp, by simp, by simp, .inr (.inr ⟨hi, by simp⟩)⟩
    · simp [allOutputsOff_log]
    · simp [resetActions, zeroDacActions, isStoreWrite]
  · refine ⟨⟨writeActions (s.payloads allSlots) ++ [.resp s.conn .ok], by simp [committed_log], ?_, ?_, ?_⟩,
      by simp⟩
    · intro a bs hm
      simp only [List.mem_append, List.mem_singleton, reduceCtorEq, or_false] at hm
      obtain ⟨w, hw, e⟩ := List.mem_map.1 hm
      injection e with e1 e2
      subst e1 e2
      exact payloads_fit s allSlots w hw
    · rw [replayStore_append, replayStore_writeActions (payloads_off_marker s allSlots)]
      simp [committed_nvm, replayStore]
    · exact fun _ h2 => absurd hi h2
  · obtain ⟨⟨⟨as, l, w, r⟩, -, e1, e2, e3, e4, e5, e6⟩, p⟩ := bootLoad_cases hb
    refine ⟨⟨as, l, fun a bs m => w _ m, r, fun h1 => absurd hi h1⟩, e1, e2, e3, e4, e5, e6, .inr (.inl ⟨hi, ?_⟩)⟩
    rcases p with p | p
    · exact .inl p.1
    · exact .inr p.1

/-- What an operation was fetched for: LOAD in RESET once reset is released, and in RUN an operation of a
Tick or of a line. -/
theorem fetch_cases {s : State} {src : Source} (h : s.fetch = some src) :
    (s.phase = .reset ∧ s.resetAsserted = false ∧ src = .phase 0) ∨
      s.phase = .run ∧
        ((∃ dt c cs, s.tick = some ⟨dt, c :: cs⟩ ∧ src = s.channelSource dt c) ∨
          ∃ conn line rest, (∀ dt c cs, s.tick ≠ some ⟨dt, c :: cs⟩) ∧ s.inbox = .command conn line :: rest ∧
            src = .wire line) := by
  unfold State.fetch at h
  split at h
  · rename_i hp
    split at h
    · cases h
    · rename_i hr
      injection h with h
      refine .inl ⟨hp, by simpa using hr, ?_⟩
      rw [← h, hp]; rfl
  · rename_i hp
    split at h
    · rename_i dt c cs ht
      injection h with h
      exact .inr ⟨hp, .inl ⟨dt, c, cs, ht, h.symm⟩⟩
    · rename_i ht
      split at h
      · rename_i hi
        injection h with h
        exact .inr ⟨hp, .inr ⟨_, _, _, fun dt c cs => ht dt c cs, hi, h.symm⟩⟩
      · cases h
  · cases h

/-- The operation fetched in RUN is not LOAD. -/
theorem decode_ne_load {s : State} {src : Source} {i : Instr} (h : s.fetch = some src) (hp : s.phase = .run)
    (hd : decode src = .ok i) : i ≠ .load := by
  rcases fetch_cases h with ⟨h1, -⟩ | ⟨-, ⟨dt, c, cs, -, rfl⟩ | ⟨conn, line, rest, -, -, rfl⟩⟩
  · rw [hp] at h1; cases h1
  · rw [decode_channelSource] at hd
    injection hd with hd
    subst hd
    cases c with
    | heater h => simp only [channelOp]; split <;> simp
    | highPower j => simp only [channelOp]; split <;> simp
  · cases hl : decodeLine line with
    | ok j =>
      simp only [decode, hl] at hd
      injection hd with hd
      exact hd ▸ (decodeLine_command hl).1
    | error r => simp only [decode, hl] at hd; cases hd

/-- All that a step does to the actions and to the store, before a reset inside it: the new actions, whose
store writes are inside the store and make the new store. -/
theorem stepWhole_edge {s t : State} (h : s.stepWhole = .next t) :
    ∃ as, t.log = s.log ++ as ∧ (∀ a bs, Action.memWrite a bs ∈ as → a + bs.length ≤ Config.storeSize) ∧
      (t.nvm, t.markerMisses) = replayStore (s.nvm, s.markerMisses) as := by
  rcases stepWhole_cases h with ⟨src, i, v, -, -, he, rfl⟩ | ⟨src, r, -, -, rfl⟩ | ⟨-, hst⟩
  · obtain ⟨⟨as, l, m, r, -⟩, -⟩ := exec_edge he
    exact ⟨as, by simpa using l, m, by simpa using r⟩
  · exact ⟨[_], by simp; rfl, by simp, by simp [replayStore]⟩
  · rcases stimulate_cases hst with ⟨-, rfl⟩ | ⟨x, rest, -, hx⟩
    · exact ⟨[], by simp, by simp, rfl⟩
    · rcases hx with ⟨-, rfl⟩ | ⟨-, rfl⟩ | ⟨k, -, rfl⟩ | ⟨_, _, -, rfl⟩ | ⟨_, _, -, ⟨-, rfl⟩ | ⟨-, -, rfl⟩⟩
      · exact ⟨resetActions, by simp, by simp [resetActions, zeroDacActions], rfl⟩
      all_goals exact ⟨[], by simp [State.startTick], by simp, rfl⟩

/-- What a reset inside a step does, in terms of the actions `as` of the whole step. -/
theorem strike_append {s t : State} {as : List Action} (l : t.log = s.log ++ as) :
    s.strike t =
      match t.cut with
      | none => t
      | some k =>
        if as.length < k then { t with cut := some (k - as.length) }
        else
          { t with
            nvm := (replayStore (s.nvm, s.markerMisses) (as.take k)).1
            markerMisses := (replayStore (s.nvm, s.markerMisses) (as.take k)).2
            log := s.log ++ as.take k }.applyReset := by
  unfold State.strike
  cases t.cut with
  | none => rfl
  | some k => simp only [l, List.drop_left]

end Sys2Proof.Machine
end

