-- ==== Sys2Proof/Laws/Devices.lean ====
section
/-! SUPPORT. What the devices hold after a list of actions (00_scope.md R17), and the outputs after a stop
and after Reset (10_state.md R52). -/

namespace Sys2Proof.Machine

theorem lastDac_append (h k) (l as : List Action) : lastDac h k (l ++ as) = heldDac h k (lastDac h k l) as := by
  rw [lastDac, heldDac, List.foldl_append]; rfl

theorem lastHp_append (j) (l as : List Action) : lastHp j (l ++ as) = heldHp j (lastHp j l) as := by
  rw [lastHp, heldHp, List.foldl_append]; rfl

/-- An action that drives no output. -/
def Quiet (a : Action) : Prop := match a with | .dacWrite _ _ _ => False | .hp _ _ => False | _ => True

theorem heldDac_append (h k held) (l as : List Action) : heldDac h k held (l ++ as) = heldDac h k (heldDac h k held l) as := by
  rw [heldDac, List.foldl_append]; rfl

theorem heldHp_append (j held) (l as : List Action) : heldHp j held (l ++ as) = heldHp j (heldHp j held l) as := by
  rw [heldHp, List.foldl_append]; rfl

theorem heldDac_quiet (h k held) {as : List Action} (q : ∀ a ∈ as, Quiet a) : heldDac h k held as = held := by
  induction as generalizing held with
  | nil => rfl
  | cons a as ih =>
    have := q a (by simp)
    cases a <;> simp [Quiet] at this <;> exact ih _ fun b hb => q b (by simp [hb])

theorem heldHp_quiet (j held) {as : List Action} (q : ∀ a ∈ as, Quiet a) : heldHp j held as = held := by
  induction as generalizing held with
  | nil => rfl
  | cons a as ih =>
    have := q a (by simp)
    cases a <;> simp [Quiet] at this <;> exact ih _ fun b hb => q b (by simp [hb])

theorem heldDac_dacActions (h h' k held code) (as : List Action) (q : ∀ a ∈ as, Quiet a) : heldDac h k held (dacActions h' code ++ as) = if h' = h then some (subCode code k) else held := by
  rw [heldDac, List.foldl_append, ← heldDac, ← heldDac, heldDac_quiet _ _ _ q]
  by_cases e : h' = h
  · subst e; fin_cases k <;> simp [heldDac, dacActions]
  · simp [heldDac, dacActions, e]

theorem heldHp_dacActions (j h' held code) (as : List Action) (q : ∀ a ∈ as, Quiet a) : heldHp j held (dacActions h' code ++ as) = held := by
  rw [heldHp, List.foldl_append, ← heldHp, ← heldHp, heldHp_quiet _ _ q]
  simp [heldHp, dacActions]

theorem heldDac_resetActions (held) (h k) : heldDac h k held resetActions = some 0 := by
  fin_cases h <;> fin_cases k <;> simp [heldDac, resetActions, zeroDacActions]

theorem heldHp_resetActions (held) (j) : heldHp j held resetActions = some false := by
  fin_cases j <;> simp [heldHp, resetActions, zeroDacActions]

theorem devicesMatch_applyReset (s : State) : DevicesMatch s.applyReset := by
  constructor
  · intro h k
    rw [applyReset_log, lastDac_append, heldDac_resetActions]
    fin_cases h <;> fin_cases k <;> rfl
  · intro j
    rw [applyReset_log, lastHp_append, heldHp_resetActions]
    fin_cases j <;> rfl

theorem devicesMatch_quiet {s t : State} {as : List Action} (m : DevicesMatch s) (l : t.log = s.log ++ as) (q : ∀ a ∈ as, Quiet a)
   (h1 : ∀ h, (t.heater h).dac = (s.heater h).dac) (h2 : ∀ j, (t.highPower j).state = (s.highPower j).state) : DevicesMatch t := by
  constructor
  · intro x k
    rw [l, lastDac_append, heldDac_quiet _ _ _ q, m.1, h1]
  · intro j
    rw [l, lastHp_append, heldHp_quiet _ _ q, m.2, h2]

theorem outputsOff_applyReset {s : State} : OutputsOff s.applyReset := by
  constructor
  · intro h
    fin_cases h <;> refine ⟨rfl, rfl, ?_⟩ <;> intro k <;> fin_cases k <;> rfl
  · intro j
    fin_cases j <;> rfl

theorem outputsOff_of_sameRuntime {s t : State} (h : SameRuntime s t) (o : OutputsOff s) : OutputsOff t := by
  refine ⟨fun x => ?_, fun x => ?_⟩
  · have a := h.1 x; have b := o.1 x
    refine ⟨a.2.2.2.1.trans b.1, a.2.2.2.2.2.1.trans b.2.1, fun k => ?_⟩
    rw [a.2.2.2.2.2.2]; exact b.2.2 k
  · rw [(h.2.1 x).2]; exact o.2 x

theorem outputsOff_stop (s : State) : OutputsOff s.stop := by
  constructor
  · intro h
    have : (s.stop.heater h).cv = zeroF ∧ (s.stop.heater h).code = 0 ∧ (s.stop.heater h).dac = subCodes 0 := by
      simp only [State.stop, heater_setPhase, State.allOutputsOff, heater_driveHp, State.heaterOff, State.outputZero, heater_writeCode, heater_setHeater]
      fin_cases h <;> simp
    refine ⟨this.1, this.2.1, fun k => ?_⟩
    rw [this.2.2]; fin_cases k <;> rfl
  · intro j
    simp only [State.stop, highPower_setPhase, State.allOutputsOff, highPower_driveHp]
    fin_cases j <;> simp

end Sys2Proof.Machine
end

