-- ==== Sys2Proof/Laws/Limits.lean ====
section
/-! SUPPORT. The integral term (40_heater_control.md R155, R162, R164): at limits of any ordinary size its
bound is finite, and the clamp alone gives it. A magnitude pattern is bounded by that of a power of two: `(k - 22) * 2^23` is the pattern
of 2^k units of 2^-149. -/

namespace Sys2Proof.Machine

/-! ### Bounds by powers of two -/

theorem roundUnits_le_pow {num den k : Nat} (hk : 24 ≤ k) (hd : 0 < den) (h : num < den * 2 ^ k) :
    roundUnits num den ≤ (k - 22) * 2 ^ 23 := by
  have hq : num / den < 2 ^ k := (Nat.div_lt_iff_lt_mul hd).2 (by rwa [Nat.mul_comm])
  have hs : Nat.log2 (num / den) - 23 ≤ k - 24 := by
    rcases Nat.eq_zero_or_pos (num / den) with h0 | h0
    · rw [h0]; simp
    · have := (Nat.log2_lt (by omega)).2 hq; omega
  have hr : roundHalfEven num (den * 2 ^ (Nat.log2 (num / den) - 23)) ≤ 2 ^ 24 := by
    have : num / (den * 2 ^ (Nat.log2 (num / den) - 23)) < 2 ^ 24 := by
      rw [← Nat.div_div_eq_div_mul, Nat.div_lt_iff_lt_mul (by positivity), ← pow_add]
      exact Nat.lt_of_lt_of_le Nat.lt_log2_self (Nat.pow_le_pow_right (by decide) (by omega))
    unfold roundHalfEven
    split <;> omega
  refine (Nat.min_le_left _ _).trans ?_
  have : (k - 22) * 2 ^ 23 = (k - 24) * 2 ^ 23 + 2 ^ 24 := by omega
  rw [this]
  exact Nat.add_le_add (Nat.mul_le_mul_right _ hs) hr

theorem unitsOfMag_le_pow {p k : Nat} (hk : 24 ≤ k) (h : p ≤ (k - 22) * 2 ^ 23) : unitsOfMag p ≤ 2 ^ k := by
  have hf : p % 2 ^ 23 < 2 ^ 23 := Nat.mod_lt _ (by decide)
  unfold unitsOfMag
  split
  · exact hf.le.trans (Nat.pow_le_pow_right (by decide) (by omega))
  · rcases Nat.lt_or_ge (p / 2 ^ 23) (k - 22) with hl | hl
    · calc _ ≤ 2 ^ 24 * 2 ^ (k - 24) := Nat.mul_le_mul (by omega) (Nat.pow_le_pow_right (by decide) (by omega))
        _ = 2 ^ k := by rw [← pow_add]; congr 1; omega
    · have h0 : p % 2 ^ 23 = 0 := by omega
      have h1 : p / 2 ^ 23 = k - 22 := by omega
      rw [h0, h1, Nat.zero_add, ← pow_add]
      exact Nat.pow_le_pow_right (by decide) (by omega)

theorem unitsOfMag_ge_pow {p k : Nat} (hk : 24 ≤ k) (h : (k - 22) * 2 ^ 23 ≤ p) : 2 ^ k ≤ unitsOfMag p := by
  have hl : k - 22 ≤ p / 2 ^ 23 := (Nat.le_div_iff_mul_le (by decide)).2 h
  rw [unitsOfMag, if_neg (by omega)]
  calc 2 ^ k = 2 ^ 23 * 2 ^ (k - 23) := by rw [← pow_add]; congr 1; omega
    _ ≤ _ := Nat.mul_le_mul (by omega) (Nat.pow_le_pow_right (by decide) (by omega))

/-- A product of bounded finite numbers is bounded, and finite where the bound is. -/
theorem fmul_le_pow {a b : F32} {i j : Nat} (ha : isFinite a = true) (hb : isFinite b = true) (hi : 24 ≤ i)
    (hj : 24 ≤ j) (hij : 172 ≤ i + j) (hf : i + j < 425) (h : magBits a ≤ (i - 22) * 2 ^ 23)
    (h' : magBits b ≤ (j - 22) * 2 ^ 23) :
    isFinite (fmul a b) = true ∧ magBits (fmul a b) ≤ (i + j - 148 - 22) * 2 ^ 23 := by
  have hp : magUnits a * magUnits b ≤ 2 ^ (i + j) := by
    rw [pow_add]; exact Nat.mul_le_mul (unitsOfMag_le_pow hi h) (unitsOfMag_le_pow hj h')
  have hr : roundUnits (magUnits a * magUnits b) (2 ^ 149) ≤ (i + j - 148 - 22) * 2 ^ 23 := by
    refine roundUnits_le_pow (by omega) (by positivity) (Nat.lt_of_le_of_lt hp ?_)
    rw [← pow_add]
    exact Nat.pow_lt_pow_right (by decide) (by omega)
  have hm : magBits (fmul a b) = roundUnits (magUnits a * magUnits b) (2 ^ 149) := by
    unfold fmul
    rw [isNaN_of_isFinite ha, isNaN_of_isFinite hb, isInf_of_isFinite ha, isInf_of_isFinite hb]
    simp only [Bool.or_self, Bool.false_eq_true, if_false]
    exact magBits_packF32 _ (roundUnits_lt _ _)
  rw [isFinite_iff, hm]
  exact ⟨by simp only [infBits]; omega, hr⟩

theorem magBits_of_isFinite {x : F32} (h : isFinite x = true) : magBits x ≤ (277 - 22) * 2 ^ 23 :=
  (isFinite_iff.1 h).le

theorem isFinite_of_magBits_le {x : F32} {k : Nat} (hk : k < 277) (h : magBits x ≤ (k - 22) * 2 ^ 23) :
    isFinite x = true := by
  rw [isFinite_iff]; simp only [infBits]; omega

/-! ### The bound of the integral term -/

/-- At limits up to 2^20 (in volts and in amperes) the bound of the integral term is finite: below a
resistance of 2^51 by the limit of the current, above by the fall of `MAX_VOLTAGE / R`. -/
theorem isFinite_maxITerm_of_le {lim : Limits} {r : F32} (hr : usableResistance r = true) (v0 : isNeg lim.maxVoltage = false)
    (c0 : flt zeroF lim.maxCurrent = true) (hv : magBits lim.maxVoltage ≤ (169 - 22) * 2 ^ 23)
    (hc : magBits lim.maxCurrent ≤ (169 - 22) * 2 ^ 23) :
    isFinite (maxITerm (maxCurrentOf lim r) r) = true := by
  simp only [usableResistance, Bool.and_eq_true] at hr
  obtain ⟨rpos, rfin⟩ := hr
  have vfin := isFinite_of_magBits_le (by decide) hv
  have cfin := isFinite_of_magBits_le (by decide) hc
  have key : ∀ x : F32, orderKey x ≤ magBits x := fun x => by unfold orderKey; split <;> omega
  have zkey : orderKey zeroF = 0 := by decide
  have ckey : orderKey lim.maxCurrent = magBits lim.maxCurrent := by
    have := (flt_iff.1 c0).2.2; rw [zkey] at this
    unfold orderKey at *; split <;> simp_all; omega
  have rneg : isNeg r = false ∧ 0 < magBits r := by
    have := (flt_iff.1 rpos).2.2; rw [zkey] at this
    unfold orderKey at *; split at this <;> simp_all; omega
  have dmag : magBits (fdiv lim.maxVoltage r) = roundRat (magUnits lim.maxVoltage) (magUnits r) ∧
      isNeg (fdiv lim.maxVoltage r) = false := by
    unfold fdiv
    rw [isNaN_of_isFinite vfin, isNaN_of_isFinite rfin, isInf_of_isFinite vfin, isInf_of_isFinite rfin,
      v0, rneg.1, if_neg (by decide), if_neg (by decide), if_neg (by decide), if_neg (by omega)]
    exact ⟨magBits_packF32 _ (roundUnits_lt _ _), isNeg_packF32 _ (roundUnits_lt _ _)⟩
  have dnan : isNaN (fdiv lim.maxVoltage r) = false :=
    isNaN_eq_false.2 (dmag.1 ▸ roundUnits_le _ _)
  have thousand : isFinite f1000 = true ∧ magBits f1000 ≤ (159 - 22) * 2 ^ 23 := by decide
  have mcle : magBits (maxCurrentOf lim r) ≤ magBits lim.maxCurrent ∧
      magBits (maxCurrentOf lim r) ≤ magBits (fdiv lim.maxVoltage r) := by
    have dkey : orderKey (fdiv lim.maxVoltage r) = magBits (fdiv lim.maxVoltage r) := by
      rw [orderKey, dmag.2, if_neg (by decide)]
    unfold maxCurrentOf fmin
    split
    · have := (flt_iff.1 ‹_›).2.2; omega
    · have := (fle_iff.1 (fle_of_not_flt (isNaN_of_isFinite cfin) dnan ‹_›)).2.2; omega
  rcases Nat.lt_or_ge (magBits r) ((200 - 22) * 2 ^ 23) with hl | hl
  · have b1 := mcle.1.trans hc
    have f1 := isFinite_of_magBits_le (by decide) b1
    have m1 := fmul_le_pow f1 f1 (by decide) (by decide) (by decide) (by decide) b1 b1
    have m2 := fmul_le_pow m1.1 rfin (by decide) (by decide) (by decide) (by decide) m1.2 hl.le
    exact (fmul_le_pow m2.1 thousand.1 (by decide) (by decide) (by decide) (by decide) m2.2 thousand.2).1
  · have hu : 2 ^ 200 ≤ magUnits r := unitsOfMag_ge_pow (by decide) hl
    have b1 : magBits (maxCurrentOf lim r) ≤ (120 - 22) * 2 ^ 23 := by
      refine mcle.2.trans (dmag.1 ▸ roundUnits_le_pow (by decide) (Nat.lt_of_lt_of_le (by decide) hu) ?_)
      calc magUnits lim.maxVoltage * 2 ^ 149 ≤ 2 ^ 169 * 2 ^ 149 :=
            Nat.mul_le_mul_right _ (unitsOfMag_le_pow (by decide) hv)
        _ < 2 ^ 200 * 2 ^ 120 := by decide
        _ ≤ _ := Nat.mul_le_mul_right _ hu
    have f1 := isFinite_of_magBits_le (by decide) b1
    have m1 := fmul_le_pow f1 f1 (by decide) (by decide) (by decide) (by decide) b1 b1
    have m2 := fmul_le_pow m1.1 rfin (by decide) (by decide) (by decide) (by decide) m1.2
      (magBits_of_isFinite rfin)
    exact (fmul_le_pow m2.1 thousand.1 (by decide) (by decide) (by decide) (by decide) m2.2 thousand.2).1

/-! ### The integral term -/

/-- The free value is a finite number from 0 on (40_heater_control.md R164). -/
theorem someTerm_mem (it inc : F32) : isFinite (someTerm it inc) = true ∧ fle zeroF (someTerm it inc) = true := by
  unfold someTerm
  dsimp only
  split
  · rename_i h
    exact Bool.and_eq_true _ _ ▸ h
  · decide

/-- With a finite bound the term is the clamp of step 5, and nothing is free. -/
theorem integralTerm_eq_clamp {c : Heater} {e dt mit : F32} (h : fle zeroF mit = true) (f : isFinite mit = true) :
    integralTerm c e dt mit = clamp (fadd c.it (fmul (fmul c.ki e) dt)) zeroF mit := by
  obtain ⟨a, b⟩ := clamp_mem (x := fadd c.it (fmul (fmul c.ki e) dt)) h
  rw [integralTerm, isInf_of_isFinite (isFinite_of_between a b f), if_neg (by decide)]

/-- The integral term is a finite number from 0 to `mit`, whatever the limits (40_heater_control.md R162,
R164). -/
theorem integralTerm_mem (c : Heater) (e dt : F32) {mit : F32} (h : fle zeroF mit = true) :
    isFinite (integralTerm c e dt mit) = true ∧ fle zeroF (integralTerm c e dt mit) = true ∧
      fle (integralTerm c e dt mit) mit = true := by
  obtain ⟨a, b⟩ := clamp_mem (x := fadd c.it (fmul (fmul c.ki e) dt)) h
  unfold integralTerm
  dsimp only
  generalize clamp (fadd c.it (fmul (fmul c.ki e) dt)) zeroF mit = x at a b ⊢
  have na := isNaN_eq_false.1 (fle_iff.1 a).2.1
  split
  · rename_i i
    obtain ⟨f, p⟩ := someTerm_mem c.it (fmul (fmul c.ki e) dt)
    generalize someTerm c.it (fmul (fmul c.ki e) dt) = y at f p ⊢
    refine ⟨f, p, fle_trans (b := x) (fle_iff.2 ⟨isNaN_of_isFinite f, (fle_iff.1 a).2.1, ?_⟩) b⟩
    have hx : magBits x = infBits := by simpa [isInf] using i
    have hy := isFinite_iff.1 f
    have h0 := (fle_iff.1 a).2.2
    have hz : orderKey zeroF = 0 := by decide
    rw [hz] at h0
    unfold orderKey at *
    rw [hx] at h0 ⊢
    simp only [infBits] at *
    split at h0
    · omega
    · split <;> omega
  · rename_i i
    refine ⟨isFinite_iff.2 (Nat.lt_of_le_of_ne na ?_), a, b⟩
    simpa [isInf] using i

end Sys2Proof.Machine
end

