-- ==== Sys2Proof/Laws/Line.lean ====
section
/-! SUPPORT. Lines the encoder writes, read back token by token (30_encoding.md R113 to R117). -/

namespace Sys2Proof.Machine

/-- A line that ends in no whitespace is not stripped (43_cmd_dispatch.md R231). -/
theorem rstrip_concat (l : List Byte) {c : Byte} (h : isSpaceByte c = false) : rstrip (l ++ [c]) = l ++ [c] := by
  simp [rstrip, h]

/-- Cutting tokens without commas (30_encoding.md R115). -/
theorem splitCommas_token {t : List Byte} (h : ∀ c ∈ t, c ≠ commaByte) : splitCommas t = [t] := by
  induction t with
  | nil => rfl
  | cons c cs ih =>
    rw [splitCommas, if_neg (h c (by simp)), ih fun x hx => h x (by simp [hx])]

theorem splitCommas_cons {t : List Byte} (rest : List Byte) (h : ∀ c ∈ t, c ≠ commaByte) :
    splitCommas (t ++ commaByte :: rest) = t :: splitCommas rest := by
  induction t with
  | nil => simp [splitCommas]
  | cons c cs ih =>
    rw [List.cons_append, splitCommas, if_neg (h c (by simp)), ih fun x hx => h x (by simp [hx])]

/-- A token an argument is written as: no comma in it, and its last byte no whitespace. -/
def Token (t : List Byte) : Prop := (∀ c ∈ t, c ≠ commaByte) ∧ ∃ l c, t = l ++ [c] ∧ isSpaceByte c = false

theorem token_natText (n : Nat) : Token (natText n) := by
  refine ⟨fun c hc => (isDigit_ne (isDigit_natText n c hc)).2.2.2, ?_⟩
  have hl := List.dropLast_append_getLast (natText_ne_nil n)
  refine ⟨_, _, hl.symm, ?_⟩
  have := isDigit_natText n _ (List.getLast_mem (natText_ne_nil n))
  revert this
  generalize (natText n).getLast (natText_ne_nil n) = c
  revert c
  decide

theorem token_exactText (x : F32) : Token (exactText x) := by
  have pre : ∀ t : List Byte, Token t → Token ((if isNeg x then [0x2D] else []) ++ t) := by
    rintro t ⟨h, l, c, rfl, hc⟩
    refine ⟨fun d hd => ?_, (if isNeg x then [0x2D] else []) ++ l, c, by simp, hc⟩
    rcases List.mem_append.1 hd with hd | hd
    · split at hd
      · simp only [List.mem_singleton] at hd; subst hd; decide
      · simp at hd
    · exact h d hd
  refine pre _ ?_
  split
  · exact token_natText _
  · refine ⟨fun c hc => ?_, natText _ ++ ascii "e-14", 0x39, by rw [List.append_assoc]; rfl, by decide⟩
    rcases List.mem_append.1 hc with hc | hc
    · exact (isDigit_ne (isDigit_natText _ c hc)).2.2.2
    · exact (show ∀ d ∈ ascii "e-149", d ≠ commaByte by decide) c hc

/-- The decoder on a line of format G1. -/
theorem decodeLine_one {verb name : String} {t : List Byte} (hv : ∀ c ∈ ascii verb, c ≠ commaByte)
    (hn : ∀ c ∈ ascii name, c ≠ commaByte) (ht : Token t) :
    decodeLine (lineOf verb name [t]) = decodeTokens limits [ascii verb, ascii name, t] := by
  obtain ⟨h, l, c, rfl, hc⟩ := ht
  have e : lineOf verb name [l ++ [c]] = (dollarByte :: (ascii verb ++ commaByte :: (ascii name ++ commaByte :: l))) ++ [c] := by
    simp [lineOf]
  rw [decodeLine, decodeLineWith, e, rstrip_concat _ hc]
  simp only [List.cons_append, List.append_assoc]
  rw [if_neg (fun q => absurd q.1 (by decide)), if_pos trivial, splitCommas_cons _ hv, splitCommas_cons _ hn, splitCommas_token h]

/-- The decoder on a line of format S2. -/
theorem decodeLine_two {verb name : String} {t u : List Byte} (hv : ∀ c ∈ ascii verb, c ≠ commaByte)
    (hn : ∀ c ∈ ascii name, c ≠ commaByte) (ht : Token t) (hu : Token u) :
    decodeLine (lineOf verb name [t, u]) = decodeTokens limits [ascii verb, ascii name, t, u] := by
  obtain ⟨h, l, c, rfl, hc⟩ := hu
  have e : lineOf verb name [t, l ++ [c]] = (dollarByte :: (ascii verb ++ commaByte :: (ascii name ++ commaByte :: (t ++ commaByte :: l)))) ++ [c] := by
    simp [lineOf]
  rw [decodeLine, decodeLineWith, e, rstrip_concat _ hc]
  simp only [List.cons_append, List.append_assoc]
  rw [if_neg (fun q => absurd q.1 (by decide)), if_pos trivial, splitCommas_cons _ hv, splitCommas_cons _ hn, splitCommas_cons _ ht.1, splitCommas_token h]

theorem parseArg_natText {i n : Nat} {x : F32} (h : parseNumber (natText n) = some x) : parseArg i (natText n) = .ok x := by
  simp [parseArg, h]

theorem parseArg_exactText {i : Nat} {x : F32} (h : isFinite x = true) : parseArg i (exactText x) = .ok x := by
  simp [parseArg, parseNumber_exactText h]

end Sys2Proof.Machine
end

