-- ==== Sys2Proof/Laws/Ranges.lean ====
section
/-! SUPPORT. Signs and ranges: when a value is at least zero, products of such values, the limit of the
integral term and the current (40_heater_control.md R154, R158). -/

namespace Sys2Proof.Machine

theorem toNat_ofNat_code {n : Nat} (h : n ≤ Config.codeScale) : (BitVec.ofNat 19 n).toNat = n := by
  rw [BitVec.toNat_ofNat]; exact Nat.mod_eq_of_lt (Nat.lt_of_le_of_lt h (by decide))

theorem currentOf_finiteNonNegative {pw r mc : F32} (h : flt zeroF mc = true) (f : isFinite mc = true) : finiteNonNegative (currentOf pw r mc) = true := by
  obtain ⟨a, b⟩ := clamp_mem (x := fsqrt (fdiv (pos pw) r)) (fle_of_flt h)
  simp only [finiteNonNegative, Bool.and_eq_true]
  exact ⟨isFinite_of_between a b f, a⟩

theorem flt_zero_fields {x : F32} (h : flt zeroF x = true) : isNaN x = false ∧ isNeg x = false ∧ 0 < magBits x := by
  obtain ⟨a, b⟩ := magBits_pos_of_flt h
  exact ⟨(flt_iff.1 h).2.1, a, b⟩

theorem fle_zero_iff {x : F32} : fle zeroF x = true ↔ isNaN x = false ∧ (isNeg x = false ∨ magBits x = 0) := by
  rw [fle_iff]
  have hz : orderKey zeroF = 0 := by decide
  rw [hz, orderKey]
  simp only [isNaN_zeroF, true_and]
  constructor
  · rintro ⟨a, b⟩
    refine ⟨a, ?_⟩
    cases h : isNeg x
    · exact .inl rfl
    · rw [h] at b; simp at b; exact .inr b
  · rintro ⟨a, b⟩
    refine ⟨a, ?_⟩
    rcases b with b | b
    · simp [b]
    · simp [b]

theorem fmul_nonneg {a b : F32} (ha : fle zeroF a = true) (hb : flt zeroF b = true) (fb : isFinite b = true) : fle zeroF (fmul a b) = true := by
  obtain ⟨na, sa⟩ := fle_zero_iff.1 ha
  obtain ⟨nb, sb, mb⟩ := flt_zero_fields hb
  have ib := isInf_of_isFinite fb
  rw [fle_zero_iff]
  unfold fmul
  simp only [na, nb, ib, sb, Bool.or_self, Bool.or_false, Bool.false_eq_true, if_false]
  by_cases ia : isInf a = true
  · have ma : magBits a = infBits := by simpa [isInf] using ia
    rw [if_pos ia, if_neg (by rw [ma]; simp only [infBits]; omega)]
    have : isNeg a = false := by rcases sa with h | h; exact h; rw [ma] at h; cases h
    rw [this]
    decide
  · rw [if_neg ia]
    have r := roundUnits_lt (magUnits a * magUnits b) (2 ^ 149)
    have r' := roundUnits_le (magUnits a * magUnits b) (2 ^ 149)
    refine ⟨isNaN_eq_false.2 ?_, ?_⟩
    · rw [magBits_packF32 _ r]; exact r'
    · rcases sa with h | h
      · left; rw [h, isNeg_packF32 _ r]; rfl
      · right; rw [magBits_packF32 _ r, magUnits_eq_zero h, Nat.zero_mul, roundUnits_zero]

theorem maxITerm_nonneg {mc r : F32} (h : flt zeroF mc = true) (f : isFinite mc = true) (hr : flt zeroF r = true) (fr : isFinite r = true) : fle zeroF (maxITerm mc r) = true :=
  fmul_nonneg (fmul_nonneg (fmul_nonneg (fle_of_flt h) h f) hr fr) (by decide) (by decide)

/-- `mc` is not above `MAX_CURRENT`, whatever the resistance (40_heater_control.md R154). -/
theorem maxCurrentOf_le (r : F32) : fle (maxCurrentOf limits r) limits.maxCurrent = true := by
  unfold maxCurrentOf fmin
  split
  · exact fle_of_flt ‹_›
  · exact fle_refl (isNaN_of_isFinite limits_lawful.2.1)

theorem currentLegal_iff {x : F32} :
    currentLegal x = true ↔ fle zeroF x = true ∧ fle x limits.maxCurrent = true := by
  simp only [currentLegal, finiteNonNegative, Bool.and_eq_true]
  exact ⟨fun h => ⟨h.1.2, h.2⟩, fun h => ⟨⟨isFinite_of_between h.1 h.2 limits_lawful.2.1, h.1⟩, h.2⟩⟩

theorem currentLegal_zeroF : currentLegal zeroF = true :=
  currentLegal_iff.2 ⟨by decide, fle_of_flt limits_lawful.2.2⟩

/-- A current the converter gives is from 0 to `MAX_CURRENT`. -/
theorem currentLegal_currentOf (pw r : F32) (h : flt zeroF (maxCurrentOf limits r) = true) :
    currentLegal (currentOf pw r (maxCurrentOf limits r)) = true := by
  obtain ⟨a, b⟩ := clamp_mem (x := fsqrt (fdiv (pos pw) r)) (fle_of_flt h)
  exact currentLegal_iff.2 ⟨a, fle_trans b (maxCurrentOf_le r)⟩

/-- An accumulator clamped to `[0, mit]` is a finite number that is not negative
(40_heater_control.md R162, R164). -/
theorem integralTerm_finiteNonNegative (c : Heater) (e dt : F32) (hr : flt zeroF c.res = true)
    (hf : isFinite c.res = true) (hm : flt zeroF (maxCurrentOf limits c.res) = true) :
    finiteNonNegative (integralTerm c e dt (maxITerm (maxCurrentOf limits c.res) c.res)) = true := by
  have f := isFinite_of_between (fle_of_flt hm) (maxCurrentOf_le c.res) limits_lawful.2.1
  obtain ⟨a, b, -⟩ := integralTerm_mem c e dt (maxITerm_nonneg hm f hr hf)
  simp only [finiteNonNegative, Bool.and_eq_true]
  exact ⟨a, b⟩

end Sys2Proof.Machine
end

