-- ==== Sys2Proof/Tests/Slice0.lean ====
section
/-! SUPPORT. The model's own tests: ill-formed terms refused, the decoder on lines written out from the
spec, vectors of 95_test_vectors.md, one small step of each family, and for every statement with
hypotheses a state and operands that meet them. Expected values are the spec's. -/

namespace Sys2Proof.Tests

open Sys2Proof Sys2Proof.Machine

/- One test at a time: the kernel evaluates each of them, and many at once would each hold a thread. -/
set_option Elab.async false

/-- The test limits of 95_test_vectors.md: 8.0 V and 1.0 A. -/
def testLimits : Limits := ⟨0x41000000, 0x3F800000⟩

/-- The line decodes to this operation. -/
def reads (line : List Byte) (i : Instr) : Bool :=
  match decodeLineWith testLimits line with
  | .ok j => decide (j = i)
  | .error _ => false

/-- The line is rejected with this reason. -/
def rejects (line : List Byte) (r : Bad) : Bool :=
  match decodeLineWith testLimits line with
  | .ok _ => false
  | .error e => decide (e = r)

/-- What holds of the next state, if there is one. -/
def after (o : Host.Outcome State Fault Refusal) (p : State → Bool) : Bool :=
  match o with
  | .next t => p t
  | .fault _ => false
  | .refused _ => false

/-- A block in RUN over a stamped store, all registers at their defaults. -/
def running : State := { State.reset with phase := .run, nvm := [(0xFF, 0xA5)], log := [] }

/-- `running` with a command presented. -/
def presenting (line : List Byte) : State := { running with inbox := [.command 3 line] }

/-! ### Well-formedness: for each check a term it refuses (30_encoding.md R117 to R120, 10_state.md R48) -/

theorem test_wf_nan_setpoints :
    [Instr.setDacSp 0 0x7FC00000, .setDacKp 0 0x7F800000, .setDacKi 0 0xFF800000, .setDacKd 0 0x7FC00000,
      .setDacTmax 0 0x7F800000, .setDacTmin 0 0x7FC00000, .setHpSp 0 0x7F800000, .setHpTmax 0 0x7FC00000,
      .setHpTmin 0 0xFFC00000].all (fun i => !wfInstrWith testLimits i) = true := by decide +kernel

/-- A resistance of -1, a hysteresis of -0.5, and the NaNs. -/
theorem test_wf_negative :
    [Instr.setDacRes 0 0xBF800000, .setDacRes 0 0x7FC00000, .setHpHyst 0 0xBF000000,
      .setHpHyst 0 0x7F800000].all (fun i => !wfInstrWith testLimits i) = true := by decide +kernel

/-- A fraction above 1 or below 0, a current above the limit, a `dt` below 1 or infinite. -/
theorem test_wf_ranges :
    [Instr.setDacFp 0 0x3F800001, .setDacFp 0 0xBF800000, .setDacCur 0 0x3FC00000, .setDacCur 0 0xBF800000,
      .setDacCur 0 0x7FC00000, .htrTickPid 0 0x3F7FFFFF, .htrTickPid 0 0x7F800000].all
      (fun i => !wfInstrWith testLimits i) = true := by decide +kernel

/-- The ends of the ranges are inside, -0.0 among them (95_test_vectors.md V7.9, V7.10, V7.14). -/
theorem test_wf_inside :
    [Instr.setDacFp 0 0x3F800000, .setDacFp 0 0x80000000, .setDacCur 0 0x3F800000, .setDacRes 0 0x80000000,
      .setHpHyst 0 0, .setDacKp 0 0xC0400000, .htrTickPid 0 0x3F800000, .load].all
      (wfInstrWith testLimits) = true := by decide +kernel

/-! ### Decoding: the bytes of a line for every row of the tables -/

/-- 30_encoding.md R111, R120; most of the lines are those of 95_test_vectors.md P1, P3, P4. -/
theorem test_decode_set_dac :
    -- $set,dac_mode,1,2
    reads [0x24, 0x73, 0x65, 0x74, 0x2C, 0x64, 0x61, 0x63, 0x5F, 0x6D, 0x6F, 0x64, 0x65, 0x2C, 0x31, 0x2C, 0x32] (.setDacMode 0 .pid) = true ∧
    -- $set,dac_sns,1,5
    reads [0x24, 0x73, 0x65, 0x74, 0x2C, 0x64, 0x61, 0x63, 0x5F, 0x73, 0x6E, 0x73, 0x2C, 0x31, 0x2C, 0x35] (.setDacSns 0 5) = true ∧
    -- $set,dac_sp,1,300
    reads [0x24, 0x73, 0x65, 0x74, 0x2C, 0x64, 0x61, 0x63, 0x5F, 0x73, 0x70, 0x2C, 0x31, 0x2C, 0x33, 0x30, 0x30] (.setDacSp 0 0x43960000) = true ∧
    -- $set,dac_kp,1,55
    reads [0x24, 0x73, 0x65, 0x74, 0x2C, 0x64, 0x61, 0x63, 0x5F, 0x6B, 0x70, 0x2C, 0x31, 0x2C, 0x35, 0x35] (.setDacKp 0 0x425C0000) = true ∧
    -- $set,dac_ki,1,10
    reads [0x24, 0x73, 0x65, 0x74, 0x2C, 0x64, 0x61, 0x63, 0x5F, 0x6B, 0x69, 0x2C, 0x31, 0x2C, 0x31, 0x30] (.setDacKi 0 0x41200000) = true ∧
    -- $set,dac_kd,1,35
    reads [0x24, 0x73, 0x65, 0x74, 0x2C, 0x64, 0x61, 0x63, 0x5F, 0x6B, 0x64, 0x2C, 0x31, 0x2C, 0x33, 0x35] (.setDacKd 0 0x420C0000) = true ∧
    -- $set,dac_res,1,16
    reads [0x24, 0x73, 0x65, 0x74, 0x2C, 0x64, 0x61, 0x63, 0x5F, 0x72, 0x65, 0x73, 0x2C, 0x31, 0x2C, 0x31, 0x36] (.setDacRes 0 0x41800000) = true ∧
    -- $set,dac_fp,1,0.5
    reads [0x24, 0x73, 0x65, 0x74, 0x2C, 0x64, 0x61, 0x63, 0x5F, 0x66, 0x70, 0x2C, 0x31, 0x2C, 0x30, 0x2E, 0x35] (.setDacFp 0 0x3F000000) = true ∧
    -- $set,dac_tmax,1,400
    reads [0x24, 0x73, 0x65, 0x74, 0x2C, 0x64, 0x61, 0x63, 0x5F, 0x74, 0x6D, 0x61, 0x78, 0x2C, 0x31, 0x2C, 0x34, 0x30, 0x30] (.setDacTmax 0 0x43C80000) = true ∧
    -- $set,dac_tmin,4,-40
    reads [0x24, 0x73, 0x65, 0x74, 0x2C, 0x64, 0x61, 0x63, 0x5F, 0x74, 0x6D, 0x69, 0x6E, 0x2C, 0x34, 0x2C, 0x2D, 0x34, 0x30] (.setDacTmin 3 0xC2200000) = true ∧
    -- $set,dac_cur,1,0.125
    reads [0x24, 0x73, 0x65, 0x74, 0x2C, 0x64, 0x61, 0x63, 0x5F, 0x63, 0x75, 0x72, 0x2C, 0x31, 0x2C, 0x30, 0x2E, 0x31, 0x32, 0x35] (.setDacCur 0 0x3E000000) = true := by decide +kernel

/-- 30_encoding.md R120; lines of 95_test_vectors.md P2. -/
theorem test_decode_set_hp :
    -- $set,hp_mode,1,2
    reads [0x24, 0x73, 0x65, 0x74, 0x2C, 0x68, 0x70, 0x5F, 0x6D, 0x6F, 0x64, 0x65, 0x2C, 0x31, 0x2C, 0x32] (.setHpMode 0 .hyst) = true ∧
    -- $set,hp_sns,1,7
    reads [0x24, 0x73, 0x65, 0x74, 0x2C, 0x68, 0x70, 0x5F, 0x73, 0x6E, 0x73, 0x2C, 0x31, 0x2C, 0x37] (.setHpSns 0 7) = true ∧
    -- $set,hp_sp,1,50
    reads [0x24, 0x73, 0x65, 0x74, 0x2C, 0x68, 0x70, 0x5F, 0x73, 0x70, 0x2C, 0x31, 0x2C, 0x35, 0x30] (.setHpSp 0 0x42480000) = true ∧
    -- $set,hp_hyst,1,2
    reads [0x24, 0x73, 0x65, 0x74, 0x2C, 0x68, 0x70, 0x5F, 0x68, 0x79, 0x73, 0x74, 0x2C, 0x31, 0x2C, 0x32] (.setHpHyst 0 0x40000000) = true ∧
    -- $set,hp_tmax,1,100
    reads [0x24, 0x73, 0x65, 0x74, 0x2C, 0x68, 0x70, 0x5F, 0x74, 0x6D, 0x61, 0x78, 0x2C, 0x31, 0x2C, 0x31, 0x30, 0x30] (.setHpTmax 0 0x42C80000) = true ∧
    -- $set,hp_tmin,2,-40
    reads [0x24, 0x73, 0x65, 0x74, 0x2C, 0x68, 0x70, 0x5F, 0x74, 0x6D, 0x69, 0x6E, 0x2C, 0x32, 0x2C, 0x2D, 0x34, 0x30] (.setHpTmin 1 0xC2200000) = true ∧
    -- $set,hp_state,2,1
    reads [0x24, 0x73, 0x65, 0x74, 0x2C, 0x68, 0x70, 0x5F, 0x73, 0x74, 0x61, 0x74, 0x65, 0x2C, 0x32, 0x2C, 0x31] (.setHpState 1 true) = true := by decide +kernel

/-- 30_encoding.md R120; lines of 95_test_vectors.md P1 to P4. -/
theorem test_decode_set_sns_and_bare :
    -- $set,sns_type,5,2
    reads [0x24, 0x73, 0x65, 0x74, 0x2C, 0x73, 0x6E, 0x73, 0x5F, 0x74, 0x79, 0x70, 0x65, 0x2C, 0x35, 0x2C, 0x32] (.setSnsType 4 .pt100W4) = true ∧
    -- $set,sns_units,7,1
    reads [0x24, 0x73, 0x65, 0x74, 0x2C, 0x73, 0x6E, 0x73, 0x5F, 0x75, 0x6E, 0x69, 0x74, 0x73, 0x2C, 0x37, 0x2C, 0x31] (.setSnsUnits 6 .celsius) = true ∧
    -- $set,commit
    reads [0x24, 0x73, 0x65, 0x74, 0x2C, 0x63, 0x6F, 0x6D, 0x6D, 0x69, 0x74] (.setCommit) = true ∧
    -- $set,stop_program
    reads [0x24, 0x73, 0x65, 0x74, 0x2C, 0x73, 0x74, 0x6F, 0x70, 0x5F, 0x70, 0x72, 0x6F, 0x67, 0x72, 0x61, 0x6D] (.setStopProgram) = true ∧
    -- $set,exit
    reads [0x24, 0x73, 0x65, 0x74, 0x2C, 0x65, 0x78, 0x69, 0x74] (.setExit) = true := by decide +kernel

/-- 30_encoding.md R121, the last channel of each. -/
theorem test_decode_get_dac :
    -- $get,dac_mode,4
    reads [0x24, 0x67, 0x65, 0x74, 0x2C, 0x64, 0x61, 0x63, 0x5F, 0x6D, 0x6F, 0x64, 0x65, 0x2C, 0x34] (.getDacMode 3) = true ∧
    -- $get,dac_sns,4
    reads [0x24, 0x67, 0x65, 0x74, 0x2C, 0x64, 0x61, 0x63, 0x5F, 0x73, 0x6E, 0x73, 0x2C, 0x34] (.getDacSns 3) = true ∧
    -- $get,dac_sp,4
    reads [0x24, 0x67, 0x65, 0x74, 0x2C, 0x64, 0x61, 0x63, 0x5F, 0x73, 0x70, 0x2C, 0x34] (.getDacSp 3) = true ∧
    -- $get,dac_kp,4
    reads [0x24, 0x67, 0x65, 0x74, 0x2C, 0x64, 0x61, 0x63, 0x5F, 0x6B, 0x70, 0x2C, 0x34] (.getDacKp 3) = true ∧
    -- $get,dac_ki,4
    reads [0x24, 0x67, 0x65, 0x74, 0x2C, 0x64, 0x61, 0x63, 0x5F, 0x6B, 0x69, 0x2C, 0x34] (.getDacKi 3) = true ∧
    -- $get,dac_kd,4
    reads [0x24, 0x67, 0x65, 0x74, 0x2C, 0x64, 0x61, 0x63, 0x5F, 0x6B, 0x64, 0x2C, 0x34] (.getDacKd 3) = true ∧
    -- $get,dac_res,4
    reads [0x24, 0x67, 0x65, 0x74, 0x2C, 0x64, 0x61, 0x63, 0x5F, 0x72, 0x65, 0x73, 0x2C, 0x34] (.getDacRes 3) = true ∧
    -- $get,dac_fp,4
    reads [0x24, 0x67, 0x65, 0x74, 0x2C, 0x64, 0x61, 0x63, 0x5F, 0x66, 0x70, 0x2C, 0x34] (.getDacFp 3) = true ∧
    -- $get,dac_tmax,4
    reads [0x24, 0x67, 0x65, 0x74, 0x2C, 0x64, 0x61, 0x63, 0x5F, 0x74, 0x6D, 0x61, 0x78, 0x2C, 0x34] (.getDacTmax 3) = true ∧
    -- $get,dac_tmin,4
    reads [0x24, 0x67, 0x65, 0x74, 0x2C, 0x64, 0x61, 0x63, 0x5F, 0x74, 0x6D, 0x69, 0x6E, 0x2C, 0x34] (.getDacTmin 3) = true ∧
    -- $get,dac_cur,4
    reads [0x24, 0x67, 0x65, 0x74, 0x2C, 0x64, 0x61, 0x63, 0x5F, 0x63, 0x75, 0x72, 0x2C, 0x34] (.getDacCur 3) = true ∧
    -- $get,dac_cv,4
    reads [0x24, 0x67, 0x65, 0x74, 0x2C, 0x64, 0x61, 0x63, 0x5F, 0x63, 0x76, 0x2C, 0x34] (.getDacCv 3) = true ∧
    -- $get,dac_pwr,4
    reads [0x24, 0x67, 0x65, 0x74, 0x2C, 0x64, 0x61, 0x63, 0x5F, 0x70, 0x77, 0x72, 0x2C, 0x34] (.getDacPwr 3) = true := by decide +kernel

/-- 30_encoding.md R121, the last channel of each. -/
theorem test_decode_get_hp :
    -- $get,hp_mode,2
    reads [0x24, 0x67, 0x65, 0x74, 0x2C, 0x68, 0x70, 0x5F, 0x6D, 0x6F, 0x64, 0x65, 0x2C, 0x32] (.getHpMode 1) = true ∧
    -- $get,hp_sns,2
    reads [0x24, 0x67, 0x65, 0x74, 0x2C, 0x68, 0x70, 0x5F, 0x73, 0x6E, 0x73, 0x2C, 0x32] (.getHpSns 1) = true ∧
    -- $get,hp_sp,2
    reads [0x24, 0x67, 0x65, 0x74, 0x2C, 0x68, 0x70, 0x5F, 0x73, 0x70, 0x2C, 0x32] (.getHpSp 1) = true ∧
    -- $get,hp_hyst,2
    reads [0x24, 0x67, 0x65, 0x74, 0x2C, 0x68, 0x70, 0x5F, 0x68, 0x79, 0x73, 0x74, 0x2C, 0x32] (.getHpHyst 1) = true ∧
    -- $get,hp_tmax,2
    reads [0x24, 0x67, 0x65, 0x74, 0x2C, 0x68, 0x70, 0x5F, 0x74, 0x6D, 0x61, 0x78, 0x2C, 0x32] (.getHpTmax 1) = true ∧
    -- $get,hp_tmin,2
    reads [0x24, 0x67, 0x65, 0x74, 0x2C, 0x68, 0x70, 0x5F, 0x74, 0x6D, 0x69, 0x6E, 0x2C, 0x32] (.getHpTmin 1) = true ∧
    -- $get,hp_state,2
    reads [0x24, 0x67, 0x65, 0x74, 0x2C, 0x68, 0x70, 0x5F, 0x73, 0x74, 0x61, 0x74, 0x65, 0x2C, 0x32] (.getHpState 1) = true := by decide +kernel

/-- 30_encoding.md R121, the last channel of each. -/
theorem test_decode_get_sns :
    -- $get,sns_type,12
    reads [0x24, 0x67, 0x65, 0x74, 0x2C, 0x73, 0x6E, 0x73, 0x5F, 0x74, 0x79, 0x70, 0x65, 0x2C, 0x31, 0x32] (.getSnsType 11) = true ∧
    -- $get,sns_units,12
    reads [0x24, 0x67, 0x65, 0x74, 0x2C, 0x73, 0x6E, 0x73, 0x5F, 0x75, 0x6E, 0x69, 0x74, 0x73, 0x2C, 0x31, 0x32] (.getSnsUnits 11) = true ∧
    -- $get,sns_temp,12
    reads [0x24, 0x67, 0x65, 0x74, 0x2C, 0x73, 0x6E, 0x73, 0x5F, 0x74, 0x65, 0x6D, 0x70, 0x2C, 0x31, 0x32] (.getSnsTemp 11) = true := by decide +kernel

/-- 30_encoding.md R123, 43_cmd_dispatch.md R232: the selector codes, and the bare line `q`. -/
theorem test_decode_codes :
    decode (.heaterMode 3 0x40000000 0) = .ok (.htrTickDisabled 3) ∧
    decode (.heaterMode 3 0x40000000 1) = .ok (.htrTickFixed 3) ∧
    decode (.heaterMode 3 0x40000000 2) = .ok (.htrTickPid 3 0x40000000) ∧
    decode (.heaterMode 3 0x40000000 3) = .ok (.htrTickDirect 3) ∧
    decode (.hpMode 1 0) = .ok (.hpTickDisabled 1) ∧ decode (.hpMode 1 1) = .ok (.hpTickDirect 1) ∧
    decode (.hpMode 1 2) = .ok (.hpTickHyst 1) ∧ decode (.phase 0) = .ok .load ∧
    reads [0x71] .q = true ∧ reads [0x71, 0x20, 0x0D] .q = true := by
  refine ⟨rfl, rfl, rfl, rfl, rfl, rfl, rfl, rfl, ?_, ?_⟩ <;> decide +kernel

/-- 30_encoding.md R124: the other codes are reserved. -/
theorem test_decode_reserved :
    decode (.heaterMode 0 0x3F800000 4) = .error (.reservedCode 4) ∧
    decode (.hpMode 0 3) = .error (.reservedCode 3) ∧ decode (.phase 2) = .error (.reservedCode 2) :=
  ⟨rfl, rfl, rfl⟩

/-- Words of spec/opcode_table.json: a `match` with no arguments, one with the first byte least
significant, and the 8-bit codes. -/
theorem test_table_words :
    decodeTableWord 88 0x247365742C6461635F7370 = some (.setDacSp 0 0) ∧
    decodeTableWord 104 0x65646F6D5F6361642C74656724 = some (.getDacMode 0) ∧
    decodeTableWord 88 0x247365742C636F6D6D6974 = some .setCommit ∧
    decodeTableWord 8 0x71 = some .q ∧ decodeTableWord 8 0 = some .load ∧
    decodeTableWord 8 2 = some (.htrTickPid 0 0x3F800000) := by decide +kernel

/-- The same words placed as the next operation after reset. -/
theorem test_fetch_words :
    after (step (State.reset.withFetchWord 8 0)) (fun t => decide (t.phase = .run)) = true ∧
    after (step (State.reset.withFetchWord 8 1)) (fun t => decide ((t.log.drop 18).length = 4)) = true ∧
    after (step (State.reset.withFetchWord 88 0x247365742C6461635F7370))
      (fun t => decide (t.log.getLast? = some (.resp 0 .ok))) = true := by decide +kernel

/-- Every encoding decodes back, one of each format. -/
theorem test_encode :
    decode (encode (.setDacKd 2 0xBDCCCCCD)) = .ok (.setDacKd 2 0xBDCCCCCD) ∧
    decode (encode (.setSnsType 11 .diodeW4)) = .ok (.setSnsType 11 .diodeW4) ∧
    decode (encode (.getHpState 1)) = .ok (.getHpState 1) ∧ decode (encode .setExit) = .ok .setExit := by
  refine ⟨?_, ?_, ?_, ?_⟩ <;> decide +kernel

/-! ### The reasons, in priority order (95_test_vectors.md V6.1 to V6.25) -/

theorem test_bad_prefix :
    rejects [] .emptyLine = true ∧ rejects [0x20, 0x20] .emptyLine = true ∧ rejects [0x0D] .emptyLine = true ∧
    rejects (ascii "set,dac_fp,1,0.5") .badPrefix = true ∧ rejects (ascii " $set,dac_fp,1,0.5") .badPrefix = true ∧
    rejects (ascii "Q") .badPrefix = true ∧ rejects (ascii "q,") .badPrefix = true := by decide +kernel

theorem test_bad_names :
    rejects (ascii "$put,dac_fp,1") .badVerb = true ∧ rejects (ascii "$") .badVerb = true ∧
    rejects (ascii "$SET,dac_fp,1,0.5") .badVerb = true ∧ rejects (ascii "$q") .badVerb = true ∧
    rejects (ascii "$set,nosuch,1") .unknownCommand = true ∧ rejects (ascii "$set") .unknownCommand = true ∧
    rejects (ascii "$set,sns_cal,3,1") .unknownCommand = true ∧
    rejects (ascii "$get,commit") .unknownCommand = true := by decide +kernel

theorem test_bad_counts :
    rejects (ascii "$set,dac_fp,1") (.argCount 2) = true ∧
    rejects (ascii "$set,dac_fp,1,0.5,") (.argCount 2) = true ∧
    rejects (ascii "$set,commit,1") (.argCount 0) = true ∧
    rejects (ascii "$get,dac_fp") (.argCount 1) = true := by decide +kernel

theorem test_bad_numbers :
    rejects (ascii "$set,dac_fp,1,abc") (.argNotNumber 2) = true ∧
    rejects (ascii "$set,dac_fp,9,abc") (.argNotNumber 2) = true ∧
    rejects (ascii "$set,dac_fp,,0.5") (.argNotNumber 1) = true ∧
    rejects (ascii "$set,dac_fp,1, 0.5") (.argNotNumber 2) = true := by decide +kernel

theorem test_bad_ranges :
    rejects (ascii "$set,dac_fp,0,0.5") (.argRange 1) = true ∧
    rejects (ascii "$set,dac_fp,1.5,0.5") (.argRange 1) = true ∧
    rejects (ascii "$set,dac_fp,0,1.5") (.argRange 1) = true ∧
    rejects (ascii "$set,dac_fp,1,1.5") (.argRange 2) = true ∧
    rejects (ascii "$set,dac_fp,1,1.0000001") (.argRange 2) = true ∧
    rejects (ascii "$set,dac_mode,-0,1") (.argRange 1) = true ∧
    rejects (ascii "$set,dac_cur,1,1.5") (.argRange 2) = true ∧
    rejects (ascii "$set,dac_res,1,-1") (.argRange 2) = true ∧
    rejects (ascii "$set,hp_hyst,1,-0.5") (.argRange 2) = true := by decide +kernel

/-- V6.23, V7.9, V7.10, V7.12, V7.14. -/
theorem test_accepted :
    reads (ascii "$set,dac_fp,1,0.5" ++ [0x0D]) (.setDacFp 0 0x3F000000) = true ∧
    reads (ascii "$set,dac_fp,1,-0") (.setDacFp 0 0x80000000) = true ∧
    reads (ascii "$set,dac_fp,1,1.00000001") (.setDacFp 0 0x3F800000) = true ∧
    reads (ascii "$set,dac_mode,1,2.0") (.setDacMode 0 .pid) = true ∧
    reads (ascii "$set,dac_mode,1,2e0") (.setDacMode 0 .pid) = true ∧
    reads (ascii "$set,dac_cur,1,1") (.setDacCur 0 0x3F800000) = true := by decide +kernel

/-! ### Numbers (95_test_vectors.md V7.1 to V7.8) -/

theorem test_numbers :
    ["0.5", ".5", "5e-1", "+0.5", "0.50"].all (fun t => parseNumber (ascii t) == some 0x3F000000) = true ∧
    parseNumber (ascii "5.") = some 0x40A00000 ∧ parseNumber (ascii "0.1") = some 0x3DCCCCCD ∧
    ["-0", "-0.0", "-1e-50"].all (fun t => parseNumber (ascii t) == some 0x80000000) = true ∧
    parseNumber (ascii "1e-50") = some 0 ∧ parseNumber (ascii "3.4028235e38") = some 0x7F7FFFFF := by
  decide +kernel

theorem test_not_numbers :
    ["3.4028236e38", "1e39", "", ".", "1e", "e5", "nan", "inf", "0x10", "1_0", "--1"].all
      (fun t => parseNumber (ascii t) == none) = true := by decide +kernel

/-! ### Arithmetic (00_scope.md R12, R20; 95_test_vectors.md V1, V2.10, V2.11, V4) -/

theorem test_limits :
    maxCurrentOf testLimits 0x41800000 = 0x3F000000 ∧ maxITerm 0x3F000000 0x41800000 = 0x457A0000 ∧
    maxCurrentOf testLimits 0x40800000 = 0x3F800000 ∧ maxITerm 0x3F800000 0x41000000 = 0x45FA0000 := by
  decide +kernel

/-- V1.4 to V1.10 with a resistance of 16.0 and `mc` = 0.5. -/
theorem test_currentOf :
    currentOf 0x3F800000 0x41800000 0x3F000000 = 0x3E800000 ∧
    currentOf 0x3E800000 0x41800000 0x3F000000 = 0x3E000000 ∧
    currentOf 0x41100000 0x41800000 0x3F000000 = 0x3F000000 ∧
    currentOf 0xBE99999A 0x41800000 0x3F000000 = 0 ∧ currentOf 0x7FC00000 0x41800000 0x3F000000 = 0 ∧
    currentOf 0x7F800000 0x41800000 0x3F000000 = 0x3F000000 ∧
    currentOf 0x40800000 0x41800000 0x3F000000 = 0x3F000000 := by decide +kernel

theorem test_toK :
    toK 0x41F00000 .celsius = 0x43979333 ∧ toK 0x41A00000 .celsius = 0x43929333 ∧
    toK 0x42AC0000 .fahrenheit = 0x43979333 ∧ toK 0x42880000 .fahrenheit = 0x43929333 := by decide +kernel

theorem test_codeOf :
    codeOf 0 0x3F000000 = 0 ∧ codeOf 0x3E800000 0x3F000000 = 131072 ∧ codeOf 0x3E000280 0x3F000000 = 65541 ∧
    codeOf 0x3F000000 0x3F000000 = 262144 ∧ codeOf 0x3F400000 0x3F000000 = 262144 ∧
    codeOf 0x3E306F92 0x3F000000 = 90335 := by decide +kernel

theorem test_distribute :
    distribute 0 = [0, 0, 0, 0] ∧ distribute 65535 = [65535, 0, 0, 0] ∧ distribute 65541 = [65535, 6, 0, 0] ∧
    distribute 131071 = [65535, 65535, 1, 0] ∧ distribute 196606 = [65535, 65535, 65535, 1] ∧
    distribute 262139 = [65535, 65535, 65535, 65534] ∧ distribute 262144 = [65535, 65535, 65535, 65535] := by
  decide +kernel

/-! ### Heater ticks (95_test_vectors.md 2.2, 2.3) -/

/-- The channel of 2.2. -/
def channel : Heater :=
  { Heater.reset with
    mode := .pid, sns := 5, sp := 0x43960000, kp := 0x425C0000, ki := 0x41200000, kd := 0x420C0000
    res := 0x41800000, tmax := 0x43C80000 }

/-- The channel with a sample of its sensor. -/
def sampled (c : Heater) (pv : OptF32) : State :=
  (running.setHeater 0 c).setSensor 4 { type := .pt100W4, units := .kelvin, temp := pv }

/-- The channel after its tick: `it`, `eprev`, `pwr`, `cv`, `code` and the sub-channels. -/
def ticked (c : Heater) (pv : OptF32) (law : Heater → TempUnit → F32 → F32 → LawResult) :
    List F32 × Nat × List Nat :=
  let d := ((sampled c pv).heaterTickWith testLimits 0 law).heater 0
  ([d.it, d.eprev, d.pwr, d.cv], d.code.toNat, d.dac.toList.map (·.toNat))

/-- The PID law at `dt`. -/
def pidAt (dt : F32) (c : Heater) (u : TempUnit) (pv mc : F32) : LawResult := pidLaw c u dt pv mc

/-- V2.1, V2.3. -/
theorem test_pid_first :
    ticked channel (some 0x43910000) (pidAt 0x3F800000) =
      ([0x42C80000, 0x41200000, 0x3F800000, 0x3E800000], 131072, [65535, 65535, 2, 0]) ∧
    ticked { channel with it := 0x43160000, eprev := 0x40A00000 } (some 0x43938000) (pidAt 0x3F800000) =
      ([0x43480000, 0x40A00000, 0x3EF33333, 0x3E306F92], 90335, [65535, 24800, 0, 0]) := by decide +kernel

/-- V2.4, V2.5, V2.9. -/
theorem test_pid_later :
    ticked { channel with it := 0x43480000, eprev := 0x40A00000 } (some 0x43960000) (pidAt 0x40000000) =
      ([0x43480000, 0, 0x3DE66666, 0x3DABBAE2], 43962, [43962, 0, 0, 0]) ∧
    ticked { channel with it := 0x43480000 } (some 0x43988000) (pidAt 0x3F800000) =
      ([0x43160000, 0xC0A00000, 0xBE99999A, 0], 0, [0, 0, 0, 0]) ∧
    ticked { channel with tmax := 0x438C0000 } (some 0x43910000) (pidAt 0x3F800000) =
      ([0x42C80000, 0x41200000, 0x3F800000, 0], 0, [0, 0, 0, 0]) := by decide +kernel

/-- V2.6, V2.7: the ends of the clamp; V2.8: `ki` = 0 keeps the accumulator. -/
theorem test_pid_integral :
    integralTerm { channel with ki := 0x447A0000 } 0x41200000 0x3F800000 0x457A0000 = 0x457A0000 ∧
    integralTerm { channel with it := 0x41A00000 } 0xC0A00000 0x3F800000 0x457A0000 = 0 ∧
    (pidLaw { channel with it := 0x43160000, ki := 0, kd := 0, eprev := 0x41200000 } .kelvin 0x3F800000
      0x43910000 0x3F000000).pw = 0x3F0CCCCD := by decide +kernel

/-- V3.2, V3.3, V3.5. -/
theorem test_fixed :
    ticked { channel with fp := 0x3F000000 } (some 0x43960000) (fun c _ _ mc => fixedLaw c mc) =
      ([0, 0, 0x40000000, 0x3EB504F3], 185363, [65535, 65535, 54293, 0]) ∧
    ticked { channel with fp := 0x3F800000 } (some 0x43960000) (fun c _ _ mc => fixedLaw c mc) =
      ([0, 0, 0x40800000, 0x3F000000], 262144, [65535, 65535, 65535, 65535]) ∧
    ticked { channel with fp := 0x3F000000 } (some 0x43C88000) (fun c _ _ mc => fixedLaw c mc) =
      ([0, 0, 0x40000000, 0], 0, [0, 0, 0, 0]) := by decide +kernel

/-- V3.6, V3.7, V3.8. -/
theorem test_direct :
    ticked { channel with curCmd := 0x3E000000 } (some 0x43960000) (fun c _ _ _ => directLaw c) =
      ([0, 0, 0x3E800000, 0x3E000000], 65536, [65535, 1, 0, 0]) ∧
    ticked { channel with curCmd := 0x3F400000 } (some 0x43960000) (fun c _ _ _ => directLaw c) =
      ([0, 0, 0x41100000, 0x3F400000], 262144, [65535, 65535, 65535, 65535]) ∧
    ticked { channel with curCmd := 0x3E000000 } (some 0xBF800000) (fun c _ _ _ => directLaw c) =
      ([0, 0, 0x3E800000, 0], 0, [0, 0, 0, 0]) := by decide +kernel

/-- V3.9: `DISABLED` keeps the accumulator and writes four zeros. -/
theorem test_disabled :
    after (exec (.htrTickDisabled 0) (sampled { channel with it := 0x4579F000, cv := 0x3E800000 } none))
      (fun t => decide ((t.heater 0).it = 0x4579F000 ∧ (t.heater 0).cv = 0 ∧
        t.log = [.dacWrite 0 0 0, .dacWrite 0 1 0, .dacWrite 0 2 0, .dacWrite 0 3 0])) = true := by
  decide +kernel

/-- V3.10 to V3.12: the guards. -/
theorem test_guards :
    [({ channel with sns := 0 }, some 0x43910000), (channel, none), ({ channel with res := 0 }, some 0x43910000),
      ({ channel with res := 0x80000000 }, some 0x43910000), ({ channel with res := 0x7FC00000 }, some 0x43910000),
      ({ channel with res := 0x7F800000 }, some 0x43910000),
      ({ channel with res := 0xC1800000 }, some 0x43910000)].all
      (fun p => ticked p.1 p.2 (pidAt 0x3F800000) == ([0, 0, 0, 0], 0, [0, 0, 0, 0])) = true := by
  decide +kernel

/-- V3.13, V3.14: bounds that hold nothing inside. -/
theorem test_interlock_bounds :
    ticked { channel with fp := 0x3F000000, tmax := 0 } (some 0x43960000) (fun c _ _ mc => fixedLaw c mc) =
      ([0, 0, 0x40000000, 0], 0, [0, 0, 0, 0]) ∧
    ticked { channel with fp := 0x3F000000, tmin := 0x7FC00000 } (some 0x43960000)
      (fun c _ _ mc => fixedLaw c mc) = ([0, 0, 0x40000000, 0], 0, [0, 0, 0, 0]) := by decide +kernel

/-! ### High-power ticks (95_test_vectors.md 2.5) -/

/-- The channel of 2.5 with a sample of its sensor. -/
def relay (on cmd : Bool) (pv : OptF32) : State :=
  (running.setHighPower 0
      { HighPower.reset with
        mode := .hyst, sns := 7, sp := 0x42480000, hyst := 0x40000000, tmax := 0x42C80000, cmd := cmd
        state := on }).setSensor 6 { type := .diodeW4, units := .celsius, temp := pv }

/-- The operation leaves the actuator so and drives it once. -/
def drives (i : Instr) (s : State) (b : Bool) : Bool :=
  after (exec i s) fun t => decide ((t.highPower 0).state = b ∧ t.log = [.hp 0 b])

/-- V5.1, V5.2: 49, 51, 52, 48 from off; 51.9 from on and from off. -/
theorem test_hyst :
    drives (.hpTickHyst 0) (relay false false (some 0x42440000)) false = true ∧
    drives (.hpTickHyst 0) (relay false false (some 0x424C0000)) false = true ∧
    drives (.hpTickHyst 0) (relay true false (some 0x42500000)) false = true ∧
    drives (.hpTickHyst 0) (relay false false (some 0x42400000)) true = true ∧
    drives (.hpTickHyst 0) (relay true false (some 0x424F999A)) true = true ∧
    drives (.hpTickHyst 0) (relay false false (some 0x424F999A)) false = true := by decide +kernel

/-- V5.3, V5.4, V5.5. -/
theorem test_hyst_off :
    drives (.hpTickHyst 0) (relay true false (some 0x42CA0000)) false = true ∧
    drives (.hpTickHyst 0) (relay true false none) false = true ∧
    comparator 0x42480000 0 0x42480000 true = false := by decide +kernel

/-- V5.7, V5.8, V5.9. -/
theorem test_hp_direct_disabled :
    drives (.hpTickDirect 0) (relay false true (some 0x42480000)) true = true ∧
    drives (.hpTickDirect 0) (relay true true (some 0x42CA0000)) false = true ∧
    drives (.hpTickDirect 0) (relay true false (some 0x42480000)) false = true ∧
    drives (.hpTickDisabled 0) (relay true true none) false = true := by decide +kernel

/-! ### The codec, the store and LOAD (95_test_vectors.md T1, 2.8) -/

theorem test_codec :
    encodeInt 300 2 false = some [0x01, 0x2C] ∧ decodeInt [0x01, 0x2C] false = 300 ∧
    encodeInt (-2) 1 true = some [0xFE] ∧ decodeInt [0xFE] true = -2 ∧ decodeInt [0xFE] false = 254 ∧
    encodeInt 256 1 false = none ∧ encodeInt 128 1 true = none ∧
    encodeF32 0x43960000 = [0x43, 0x96, 0x00, 0x00] ∧ decodeF32 0x7F 0xC0 0x00 0x01 = 0x7FC00001 := by
  decide +kernel

/-- A block in phase RESET over a store, whose marker byte misses so many writes. -/
def booting (nvm : Memory) (misses : Nat) : State :=
  { State.reset with nvm := nvm, markerMisses := misses, log := [] }

/-- V8.1. -/
theorem test_load_stamped :
    after (exec .load (booting [(0xFF, 0xA5)] 0))
      (fun t => decide (t.phase = .run ∧ t.log = .memRead 0xFF 1 :: readoutActions)) = true := by decide +kernel

/-- V8.2, V8.4: a blank store, and one that holds only the second stamp. -/
theorem test_load_stamps :
    after (exec .load (booting [] 0)) (fun t => decide (t.phase = .run ∧ t.log.length = 1 + 20 + 18 ∧
      t.nvm.read 0 = 0 ∧ t.nvm.read 0xC3 = 0 ∧ t.nvm.read 0xC4 = 0xFF ∧ t.nvm.read 0xFF = 0xA5)) = true ∧
    after (exec .load (booting [] 1)) (fun t => decide (t.phase = .run ∧ t.log.length = 1 + 40 + 18)) = true := by
  decide +kernel

/-- V8.3. -/
theorem test_load_faults :
    after (exec .load (booting [] 2)) (fun t => decide (t.phase = .fault ∧
      t.log = .memRead 0xFF 1 :: (stampActions ++ [.memRead 0xFF 1] ++ stampActions ++ [.memRead 0xFF 1]))) =
      true := by decide +kernel

/-- V8.6 to V8.9: reserved codes coerced, a NaN kept. -/
theorem test_slot_decode :
    (decodeHeater ([0x07, 0xC8] ++ List.replicate 16 0 ++ [0x7F, 0xC0, 0x00, 0x00] ++ List.replicate 12 0)
      Heater.reset) = { Heater.reset with res := 0x7FC00000 } ∧
    decodeSensor [0x09, 0x03] Sensor.reset = Sensor.reset ∧
    (decodeHighPower (0x03 :: List.replicate 17 0) HighPower.reset).mode = .disabled := by decide +kernel

/-- V8.5, and the slot of P3: the 18 writes, then `OK`. -/
theorem test_commit :
    after (exec .setCommit (running.setHeater 0
        { Heater.reset with mode := .fixed, sns := 1, res := 0x41800000, fp := 0x3F000000, tmax := 0x43C80000 }))
      (fun t => decide (t.log.length = 19 ∧ t.log.getLast? = some (.resp 0 .ok) ∧
        t.log.head? = some (.memWrite 0 ([1, 1] ++ List.replicate 16 0 ++ [0x41, 0x80, 0, 0, 0x3F, 0, 0, 0,
          0x43, 0xC8, 0, 0, 0, 0, 0, 0])))) = true := by decide +kernel

/-! ### Commands, one step each -/

/-- 44_cmd_set.md R261, R283: the outputs go off before the `OK`. -/
theorem test_outputs_off :
    after (exec (.setDacMode 0 .disabled) (running.setHeater 0 { channel with cv := 0x3E800000 }))
      (fun t => decide ((t.heater 0).cv = 0 ∧ (t.heater 0).mode = .disabled ∧ t.log.length = 5)) = true ∧
    after (exec (.setHpMode 0 .disabled) (relay true false none))
      (fun t => decide (t.log = [.hp 0 false, .resp 0 .ok])) = true ∧
    after (exec .setStopProgram (relay true false none))
      (fun t => decide (t.phase = .halted ∧ t.log = resetActions ++ [.resp 0 .ok])) = true ∧
    after (exec .setExit running) (fun t => decide (t.phase = .halted ∧ t.log.length = 19)) = true := by
  decide +kernel

/-- 44_cmd_set.md R279, R280: the sample is discarded. -/
theorem test_sensor_setters :
    after (exec (.setSnsType 6 .pt100W2) (relay false false (some 0x42480000)))
      (fun t => decide (t.sensor 6 = ⟨.pt100W2, .celsius, none⟩ ∧ t.log = [.resp 0 .ok])) = true ∧
    after (exec (.setSnsUnits 6 .fahrenheit) (relay false false (some 0x42480000)))
      (fun t => decide (t.sensor 6 = ⟨.diodeW4, .fahrenheit, none⟩)) = true := by decide +kernel

/-- One number setter of each register file, and the assignments (44_cmd_set.md R262 to R278). -/
theorem test_number_setters :
    after (exec (.setDacKi 3 0x41200000) running) (fun t => decide ((t.heater 3).ki = 0x41200000)) = true ∧
    after (exec (.setDacSns 1 12) running) (fun t => decide ((t.heater 1).sns = 12)) = true ∧
    after (exec (.setHpTmin 1 0xC2200000) running) (fun t => decide ((t.highPower 1).tmin = 0xC2200000)) = true ∧
    after (exec (.setHpState 0 true) running)
      (fun t => decide ((t.highPower 0).cmd = true ∧ (t.highPower 0).state = false)) = true := by decide +kernel

/-- 45_cmd_get.md R301, R320, R323: the answers of P1, P2. -/
theorem test_getters :
    after (step (presenting (ascii "$get,dac_mode,1")))
      (fun t => decide (t.log = [.resp 3 (.value (ascii "dac_mode") (.u8 0))])) = true ∧
    after (exec (.getHpState 0) (relay true false none))
      (fun t => decide (t.log = [.resp 0 (.value (ascii "hp_state") (.bit true))])) = true ∧
    after (exec (.getSnsTemp 2) running)
      (fun t => decide (t.log = [.resp 0 (.value (ascii "sns_temp") (.opt none))])) = true := by decide +kernel

/-- 43_cmd_dispatch.md R232, R242. -/
theorem test_q_and_bad :
    after (step (presenting [0x71])) (fun t => decide (t.log = [.close 3])) = true ∧
    after (step (presenting (ascii "$set,dac_fp,1,1.5")))
      (fun t => decide (t.log = [.resp 3 (.bad (.argRange 2))] ∧ t.htr = running.htr)) = true := by decide +kernel

/-! ### Witnesses: the hypotheses of the statements, met together -/

/-- The outcome is a next state. -/
def completes (o : Host.Outcome State Fault Refusal) : Bool := after o fun _ => true

theorem next_of_completes {o : Host.Outcome State Fault Refusal} (h : completes o = true) :
    ∃ t, o = .next t := by
  cases o with
  | next t => exact ⟨t, rfl⟩
  | fault r => cases h
  | refused r => cases h

theorem next_of_after {o : Host.Outcome State Fault Refusal} {p : State → Bool} (h : after o p = true) :
    ∃ t, o = .next t ∧ p t = true := by
  cases o with
  | next t => exact ⟨t, rfl, h⟩
  | fault r => cases h
  | refused r => cases h

/-- Twelve samples that are `NA`. -/
def noSamples : Vector OptF32 12 := Vector.replicate 12 none

/-- `running` with a tick strobe. -/
def striking (dt : F32) (samp : Vector OptF32 12) : State := { running with inbox := [.tick dt samp, .release] }

/-- The bytes of `$set,commit` (95_test_vectors.md P3). -/
def commitLine : List Byte := [0x24, 0x73, 0x65, 0x74, 0x2C, 0x63, 0x6F, 0x6D, 0x6D, 0x69, 0x74]

theorem witness_DecodeOfEncodeIsIdentity :
    WellFormed (.setDacRes 3 0x80000000) = true ∧ WellFormed (.setDacFp 0 0x3F800000) = true ∧
      WellFormed (.htrTickPid 0 0x3F800000) = true ∧ WellFormed (.setSnsType 11 .diodeW4) = true := by
  decide +kernel

theorem witness_DecodedLineIsWellFormed : decodeLine commitLine = .ok .setCommit ∧
    decodeLine (ascii "$set,dac_fp,4,1") = .ok (.setDacFp 3 0x3F800000) := by
  constructor <;> rfl

/-- `$set,dac_mode,4,2.0` is one spelling of its operation (V7.12); neighbours of the ranges are lines of no
operation (V7.13 and 43_cmd_dispatch.md R239). -/
theorem witness_Spells :
    Spells (ascii "$set,dac_mode,4,2.0") (.setDacMode 3 .pid) ∧
      ["$set,dac_mode,5,1", "$set,dac_mode,-0,1", "$set,dac_mode,1.5,1", "$set,dac_mode,1,4",
        "$set,hp_state,1,2", "$set,dac_sns,1,13", "$get,hp_mode,3", "$get,sns_temp,13"].all
        (fun t => rejects (ascii t) (.argRange 1) || rejects (ascii t) (.argRange 2)) = true := by
  refine ⟨⟨"set", "dac_mode", [.int 4, .int 2], ascii "set,dac_mode,4,2.0", [ascii "4", ascii "2.0"],
    [0x40800000, 0x40000000], rfl, rfl, by decide +kernel, by decide +kernel, by decide +kernel, ?_⟩,
    by decide +kernel⟩
  have h4 : intUnits 0x40800000 = 4 * 2 ^ 149 := by decide +kernel
  have h2 : intUnits 0x40000000 = 2 * 2 ^ 149 := by decide +kernel
  refine .cons ?_ (.cons ?_ .nil) <;> simp only [Operand.Is, valueOf, h4, h2] <;> norm_num

theorem witness_FloatTextParsesBack :
    isFinite 0 = true ∧ isFinite 0x80000000 = true ∧ isFinite 1 = true ∧ isFinite 0x7F7FFFFF = true := by decide

/-- `.5`, `-1e-50` and, on the other side of the overflow, `3.4028236e38` (V7.1, V7.4, V7.7). -/
theorem witness_Decimal :
    (∀ d ∈ [(⟨none, [], some [5], none⟩ : Decimal), ⟨some true, [1], none, some ⟨false, some true, [5, 0]⟩⟩],
      d.Lawful ∧ |d.value| < 2 ^ 128 - 2 ^ 103) ∧
    let d : Decimal := ⟨none, [3], some [4, 0, 2, 8, 2, 3, 6], some ⟨false, none, [3, 8]⟩⟩
    d.Lawful ∧ d.text = ascii "3.4028236e38" ∧ 2 ^ 128 - 2 ^ 103 ≤ |d.value| := by
  refine ⟨fun d hd => ?_, ⟨.inl (by decide), fun x h => by cases h; decide⟩, by decide, ?_⟩
  · fin_cases hd
    · exact ⟨⟨.inr (by decide), fun x h => by cases h⟩,
        by norm_num [Decimal.value, Decimal.isNegative, Decimal.power, digitsNumber]⟩
    · exact ⟨⟨.inl (by decide), fun x h => by cases h; decide⟩,
        by norm_num [Decimal.value, Decimal.isNegative, Decimal.power, digitsNumber]⟩
  · norm_num [Decimal.value, Decimal.isNegative, Decimal.power, digitsNumber]

/-- The empty token is none the grammar builds. -/
theorem witness_no_decimal : ∀ d : Decimal, d.Lawful → d.text ≠ [] := by
  intro d h e
  rw [Decimal.text_eq] at e
  simp only [List.append_eq_nil_iff, digitsText_eq_nil] at e
  rcases h.1 with q | q
  · exact q e.2.1
  · cases hf : d.fraction with
    | none => rw [hf] at q; exact q rfl
    | some ds => rw [hf] at e; exact absurd e.2.2.1 (by simp [fractionText, ascii])

/-- The ends of both ranges at width 1, and a wider field. -/
theorem witness_CodecRoundTrip :
    ((1 : Nat) ≤ 1 ∧ (0 : Int) ≤ 255 ∧ (255 : Int) < 2 ^ (8 * 1)) ∧
      ((1 : Nat) ≤ 2 ∧ (0 : Int) ≤ 0 ∧ (0 : Int) < 2 ^ (8 * 2)) ∧
      (-(2 ^ (8 * 1 - 1)) ≤ (-128 : Int) ∧ (-128 : Int) < 2 ^ (8 * 1 - 1)) ∧
      -(2 ^ (8 * 1 - 1)) ≤ (127 : Int) ∧ (127 : Int) < 2 ^ (8 * 1 - 1) := by decide

/-- One line for each clause. -/
theorem witness_FirstFailingStepGivesReason :
    rstrip [0x20] = [] ∧ rstrip [0x71, 0x0D] = [0x71] ∧ rstrip [0x51] = [0x51] ∧
      splitCommas (ascii "put,x") = [ascii "put", ascii "x"] ∧ tableOf limits (ascii "put") = none ∧
      splitCommas (ascii "get") = [ascii "get"] ∧ (lookupEntry getTable []).isNone = true ∧
      (lookupEntry getTable (ascii "dac_fp")).map (fun e => (argSpecs e.handler).length) = some 1 ∧
      parseNumber (ascii "9") = some 0x41100000 ∧ parseNumber (ascii "abc") = none ∧
      inRange (chanSpec 4) 0x41100000 = false ∧ inRange (chanSpec 4) 0x40800000 = true := by
  refine ⟨?_, ?_, ?_, ?_, rfl, ?_, ?_, ?_, ?_, ?_, ?_, ?_⟩ <;> decide +kernel

theorem witness_StepRunsDecodedOperation :
    State.reset.fetch = some (.phase 0) ∧ decode (.phase 0) = .ok .load := ⟨rfl, rfl⟩

theorem witness_ModeSelectsTickOperation :
    let s := { running with tick := some ⟨0x3F800000, [.highPower 1]⟩ }
    s.phase = .run ∧ s.tick = some ⟨0x3F800000, [.highPower 1]⟩ := ⟨rfl, rfl⟩

theorem witness_StepRunsPresentedCommand :
    Presents (presenting commitLine) 3 commitLine [] ∧ decodeLine commitLine = .ok .setCommit :=
  ⟨⟨rfl, rfl, rfl, rfl⟩, rfl⟩

theorem witness_RejectedLineChangesNothing :
    Presents (presenting (ascii "$set")) 3 (ascii "$set") [] ∧
      decodeLine (ascii "$set") = .error .unknownCommand := ⟨⟨rfl, rfl, rfl, rfl⟩, rfl⟩

/-- The line `q` and another. -/
theorem witness_OneResponsePerCommand :
    Presents (presenting [0x71]) 3 [0x71] [] ∧ decodeLine [0x71] = .ok .q ∧
      Presents (presenting []) 3 [] [] ∧ decodeLine [] ≠ .ok .q :=
  ⟨⟨rfl, rfl, rfl, rfl⟩, rfl, ⟨rfl, rfl, rfl, rfl⟩, by intro h; cases h⟩

/-- A strobe at the least `dt`, which seven steps take. -/
theorem witness_TickRunsSixChannelsInOrder :
    let s := striking 0x3F800000 noSamples
    s.phase = .run ∧ s.tick = none ∧ s.cut = none ∧ s.inbox = .tick 0x3F800000 noSamples :: [.release] ∧
      lawfulStrobe 0x3F800000 noSamples = true ∧ ∃ t, runSteps 7 s = .next t :=
  ⟨rfl, rfl, rfl, rfl, by decide +kernel, next_of_completes (by decide +kernel)⟩

theorem witness_TickChannelsAreIndependent :
    let samp := noSamples.set 4 (some 0x43910000)
    let s := striking 0x40000000 samp
    let s' := s.setHeater 2 { s.heater 2 with sp := 0x43960000, res := 0x41800000 }
    Strikes s 0x40000000 samp [.release] ∧ Strikes s' 0x40000000 samp [.release] ∧
      (∃ t, runSteps 7 s = .next t) ∧ (∃ t, runSteps 7 s' = .next t) ∧
      (∀ n, SameSensorConfig (s.sensor n) (s'.sensor n)) ∧ s'.heater 0 = s.heater 0 ∧ s'.heater 2 ≠ s.heater 2 :=
  ⟨⟨rfl, rfl, rfl, rfl, by decide +kernel⟩, ⟨rfl, rfl, rfl, rfl, by decide +kernel⟩,
    next_of_completes (by decide +kernel), next_of_completes (by decide +kernel), fun _ => ⟨rfl, rfl⟩, rfl,
    by decide +kernel⟩

/-- The last channel of a Tick, and a reset after one. -/
theorem witness_TelemetryMovesAtTickEndOnly :
    (∃ t, step { running with tick := some ⟨0x3F800000, [.highPower 1]⟩ } = .next t ∧
      t.telemetry ≠ none ∧ t.tick = none) ∧
    ∃ t, step { running with telemetry := some running.telemetryView, inbox := [.reset] } = .next t ∧
      t.telemetry = none ∧ t.phase = .reset := by
  constructor
  · obtain ⟨t, h, p⟩ := next_of_after (p := fun t => t.telemetry.isSome && t.tick.isNone)
      (show after (step { running with tick := some ⟨0x3F800000, [.highPower 1]⟩ }) _ = true by decide +kernel)
    refine ⟨t, h, ?_, ?_⟩ <;> revert p <;> cases t.telemetry <;> cases t.tick <;> simp
  · exact ⟨_, rfl, rfl, rfl⟩

/-- In RUN, in HALTED, and in RESET with reset still asserted. -/
theorem witness_ResetOperation :
    ∀ p ∈ [Phase.run, .halted, .fault, .reset],
      let s := { running with phase := p, resetAsserted := true, inbox := [.reset, .release] }
      s.fetch = none ∧ s.cut = none ∧ s.inbox = .reset :: [.release] := by
  intro p hp
  fin_cases hp <;> exact ⟨rfl, rfl, rfl⟩

/-- `q`, cut before and after its one action; a LOAD that stamps, cut before its first slot, between two
slots, on both sides of the marker and after its last action. -/
theorem witness_ResetAbandonsOperation :
    (∀ k ∈ [0, 1],
      let s := { presenting [0x71] with cut := some k }
      ∃ t, s.stepWhole = .next t ∧ t.cut = s.cut ∧ t.log = s.log ++ [.close 3] ∧
        k ≤ [Action.close 3].length) ∧
    ∀ k ∈ [0, 1, 7, 19, 20, 39],
      let s := { booting [(0xFF, 0x5A)] 0 with cut := some k }
      s.phase = .reset ∧ s.resetAsserted = false ∧ s.cut = some k ∧ k ≤ 39 ∧ StoreCanonical s ∧
        s.nvm.read 0xFF ≠ 0xA5 ∧ s.markerMisses = 0 := by
  constructor <;> intro k hk
  · fin_cases hk <;> exact ⟨_, rfl, rfl, rfl, by decide⟩
  · fin_cases hk <;> exact ⟨rfl, rfl, rfl, by decide, rfl, by decide, rfl⟩

theorem witness_StoppedBlockIgnoresInputs :
    ∀ p ∈ [Phase.reset, .load, .halted, .fault],
      (∀ x ∈ [Stimulus.command 3 commitLine, .tick 0x3F800000 noSamples],
        let s := { running with phase := p, resetAsserted := true, inbox := [x] }
        Deaf s ∧ OffOutsideRun s ∧ s.cut = none ∧ s.inbox = x :: []) ∧
      let s := { running with phase := p, resetAsserted := true }
      Deaf s ∧ s.cut = none ∧ s.inbox = [] := by
  have off : ∀ p, OutputsOff { running with phase := p } := by
    intro p
    constructor
    · intro h
      fin_cases h <;> refine ⟨rfl, rfl, ?_⟩ <;> intro k <;> fin_cases k <;> rfl
    · intro j
      fin_cases j <;> rfl
  intro p hp
  have deaf : ∀ l, Deaf { running with phase := p, resetAsserted := true, inbox := l } := by
    intro l
    fin_cases hp
    · exact .inl ⟨rfl, rfl⟩
    · exact .inr (.inl rfl)
    · exact .inr (.inr (.inl rfl))
    · exact .inr (.inr (.inr rfl))
  exact ⟨fun x _ => ⟨deaf [x], fun _ => off p, rfl, rfl⟩, deaf [], rfl, rfl⟩

/-- LOAD to RUN, LOAD to FAULT, a stop, a reset. -/
theorem witness_PhaseChangesOnlyAsStated :
    after (step (booting [] 0)) (fun t => decide (t.phase = .run)) = true ∧
      after (step (booting [] 2)) (fun t => decide (t.phase = .fault)) = true ∧
      after (step (presenting (ascii "$set,exit"))) (fun t => decide (t.phase = .halted)) = true ∧
      after (step { running with inbox := [.reset] }) (fun t => decide (t.phase = .reset)) = true := by
  decide +kernel

/-- A stamped LOAD, a setter, and the two operations that write the store. -/
theorem witness_StoreWrittenByStampAndCommitOnly :
    (completes (exec .load (booting [(0xFF, 0xA5)] 0)) = true ∧ Memory.read [(0xFF, 0xA5)] 0xFF = 0xA5) ∧
      completes (exec (.setDacSp 0 0) running) = true ∧
      after (step (booting [] 0)) (fun t => decide (t.nvm ≠ [])) = true ∧
      after (step (presenting commitLine)) (fun t => decide (t.nvm ≠ running.nvm)) = true := by
  decide +kernel

theorem witness_OnlyUnlawfulStrobeStops : step (striking 0x3F000000 noSamples) = .refused .tickDuty := rfl

theorem witness_SetDacModeZeroesWhenDisabled :
    HeaterMode.fixed ≠ .disabled ∧ HeaterMode.pid ≠ .disabled ∧ HeaterMode.direct ≠ .disabled := by decide

theorem witness_SetHpModeTurnsOffWhenDisabled : HpMode.direct ≠ .disabled ∧ HpMode.hyst ≠ .disabled := by decide

theorem witness_StopTurnsEverythingOff :
    ∀ i ∈ [Instr.setStopProgram, .setExit], i = .setStopProgram ∨ i = .setExit := by decide

/-- A blank store and a stamped one. -/
theorem witness_CommitWritesAllSlots :
    StoreCanonical State.reset ∧ StoreCanonical running := by constructor <;> unfold StoreCanonical <;> decide

theorem witness_LoadReadsStampedStore : (booting [(0xFF, 0xA5)] 0).nvm.read 0xFF = 0xA5 := by decide

theorem witness_LoadStampsUnmarkedStore :
    ∀ k ∈ [0, 1], StoreCanonical (booting [] k) ∧ (booting [] k).nvm.read 0xFF ≠ 0xA5 ∧
      (booting [] k).markerMisses ≤ 1 := by unfold StoreCanonical; decide

theorem witness_LoadFaultsWhenMarkerFails :
    StoreCanonical (booting [(0xFF, 0x5A)] 2) ∧ (booting [(0xFF, 0x5A)] 2).nvm.read 0xFF ≠ 0xA5 ∧
      2 ≤ (booting [(0xFF, 0x5A)] 2).markerMisses := by unfold StoreCanonical; decide

/-- The default channel is inside its ranges. -/
theorem registersLegal_running : RegistersLegal running := by
  constructor
  · intro h
    fin_cases h <;> exact ⟨by decide, by decide +kernel, currentLegal_zeroF, currentLegal_zeroF, by decide,
      by decide +kernel⟩
  · intro j
    fin_cases j <;> decide

theorem witness_CommitThenReload :
    let s := { running with inbox := [.command 3 commitLine, .reset, .release] }
    Presents s 3 commitLine (.reset :: .release :: []) ∧ decodeLine commitLine = .ok .setCommit ∧
      StoreCanonical s ∧ MarkerInRun s ∧ RegistersLegal s :=
  ⟨⟨rfl, rfl, rfl, rfl⟩, rfl, rfl, fun _ => rfl, registersLegal_running⟩

/-- No write done, some, and all. -/
theorem witness_CutCommitIsPrefixOfSlots :
    ∀ k ∈ [0, 7, 18],
      let s := { presenting commitLine with cut := some k }
      s.phase = .run ∧ s.tick = none ∧ s.inbox = .command 3 commitLine :: [] ∧ s.cut = some k ∧ k ≤ 18 ∧
        StoreCanonical s ∧ ∃ u, exec .setCommit s = .next u := by
  intro k hk
  fin_cases hk <;>
    exact ⟨rfl, rfl, rfl, rfl, by decide, rfl, next_of_completes (by decide +kernel)⟩

/-! A heater channel whose guards hold whatever the limits are: a resistance of 1.0 ohm. -/

/-- `running` with heater 1 on sensor 5, 1.0 ohm, bounds 0 to 400, and a sample. -/
def ready (ki pv : F32) : State := sampled { channel with res := 0x3F800000, ki := ki } (some pv)

theorem limit_positive :
    flt zeroF (fmin (fdiv limits.maxVoltage 0x3F800000) limits.maxCurrent) = true := by
  obtain ⟨⟨hv, pv⟩, _, pi⟩ := limits_lawful
  rw [fdiv_one hv]
  by_cases h : flt limits.maxVoltage limits.maxCurrent = true
  · rw [fmin, if_pos h]
    exact pv
  · rw [fmin, if_neg h]
    exact pi

theorem heaterReady_ready (ki pv : F32) :
    HeaterReady (ready ki pv) 0 4 pv (fmin (fdiv limits.maxVoltage 0x3F800000) limits.maxCurrent) :=
  ⟨⟨rfl, by simp [ready, sampled, State.setSensor, State.sensor], rfl⟩, by
    show flt zeroF 0x3F800000 = true; decide, by show isFinite 0x3F800000 = true; decide, rfl, limit_positive⟩

/-- Inside at both bounds and between them, and outside above and below. -/
theorem witness_HeaterTickFixed :
    (∀ pv ∈ [(0 : F32), 0x43960000, 0x43C80000], HeaterReady (ready 0 pv) 0 4 pv
        (fmin (fdiv limits.maxVoltage 0x3F800000) limits.maxCurrent) ∧
      Inside ((ready 0 pv).heater 0).tmin pv ((ready 0 pv).heater 0).tmax) ∧
    ∀ pv ∈ [(0xBF800000 : F32), 0x43C88000], HeaterReady (ready 0 pv) 0 4 pv
        (fmin (fdiv limits.maxVoltage 0x3F800000) limits.maxCurrent) ∧
      ¬Inside ((ready 0 pv).heater 0).tmin pv ((ready 0 pv).heater 0).tmax := by
  constructor <;> intro pv hp <;> fin_cases hp <;> refine ⟨heaterReady_ready _ _, ?_⟩ <;>
    unfold Inside <;> decide +kernel

/-- The same with an integral gain, and without. -/
theorem witness_HeaterTickPid :
    ∀ ki ∈ [(0 : F32), 0x41200000],
      HeaterReady (ready ki 0x43960000) 0 4 0x43960000
        (fmin (fdiv limits.maxVoltage 0x3F800000) limits.maxCurrent) ∧
      Inside ((ready ki 0x43960000).heater 0).tmin 0x43960000 ((ready ki 0x43960000).heater 0).tmax := by
  intro ki hk
  refine ⟨heaterReady_ready _ _, ?_⟩
  fin_cases hk <;> unfold Inside <;> decide +kernel

theorem witness_HeaterTickDirect :
    HeaterReady (ready 0 0xBF800000) 0 4 0xBF800000
        (fmin (fdiv limits.maxVoltage 0x3F800000) limits.maxCurrent) ∧
      ¬Inside ((ready 0 0xBF800000).heater 0).tmin 0xBF800000 ((ready 0 0xBF800000).heater 0).tmax := by
  refine ⟨heaterReady_ready _ _, ?_⟩
  unfold Inside
  decide +kernel

theorem witness_IntegralTermBounded :
    HeaterReady (ready 0x41200000 0x43960000) 0 4 0x43960000
        (fmin (fdiv limits.maxVoltage 0x3F800000) limits.maxCurrent) ∧
      feq ((ready 0x41200000 0x43960000).heater 0).ki zeroF = false ∧
      ∃ t, exec (.htrTickPid 0 0x3F800000) (ready 0x41200000 0x43960000) = .next t :=
  ⟨heaterReady_ready _ _, by decide +kernel, _, rfl⟩

/-- The three active modes, and each guard: no sensor, an index above 12, an untyped sensor, no sample, and the resistances of V3.12. -/
theorem witness_HeaterTickGuard :
    (∀ i ∈ [Instr.htrTickFixed 0, .htrTickPid 0 0x3F800000, .htrTickDirect 0],
      i = .htrTickFixed 0 ∨ i = .htrTickPid 0 0x3F800000 ∨ i = .htrTickDirect 0) ∧
      HeaterGuardFails (sampled { channel with sns := 0 } none) 0 ∧
      HeaterGuardFails (sampled { channel with sns := 13 } none) 0 ∧
      HeaterGuardFails (running.setHeater 0 channel) 0 ∧ HeaterGuardFails (sampled channel none) 0 ∧
      ∀ r ∈ [(0 : F32), 0x7FC00000, 0xC1800000, 0x7F800000],
        HeaterGuardFails (sampled { channel with res := r } (some 0)) 0 := by
  refine ⟨by decide, .inl (.inl rfl), .inl (.inr (.inl (by decide +kernel))), .inl (.inr (.inr ⟨4, rfl, .inl rfl⟩)),
    .inl (.inr (.inr ⟨4, rfl, .inr rfl⟩)), ?_⟩
  intro r hr
  fin_cases hr
  · exact .inr (.inl (by decide +kernel))
  · exact .inr (.inl (by decide +kernel))
  · exact .inr (.inl (by decide +kernel))
  · exact .inr (.inr (.inl (by decide +kernel)))

/-- Both kinds of channel, outside above and below. -/
theorem witness_InterlockForcesOff :
    (∀ pv ∈ [(0xBF800000 : F32), 0x43C88000],
      HasSample (sampled channel (some pv)) ((sampled channel (some pv)).heater 0).sns 4 pv ∧
        ¬Inside ((sampled channel (some pv)).heater 0).tmin pv ((sampled channel (some pv)).heater 0).tmax) ∧
    ∀ pv ∈ [(0xBF800000 : F32), 0x42CA0000],
      HasSample (relay true true (some pv)) ((relay true true (some pv)).highPower 0).sns 6 pv ∧
        ¬Inside ((relay true true (some pv)).highPower 0).tmin pv
          ((relay true true (some pv)).highPower 0).tmax := by
  constructor <;> intro pv hp <;> fin_cases hp <;>
    exact ⟨⟨rfl, by decide +kernel, rfl⟩, by unfold Inside; decide +kernel⟩

/-- A power, a negative one, a zero and a NaN. -/
theorem witness_CurrentOfIsBounded :
    flt zeroF 0x3F000000 = true ∧ isFinite 0x3F000000 = true ∧ flt zeroF 0x41800000 = true ∧
      isFinite 0x41800000 = true ∧
      [(0xBE99999A : F32), 0, 0x80000000, 0x7FC00000].all (fun pw => !flt zeroF pw) = true := by decide +kernel

theorem witness_PidStateWrittenByPidOnly :
    (∃ t, exec .load State.reset = .next t) ∧ (∃ t, exec (.htrTickFixed 0) running = .next t) ∧
      ∀ dt, Instr.htrTickFixed 0 ≠ .htrTickPid 0 dt :=
  ⟨next_of_completes (by decide +kernel), ⟨_, rfl⟩, by intro dt h; cases h⟩

theorem witness_CommandedRegistersWrittenBySetOnly :
    (∃ t, exec (.setDacCur 1 0) running = .next t) ∧ (∀ x, Instr.setDacCur 1 0 ≠ .setDacCur 0 x) ∧
      ∀ b, Instr.setHpMode 0 .direct ≠ .setHpState 0 b :=
  ⟨⟨_, rfl⟩, fun _ => by simp, fun _ => by simp⟩

theorem witness_HighPowerTickOff :
    NoSample running (running.highPower 0).sns ∧ NoSample (relay true true none) ((relay true true none).highPower 0).sns :=
  ⟨.inl rfl, .inr (.inr ⟨6, rfl, .inr rfl⟩)⟩

/-- One sample for each clause: outside, at the upper and the lower threshold, between them. -/
theorem witness_HighPowerTickLaws :
    (∀ pv ∈ [(0x42CA0000 : F32), 0x42500000, 0x42400000, 0x42480000],
      HasSample (relay true true (some pv)) ((relay true true (some pv)).highPower 0).sns 6 pv) ∧
    ¬Inside 0 0x42CA0000 0x42C80000 ∧ Inside 0 0x42500000 0x42C80000 ∧ Inside 0 0x42400000 0x42C80000 ∧
    fle (fadd 0x42480000 0x40000000) 0x42500000 = true ∧ fle (fadd 0x42480000 0x40000000) 0x42400000 = false ∧
    fle 0x42400000 (fsub 0x42480000 0x40000000) = true ∧ fle 0x42480000 (fsub 0x42480000 0x40000000) = false := by
  refine ⟨?_, ?_⟩
  · intro pv hp
    fin_cases hp <;> exact ⟨rfl, by decide +kernel, rfl⟩
  · unfold Inside
    decide +kernel

/-- The codes on both sides of the capacity (95_test_vectors.md V4.12, V4.13). -/
theorem witness_DistributorCapacity :
    (262139 ≤ 262144 ∧ distribute 262139 ≠ [65535, 65535, 65535, 65535]) ∧
      262140 ≤ 262144 ∧ distribute 262140 = [65535, 65535, 65535, 65535] := by decide

/-- A current of zero, of the limit, and of more; a product that is finite, and one that overflows. -/
theorem witness_CodeOfIsBounded :
    (isFinite (fmul (fdiv 0x3E000280 0x3F000000) 0x48800000) = true ∧
      flt zeroF 0x00000001 = true ∧ fle zeroF 0x7F7FFFFF = true ∧
      isFinite (fmul (fdiv 0x7F7FFFFF 0x00000001) 0x48800000) = false) ∧
    flt zeroF 0x3F000000 = true ∧ isFinite 0x3F000000 = true ∧ feq 0x80000000 zeroF = true ∧
      fle zeroF 0x80000000 = true ∧ fle 0x3F000000 0x3F000000 = true ∧ fle 0x3F000000 0x3F400000 = true := by
  decide +kernel

/-- A tie between 2^24 and 2^24 + 2 in units, and its other neighbour; finite operands of every kind the
clauses tell apart (a zero of each sign, a negative number, the largest number), an infinity and a NaN. -/
theorem witness_RoundingIsNearestEven :
    (0 < 2 ∧ roundUnits (2 * (2 ^ 24 + 1)) 2 = 0x01000000 ∧ unitsOfMag 0x01000000 = 2 ^ 24 ∧
      unitsOfMag 0x01000001 = 2 ^ 24 + 2) ∧
    [(0 : F32), 0x80000000, 0xBF800000, 0x00000001, 0x7F7FFFFF].all isFinite = true ∧
    [(0x7F800000 : F32), 0xFF800000].all isInf = true ∧ isNaN 0x7FC00000 = true := by decide +kernel

/-- The value of a pattern: 0.5, -2.0, the least subnormal. -/
theorem test_valueOf :
    valueOf 0x3F000000 = 1 / 2 ∧ valueOf 0xC0000000 = -2 ∧ valueOf 0x00000001 = 1 / 2 ^ 149 := by
  have h1 : intUnits 0x3F000000 = 2 ^ 148 := by decide +kernel
  have h2 : intUnits 0xC0000000 = -2 ^ 150 := by decide +kernel
  have h3 : intUnits 0x00000001 = 1 := by decide +kernel
  simp only [valueOf, h1, h2, h3]
  norm_num

/-- With `mc` the largest number and 1.0 ohm both `it1` and `mit` overflow (ki = 2^127, e = 2.0, dt = 1.0):
the one case in which the term is free. -/
theorem test_integralTerm_overflow :
    isInf (clamp (fadd 0 (fmul (fmul 0x7F000000 0x40000000) 0x3F800000)) zeroF (maxITerm 0x7F7FFFFF 0x3F800000))
      = true := by decide +kernel

/-- With the limits of 95_test_vectors.md the integral term is never free, at any usable resistance. -/
theorem test_integralTerm_not_free {r : F32} (h : usableResistance r = true) :
    isFinite (maxITerm (maxCurrentOf testLimits r) r) = true :=
  isFinite_maxITerm_of_le h (by decide) (by decide) (by decide) (by decide)

theorem witness_StepKeeps :
    StoreCanonical running ∧ MarkerInRun running ∧ RegistersLegal running ∧ InputsLawful running ∧
      ∃ t, step { running with inbox := [.command 3 commitLine] } = .next t :=
  ⟨rfl, fun _ => rfl, registersLegal_running,
    ⟨by intro n; fin_cases n <;> rfl, by intro job h; cases h⟩, next_of_completes (by decide +kernel)⟩

/-- The state after reset, whose LOAD is the step. -/
theorem witness_StepKeepsOutputs :
    DevicesMatch State.reset ∧ OffOutsideRun State.reset ∧ ∃ t, step State.reset = .next t := by
  refine ⟨⟨?_, ?_⟩, fun _ => ⟨?_, ?_⟩, next_of_completes (by decide +kernel)⟩
  · decide +kernel
  · decide +kernel
  · intro h
    fin_cases h <;> refine ⟨rfl, rfl, ?_⟩ <;> decide
  · intro j
    fin_cases j <;> rfl

end Sys2Proof.Tests
end

section
/-! PROOFS. The register codec of 20_memory.md R72 and R74: what its byte strings are, and its round trip (R75). -/

namespace Sys2Proof.Machine

open Sys2Proof

/-! ### Byte strings of unsigned numbers -/

@[simp] theorem length_natBytes (w v : Nat) : (natBytes w v).length = w := by
  induction w with
  | zero => rfl
  | succ w ih => simp [natBytes, ih]

/-- Reading on from a prefix of value `n`: the prefix moves up by `w` bytes. -/
theorem foldl_natBytes (w v n : Nat) :
    (natBytes w v).foldl (fun n b => 256 * n + b.toNat) n = 2 ^ (8 * w) * n + v % 2 ^ (8 * w) := by
  induction w generalizing n with
  | zero => simp [natBytes, Nat.mod_one]
  | succ w ih =>
    have pow : 2 ^ (8 * (w + 1)) = 2 ^ (8 * w) * 256 := by rw [Nat.mul_succ, Nat.pow_add]
    have top : (BitVec.ofNat 8 (v >>> (8 * w))).toNat = v / 2 ^ (8 * w) % 256 := by
      rw [BitVec.toNat_ofNat, Nat.shiftRight_eq_div_pow]
    rw [natBytes, List.foldl_cons, ih, top, pow, Nat.mod_mul]
    ring

theorem bytesNat_natBytes {w v : Nat} (h : v < 2 ^ (8 * w)) : bytesNat (natBytes w v) = v := by
  rw [bytesNat, foldl_natBytes, Nat.mul_zero, Nat.zero_add, Nat.mod_eq_of_lt h]

/-! ### Decoding the bytes of a number -/

theorem decodeInt_natBytes_unsigned {w v : Nat} (h : v < 2 ^ (8 * w)) :
    decodeInt (natBytes w v) false = v := by
  simp [decodeInt, bytesNat_natBytes h]

theorem decodeInt_natBytes_signed {w v : Nat} (h : v < 2 ^ (8 * w)) :
    decodeInt (natBytes w v) true =
      if 2 ^ (8 * w - 1) ≤ v then (v : Int) - 2 ^ (8 * w) else v := by
  simp [decodeInt, bytesNat_natBytes h]

/-! ### The round trip of `encodeInt` -/

theorem encodeInt_unsigned_roundTrip {v : Int} {w : Nat} (lo : 0 ≤ v) (hi : v < 2 ^ (8 * w)) :
    ∃ bs, encodeInt v w false = some bs ∧ bs.length = w ∧ decodeInt bs false = v := by
  have fits : v.toNat < 2 ^ (8 * w) := by rw [Int.toNat_lt lo]; exact_mod_cast hi
  refine ⟨natBytes w v.toNat, by simp [encodeInt, lo, hi], length_natBytes _ _, ?_⟩
  rw [decodeInt_natBytes_unsigned fits, Int.toNat_of_nonneg lo]

/-- The bytes hold `v` itself from zero up and `v + 2 ^ (8 * w)` below zero (two's complement, GK1); with
`1 ≤ w` the bound `2 ^ (8 * w - 1)` tells the two apart. -/
theorem encodeInt_signed_roundTrip {v : Int} {w : Nat} (hw : 1 ≤ w)
    (lo : -(2 ^ (8 * w - 1) : Int) ≤ v) (hi : v < 2 ^ (8 * w - 1)) :
    ∃ bs, encodeInt v w true = some bs ∧ bs.length = w ∧ decodeInt bs true = v := by
  refine ⟨natBytes w (v % 2 ^ (8 * w)).toNat, by simp [encodeInt, lo, hi], length_natBytes _ _, ?_⟩
  have double : 2 ^ (8 * w) = 2 * 2 ^ (8 * w - 1) := by rw [← Nat.pow_succ']; congr 1; omega
  have doubleInt : (2 : Int) ^ (8 * w) = 2 * 2 ^ (8 * w - 1) := by exact_mod_cast double
  have halfCast : ((2 ^ (8 * w - 1) : Nat) : Int) = 2 ^ (8 * w - 1) := by push_cast; rfl
  rcases Int.lt_or_le v 0 with neg | nonneg
  · have wrapped : v % 2 ^ (8 * w) = v + 2 ^ (8 * w) := by
      rw [← Int.add_emod_right, Int.emod_eq_of_lt] <;> omega
    rw [wrapped, decodeInt_natBytes_signed (by omega), if_pos (by omega)]
    omega
  · have same : v % 2 ^ (8 * w) = v := Int.emod_eq_of_lt nonneg (by omega)
    rw [same, decodeInt_natBytes_signed (by omega), if_neg (by omega)]
    omega

/-! ### The round trip of `encodeF32` -/

@[simp] theorem length_encodeF32 (p : F32) : (encodeF32 p).length = 4 := rfl

theorem f32At_encodeF32 (p : F32) : f32At (encodeF32 p) 0 = p := decodeF32_encodeF32 p

/-- Settles O5: the three round trips, each a lemma about its half of the codec. -/
theorem codecRoundTrip : Obligations.CodecRoundTrip :=
  ⟨fun _ _ _ lo hi => encodeInt_unsigned_roundTrip lo hi,
    fun _ _ hw lo hi => encodeInt_signed_roundTrip hw lo hi,
    fun p => ⟨length_encodeF32 p, f32At_encodeF32 p⟩⟩

end Sys2Proof.Machine
end

section
/-! PROOFS. The heater tick of 40_heater_control.md R150 to R167: a channel written with its output gives the
tick's registers, code, actions and frame. -/

namespace Sys2Proof.Machine

open Sys2Proof

/-! ### A channel after its tick -/

/-- Channel `c` after a tick: its runtime registers, and its output registers at `code`. -/
def Heater.ticked (c : Heater) (it eprev pwr cv : F32) (code : Nat) : Heater :=
  { c with
    it := it, eprev := eprev, pwr := pwr, cv := cv
    code := BitVec.ofNat 19 code, dac := subCodes code }

theorem outputIs_ticked {c : Heater} {it eprev pwr cv : F32} {code : Nat} (hc : code ≤ Config.codeScale) :
    OutputIs (c.ticked it eprev pwr cv code) code :=
  outputIs_writeCode (c := c) hc

/-- The frame of a tick inside its channel (40_heater_control.md R167). -/
theorem readHeaterReg_ticked {h : HeaterIx} {f : HeaterReg} (k : Reg.heater h f ∉ heaterTickRegs h)
    (c : Heater) (it eprev pwr cv : F32) (code : Nat) :
    readHeaterReg (c.ticked it eprev pwr cv code) f = readHeaterReg c f := by
  cases f with
  | it | eprev | pwr | cv | code => exact absurd (by simp [heaterTickRegs, outputRegs]) k
  | dac n => fin_cases n <;> exact absurd (by simp [heaterTickRegs, outputRegs]) k
  | _ => rfl

/-! ### The block after the tick of a channel -/

/-- The block after the tick of channel `h`: the channel written, then its output device (R194). -/
def State.tickedHeater (s : State) (h : HeaterIx) (it eprev pwr cv : F32) (code : Nat) : State :=
  (s.setHeater h ((s.heater h).ticked it eprev pwr cv code)).emit (dacActions h code)

@[simp] theorem heater_tickedHeater_same (s : State) (h : HeaterIx) (it eprev pwr cv : F32) (code : Nat) :
    (s.tickedHeater h it eprev pwr cv code).heater h = (s.heater h).ticked it eprev pwr cv code := by
  rw [State.tickedHeater, heater_emit, heater_setHeater_same]

/-- The frame of a tick (40_heater_control.md R167). -/
theorem changes_tickedHeater (s : State) (h : HeaterIx) (it eprev pwr cv : F32) (code : Nat) :
    Changes (heaterTickRegs h) (dacActions h code) s (s.tickedHeater h it eprev pwr cv code) := by
  have frame : RegsKept (heaterTickRegs h) s (s.setHeater h ((s.heater h).ticked it eprev pwr cv code)) :=
    regsKept_setHeater fun _ k => readHeaterReg_ticked k ..
  exact ⟨regsKept_emit.2 frame, fun _ => rfl, ⟨rfl, rfl, rfl, rfl, rfl, rfl, rfl⟩, rfl⟩

/-- An operation that leaves the block ticked at channel `h`, with a code in range, gives what a heater
tick has to give. -/
theorem heaterTickGives_of_exec {i : Instr} {h : HeaterIx} {it eprev pwr cv : F32} {code : Nat} {s : State}
    (hc : code ≤ Config.codeScale) (e : exec i s = .next (s.tickedHeater h it eprev pwr cv code)) :
    HeaterTickGives i h it eprev pwr cv code s := by
  refine ⟨_, e, ?_⟩
  rw [heater_tickedHeater_same]
  exact ⟨rfl, rfl, rfl, rfl, outputIs_ticked hc, changes_tickedHeater ..⟩

/-! ### The tick without a law -/

/-- What a disabled channel and a failed guard leave: the PID state kept, all else zero
(40_heater_control.md R152, R153). -/
theorem guardOff_eq_tickedHeater (s : State) (h : HeaterIx) :
    s.guardOff h = s.tickedHeater h (s.heater h).it (s.heater h).eprev zeroF zeroF 0 :=
  guardOff_eq s h

theorem exec_htrTickDisabled (h : HeaterIx) (s : State) :
    exec (.htrTickDisabled h) s = .next (s.guardOff h) := rfl

/-- Settles O38: a disabled channel's tick is `guardOff` alone, whatever the sample, and a zero code is in
range. -/
theorem heaterTickDisabled : Obligations.HeaterTickDisabled := by
  intro h s
  have run : exec (.htrTickDisabled h) s =
      .next (s.tickedHeater h (s.heater h).it (s.heater h).eprev zeroF zeroF 0) := by
    rw [exec_htrTickDisabled, guardOff_eq_tickedHeater]
  exact heaterTickGives_of_exec (Nat.zero_le _) run

end Sys2Proof.Machine
end

section
/-! PROOFS. The distributor of 41_dac_distribution.md R191: its five laws with the closed form (R192), and its
capacity (R193). -/

namespace Sys2Proof.Machine

open Sys2Proof

/-! ### The laws, for any number of sub-channels -/

theorem getD_spill_le (n rem k : Nat) : (spill n rem).getD k 0 ≤ Config.subMax := by
  rw [getD_spill]
  split
  · exact Nat.min_le_right _ _
  · exact Nat.zero_le _

/-- Saturate, then spill: what reaches sub-channel `k` has passed every one before it (R192 (c)). -/
theorem getD_spill_full {n rem k i : Nat} (hk : k < n) (hi : i < k) (used : 0 < (spill n rem).getD k 0) :
    (spill n rem).getD i 0 = Config.subMax := by
  rw [getD_spill, if_pos hk] at used
  rw [getD_spill, if_pos (hi.trans hk)]
  simp only [Config.subMax] at used ⊢
  omega

theorem getD_spill_mono {n rem more : Nat} (h : rem ≤ more) (k : Nat) :
    (spill n rem).getD k 0 ≤ (spill n more).getD k 0 := by
  rw [getD_spill, getD_spill]
  split
  · exact min_le_min_right _ (Nat.sub_le_sub_right h _)
  · exact le_rfl

/-- All sub-channels are full exactly from the capacity on (R193). -/
theorem spill_eq_replicate_iff (n rem : Nat) :
    spill n rem = List.replicate n Config.subMax ↔ Config.subMax * n ≤ rem := by
  induction n generalizing rem with
  | zero => simp [spill]
  | succ n ih =>
    rw [spill, List.replicate_succ, List.cons.injEq, ih]
    simp only [Config.subMax]
    omega

/-! ### The obligations -/

/-- Settles O50: each law is that of `spill` at four sub-channels. -/
theorem distributorLaws : Obligations.DistributorLaws := by
  intro code
  have closedForm (k : Nat) (hk : k < 4) :
      (distribute code).getD k 0 = min (code - 65535 * k) 65535 :=
    (getD_spill 4 code k).trans (if_pos hk)
  exact ⟨length_spill 4 code, fun k _ => getD_spill_le 4 code k, sum_spill 4 code,
    fun _ _ hk hi => getD_spill_full hk hi, fun _ k le => getD_spill_mono le k, closedForm⟩

/-- Settles O51: the sum is at most the capacity 4 * 65535, and the entries reach it together. -/
theorem distributorCapacity : Obligations.DistributorCapacity := by
  intro code _
  have sum : (distribute code).sum = min code 262140 := sum_spill 4 code
  exact ⟨sum.trans_le (Nat.min_le_right _ _), spill_eq_replicate_iff 4 code⟩

end Sys2Proof.Machine
end

section
/-! PROOFS. The high-power tick of 42_highpower_control.md R210 to R215: a driven actuator gives the tick's
state, action and frame; the guard, the interlock and the law say what it is driven to. -/

namespace Sys2Proof.Machine

open Sys2Proof

/-! ### The block after its actuator was driven -/

/-- The frame of a drive inside its channel: the commanded state and the configuration stay. -/
theorem readHpReg_of_ne_state {f : HpReg} (k : f ≠ .state) (c : HighPower) (b : Bool) :
    readHpReg { c with state := b } f = readHpReg c f := by
  cases f with
  | state => exact absurd rfl k
  | _ => rfl

theorem changes_driveHp (s : State) (j : HpIx) (b : Bool) :
    Changes [.highPower j .state] [.hp j b] s (s.driveHp j b) := by
  have frame : RegsKept [.highPower j .state] s (s.setHighPower j { s.highPower j with state := b }) :=
    regsKept_setHighPower fun f k => readHpReg_of_ne_state (by simpa using k) ..
  exact ⟨regsKept_emit.2 frame, fun _ => rfl, ⟨rfl, rfl, rfl, rfl, rfl, rfl, rfl⟩, rfl⟩

/-- An operation that is a drive of the actuator gives what a high-power tick has to give. -/
theorem hpTickGives_of_exec {i : Instr} {j : HpIx} {b : Bool} {s : State}
    (e : exec i s = .next (s.driveHp j b)) : HpTickGives i j b s :=
  ⟨_, e, by rw [highPower_driveHp, if_pos rfl], changes_driveHp s j b⟩

/-! ### The three ways of an active channel's tick, for any law -/

theorem inside_iff {tmin pv tmax : F32} : inside tmin pv tmax = true ↔ Inside tmin pv tmax :=
  Bool.and_eq_true_iff

/-- The guard (R212): without a sample the law is skipped. -/
theorem hpTickGives_off {i : Instr} {j : HpIx} {s : State} {law : HighPower → F32 → Bool}
    (e : exec i s = .next (s.highPowerTick j law)) (h : NoSample s (s.highPower j).sns) :
    HpTickGives i j false s :=
  hpTickGives_of_exec (by rw [e, highPowerTick_off law h])

/-- The interlock (R215): outside the bounds it has the last word. -/
theorem hpTickGives_outside {i : Instr} {j : HpIx} {s : State} {law : HighPower → F32 → Bool}
    {n : SensorIx} {pv : F32} (e : exec i s = .next (s.highPowerTick j law))
    (h : HasSample s (s.highPower j).sns n pv)
    (out : ¬Inside (s.highPower j).tmin pv (s.highPower j).tmax) : HpTickGives i j false s :=
  hpTickGives_of_exec (by
    rw [e, highPowerTick_law law h, Bool.eq_false_iff.2 (mt inside_iff.1 out), Bool.false_and])

/-- The law (R210): inside the bounds it decides. -/
theorem hpTickGives_inside {i : Instr} {j : HpIx} {s : State} {law : HighPower → F32 → Bool}
    {n : SensorIx} {pv : F32} (e : exec i s = .next (s.highPowerTick j law))
    (h : HasSample s (s.highPower j).sns n pv)
    (ins : Inside (s.highPower j).tmin pv (s.highPower j).tmax) :
    HpTickGives i j (law (s.highPower j) pv) s :=
  hpTickGives_of_exec (by rw [e, highPowerTick_law law h, inside_iff.2 ins, Bool.true_and])

/-! ### The comparator (R214) -/

theorem comparator_off {sp hyst pv : F32} (hi : fle (fadd sp hyst) pv = true) (b : Bool) :
    comparator sp hyst pv b = false := if_pos hi

theorem comparator_on {sp hyst pv : F32} (hi : fle (fadd sp hyst) pv = false)
    (lo : fle pv (fsub sp hyst) = true) (b : Bool) : comparator sp hyst pv b = true := by
  simp [comparator, hi, lo]

theorem comparator_keep {sp hyst pv : F32} (hi : fle (fadd sp hyst) pv = false)
    (lo : fle pv (fsub sp hyst) = false) (b : Bool) : comparator sp hyst pv b = b := by
  simp [comparator, hi, lo]

/-! ### The obligations -/

theorem exec_hpTickDisabled (j : HpIx) (s : State) :
    exec (.hpTickDisabled j) s = .next (s.driveHp j false) := rfl

theorem exec_hpTickDirect (j : HpIx) (s : State) :
    exec (.hpTickDirect j) s = .next (s.highPowerTick j fun c _ => c.cmd) := rfl

theorem exec_hpTickHyst (j : HpIx) (s : State) :
    exec (.hpTickHyst j) s = .next (s.highPowerTick j fun c pv => comparator c.sp c.hyst pv c.state) := rfl

/-- Settles O48: a disabled channel's tick is the drive alone, and without a sample so is every active
one's, whatever its law. -/
theorem highPowerTickOff : Obligations.HighPowerTickOff := fun j s =>
  ⟨hpTickGives_of_exec (exec_hpTickDisabled j s),
    fun absent =>
      ⟨hpTickGives_off (exec_hpTickDirect j s) absent, hpTickGives_off (exec_hpTickHyst j s) absent⟩⟩

/-- Settles O49: the interlock decides outside the bounds; inside, the direct law is the commanded state and
the hysteresis law the comparator, taken at its three cases. -/
theorem highPowerTickLaws : Obligations.HighPowerTickLaws := by
  intro j n pv s sample
  refine ⟨fun out => ?outside, fun ins => ⟨?direct, fun hi => ?off, fun hi lo => ?on, fun hi lo => ?keep⟩⟩
  case outside =>
    exact ⟨hpTickGives_outside (exec_hpTickDirect j s) sample out,
      hpTickGives_outside (exec_hpTickHyst j s) sample out⟩
  case direct => exact hpTickGives_inside (exec_hpTickDirect j s) sample ins
  all_goals have hyst := hpTickGives_inside (exec_hpTickHyst j s) sample ins
  case off => rwa [comparator_off hi] at hyst
  case on => rwa [comparator_on hi lo] at hyst
  case keep => rwa [comparator_keep hi lo] at hyst

end Sys2Proof.Machine
end

section
/-! PROOFS. A presented line (43_cmd_dispatch.md R230): it is the source of the next step, which runs in the
state it was taken in; a rejected one leaves its response only (60_exceptions.md R342). -/

namespace Sys2Proof.Machine

open Sys2Proof

/-! ### A presented line -/

theorem fetch_presents {s : State} {conn : Nat} {line : List Byte} {rest : List Stimulus}
    (h : Presents s conn line rest) : s.fetch = some (.wire line) := by
  obtain ⟨run, noTick, -, next⟩ := h
  simp only [State.fetch, run, noTick, next]

theorem accept_presents {s : State} {conn : Nat} {line : List Byte} {rest : List Stimulus}
    (h : Presents s conn line rest) : s.accept (.wire line) = s.taken conn rest := by
  obtain ⟨-, -, -, next⟩ := h
  simp only [State.accept, State.taken, next]

theorem decode_wire_error {line : List Byte} {r : Bad} (d : decodeLine line = .error r) :
    decode (.wire line) = .error (.bad r) := by
  rw [decode, d]; rfl

/-! ### A rejected line -/

/-- No reset falls inside it, so the step of a rejected line is its response (43_cmd_dispatch.md R242). -/
theorem step_rejected {s : State} {conn : Nat} {line : List Byte} {rest : List Stimulus} {r : Bad}
    (h : Presents s conn line rest) (d : decodeLine line = .error r) :
    step s = .next ((s.taken conn rest).respond (.bad r)) := by
  have whole : s.stepWhole = .next ((s.taken conn rest).respond (.bad r)) := by
    simp only [State.stepWhole, fetch_presents h, decode_wire_error d, accept_presents h, State.reject]
  obtain ⟨-, -, noCut, -⟩ := h
  have uncut : ((s.taken conn rest).respond (.bad r)).cut = none := noCut
  rw [step, whole]
  exact congrArg Host.Outcome.next (strike_none s uncut)

/-- The frame of a response: it is the one action, and nothing else changes. -/
theorem changes_respond (s : State) (r : Reply) : Changes [] [.resp s.conn r] s (s.respond r) :=
  ⟨regsKept_respond.2 fun _ _ => rfl, fun _ => rfl, ⟨rfl, rfl, rfl, rfl, rfl, rfl, rfl⟩, respond_log s r⟩

/-! ### The obligation -/

/-- Settles O10: the step is the response in the state the line was taken in, whose connection is the
line's. -/
theorem rejectedLineChangesNothing : Obligations.RejectedLineChangesNothing :=
  fun s conn _ rest r presented rejected =>
    ⟨_, step_rejected presented rejected, changes_respond (s.taken conn rest) (.bad r)⟩

end Sys2Proof.Machine
end

section
/-! PROOFS. What writes the store (70_reset_and_hazards.md R374): a boot over a valid marker only reads it, an
operation other than LOAD and COMMIT does not touch it, and a reset inside a step adds no write. -/

namespace Sys2Proof.Machine

open Sys2Proof

/-! ### A store that was not written -/

/-- From `s` to `t` the store stays as it was, and none of the new actions is a store write. -/
def StoreUnwritten (s t : State) : Prop :=
  t.nvm = s.nvm ∧ ∃ as, t.log = s.log ++ as ∧ ∀ a, a ∈ as → isStoreWrite a = false

theorem StoreUnwritten.trans {s t u : State} (h : StoreUnwritten s t) (h' : StoreUnwritten t u) :
    StoreUnwritten s u := by
  obtain ⟨nvm, as, log, reads⟩ := h
  obtain ⟨nvm', bs, log', reads'⟩ := h'
  refine ⟨nvm'.trans nvm, as ++ bs, by rw [log', log, List.append_assoc], fun a ha => ?_⟩
  exact (List.mem_append.1 ha).elim (reads a) (reads' a)

/-- Nothing was done, as far as the store and the actions can tell. -/
theorem storeUnwritten_of_same {s t : State} (nvm : t.nvm = s.nvm) (log : t.log = s.log) : StoreUnwritten s t :=
  ⟨nvm, [], by rw [log, List.append_nil], nofun⟩

theorem storeUnwritten_emit {s : State} {as : List Action} (reads : ∀ a, a ∈ as → isStoreWrite a = false) :
    StoreUnwritten s (s.emit as) :=
  ⟨rfl, as, rfl, reads⟩

/-- Reset drives the outputs only; the store stays (70_reset_and_hazards.md R370). -/
theorem storeUnwritten_applyReset (s : State) : StoreUnwritten s s.applyReset :=
  ⟨applyReset_nvm s, resetActions, applyReset_log s, by decide⟩

theorem storeUnwritten_accept (s : State) (src : Source) : StoreUnwritten s (s.accept src) :=
  storeUnwritten_of_same (accept_nvm s src) (accept_log s src)

theorem storeUnwritten_settle (s : State) : StoreUnwritten s s.settle :=
  storeUnwritten_of_same (settle_nvm s) (settle_log s)

/-! ### LOAD over a valid marker -/

theorem exec_load {s t : State} (h : exec .load s = .next t) : s.bootLoad = .ok t := by
  obtain ⟨u, loaded⟩ := bootLoad_ok s
  have ran : exec .load s = .next u := congrArg ofStore loaded
  rw [ran] at h
  injection h with h
  rw [loaded, h]

theorem storeUnwritten_readout {s t : State} (h : s.readout = .ok t) : StoreUnwritten s t := by
  obtain ⟨u, run, -, -, -, nvm, -, log⟩ := readout_next s
  rw [run] at h
  injection h with h
  subst h
  exact ⟨nvm, readoutActions, log, by decide⟩

/-- A boot that finds the marker stamps nothing: it is the read of the marker and READOUT
(70_reset_and_hazards.md R371). -/
theorem storeUnwritten_load {s t : State} (h : exec .load s = .next t)
    (marker : s.nvm.read Config.markerAddr = Config.sentinel) : StoreUnwritten s t := by
  have boot := exec_load h
  rw [bootLoad_eq] at boot
  simp only [if_pos marker] at boot
  have probe : StoreUnwritten s ((s.setPhase .load).emit [.memRead Config.markerAddr 1]) :=
    (storeUnwritten_of_same (setPhase_nvm s _) (setPhase_log s _)).trans
      (storeUnwritten_emit (by simp [isStoreWrite]))
  exact probe.trans (storeUnwritten_readout boot)

/-! ### Operations, stimuli and steps -/

theorem storeUnwritten_exec {i : Instr} {s t : State} (h : exec i s = .next t) (notLoad : i ≠ .load)
    (notCommit : i ≠ .setCommit) : StoreUnwritten s t := by
  obtain ⟨⟨as, log, -, -, unwritten⟩, -⟩ := exec_edge h
  obtain ⟨nvm, reads⟩ := unwritten notLoad notCommit
  exact ⟨nvm, as, log, reads⟩

/-- The environment writes no byte of the store. -/
theorem storeUnwritten_stimulate {s t : State} (h : s.stimulate = .next t) : StoreUnwritten s t := by
  rcases stimulate_cases h with ⟨-, rfl⟩ | ⟨x, rest, -, presented⟩
  · exact storeUnwritten_of_same rfl rfl
  · rcases presented with ⟨-, rfl⟩ | ⟨-, rfl⟩ | ⟨k, -, rfl⟩ | ⟨_, _, -, rfl⟩ | ⟨_, _, -, ⟨-, rfl⟩ | ⟨-, -, rfl⟩⟩
    case inl => exact storeUnwritten_applyReset { s with inbox := rest }
    all_goals exact storeUnwritten_of_same rfl rfl

/-- A step, before a reset inside it, leaves the store unwritten or runs LOAD or COMMIT. -/
theorem stepWhole_unwritten_or {s t : State} (h : s.stepWhole = .next t) :
    StoreUnwritten s t ∨ ∃ src, s.fetch = some src ∧ (decode src = .ok .load ∨ decode src = .ok .setCommit) := by
  rcases stepWhole_cases h with ⟨src, i, u, fetched, decoded, ran, rfl⟩ | ⟨src, r, -, -, rfl⟩ | ⟨-, stimulus⟩
  · by_cases load : i = .load
    · exact .inr ⟨src, fetched, .inl (load ▸ decoded)⟩
    by_cases commit : i = .setCommit
    · exact .inr ⟨src, fetched, .inr (commit ▸ decoded)⟩
    have executed := (storeUnwritten_accept s src).trans (storeUnwritten_exec ran load commit)
    exact .inl (executed.trans (storeUnwritten_settle u))
  · exact .inl ((storeUnwritten_accept s src).trans (storeUnwritten_emit (by simp [isStoreWrite])))
  · exact .inl (storeUnwritten_stimulate stimulus)

/-- A reset inside a step keeps some of its first actions; with no write among them the store stays. -/
theorem strike_nvm_of_unwritten {s t : State} (h : StoreUnwritten s t) : (s.strike t).nvm = s.nvm := by
  obtain ⟨nvm, as, log, reads⟩ := h
  rcases strike_cases s t with whole | ⟨k, later⟩ | ⟨k, -, cut⟩
  · rw [whole, nvm]
  · rw [later]; exact nvm
  · rw [cut, applyReset_nvm, log, List.drop_left]
    exact congrArg Prod.fst (replayStore_reads _ fun a ha => reads a (List.mem_of_mem_take ha))

/-! ### The obligation -/

/-- Settles O20: the marker decides for LOAD, the shapes of `exec` for the other operations; a step is one of
these, a rejected line or a stimulus, and a reset inside it does no write that the whole step would not do. -/
theorem storeWrittenByStampAndCommitOnly : Obligations.StoreWrittenByStampAndCommitOnly := by
  refine ⟨fun _ _ => storeUnwritten_load, fun _ _ _ => storeUnwritten_exec, fun s t h changed => ?_⟩
  obtain ⟨u, whole, rfl⟩ := step_next h
  exact (stepWhole_unwritten_or whole).resolve_left fun unwritten => changed (strike_nvm_of_unwritten unwritten)

end Sys2Proof.Machine
end

section
/-! PROOFS. The invariants of a step (20_memory.md R80 to R88, 10_state.md R43, R44, R53): the induction
over what a step can do, packaged once, and the invariants that need no more than the shapes of `exec`. -/

namespace Sys2Proof.Machine

open Sys2Proof

/-! ### The induction -/

/-- From `s` to `t` the phase, the registers, the store and the record of actions are as before. -/
structure EdgeOnly (s t : State) : Prop where
  phase : t.phase = s.phase
  htr : t.htr = s.htr
  hp : t.hp = s.hp
  sns : t.sns = s.sns
  nvm : t.nvm = s.nvm
  log : t.log = s.log

theorem EdgeOnly.heater {s t : State} (e : EdgeOnly s t) (h : HeaterIx) : t.heater h = s.heater h := by
  rw [State.heater, e.htr]; rfl

theorem EdgeOnly.highPower {s t : State} (e : EdgeOnly s t) (j : HpIx) : t.highPower j = s.highPower j := by
  rw [State.highPower, e.hp]; rfl

theorem edgeOnly_accept (s : State) (src : Source) : EdgeOnly s (s.accept src) := by
  constructor <;> simp

theorem edgeOnly_settle (s : State) : EdgeOnly s s.settle := by
  constructor <;> simp

/-- What a step is made of keeps the property: the bookkeeping at the edge, an operation that was fetched, a
response, a lawful strobe, and Reset over a store that is canonical if it was so before. -/
structure KeptByParts (P : State → Prop) : Prop where
  edge : ∀ {s t : State}, EdgeOnly s t → P s → P t
  operation : ∀ {s : State} {src : Source} {i : Instr} {t : State}, s.fetch = some src → decode src = .ok i →
    P (s.accept src) →
    exec i (s.accept src) = .next t → P t
  response : ∀ {s : State} r, P s → P (s.respond r)
  strobe : ∀ {s : State} {dt samp}, lawfulStrobe dt samp = true → P s → P (s.startTick dt samp)
  reset : ∀ {s u : State}, P s → (s.nvm.wf = true → u.nvm.wf = true) → P u.applyReset

variable {P : State → Prop}

theorem KeptByParts.stimulate (k : KeptByParts P) {s t : State} (hs : P s) (h : s.stimulate = .next t) : P t := by
  rcases stimulate_cases h with ⟨-, rfl⟩ | ⟨x, rest, -, presented⟩
  · exact hs
  · rcases presented with ⟨-, rfl⟩ | ⟨-, rfl⟩ | ⟨_, -, rfl⟩ | ⟨_, _, -, rfl⟩ |
      ⟨dt, samp, -, ⟨-, rfl⟩ | ⟨-, lawful, rfl⟩⟩
    case inl => exact k.reset hs id
    case inr.inr.inr.inr.inr =>
      exact k.strobe lawful (k.edge (s := s) (t := { s with inbox := rest }) ⟨rfl, rfl, rfl, rfl, rfl, rfl⟩ hs)
    all_goals exact k.edge (s := s) ⟨rfl, rfl, rfl, rfl, rfl, rfl⟩ hs

theorem KeptByParts.stepWhole (k : KeptByParts P) {s t : State} (hs : P s) (h : s.stepWhole = .next t) : P t := by
  rcases stepWhole_cases h with ⟨src, i, u, fetched, decoded, ran, rfl⟩ | ⟨src, r, -, -, rfl⟩ | ⟨-, stimulus⟩
  · exact k.edge (edgeOnly_settle u) (k.operation fetched decoded (k.edge (edgeOnly_accept s src) hs) ran)
  · exact k.response _ (k.edge (edgeOnly_accept s src) hs)
  · exact k.stimulate hs stimulus

/-- The store that the first actions of a step leave is canonical if it was so before the step. -/
theorem replay_take_wf {s t : State} (h : s.stepWhole = .next t) (k : Nat) (w : s.nvm.wf = true) :
    (replayStore (s.nvm, s.markerMisses) ((t.log.drop s.log.length).take k)).1.wf = true := by
  obtain ⟨as, log, fit, -⟩ := stepWhole_edge h
  rw [log, List.drop_left]
  exact replayStore_wf w fun a bs m => fit a bs (List.mem_of_mem_take m)

/-- The induction over a step. -/
theorem KeptByParts.step (k : KeptByParts P) {s t : State} (hs : P s) (h : step s = .next t) : P t := by
  obtain ⟨u, whole, rfl⟩ := step_next h
  have hu := k.stepWhole hs whole
  rcases strike_cases s u with e | ⟨n, e⟩ | ⟨n, -, e⟩
  · rwa [e]
  · rw [e]; exact k.edge (s := u) ⟨rfl, rfl, rfl, rfl, rfl, rfl⟩ hu
  · rw [e]; exact k.reset hs (replay_take_wf whole n)

/-! ### The store -/

theorem storeCanonical_exec {i : Instr} {s t : State} (hs : StoreCanonical s) (h : exec i s = .next t) :
    StoreCanonical t := by
  obtain ⟨⟨as, -, fit, replayed, -⟩, -⟩ := exec_edge h
  have e : t.nvm = (replayStore (s.nvm, s.markerMisses) as).1 := congrArg Prod.fst replayed
  unfold StoreCanonical
  rw [e]
  exact replayStore_wf hs fit

theorem storeCanonical_kept : KeptByParts StoreCanonical where
  edge e hs := by unfold StoreCanonical; rw [e.nvm]; exact hs
  operation _ _ := storeCanonical_exec
  response _ hs := hs
  strobe _ hs := hs
  reset hs w := w hs

/-- Settles O55: every operation's store writes stay inside the store, and so do those a cut leaves. -/
theorem stepKeepsStoreCanonical : Obligations.StepKeepsStoreCanonical :=
  fun _ _ => storeCanonical_kept.step

/-! ### The output devices -/

theorem quiet_resp (conn : Nat) (r : Reply) : ∀ a ∈ [Action.resp conn r], Quiet a := by simp [Quiet]

theorem devicesMatch_respond {s : State} (r : Reply) (hs : DevicesMatch s) : DevicesMatch (s.respond r) :=
  devicesMatch_quiet hs (respond_log s r) (quiet_resp _ r) (fun _ => rfl) fun _ => rfl

/-- A heater channel that was written, with quiet actions and its output as before. -/
theorem devicesMatch_setHeater_quiet {s : State} (hs : DevicesMatch s) {h : HeaterIx} {c : Heater}
    {as : List Action} (q : ∀ a ∈ as, Quiet a) (e : c.dac = (s.heater h).dac) :
    DevicesMatch ((s.setHeater h c).emit as) := by
  refine devicesMatch_quiet hs (by simp) q (fun h' => ?_) fun _ => rfl
  rw [heater_emit, heater_setHeater]
  split
  · rename_i same; rw [same, e]
  · rfl

/-- A heater channel that was written with its output. -/
theorem devicesMatch_setHeater_output {s : State} (hs : DevicesMatch s) {h : HeaterIx} {c : Heater} {code : Nat}
    {as : List Action} (q : ∀ a ∈ as, Quiet a) (e : c.dac = subCodes code) :
    DevicesMatch ((s.setHeater h c).emit (dacActions h code ++ as)) := by
  refine ⟨fun h' k => ?_, fun j => ?_⟩
  · rw [emit_log, setHeater_log, lastDac_append, heldDac_dacActions _ _ _ _ _ _ q, heater_emit,
      heater_setHeater, hs.1]
    by_cases same : h = h'
    · subst same; simp only [if_true, e, getElem_subCodes]
    · rw [if_neg same, if_neg (Ne.symm same)]
  · rw [emit_log, setHeater_log, lastHp_append, heldHp_dacActions _ _ _ _ _ q]
    exact hs.2 j

/-- A high-power channel that was written with its actuator. -/
theorem devicesMatch_setHighPower_drive {s : State} (hs : DevicesMatch s) {j : HpIx} {c : HighPower}
    {as : List Action} (q : ∀ a ∈ as, Quiet a) :
    DevicesMatch ((s.setHighPower j c).emit (.hp j c.state :: as)) := by
  refine ⟨fun h' k => ?_, fun j' => ?_⟩
  · rw [emit_log, setHighPower_log, lastDac_append]
    exact (heldDac_quiet h' k _ q).trans (hs.1 h' k)
  · rw [emit_log, setHighPower_log, lastHp_append, hs.2, highPower_emit, highPower_setHighPower]
    have : heldHp j' (some (s.highPower j').state) (.hp j c.state :: as) =
        heldHp j' (if j = j' then some c.state else some (s.highPower j').state) as := rfl
    rw [this, heldHp_quiet _ _ q]
    by_cases same : j = j'
    · subst same; simp
    · rw [if_neg same, if_neg (Ne.symm same)]

theorem devicesMatch_setHighPower_quiet {s : State} (hs : DevicesMatch s) {j : HpIx} {c : HighPower}
    {as : List Action} (q : ∀ a ∈ as, Quiet a) (e : c.state = (s.highPower j).state) :
    DevicesMatch ((s.setHighPower j c).emit as) := by
  refine devicesMatch_quiet hs (by simp) q (fun _ => rfl) fun j' => ?_
  rw [highPower_emit, highPower_setHighPower]
  split
  · rename_i same; rw [same, e]
  · rfl

/-- A stop writes every device and sets every output register to what it writes. -/
theorem devicesMatch_stop (s : State) : DevicesMatch s.stop := by
  obtain ⟨htr, hp⟩ := outputsOff_stop s
  constructor
  · intro h k
    obtain ⟨-, -, dac⟩ := htr h
    rw [stop_log, allOutputsOff_log, lastDac_append, heldDac_resetActions, dac]
  · intro j
    rw [stop_log, allOutputsOff_log, lastHp_append, heldHp_resetActions, hp]

theorem quiet_of_inTransport {a : Action} (h : InTransport a) : Quiet a := by
  cases a <;> simp_all [InTransport, Quiet]

/-- The register transport drives no output (00_scope.md R17). -/
theorem devicesMatch_transports {s t : State} (hs : DevicesMatch s) (h : Transports s t) : DevicesMatch t := by
  obtain ⟨⟨as, log, inside, -⟩, ⟨htr, hp, -⟩, -⟩ := h
  refine devicesMatch_quiet hs log (fun a ha => quiet_of_inTransport (inside a ha)) (fun x => ?_) fun x => (hp x).2
  obtain ⟨-, -, -, -, -, -, dac⟩ := htr x
  exact dac

theorem devicesMatch_exec {i : Instr} {s t : State} (hs : DevicesMatch s) (h : exec i s = .next t) :
    DevicesMatch t := by
  rcases exec_shape h with ⟨h', c, as, rfl, output⟩ | ⟨j, c, as, rfl, output⟩ | ⟨n, c, -, rfl⟩ |
    (⟨key, v, rfl⟩ | rfl) | ⟨-, rfl⟩ | ⟨-, rfl⟩ | ⟨-, boot⟩
  · rcases output with ⟨rfl, -, dac⟩ | ⟨code, -, -, dac, rfl | rfl⟩
    · exact devicesMatch_setHeater_quiet hs (quiet_resp _ _) dac
    · simpa using devicesMatch_setHeater_output (as := []) hs (by simp) dac
    · exact devicesMatch_setHeater_output hs (quiet_resp _ _) dac
  · rcases output with ⟨rfl, same⟩ | rfl | rfl
    · exact devicesMatch_setHighPower_quiet hs (quiet_resp _ _) same
    · exact devicesMatch_setHighPower_drive hs (by simp)
    · exact devicesMatch_setHighPower_drive hs (quiet_resp _ _)
  · exact devicesMatch_quiet hs (emit_log _ _) (quiet_resp _ _) (fun _ => rfl) fun _ => rfl
  · exact devicesMatch_respond (.value key v) hs
  · exact devicesMatch_quiet hs (emit_log s _) (by simp [Quiet]) (fun _ => rfl) fun _ => rfl
  · exact devicesMatch_respond .ok (devicesMatch_stop s)
  · refine devicesMatch_respond .ok (devicesMatch_quiet hs (committed_log s) ?_ (by simp) (by simp))
    intro a ha
    obtain ⟨w, -, rfl⟩ := List.mem_map.1 ha
    trivial
  · exact devicesMatch_transports hs (bootLoad_cases boot).1

theorem devicesMatch_kept : KeptByParts DevicesMatch where
  edge e hs := devicesMatch_quiet (as := []) hs (by simp [e.log]) (by simp) (fun h => by rw [e.heater])
    fun j => by rw [e.highPower]
  operation _ _ := devicesMatch_exec
  response := devicesMatch_respond
  strobe _ hs := hs
  reset _ _ := devicesMatch_applyReset _

/-- Settles O56: an operation writes a device and its output register together or neither, and Reset writes
them all. -/
theorem stepKeepsDevicesMatching : Obligations.StepKeepsDevicesMatching :=
  fun _ _ => devicesMatch_kept.step

/-! ### Outputs outside RUN -/

theorem outputsOff_edge {s t : State} (e : EdgeOnly s t) (hs : OutputsOff s) : OutputsOff t :=
  ⟨fun h => by rw [e.heater]; exact hs.1 h, fun j => by rw [e.highPower]; exact hs.2 j⟩

theorem outputsOff_respond {s : State} (r : Reply) (hs : OutputsOff s) : OutputsOff (s.respond r) := hs

/-- An operation fetched in RUN stays in RUN or is a stop; one fetched in RESET is LOAD. -/
theorem offOutsideRun_exec {s t : State} {src : Source} {i : Instr} (fetched : s.fetch = some src)
    (decoded : decode src = .ok i) (hs : OffOutsideRun (s.accept src))
    (ran : exec i (s.accept src) = .next t) : OffOutsideRun t := by
  intro outside
  rcases fetch_cases fetched with ⟨reset, -, rfl⟩ | ⟨run, -⟩
  · obtain rfl : i = .load := by cases decoded; rfl
    obtain ⟨⟨-, same, -⟩, -⟩ := bootLoad_cases (exec_load ran)
    exact outputsOff_of_sameRuntime same (hs (by simp [reset]))
  · obtain ⟨-, -, -, -, -, -, -, phase⟩ := exec_edge ran
    rcases phase with same | ⟨load, -⟩ | ⟨stop, -⟩
    · exact absurd (same.trans ((accept_phase s src).trans run)) outside
    · exact absurd load (decode_ne_load fetched run decoded)
    · have e : t = (s.accept src).stop.respond .ok := by
        rcases stop with rfl | rfl
        · exact (Host.Outcome.next.inj ran).symm
        · exact (Host.Outcome.next.inj ran).symm
      exact e ▸ outputsOff_respond .ok (outputsOff_stop (s.accept src))

theorem offOutsideRun_kept : KeptByParts OffOutsideRun where
  edge e hs := fun outside => outputsOff_edge e (hs (e.phase ▸ outside))
  operation := offOutsideRun_exec
  response _ hs := hs
  strobe _ hs := hs
  reset _ _ := fun _ => outputsOff_applyReset

/-- Settles O57: outside RUN only LOAD runs, which touches no output; RUN is left by a stop or a reset. -/
theorem stepKeepsOutputsOffOutsideRun : Obligations.StepKeepsOutputsOffOutsideRun :=
  fun _ _ => offOutsideRun_kept.step

/-! ### The marker in RUN -/

theorem exec_setCommit (s : State) : exec .setCommit s = .next (s.committed.respond .ok) := commitOk_eq s

/-- COMMIT ends below the marker, and no operation of RUN but COMMIT writes the store. -/
theorem markerInRun_exec {s t : State} {src : Source} {i : Instr} (fetched : s.fetch = some src)
    (decoded : decode src = .ok i) (canonical : StoreCanonical (s.accept src))
    (marked : MarkerInRun (s.accept src)) (ran : exec i (s.accept src) = .next t) : MarkerInRun t := by
  intro running
  rcases fetch_cases fetched with ⟨reset, -, rfl⟩ | ⟨run, -⟩
  · obtain rfl : i = .load := by cases decoded; rfl
    rcases (bootLoad_cases (exec_load ran)).2 with ⟨-, -, marker⟩ | ⟨fault, -⟩
    · exact marker
    · rw [running] at fault; cases fault
  · have before := marked (by simp [run])
    by_cases commit : i = .setCommit
    · subst commit
      have e := Host.Outcome.next.inj ((exec_setCommit (s.accept src)).symm.trans ran)
      rw [← e, respond_nvm, committed_nvm, read_commit_above canonical (by decide)]
      exact before
    · rw [(storeUnwritten_exec ran (decode_ne_load fetched run decoded) commit).1]
      exact before

theorem markerInRun_kept : KeptByParts fun s => StoreCanonical s ∧ MarkerInRun s where
  edge e hs := ⟨storeCanonical_kept.edge e hs.1, fun run => by rw [e.nvm]; exact hs.2 (e.phase ▸ run)⟩
  operation fetched decoded hs ran :=
    ⟨storeCanonical_exec hs.1 ran, markerInRun_exec fetched decoded hs.1 hs.2 ran⟩
  response _ hs := hs
  strobe _ hs := hs
  reset hs w := ⟨w hs.1, nofun⟩

/-- Settles O58: LOAD enters RUN over a marker that reads as set, and nothing in RUN writes the marker. -/
theorem stepKeepsMarkerInRun : Obligations.StepKeepsMarkerInRun :=
  fun _ _ canonical marked h => (markerInRun_kept.step ⟨canonical, marked⟩ h).2

end Sys2Proof.Machine
end

section
/-! PROOFS. What an operation can do to the registers of one channel, said once, and what follows from it:
who writes the PID state and the commanded registers (70_reset_and_hazards.md R383, 10_state.md R33, R37), and
the ranges every step keeps (10_state.md R32 to R48). -/

namespace Sys2Proof.Machine

open Sys2Proof

/-! ### All outputs off, channel by channel -/

theorem heater_allOutputsOff (s : State) (h : HeaterIx) :
    s.allOutputsOff.heater h = { s.heater h with cv := zeroF, code := 0, dac := subCodes 0 } := by
  simp only [State.allOutputsOff, heater_driveHp, State.heaterOff, State.outputZero, heater_writeCode,
    heater_setHeater]
  fin_cases h <;> simp

theorem highPower_allOutputsOff (s : State) (j : HpIx) :
    s.allOutputsOff.highPower j = { s.highPower j with state := false } := by
  simp only [State.allOutputsOff, highPower_driveHp]
  fin_cases j <;> simp [State.highPower]

/-! ### A heater channel -/

/-- What operation `i` can make of channel `h`, from `c` to `d`: who may write a register, and what. -/
structure HeaterMoves (i : Instr) (h : HeaterIx) (c d : Heater) : Prop where
  sns : d.sns = c.sns ∨ d.sns.toNat ≤ 12
  pid : (d.it = c.it ∧ d.eprev = c.eprev) ∨
    (∃ dt, i = .htrTickPid h dt) ∧ (d.it = c.it ∨ finiteNonNegative d.it = true)
  curCmd : d.curCmd = c.curCmd ∨ i = .setDacCur h d.curCmd
  cv : d.cv = c.cv ∨ d.cv = c.curCmd ∨ currentLegal d.cv = true
  output : (d.code = c.code ∧ d.dac = c.dac) ∨
    ∃ code, code ≤ Config.codeScale ∧ d.code = BitVec.ofNat 19 code ∧ d.dac = subCodes code

theorem HeaterMoves.refl (i : Instr) (h : HeaterIx) (c : Heater) : HeaterMoves i h c c :=
  ⟨.inl rfl, .inl ⟨rfl, rfl⟩, .inl rfl, .inl rfl, .inl ⟨rfl, rfl⟩⟩

/-- Zero current on a zero output. -/
theorem HeaterMoves.off {i : Instr} {h : HeaterIx} {c d : Heater} (sns : d.sns = c.sns) (it : d.it = c.it)
    (eprev : d.eprev = c.eprev) (curCmd : d.curCmd = c.curCmd) (cv : d.cv = zeroF) (code : d.code = 0)
    (dac : d.dac = subCodes 0) : HeaterMoves i h c d :=
  ⟨.inl sns, .inl ⟨it, eprev⟩, .inl curCmd, .inr (.inr (cv ▸ currentLegal_zeroF)),
    .inr ⟨0, Nat.zero_le _, code, dac⟩⟩

/-- An operation that leaves every heater channel as it was. -/
theorem heaterMoves_of_htr {i : Instr} {s t : State} (e : t.htr = s.htr) (h : HeaterIx) :
    HeaterMoves i h (s.heater h) (t.heater h) := by
  have same : t.heater h = s.heater h := by rw [State.heater, e]; rfl
  rw [same]
  exact .refl i h _

/-- An operation that writes one heater channel. -/
theorem heaterMoves_of_write {i : Instr} {s t : State} {h : HeaterIx} {c : Heater} {as : List Action}
    (e : t = (s.setHeater h c).emit as) (m : HeaterMoves i h (s.heater h) c) (h' : HeaterIx) :
    HeaterMoves i h' (s.heater h') (t.heater h') := by
  rw [e, heater_emit, heater_setHeater]
  split
  · rename_i same; subst same; exact m
  · exact .refl i h' _

/-- What a law may give: its current is the commanded one or legal, and its accumulator the old one, or a finite
number from 0 on. -/
structure LawMoves (i : Instr) (h : HeaterIx) (c : Heater) (r : LawResult) : Prop where
  pid : (r.it = c.it ∧ r.eprev = c.eprev) ∨
    (∃ dt, i = .htrTickPid h dt) ∧ (r.it = c.it ∨ finiteNonNegative r.it = true)
  cur : r.cur = c.curCmd ∨ currentLegal r.cur = true

theorem heaterMoves_tick {i : Instr} {s : State} {h : HeaterIx} {law : Heater → TempUnit → F32 → F32 → LawResult}
    (moves : ∀ {n pv mc}, HeaterReady s h n pv mc →
      LawMoves i h (s.heater h) (law (s.heater h) (s.sensor n).units pv mc)) (h' : HeaterIx) :
    HeaterMoves i h' (s.heater h') ((s.heaterTick h law).heater h') := by
  rcases heaterReady_or_guardFails s h with ⟨n, pv, mc, ready⟩ | fails
  · obtain ⟨-, -, -, -, positive⟩ := id ready
    obtain ⟨pid, cur⟩ := moves ready
    rw [heaterTick_law law ready]
    by_cases ins : Inside (s.heater h).tmin pv (s.heater h).tmax
    · exact heaterMoves_of_write (finishHeater_inside ins)
        ⟨.inl rfl, pid, .inl rfl, .inr cur, .inr ⟨_, codeOf_le _ _, rfl, rfl⟩⟩ h'
    · exact heaterMoves_of_write (finishHeater_outside positive ins)
        ⟨.inl rfl, pid, .inl rfl, .inr (.inr currentLegal_zeroF),
        .inr ⟨0, Nat.zero_le _, rfl, rfl⟩⟩ h'
  · rw [heaterTick_guard law fails]
    exact heaterMoves_of_write (guardOff_eq s h) (.off rfl rfl rfl rfl rfl rfl rfl) h'

theorem lawMoves_fixed {i : Instr} {s : State} {h : HeaterIx} {n : SensorIx} {pv mc : F32}
    (ready : HeaterReady s h n pv mc) : LawMoves i h (s.heater h) (fixedLaw (s.heater h) mc) := by
  obtain ⟨-, -, -, rfl, positive⟩ := ready
  exact ⟨.inl ⟨rfl, rfl⟩, .inr (currentLegal_currentOf _ _ positive)⟩

theorem lawMoves_pid {s : State} {h : HeaterIx} {n : SensorIx} {pv mc dt : F32} (u : TempUnit)
    (ready : HeaterReady s h n pv mc) :
    LawMoves (.htrTickPid h dt) h (s.heater h) (pidLaw (s.heater h) u dt pv mc) := by
  obtain ⟨-, above, finite, rfl, positive⟩ := ready
  refine ⟨.inr ⟨⟨dt, rfl⟩, ?_⟩, .inr (currentLegal_currentOf _ _ positive)⟩
  cases off : feq (s.heater h).ki zeroF
  · right
    simp only [pidLaw, off, Bool.false_eq_true, if_false]
    exact integralTerm_finiteNonNegative _ _ _ above finite positive
  · left
    simp only [pidLaw, off, if_true]

theorem lawMoves_direct (i : Instr) (h : HeaterIx) (c : Heater) : LawMoves i h c (directLaw c) :=
  ⟨.inl ⟨rfl, rfl⟩, .inl rfl⟩

theorem exec_stop {i : Instr} {s t : State} (stop : i = .setStopProgram ∨ i = .setExit)
    (ran : exec i s = .next t) : t = s.stop.respond .ok := by
  rcases stop with rfl | rfl
  · exact (Host.Outcome.next.inj ran).symm
  · exact (Host.Outcome.next.inj ran).symm

/-- A sensor index out of the store is at most 12 (20_memory.md R96). -/
theorem toNat_coerced_le (b : Byte) : (if b.toNat ≤ 12 then b else 0).toNat ≤ 12 := by
  split
  · assumption
  · decide

theorem toNat_index_le : ∀ n : Fin 13, (BitVec.ofNat 8 n.val).toNat ≤ 12 := by decide

theorem heaterMoves_load {s t : State} (ran : exec .load s = .next t) (h : HeaterIx) :
    HeaterMoves .load h (s.heater h) (t.heater h) := by
  obtain ⟨⟨-, ⟨same, -⟩, -⟩, loaded | ⟨-, -, htr, -⟩⟩ := bootLoad_cases (exec_load ran)
  · obtain ⟨-, ⟨config, -⟩, -⟩ := loaded
    obtain ⟨-, sns, -⟩ := config h
    obtain ⟨it, eprev, curCmd, cv, -, code, dac⟩ := same h
    exact ⟨.inr (sns ▸ toNat_coerced_le _), .inl ⟨it, eprev⟩, .inl curCmd, .inl cv, .inl ⟨code, dac⟩⟩
  · exact heaterMoves_of_htr htr h

/-- All that an operation can do to a heater channel. -/
theorem exec_heater {i : Instr} {s t : State} (ran : exec i s = .next t) (h : HeaterIx) :
    HeaterMoves i h (s.heater h) (t.heater h) := by
  cases i with
  | setDacMode h' n =>
    have e := (Host.Outcome.next.inj ran).symm
    by_cases disabled : n = .disabled
    · rw [e, if_pos disabled, State.heaterOff, State.outputZero, writeCode_setHeater, State.respond, emit_emit,
        heater_emit, heater_setHeater, heater_setHeater_same]
      split
      · rename_i same; subst same; exact .off rfl rfl rfl rfl rfl rfl rfl
      · rename_i other; rw [heater_setHeater_ne _ _ other]; exact .refl _ _ _
    · rw [if_neg disabled] at e
      exact heaterMoves_of_write e ⟨.inl rfl, .inl ⟨rfl, rfl⟩, .inl rfl, .inl rfl, .inl ⟨rfl, rfl⟩⟩ h
  | setDacSns h' n =>
    exact heaterMoves_of_write (Host.Outcome.next.inj ran).symm
      ⟨.inr (toNat_index_le n), .inl ⟨rfl, rfl⟩, .inl rfl, .inl rfl, .inl ⟨rfl, rfl⟩⟩ h
  | setDacCur h' x =>
    exact heaterMoves_of_write (Host.Outcome.next.inj ran).symm
      ⟨.inl rfl, .inl ⟨rfl, rfl⟩, .inr rfl, .inl rfl, .inl ⟨rfl, rfl⟩⟩ h
  | setDacSp h' x | setDacKp h' x | setDacKi h' x | setDacKd h' x | setDacRes h' x | setDacFp h' x
  | setDacTmax h' x | setDacTmin h' x =>
    exact heaterMoves_of_write (Host.Outcome.next.inj ran).symm
      ⟨.inl rfl, .inl ⟨rfl, rfl⟩, .inl rfl, .inl rfl, .inl ⟨rfl, rfl⟩⟩ h
  | htrTickDisabled h' =>
    obtain rfl := Host.Outcome.next.inj ran
    exact heaterMoves_of_write (guardOff_eq s h') (.off rfl rfl rfl rfl rfl rfl rfl) h
  | htrTickFixed h' =>
    obtain rfl := Host.Outcome.next.inj ran
    exact heaterMoves_tick (fun ready => lawMoves_fixed ready) h
  | htrTickPid h' dt =>
    obtain rfl := Host.Outcome.next.inj ran
    exact heaterMoves_tick (fun ready => lawMoves_pid _ ready) h
  | htrTickDirect h' =>
    obtain rfl := Host.Outcome.next.inj ran
    exact heaterMoves_tick (fun _ => lawMoves_direct _ _ _) h
  | setStopProgram | setExit =>
    have stopped := exec_stop (by decide) ran
    rw [stopped, heater_respond, State.stop, heater_setPhase, heater_allOutputsOff]
    exact .off rfl rfl rfl rfl rfl rfl rfl
  | setCommit =>
    have e := Host.Outcome.next.inj ((exec_setCommit s).symm.trans ran)
    exact heaterMoves_of_htr (by rw [← e, respond_htr, committed_htr]) h
  | load => exact heaterMoves_load ran h
  | setHpMode j n =>
    obtain rfl := Host.Outcome.next.inj ran
    refine heaterMoves_of_htr ?_ h
    split <;> rfl
  | hpTickDirect j =>
    obtain rfl := Host.Outcome.next.inj ran
    obtain ⟨b, drives⟩ := highPowerTick_drives s j fun c _ => c.cmd
    exact heaterMoves_of_htr (by rw [drives]; rfl) h
  | hpTickHyst j =>
    obtain rfl := Host.Outcome.next.inj ran
    obtain ⟨b, drives⟩ := highPowerTick_drives s j fun c pv => comparator c.sp c.hyst pv c.state
    exact heaterMoves_of_htr (by rw [drives]; rfl) h
  | _ =>
    obtain rfl := Host.Outcome.next.inj ran
    exact heaterMoves_of_htr rfl h

/-! ### A high-power channel -/

/-- What operation `i` can make of the assignment and the commanded state of channel `j`. -/
structure HighPowerMoves (i : Instr) (j : HpIx) (c d : HighPower) : Prop where
  sns : d.sns = c.sns ∨ d.sns.toNat ≤ 12
  cmd : d.cmd = c.cmd ∨ i = .setHpState j d.cmd

theorem HighPowerMoves.refl (i : Instr) (j : HpIx) (c : HighPower) : HighPowerMoves i j c c :=
  ⟨.inl rfl, .inl rfl⟩

theorem highPowerMoves_of_hp {i : Instr} {s t : State} (e : t.hp = s.hp) (j : HpIx) :
    HighPowerMoves i j (s.highPower j) (t.highPower j) := by
  have same : t.highPower j = s.highPower j := by rw [State.highPower, e]; rfl
  rw [same]
  exact .refl i j _

theorem highPowerMoves_of_write {i : Instr} {s t : State} {j : HpIx} {c : HighPower} {as : List Action}
    (e : t = (s.setHighPower j c).emit as) (m : HighPowerMoves i j (s.highPower j) c) (j' : HpIx) :
    HighPowerMoves i j' (s.highPower j') (t.highPower j') := by
  rw [e, highPower_emit, highPower_setHighPower]
  split
  · rename_i same; subst same; exact m
  · exact .refl i j' _

theorem highPowerMoves_tick (i : Instr) (s : State) (j : HpIx) (law : HighPower → F32 → Bool) (j' : HpIx) :
    HighPowerMoves i j' (s.highPower j') ((s.highPowerTick j law).highPower j') := by
  obtain ⟨b, drives⟩ := highPowerTick_drives s j law
  exact highPowerMoves_of_write drives ⟨.inl rfl, .inl rfl⟩ j'

theorem highPowerMoves_load {s t : State} (ran : exec .load s = .next t) (j : HpIx) :
    HighPowerMoves .load j (s.highPower j) (t.highPower j) := by
  obtain ⟨⟨-, ⟨-, same, -⟩, -⟩, loaded | ⟨-, -, -, hp, -⟩⟩ := bootLoad_cases (exec_load ran)
  · obtain ⟨-, ⟨-, config, -⟩, -⟩ := loaded
    obtain ⟨-, sns, -⟩ := config j
    exact ⟨.inr (sns ▸ toNat_coerced_le _), .inl (same j).1⟩
  · exact highPowerMoves_of_hp hp j

theorem hp_heaterTick (s : State) (h : HeaterIx) (law : Heater → TempUnit → F32 → F32 → LawResult) :
    (s.heaterTick h law).hp = s.hp := by
  obtain ⟨it, eprev, pwr, cv, code, -, e⟩ := heaterTick_writes s h law
  rw [e]
  rfl

/-- All that an operation can do to a high-power channel's assignment and commanded state. -/
theorem exec_highPower {i : Instr} {s t : State} (ran : exec i s = .next t) (j : HpIx) :
    HighPowerMoves i j (s.highPower j) (t.highPower j) := by
  cases i with
  | setHpMode j' n =>
    have e := (Host.Outcome.next.inj ran).symm
    by_cases disabled : n = .disabled
    · rw [e, if_pos disabled, State.driveHp, State.respond, emit_emit, highPower_emit, highPower_setHighPower,
        highPower_setHighPower_same]
      split
      · rename_i same; subst same; exact ⟨.inl rfl, .inl rfl⟩
      · rename_i other; rw [highPower_setHighPower_ne _ _ other]; exact .refl _ _ _
    · rw [if_neg disabled] at e
      exact highPowerMoves_of_write e ⟨.inl rfl, .inl rfl⟩ j
  | setHpSns j' n =>
    exact highPowerMoves_of_write (Host.Outcome.next.inj ran).symm
      ⟨.inr (toNat_index_le n), .inl rfl⟩ j
  | setHpState j' b =>
    exact highPowerMoves_of_write (Host.Outcome.next.inj ran).symm
      ⟨.inl rfl, .inr rfl⟩ j
  | setHpSp j' x | setHpHyst j' x | setHpTmax j' x | setHpTmin j' x =>
    exact highPowerMoves_of_write (Host.Outcome.next.inj ran).symm
      ⟨.inl rfl, .inl rfl⟩ j
  | hpTickDisabled j' =>
    exact highPowerMoves_of_write (Host.Outcome.next.inj ran).symm
      ⟨.inl rfl, .inl rfl⟩ j
  | hpTickDirect j' | hpTickHyst j' =>
    obtain rfl := Host.Outcome.next.inj ran
    exact highPowerMoves_tick _ s j' _ j
  | setStopProgram | setExit =>
    have stopped := exec_stop (by decide) ran
    rw [stopped, highPower_respond, State.stop, highPower_setPhase, highPower_allOutputsOff]
    exact ⟨.inl rfl, .inl rfl⟩
  | setCommit =>
    have e := Host.Outcome.next.inj ((exec_setCommit s).symm.trans ran)
    exact highPowerMoves_of_hp (by rw [← e, respond_hp, committed_hp]) j
  | load => exact highPowerMoves_load ran j
  | setDacMode h' n =>
    obtain rfl := Host.Outcome.next.inj ran
    refine highPowerMoves_of_hp ?_ j
    split <;> rfl
  | htrTickFixed h' | htrTickPid h' dt | htrTickDirect h' =>
    obtain rfl := Host.Outcome.next.inj ran
    exact highPowerMoves_of_hp (hp_heaterTick s h' _) j
  | _ =>
    obtain rfl := Host.Outcome.next.inj ran
    exact highPowerMoves_of_hp rfl j

/-! ### Who writes what -/

/-- Settles O46: the one operation that may write the PID state of a channel is its PID tick. -/
theorem pidStateWrittenByPidOnly : Obligations.PidStateWrittenByPidOnly := fun _ _ _ h ran notPid =>
  (exec_heater ran h).pid.resolve_right fun ⟨⟨dt, isPid⟩, _⟩ => notPid dt isPid

/-- Settles O47: the one operation that may write a commanded register is its setter. -/
theorem commandedRegistersWrittenBySetOnly : Obligations.CommandedRegistersWrittenBySetOnly := fun _ _ _ ran =>
  ⟨fun h notSet => (exec_heater ran h).curCmd.resolve_right (notSet _),
    fun j notSet => (exec_highPower ran j).cmd.resolve_right (notSet _)⟩

/-! ### Registers in range -/

/-- The commanded current a line sets is in its range (30_encoding.md R120). -/
theorem currentLegal_of_decode {src : Source} {h : HeaterIx} {x : F32}
    (decoded : decode src = .ok (.setDacCur h x)) : currentLegal x = true := by
  cases src with
  | wire line =>
    cases d : decodeLine line with
    | error r => rw [decode, d] at decoded; cases decoded
    | ok i =>
      rw [decode, d] at decoded
      obtain rfl : i = .setDacCur h x := by cases decoded; rfl
      refine decodeLine_forall (P := fun i => ∀ h x, i = .setDacCur h x → currentLegal x = true)
        (by simp) ?set ?get d h x rfl
      case set => simp +contextual [setTable, HandlerGives, upTo, inRange, currentLegal_iff]
      case get => simp [getTable, HandlerGives]
  | heaterMode h' dt code =>
    simp only [decode, decodeHeaterMode] at decoded
    split_ifs at decoded <;> cases decoded
  | hpMode j code =>
    simp only [decode, decodeHpMode] at decoded
    split_ifs at decoded <;> cases decoded
  | phase code =>
    simp only [decode, decodePhase] at decoded
    split_ifs at decoded
    cases decoded

theorem heaterLegal_of_moves {i : Instr} {h : HeaterIx} {c d : Heater} (legal : HeaterLegal c)
    (moves : HeaterMoves i h c d) (set : i = .setDacCur h d.curCmd → currentLegal d.curCmd = true) :
    HeaterLegal d := by
  obtain ⟨sns, it, curCmd, cv, code, dac⟩ := legal
  refine ⟨?_, ?_, ?_, ?_, ?_⟩
  · rcases moves.sns with e | le
    · rwa [e]
    · exact le
  · rcases moves.pid with ⟨e, -⟩ | ⟨-, e | finite⟩
    · rwa [e]
    · rwa [e]
    · exact finite
  · rcases moves.curCmd with e | e
    · rwa [e]
    · exact set e
  · rcases moves.cv with e | e | current
    · rwa [e]
    · rwa [e]
    · exact current
  · rcases moves.output with ⟨e, e'⟩ | ⟨n, le, e, e'⟩
    · rw [e, e']; exact ⟨code, dac⟩
    · rw [e, e', toNat_ofNat_code le]; exact ⟨le, rfl⟩

theorem heaterLegal_reset : HeaterLegal Heater.reset :=
  ⟨by decide, by decide, currentLegal_zeroF, currentLegal_zeroF, by decide, by decide⟩

theorem heater_applyReset (s : State) (h : HeaterIx) : s.applyReset.heater h = Heater.reset := by
  fin_cases h <;> rfl

theorem highPower_applyReset (s : State) (j : HpIx) : s.applyReset.highPower j = HighPower.reset := by
  fin_cases j <;> rfl

theorem registersLegal_kept : KeptByParts RegistersLegal where
  edge e hs := ⟨fun h => by rw [e.heater]; exact hs.1 h, fun j => by rw [e.highPower]; exact hs.2 j⟩
  operation _ decoded hs ran := by
    refine ⟨fun h => heaterLegal_of_moves (hs.1 h) (exec_heater ran h) fun set => ?_, fun j => ?_⟩
    · exact currentLegal_of_decode (set ▸ decoded)
    · rcases (exec_highPower ran j).sns with e | le
      · rw [e]; exact hs.2 j
      · exact le
  response _ hs := hs
  strobe _ hs := hs
  reset _ _ :=
    ⟨fun h => by rw [heater_applyReset]; exact heaterLegal_reset,
      fun j => by rw [highPower_applyReset]; decide⟩

/-- Settles O59: an operation writes a register with a value of its range, the commanded current because the
decoder has checked it. -/
theorem stepKeepsRegistersLegal : Obligations.StepKeepsRegistersLegal :=
  fun _ _ => registersLegal_kept.step

/-! ### Lawful inputs -/

/-- Every stored sample is `NA` or finite (10_state.md R47). -/
def SamplesLawful (s : State) : Prop := ∀ n, lawfulSample (s.sensor n).temp = true

theorem EdgeOnly.sensor {s t : State} (e : EdgeOnly s t) (n : SensorIx) : t.sensor n = s.sensor n := by
  rw [State.sensor, e.sns]; rfl

/-- An operation keeps a sample or discards it. -/
theorem exec_temp {i : Instr} {s t : State} (ran : exec i s = .next t) (n : SensorIx) :
    (t.sensor n).temp = (s.sensor n).temp ∨ (t.sensor n).temp = none := by
  rcases exec_shape ran with ⟨h', c, as, rfl, -⟩ | ⟨j, c, as, rfl, -⟩ | ⟨m, c, discarded, rfl⟩ |
    (⟨key, v, rfl⟩ | rfl) | ⟨-, rfl⟩ | ⟨-, rfl⟩ | ⟨-, boot⟩
  · exact .inl rfl
  · exact .inl rfl
  · rw [sensor_emit, sensor_setSensor]
    split
    · exact .inr discarded
    · exact .inl rfl
  · exact .inl rfl
  · exact .inl rfl
  · left; rw [sensor_respond, State.sensor, stop_sns]; rfl
  · left; rw [sensor_respond, sensor_committed]
  · obtain ⟨⟨-, ⟨-, -, same⟩, -⟩, -⟩ := bootLoad_cases boot
    exact .inl (same n)

theorem lawfulSample_of_strobe {dt : F32} {samp : Vector OptF32 12} (lawful : lawfulStrobe dt samp = true)
    (n : SensorIx) : lawfulSample samp[n] = true := by
  simp only [lawfulStrobe, Bool.and_eq_true, List.all_eq_true] at lawful
  exact lawful.2 _ (by simp [Vector.mem_toList_iff])

theorem sensor_startTick (s : State) (dt : F32) (samp : Vector OptF32 12) (n : SensorIx) :
    (s.startTick dt samp).sensor n =
      { s.sensor n with temp := resolveSample (s.sensor n).type samp[n] } := by
  simp [State.sensor, State.startTick]

theorem samplesLawful_kept : KeptByParts SamplesLawful where
  edge e hs := fun n => by rw [e.sensor]; exact hs n
  operation _ _ hs ran := fun n => by
    rcases exec_temp ran n with e | e
    · rw [e]; exact hs n
    · rw [e]; rfl
  response _ hs := hs
  strobe lawful _ := fun n => by
    rw [sensor_startTick]
    show lawfulSample (resolveSample _ _) = true
    unfold resolveSample
    split
    · rfl
    · exact lawfulSample_of_strobe lawful n
  reset _ _ := fun n => by fin_cases n <;> rfl

/-- The `dt` of a Tick in progress is lawful (10_state.md R48). -/
def DtLawful (s : State) : Prop := ∀ job, s.tick = some job → wfDt job.dt = true

theorem dtLawful_accept {s : State} (hs : DtLawful s) (src : Source) : DtLawful (s.accept src) := by
  cases src with
  | wire line =>
    simp only [State.accept]
    split
    · exact hs
    · exact hs
  | phase code => exact hs
  | heaterMode h dt code | hpMode j code =>
    simp only [State.accept]
    split
    · rename_i inProgress
      intro job e
      obtain rfl := Option.some.inj e
      have lawful := hs _ inProgress
      exact lawful
    · exact hs

theorem dtLawful_settle {s : State} (hs : DtLawful s) : DtLawful s.settle := by
  unfold State.settle
  split
  · exact nofun
  · exact hs

theorem dtLawful_stepWhole {s t : State} (hs : DtLawful s) (h : s.stepWhole = .next t) : DtLawful t := by
  rcases stepWhole_cases h with ⟨src, i, u, -, -, ran, rfl⟩ | ⟨src, r, -, -, rfl⟩ | ⟨-, stimulus⟩
  · obtain ⟨-, -, -, tick, -⟩ := exec_edge ran
    refine dtLawful_settle fun job e => ?_
    exact dtLawful_accept hs src job (tick ▸ e)
  · exact dtLawful_accept hs src
  · rcases stimulate_cases stimulus with ⟨-, rfl⟩ | ⟨x, rest, -, presented⟩
    · exact hs
    · rcases presented with ⟨-, rfl⟩ | ⟨-, rfl⟩ | ⟨_, -, rfl⟩ | ⟨_, _, -, rfl⟩ |
        ⟨dt, samp, -, ⟨-, rfl⟩ | ⟨-, lawful, rfl⟩⟩
      case inl => exact nofun
      case inr.inr.inr.inr.inr =>
        intro job e
        obtain rfl := Option.some.inj e
        simp only [lawfulStrobe, Bool.and_eq_true] at lawful
        exact lawful.1
      all_goals exact hs

theorem dtLawful_step {s t : State} (hs : DtLawful s) (h : step s = .next t) : DtLawful t := by
  obtain ⟨u, whole, rfl⟩ := step_next h
  have hu := dtLawful_stepWhole hs whole
  rcases strike_cases s u with e | ⟨n, e⟩ | ⟨n, -, e⟩
  · rwa [e]
  · rw [e]; exact hu
  · rw [e]; exact nofun

/-- Settles O60: samples come from lawful strobes only and are else kept or discarded, and a Tick keeps the
`dt` of its strobe. -/
theorem stepKeepsInputsLawful : Obligations.StepKeepsInputsLawful := fun _ _ lawful h =>
  ⟨samplesLawful_kept.step lawful.1 h, dtLawful_step lawful.2 h⟩

end Sys2Proof.Machine
end

section
/-! PROOFS. The commands of 44_cmd_set.md and 45_cmd_get.md, each as the write of one channel and an answer:
the frame of a write inside its channel, and the frame of the answer. -/

namespace Sys2Proof.Machine

open Sys2Proof

/-! ### The frame of a channel that was written -/

theorem changes_setHeater {s : State} {h : HeaterIx} {c : Heater} {rs : List Reg} (as : List Action)
    (frame : ∀ f, Reg.heater h f ∉ rs → readHeaterReg c f = readHeaterReg (s.heater h) f) :
    Changes rs as s ((s.setHeater h c).emit as) :=
  ⟨regsKept_emit.2 (regsKept_setHeater frame), fun _ => rfl, ⟨rfl, rfl, rfl, rfl, rfl, rfl, rfl⟩, rfl⟩

theorem changes_setHighPower {s : State} {j : HpIx} {c : HighPower} {rs : List Reg} (as : List Action)
    (frame : ∀ f, Reg.highPower j f ∉ rs → readHpReg c f = readHpReg (s.highPower j) f) :
    Changes rs as s ((s.setHighPower j c).emit as) :=
  ⟨regsKept_emit.2 (regsKept_setHighPower frame), fun _ => rfl, ⟨rfl, rfl, rfl, rfl, rfl, rfl, rfl⟩, rfl⟩

theorem changes_setSensor {s : State} {n : SensorIx} {c : Sensor} {rs : List Reg} (as : List Action)
    (frame : ∀ f, Reg.sensor n f ∉ rs → readSensorReg c f = readSensorReg (s.sensor n) f) :
    Changes rs as s ((s.setSensor n c).emit as) :=
  ⟨regsKept_emit.2 (regsKept_setSensor frame), fun _ => rfl, ⟨rfl, rfl, rfl, rfl, rfl, rfl, rfl⟩, rfl⟩

/-! ### A setter of one register (R260) -/

theorem setsOnly_heater {i : Instr} {s : State} {h : HeaterIx} {c : Heater} {f : HeaterReg} {v : RegVal}
    (ran : exec i s = .next (s.setHeaterOk h c)) (value : readHeaterReg c f = v)
    (frame : ∀ g, g ≠ f → readHeaterReg c g = readHeaterReg (s.heater h) g) :
    SetsOnly i (.heater h f) v s := by
  refine ⟨_, ran, ?_, changes_setHeater _ fun g other => frame g (by simpa using other)⟩
  rw [State.setHeaterOk, readReg_respond, readReg_setHeater]
  simpa using value

theorem setsOnly_highPower {i : Instr} {s : State} {j : HpIx} {c : HighPower} {f : HpReg} {v : RegVal}
    (ran : exec i s = .next (s.setHighPowerOk j c)) (value : readHpReg c f = v)
    (frame : ∀ g, g ≠ f → readHpReg c g = readHpReg (s.highPower j) g) :
    SetsOnly i (.highPower j f) v s := by
  refine ⟨_, ran, ?_, changes_setHighPower _ fun g other => frame g (by simpa using other)⟩
  rw [State.setHighPowerOk, readReg_respond, readReg_setHighPower]
  simpa using value

/-- Channel `c` with `x` in the number register `f` that a command sets. -/
def Heater.withNumber (c : Heater) (f : HeaterReg) (x : F32) : Heater :=
  match f with
  | .sp => { c with sp := x }
  | .kp => { c with kp := x }
  | .ki => { c with ki := x }
  | .kd => { c with kd := x }
  | .res => { c with res := x }
  | .fp => { c with fp := x }
  | .tmax => { c with tmax := x }
  | .tmin => { c with tmin := x }
  | .curCmd => { c with curCmd := x }
  | _ => c

/-- A number written leaves the other registers of its channel. -/
theorem readHeaterReg_withNumber_of_ne {f g : HeaterReg} (other : g ≠ f) (c : Heater) (x : F32) :
    readHeaterReg (c.withNumber f x) g = readHeaterReg c g := by
  cases f with
  | sp | kp | ki | kd | res | fp | tmax | tmin | curCmd =>
    cases g <;> simp_all [readHeaterReg, Heater.withNumber]
  | _ => rfl

theorem setsOnly_number {i : Instr} {s : State} {h : HeaterIx} {x : F32} (f : HeaterReg)
    (ran : exec i s = .next (s.setHeaterOk h ((s.heater h).withNumber f x)))
    (value : readHeaterReg ((s.heater h).withNumber f x) f = .real x) : SetsOnly i (.heater h f) (.real x) s :=
  setsOnly_heater ran value fun _ other => readHeaterReg_withNumber_of_ne other _ _

/-- Settles O22: each of the nine writes its number and answers. -/
theorem heaterNumberSetters : Obligations.HeaterNumberSetters := fun _ _ _ =>
  ⟨setsOnly_number .sp rfl rfl, setsOnly_number .kp rfl rfl, setsOnly_number .ki rfl rfl,
    setsOnly_number .kd rfl rfl, setsOnly_number .res rfl rfl, setsOnly_number .fp rfl rfl,
    setsOnly_number .tmax rfl rfl, setsOnly_number .tmin rfl rfl, setsOnly_number .curCmd rfl rfl⟩

/-- Channel `c` with its register `f` as a command sets it to `v`. -/
def HighPower.withReg (c : HighPower) (f : HpReg) (v : RegVal) : HighPower :=
  match f, v with
  | .mode, .hpMode n => { c with mode := n }
  | .sns, .byte n => { c with sns := n }
  | .sp, .real x => { c with sp := x }
  | .hyst, .real x => { c with hyst := x }
  | .tmax, .real x => { c with tmax := x }
  | .tmin, .real x => { c with tmin := x }
  | .cmd, .bit b => { c with cmd := b }
  | _, _ => c

theorem readHpReg_withReg_of_ne {f g : HpReg} (other : g ≠ f) (c : HighPower) (v : RegVal) :
    readHpReg (c.withReg f v) g = readHpReg c g := by
  unfold HighPower.withReg
  split
  case h_8 => rfl
  all_goals cases g <;> simp_all [readHpReg]

theorem setsOnly_hpReg {i : Instr} {s : State} {j : HpIx} {v : RegVal} (f : HpReg)
    (ran : exec i s = .next (s.setHighPowerOk j ((s.highPower j).withReg f v)))
    (value : readHpReg ((s.highPower j).withReg f v) f = v) : SetsOnly i (.highPower j f) v s :=
  setsOnly_highPower ran value fun _ other => readHpReg_withReg_of_ne other _ _

/-- Settles O24: each of the five writes its register and answers; none is `state`, the actuator's. -/
theorem highPowerSetters : Obligations.HighPowerSetters := fun _ _ =>
  ⟨fun _ => ⟨setsOnly_hpReg .sp rfl rfl, setsOnly_hpReg .hyst rfl rfl, setsOnly_hpReg .tmax rfl rfl,
    setsOnly_hpReg .tmin rfl rfl⟩, fun _ => setsOnly_hpReg .cmd rfl rfl⟩

theorem readHeaterReg_sns_of_ne {g : HeaterReg} (other : g ≠ .sns) (c : Heater) (b : Byte) :
    readHeaterReg { c with sns := b } g = readHeaterReg c g := by
  cases g with
  | sns => exact absurd rfl other
  | _ => rfl

/-- Settles O23: both write the index and answer. -/
theorem assignmentSetters : Obligations.AssignmentSetters := fun _ _ =>
  ⟨fun _ => setsOnly_heater rfl rfl fun _ other => readHeaterReg_sns_of_ne other _ _,
    fun _ => setsOnly_hpReg .sns rfl rfl⟩

/-! ### The mode of a channel (R261, R272) -/

theorem readHeaterReg_mode_of_ne {g : HeaterReg} (other : g ≠ .mode) (c : Heater) (n : HeaterMode) :
    readHeaterReg { c with mode := n } g = readHeaterReg c g := by
  cases g with
  | mode => exact absurd rfl other
  | _ => rfl

theorem exec_setDacMode_active {n : HeaterMode} (active : n ≠ .disabled) (h : HeaterIx) (s : State) :
    exec (.setDacMode h n) s = .next (s.setHeaterOk h { s.heater h with mode := n }) := by
  simp [exec, execSetDacMode, active, State.setHeaterOk]

/-- Channel `c` disabled: no current, a zero output. -/
def Heater.disabled (c : Heater) : Heater :=
  { c with mode := .disabled, cv := zeroF, code := BitVec.ofNat 19 0, dac := subCodes 0 }

theorem readHeaterReg_disabled {h : HeaterIx} {f : HeaterReg}
    (kept : Reg.heater h f ∉ [Reg.heater h .mode, .heater h .cv] ++ outputRegs h) (c : Heater) :
    readHeaterReg c.disabled f = readHeaterReg c f := by
  cases f with
  | mode | cv | code => exact absurd (by simp [outputRegs]) kept
  | dac k => fin_cases k <;> exact absurd (by simp [outputRegs]) kept
  | _ => rfl

theorem exec_setDacMode_disabled (h : HeaterIx) (s : State) :
    exec (.setDacMode h .disabled) s =
      .next ((s.setHeater h (s.heater h).disabled).emit (dacActions h 0 ++ [.resp s.conn .ok])) := by
  simp only [exec, execSetDacMode, if_true, State.heaterOff, State.outputZero, writeCode_setHeater, State.respond,
    emit_emit, heater_setHeater_same]
  simp [State.setHeater, Heater.disabled]

/-- Settles O25: an active mode is a plain setter; DISABLED is the write of the channel with its output off. -/
theorem setDacModeZeroesWhenDisabled : Obligations.SetDacModeZeroesWhenDisabled := by
  intro h s
  refine ⟨fun n active => ?_, _, exec_setDacMode_disabled h s, ?_⟩
  · exact setsOnly_heater (exec_setDacMode_active active h s) rfl fun _ other =>
      readHeaterReg_mode_of_ne other _ _
  · rw [heater_emit, heater_setHeater_same]
    exact ⟨rfl, rfl, outputIs_writeCode (c := (s.heater h).disabled) (Nat.zero_le _),
      changes_setHeater _ fun f kept => readHeaterReg_disabled kept _⟩

theorem exec_setHpMode_active {n : HpMode} (active : n ≠ .disabled) (j : HpIx) (s : State) :
    exec (.setHpMode j n) s = .next (s.setHighPowerOk j { s.highPower j with mode := n }) := by
  simp [exec, execSetHpMode, active, State.setHighPowerOk]

theorem exec_setHpMode_disabled (j : HpIx) (s : State) :
    exec (.setHpMode j .disabled) s =
      .next ((s.setHighPower j { s.highPower j with mode := .disabled, state := false }).emit
        ([.hp j false] ++ [.resp s.conn .ok])) := by
  simp only [exec, execSetHpMode, if_true, State.driveHp, State.respond, emit_emit, highPower_setHighPower_same]
  simp [State.setHighPower]

theorem readHpReg_disabled {j : HpIx} {f : HpReg}
    (kept : Reg.highPower j f ∉ [Reg.highPower j .mode, .highPower j .state])
    (c : HighPower) : readHpReg { c with mode := .disabled, state := false } f = readHpReg c f := by
  cases f with
  | mode | state => exact absurd (by simp) kept
  | _ => rfl

/-- Settles O26: an active mode is a plain setter; DISABLED is the write of the channel with its actuator off. -/
theorem setHpModeTurnsOffWhenDisabled : Obligations.SetHpModeTurnsOffWhenDisabled := by
  intro j s
  refine ⟨fun n active => ?_, _, exec_setHpMode_disabled j s, ?_⟩
  · exact setsOnly_hpReg .mode (exec_setHpMode_active active j s) rfl
  · rw [highPower_emit, highPower_setHighPower_same]
    exact ⟨rfl, rfl, changes_setHighPower _ fun f kept => readHpReg_disabled kept _⟩

/-! ### The sensor setters (R279, R280) -/

theorem readSensorReg_type {n : SensorIx} {f : SensorReg}
    (kept : Reg.sensor n f ∉ [Reg.sensor n .type, .sensor n .temp])
    (c : Sensor) (ty : SensorType) : readSensorReg { c with type := ty, temp := none } f = readSensorReg c f := by
  cases f with
  | type | temp => exact absurd (by simp) kept
  | units => rfl

theorem readSensorReg_units {n : SensorIx} {f : SensorReg}
    (kept : Reg.sensor n f ∉ [Reg.sensor n .units, .sensor n .temp])
    (c : Sensor) (u : TempUnit) : readSensorReg { c with units := u, temp := none } f = readSensorReg c f := by
  cases f with
  | units | temp => exact absurd (by simp) kept
  | type => rfl

theorem exec_setSnsType (n : SensorIx) (ty : SensorType) (s : State) :
    exec (.setSnsType n ty) s =
      .next ((s.setSensor n { s.sensor n with type := ty, temp := none }).emit [.resp s.conn .ok]) := rfl

theorem exec_setSnsUnits (n : SensorIx) (u : TempUnit) (s : State) :
    exec (.setSnsUnits n u) s =
      .next ((s.setSensor n { s.sensor n with units := u, temp := none }).emit [.resp s.conn .ok]) := rfl

/-- Settles O27: each writes its register and the sample, in one write of the channel. -/
theorem sensorSettersDiscardSample : Obligations.SensorSettersDiscardSample := by
  intro n s
  refine ⟨fun ty => ⟨_, exec_setSnsType n ty s, ?_⟩, fun u => ⟨_, exec_setSnsUnits n u s, ?_⟩⟩
  · rw [sensor_emit, sensor_setSensor_same]
    exact ⟨rfl, rfl, changes_setSensor _ fun f kept => readSensorReg_type kept _ _⟩
  · rw [sensor_emit, sensor_setSensor_same]
    exact ⟨rfl, rfl, changes_setSensor _ fun f kept => readSensorReg_units kept _ _⟩

/-! ### The stop commands (R283, R284) -/

/-- The registers a stop writes. -/
def stopRegs : List Reg :=
  .phase :: ([0, 1, 2, 3] : List HeaterIx).flatMap (fun h => .heater h .cv :: outputRegs h) ++
    [.highPower 0 .state, .highPower 1 .state]

theorem mem_stopRegs_heater (h : HeaterIx) {f : HeaterReg}
    (m : Reg.heater h f ∈ Reg.heater h .cv :: outputRegs h) : Reg.heater h f ∈ stopRegs := by
  have listed : ∀ h, h ∈ ([0, 1, 2, 3] : List HeaterIx) := by decide
  exact List.mem_append_left _ (List.mem_cons_of_mem _ (List.mem_flatMap.2 ⟨h, listed h, m⟩))

theorem mem_stopRegs_highPower (j : HpIx) : Reg.highPower j .state ∈ stopRegs := by revert j; decide

theorem heater_stop (s : State) (h : HeaterIx) :
    s.stop.heater h = { s.heater h with cv := zeroF, code := 0, dac := subCodes 0 } := heater_allOutputsOff s h

theorem highPower_stop (s : State) (j : HpIx) : s.stop.highPower j = { s.highPower j with state := false } :=
  highPower_allOutputsOff s j

/-- The frame of a stop. -/
theorem regsKept_stop (s : State) : RegsKept stopRegs s s.stop := by
  intro r kept
  cases r with
  | phase => exact absurd (by decide) kept
  | heater h f =>
    rw [State.readReg, heater_stop]
    cases f with
    | cv | code => exact absurd (mem_stopRegs_heater h (by simp [outputRegs])) kept
    | dac k => fin_cases k <;> exact absurd (mem_stopRegs_heater h (by simp [outputRegs])) kept
    | _ => rfl
  | highPower j f =>
    rw [State.readReg, highPower_stop]
    cases f with
    | state => exact absurd (mem_stopRegs_highPower j) kept
    | _ => rfl
  | sensor n f => rw [State.readReg, State.sensor, stop_sns]; rfl

/-- The four writes of a zero output. -/
theorem outputActions_of_zero {h : HeaterIx} {c : Heater} (zero : c.dac = subCodes 0) :
    outputActions h c = zeroDacActions h := by
  rw [outputActions, zero]
  rfl

/-- The actions of Reset and of a stop, as writes of the output registers when these are zero. -/
theorem resetActions_eq {c : HeaterIx → Heater} (zero : ∀ h, (c h).dac = subCodes 0) :
    resetActions = outputActions 0 (c 0) ++ outputActions 1 (c 1) ++ outputActions 2 (c 2) ++
      outputActions 3 (c 3) ++ [.hp 0 false, .hp 1 false] := by
  simp only [outputActions_of_zero (zero _), resetActions]

theorem changes_stop (s : State) :
    Changes stopRegs (resetActions ++ [.resp s.conn .ok]) s (s.stop.respond .ok) := by
  refine ⟨regsKept_respond.2 (regsKept_stop s), fun a => ?_, ?_, ?_⟩
  · rw [respond_nvm, stop_nvm]
  · simp [EdgeKept]
  · rw [respond_log, stop_log, allOutputsOff_log, stop_conn, List.append_assoc]

theorem exec_stop_next {i : Instr} (stop : i = .setStopProgram ∨ i = .setExit) (s : State) :
    exec i s = .next (s.stop.respond .ok) := by
  rcases stop with rfl | rfl
  · rfl
  · rfl

/-- Settles O28: both are the stop handler and its answer. -/
theorem stopTurnsEverythingOff : Obligations.StopTurnsEverythingOff := by
  intro i s stop
  refine ⟨_, exec_stop_next stop s, rfl, outputsOff_respond .ok (outputsOff_stop s), ?_⟩
  have actions := resetActions_eq (c := (s.stop.respond .ok).heater) fun h => by
    rw [heater_respond, heater_stop]
  have changes := changes_stop s
  rw [actions, List.append_assoc] at changes
  exact changes

/-! ### `q` and the getters (43_cmd_dispatch.md R232, 45_cmd_get.md R300) -/

/-- Settles O29: the one action of `q` is its `Close`. -/
theorem qClosesConnection : Obligations.QClosesConnection := fun s =>
  ⟨s.emit [.close s.conn], rfl, regsKept_emit.2 fun _ _ => rfl, fun _ => rfl,
    ⟨rfl, rfl, rfl, rfl, rfl, rfl, rfl⟩, rfl⟩

theorem answers_of_exec {i : Instr} {key : String} {v : Value} {s : State}
    (ran : exec i s = .next (s.answer key v)) : Answers i key v s :=
  ⟨_, ran, changes_respond s (.value (ascii key) v)⟩

/-- Settles O30: every getter is the answer with its key and register. -/
theorem gettersAnswerTheirRegister : Obligations.GettersAnswerTheirRegister := fun _ =>
  ⟨fun _ => ⟨answers_of_exec rfl, answers_of_exec rfl, answers_of_exec rfl, answers_of_exec rfl,
      answers_of_exec rfl, answers_of_exec rfl, answers_of_exec rfl, answers_of_exec rfl, answers_of_exec rfl,
      answers_of_exec rfl, answers_of_exec rfl, answers_of_exec rfl, answers_of_exec rfl⟩,
    fun _ => ⟨answers_of_exec rfl, answers_of_exec rfl, answers_of_exec rfl, answers_of_exec rfl,
      answers_of_exec rfl, answers_of_exec rfl, answers_of_exec rfl⟩,
    fun _ => ⟨answers_of_exec rfl, answers_of_exec rfl, answers_of_exec rfl⟩⟩

/-! ### The bytes of the answers -/

/-- Settles O31: each reply is rendered to its bytes. -/
theorem answerTexts : Obligations.AnswerTexts := by
  refine ⟨?_, ?_, ?_, ?_, ?_, ?_, ?_, ?_, ?_, ?_⟩ <;> decide

end Sys2Proof.Machine
end

section
/-! PROOFS. The heater tick in an active mode (40_heater_control.md R151 to R166): the guards, the laws, the
interlock, and the bounds of the accumulator and of the current. -/

namespace Sys2Proof.Machine

open Sys2Proof

/-! ### The two ways of an active channel's tick, for any law -/

/-- A guard fails (R152): the law is skipped. -/
theorem heaterTickGives_guard {i : Instr} {s : State} {h : HeaterIx}
    {law : Heater → TempUnit → F32 → F32 → LawResult} (ran : exec i s = .next (s.heaterTick h law))
    (fails : HeaterGuardFails s h) :
    HeaterTickGives i h (s.heater h).it (s.heater h).eprev zeroF zeroF 0 s :=
  heaterTickGives_of_exec (Nat.zero_le _) (by rw [ran, heaterTick_guard law fails, guardOff_eq_tickedHeater])

/-- The guards hold: the law's results are stored, and its current where the sample is inside the bounds
(R151, R159). -/
theorem heaterTickGives_law {i : Instr} {s : State} {h : HeaterIx} {n : SensorIx} {pv mc : F32} {r : LawResult}
    {law : Heater → TempUnit → F32 → F32 → LawResult} (ran : exec i s = .next (s.heaterTick h law))
    (ready : HeaterReady s h n pv mc) (result : law (s.heater h) (s.sensor n).units pv mc = r) :
    (Inside (s.heater h).tmin pv (s.heater h).tmax →
      HeaterTickGives i h r.it r.eprev r.pw r.cur (codeOf r.cur mc) s) ∧
    (¬Inside (s.heater h).tmin pv (s.heater h).tmax → HeaterTickGives i h r.it r.eprev r.pw zeroF 0 s) := by
  have run : exec i s = .next (s.finishHeater h pv mc r) := by rw [ran, heaterTick_law law ready, result]
  obtain ⟨-, -, -, -, positive⟩ := ready
  exact ⟨fun ins => heaterTickGives_of_exec (codeOf_le _ _) (by rw [run, finishHeater_inside ins]; rfl),
    fun out => heaterTickGives_of_exec (Nat.zero_le _) (by rw [run, finishHeater_outside positive out]; rfl)⟩

theorem exec_htrTickFixed (h : HeaterIx) (s : State) :
    exec (.htrTickFixed h) s = .next (s.heaterTick h fun c _ _ mc => fixedLaw c mc) := rfl

theorem exec_htrTickPid (h : HeaterIx) (dt : F32) (s : State) :
    exec (.htrTickPid h dt) s = .next (s.heaterTick h fun c u pv mc => pidLaw c u dt pv mc) := rfl

theorem exec_htrTickDirect (h : HeaterIx) (s : State) :
    exec (.htrTickDirect h) s = .next (s.heaterTick h fun c _ _ _ => directLaw c) := rfl

/-- Settles O39: the three active modes share one guard. -/
theorem heaterTickGuard : Obligations.HeaterTickGuard := by
  rintro i h dt s (rfl | rfl | rfl) fails
  · exact heaterTickGives_guard (exec_htrTickFixed h s) fails
  · exact heaterTickGives_guard (exec_htrTickPid h dt s) fails
  · exact heaterTickGives_guard (exec_htrTickDirect h s) fails

/-- Settles O40: the fixed law inside the interlock. -/
theorem heaterTickFixed : Obligations.HeaterTickFixed := fun h _ _ _ s ready =>
  heaterTickGives_law (exec_htrTickFixed h s) ready rfl

/-- Settles O42: the direct law inside the interlock. -/
theorem heaterTickDirect : Obligations.HeaterTickDirect := fun h _ _ _ s ready =>
  heaterTickGives_law (exec_htrTickDirect h s) ready rfl

/-! ### The PID law (R155) -/

/-- The accumulator after a PID tick with `ki` not zero (R155, R162, R164). -/
theorem pidLaw_it_of_ki {c : Heater} (on : feq c.ki zeroF = false) (u : TempUnit) (dt pv mc : F32) :
    (pidLaw c u dt pv mc).it = integralTerm c (fsub (toK c.sp u) (toK pv u)) dt (maxITerm mc c.res) := by
  simp only [pidLaw, on, Bool.false_eq_true, if_false]

/-- With `ki` zero the accumulator is kept (R161). -/
theorem pidLaw_it_of_ki_zero {c : Heater} (off : feq c.ki zeroF = true) (u : TempUnit) (dt pv mc : F32) :
    (pidLaw c u dt pv mc).it = c.it := by
  simp only [pidLaw, off, if_true]

/-- The accumulator is the clamp where that is no infinity, and else a free finite number (R164). -/
theorem integralTerm_of_clamp (c : Heater) (e dt mit : F32) :
    (isInf (clamp (fadd c.it (fmul (fmul c.ki e) dt)) zeroF mit) = false →
      integralTerm c e dt mit = clamp (fadd c.it (fmul (fmul c.ki e) dt)) zeroF mit) ∧
    (isInf (clamp (fadd c.it (fmul (fmul c.ki e) dt)) zeroF mit) = true →
      isFinite (integralTerm c e dt mit) = true ∧ fle zeroF (integralTerm c e dt mit) = true) := by
  unfold integralTerm
  dsimp only
  refine ⟨fun no => by rw [no]; rfl, fun inf => ?_⟩
  rw [if_pos inf]
  exact someTerm_mem _ _

/-- Settles O44: the integral term is in its bounds, and the interlock does not touch the accumulator. -/
theorem integralTermBounded : Obligations.IntegralTermBounded := by
  intro h n pv mc dt s t ready on ran
  have law := heaterTickGives_law (exec_htrTickPid h dt s) ready rfl
  have it : (t.heater h).it =
      integralTerm (s.heater h) (fsub (toK (s.heater h).sp (s.sensor n).units) (toK pv (s.sensor n).units)) dt
        (maxITerm mc (s.heater h).res) := by
    rw [← pidLaw_it_of_ki on]
    by_cases ins : Inside (s.heater h).tmin pv (s.heater h).tmax
    · obtain ⟨u, ran', it, -⟩ := law.1 ins
      rw [Host.Outcome.next.inj (ran.symm.trans ran'), it]
    · obtain ⟨u, ran', it, -⟩ := law.2 ins
      rw [Host.Outcome.next.inj (ran.symm.trans ran'), it]
  obtain ⟨-, above, finite, bound, positive⟩ := ready
  rw [it]
  exact integralTerm_mem _ _ _ (maxITerm_nonneg positive (isFinite_maxCurrent positive bound) above finite)

/-! ### The interlock in every mode (R159, 42_highpower_control.md R215) -/

theorem guardOff_zero (s : State) (h : HeaterIx) :
    ((s.guardOff h).heater h).cv = zeroF ∧ OutputIs ((s.guardOff h).heater h) 0 := by
  rw [guardOff_eq_tickedHeater, heater_tickedHeater_same]
  exact ⟨rfl, outputIs_ticked (Nat.zero_le _)⟩

theorem heaterTick_outside {s : State} {h : HeaterIx} {n : SensorIx} {pv : F32}
    (law : Heater → TempUnit → F32 → F32 → LawResult) (sample : HasSample s (s.heater h).sns n pv)
    (out : ¬Inside (s.heater h).tmin pv (s.heater h).tmax) :
    ((s.heaterTick h law).heater h).cv = zeroF ∧ OutputIs ((s.heaterTick h law).heater h) 0 := by
  rcases heaterReady_or_guardFails s h with ⟨m, x, mc, ready⟩ | fails
  · obtain ⟨sample', -, -, -, positive⟩ := id ready
    have same : x = pv :=
      Option.some.inj ((sampleOf_of_hasSample sample').symm.trans (sampleOf_of_hasSample sample))
    subst same
    rw [heaterTick_law law ready, finishHeater_outside positive out, heater_emit, heater_setHeater_same]
    exact ⟨rfl, outputIs_writeCode (c := s.heater h) (Nat.zero_le _)⟩
  · rw [heaterTick_guard law fails]
    exact guardOff_zero s h

theorem highPowerTick_outside {s : State} {j : HpIx} {n : SensorIx} {pv : F32} (law : HighPower → F32 → Bool)
    (sample : HasSample s (s.highPower j).sns n pv)
    (out : ¬Inside (s.highPower j).tmin pv (s.highPower j).tmax) :
    ((s.highPowerTick j law).highPower j).state = false := by
  rw [highPowerTick_law law sample, Bool.eq_false_iff.2 (mt inside_iff.1 out), Bool.false_and, highPower_driveHp,
    if_pos rfl]

/-- Settles O43: a disabled channel is off anyway, and the interlock stands after every law. -/
theorem interlockForcesOff : Obligations.InterlockForcesOff := by
  intro s dt
  refine ⟨fun h n pv sample out => ?_, fun j n pv sample out => ?_⟩
  · simp only [channelOp]
    cases (s.heater h).mode with
    | disabled => exact ⟨_, exec_htrTickDisabled h s, guardOff_zero s h⟩
    | fixed => exact ⟨_, exec_htrTickFixed h s, heaterTick_outside _ sample out⟩
    | pid => exact ⟨_, exec_htrTickPid h dt s, heaterTick_outside _ sample out⟩
    | direct => exact ⟨_, exec_htrTickDirect h s, heaterTick_outside _ sample out⟩
  · simp only [channelOp]
    cases (s.highPower j).mode with
    | disabled => exact ⟨_, exec_hpTickDisabled j s, by rw [highPower_driveHp, if_pos rfl]⟩
    | direct => exact ⟨_, exec_hpTickDirect j s, highPowerTick_outside _ sample out⟩
    | hyst => exact ⟨_, exec_hpTickHyst j s, highPowerTick_outside _ sample out⟩

/-! ### The power to current converter (R156) -/

/-- Zero over a positive number is +0.0. -/
theorem fdiv_zeroF {r : F32} (above : flt zeroF r = true) (finite : isFinite r = true) : fdiv zeroF r = zeroF := by
  obtain ⟨nan, neg, pos⟩ := flt_zero_fields above
  have zero : magUnits zeroF = 0 := by decide
  rw [fdiv, nan, isInf_of_isFinite finite, neg, if_neg (by decide), if_neg (by decide), if_neg (by decide),
    if_neg (by omega), zero, roundRat, Nat.zero_mul, roundUnits_zero]
  decide

theorem currentOf_of_not_positive {pw r mc : F32} (above : flt zeroF r = true) (finite : isFinite r = true)
    (limit : flt zeroF mc = true) (off : flt zeroF pw = false) : currentOf pw r mc = zeroF := by
  have below : flt mc zeroF = false := by
    have := (flt_iff.1 limit).2.2
    refine Bool.eq_false_iff.2 fun h => ?_
    have := (flt_iff.1 h).2.2
    omega
  have power : pos pw = zeroF := by rw [pos, off]; rfl
  have root : fsqrt zeroF = zeroF := by decide
  have same : fle zeroF zeroF = true := by decide
  rw [currentOf, power, fdiv_zeroF above finite, root, clamp, below, same]
  rfl

/-- Settles O45: the clamp gives the bounds whatever the quotient; a power not above zero is cut to +0.0 before
it. -/
theorem currentOfIsBounded : Obligations.CurrentOfIsBounded := by
  intro pw r mc limit _ above finite
  obtain ⟨low, high⟩ := clamp_mem (x := fsqrt (fdiv (pos pw) r)) (fle_of_flt limit)
  exact ⟨(fle_iff.1 low).2.1, low, high, currentOf_of_not_positive above finite limit⟩

end Sys2Proof.Machine
end

section
/-! PROOFS. What a step does (10_state.md R31, 43_cmd_dispatch.md R230, 60_exceptions.md R349 to R358,
70_reset_and_hazards.md R370): the fetched operation, a presented line, a stimulus, Reset. -/

namespace Sys2Proof.Machine

open Sys2Proof

/-! ### The fetched operation -/

/-- Settles O7: the step is the branch of the operation. -/
theorem stepRunsDecodedOperation : Obligations.StepRunsDecodedOperation := by
  intro s src i fetched decoded
  have whole : s.stepWhole = onNext (exec i (s.accept src)) State.settle := by
    rw [State.stepWhole, fetched]
    simp only [decoded]
  rw [step, whole]

/-- Settles O8: the selector of the next channel is its mode register. -/
theorem modeSelectsTickOperation : Obligations.ModeSelectsTickOperation := fun s dt c _ run inProgress =>
  ⟨s.channelSource dt c, fetch_tick run inProgress, decode_channelSource s dt c⟩

theorem decode_wire_ok {line : List Byte} {i : Instr} : decode (.wire line) = .ok i ↔ decodeLine line = .ok i := by
  rw [decode]
  cases decodeLine line <;> simp [Except.mapError]

/-- With no Tick in progress and no reset to come, the step of a presented line is its operation. -/
theorem step_presented {s t : State} {conn : Nat} {line : List Byte} {rest : List Stimulus} {i : Instr}
    (h : Presents s conn line rest) (decoded : decodeLine line = .ok i)
    (ran : exec i (s.taken conn rest) = .next t) : step s = .next t := by
  obtain ⟨-, noTick, noCut, -⟩ := id h
  obtain ⟨-, -, -, tick, -, -, cut, -⟩ := exec_edge ran
  have settled : t.settle = t := settle_of_none (tick.trans noTick)
  rw [stepRunsDecodedOperation s _ i (fetch_presents h) (decode_wire_ok.2 decoded), accept_presents h, ran]
  simp only [onNext, settled, strike_none s (cut.trans noCut)]

/-- Settles O9: every operation completes. -/
theorem stepRunsPresentedCommand : Obligations.StepRunsPresentedCommand := by
  intro s conn line rest i presented decoded
  obtain ⟨t, ran⟩ := exec_next i (s.taken conn rest)
  exact ⟨t, ran, step_presented presented decoded ran⟩

/-! ### One response -/

/-- From `s` to `t` there is exactly one response, the last action, to the connection of the command. -/
def Responds (s t : State) : Prop :=
  ∃ before r, t.log = s.log ++ before ++ [.resp s.conn r] ∧ ∀ a, a ∈ before → isResponse a = false

theorem responds_respond {s t : State} {before : List Action} (r : Reply) (log : t.log = s.log ++ before)
    (conn : t.conn = s.conn) (silent : ∀ a, a ∈ before → isResponse a = false) : Responds s (t.respond r) :=
  ⟨before, r, by rw [respond_log, log, conn], silent⟩

/-- Nothing but the answer. -/
theorem responds_only {s t : State} {r : Reply} (log : t.log = s.log ++ [.resp s.conn r]) : Responds s t :=
  ⟨[], r, by rw [log, List.append_nil], nofun⟩

theorem isResponse_writeActions {ws : List (Nat × List Byte)} : ∀ a, a ∈ writeActions ws → isResponse a = false := by
  intro a ha
  obtain ⟨w, -, rfl⟩ := List.mem_map.1 ha
  rfl

/-- Every command of the tables responds (43_cmd_dispatch.md R241). -/
theorem responds_exec {line : List Byte} {i : Instr} {s t : State} (decoded : decodeLine line = .ok i)
    (notQ : i ≠ .q) (ran : exec i s = .next t) : Responds s t := by
  obtain ⟨notLoad, notHeater, notHp⟩ := decodeLine_command decoded
  cases i with
  | setDacMode h n =>
    by_cases disabled : n = .disabled
    · subst disabled
      rw [← Host.Outcome.next.inj ((exec_setDacMode_disabled h s).symm.trans ran)]
      exact ⟨dacActions h 0, .ok, by simp, by simp [dacActions, isResponse]⟩
    · rw [← Host.Outcome.next.inj ((exec_setDacMode_active disabled h s).symm.trans ran)]
      exact responds_only rfl
  | setHpMode j n =>
    by_cases disabled : n = .disabled
    · subst disabled
      rw [← Host.Outcome.next.inj ((exec_setHpMode_disabled j s).symm.trans ran)]
      exact ⟨[.hp j false], .ok, by simp, by simp [isResponse]⟩
    · rw [← Host.Outcome.next.inj ((exec_setHpMode_active disabled j s).symm.trans ran)]
      exact responds_only rfl
  | setCommit =>
    rw [← Host.Outcome.next.inj ((exec_setCommit s).symm.trans ran)]
    exact responds_respond .ok (committed_log s) (committed_conn s) isResponse_writeActions
  | setStopProgram | setExit =>
    rw [exec_stop (by decide) ran]
    exact responds_respond .ok (by rw [stop_log, allOutputsOff_log]) (stop_conn s) (by decide)
  | load => exact absurd rfl notLoad
  | q => exact absurd rfl notQ
  | htrTickDisabled h | htrTickFixed h | htrTickPid h dt | htrTickDirect h => simp at notHeater
  | hpTickDisabled j | hpTickDirect j | hpTickHyst j => simp at notHp
  | _ =>
    rw [← Host.Outcome.next.inj ran]
    exact responds_only rfl

/-- Settles O11: a rejected line is its `BAD`; an operation a line decodes to responds once, `q` closes. -/
theorem oneResponsePerCommand : Obligations.OneResponsePerCommand := by
  intro s conn line rest presented
  cases decoded : decodeLine line with
  | error r =>
    exact ⟨_, [], step_rejected presented decoded, .inr ⟨nofun, .bad r, by simp [State.taken], nofun⟩⟩
  | ok i =>
    obtain ⟨t, ran⟩ := exec_next i (s.taken conn rest)
    have run := step_presented presented decoded ran
    by_cases isQ : i = .q
    · subst isQ
      have log : t.log = s.log ++ [.close conn] := by rw [← Host.Outcome.next.inj ran]; rfl
      exact ⟨t, [], run, .inl ⟨rfl, log⟩⟩
    · obtain ⟨before, r, log, silent⟩ := responds_exec decoded isQ ran
      exact ⟨t, before, run, .inr ⟨fun e => isQ (by injection e), r, log, silent⟩⟩

/-! ### Which steps stop (60_exceptions.md R349) -/

/-- What is fetched decodes to an operation or is a line that is rejected: no mode register holds a reserved
code (30_encoding.md R124). -/
theorem decode_fetched {s : State} {src : Source} (fetched : s.fetch = some src) :
    (∃ i, decode src = .ok i) ∨ ∃ r, decode src = .error (.bad r) := by
  rcases fetch_cases fetched with ⟨-, -, rfl⟩ | ⟨-, ⟨dt, c, cs, -, rfl⟩ | ⟨conn, line, rest, -, -, rfl⟩⟩
  · exact .inl ⟨.load, rfl⟩
  · exact .inl ⟨_, decode_channelSource s dt c⟩
  · cases d : decodeLine line with
    | ok i => exact .inl ⟨i, decode_wire_ok.2 d⟩
    | error r => exact .inr ⟨r, decode_wire_error d⟩

/-- A fetched source gives a next state. -/
theorem stepWhole_fetched {s : State} {src : Source} (fetched : s.fetch = some src) :
    ∃ t, s.stepWhole = .next t := by
  rw [State.stepWhole, fetched]
  rcases decode_fetched fetched with ⟨i, decoded⟩ | ⟨r, rejected⟩
  · obtain ⟨t, ran⟩ := exec_next i (s.accept src)
    exact ⟨t.settle, by simp only [decoded, ran, onNext]⟩
  · exact ⟨_, by simp only [rejected, State.reject]; rfl⟩

/-- A stimulus gives a next state, or is an unlawful strobe taken in RUN. -/
theorem stimulate_next_or (s : State) :
    (∃ t, s.stimulate = .next t) ∨
      s.stimulate = .refused .tickDuty ∧
        ∃ dt samp rest, s.phase = .run ∧ s.inbox = .tick dt samp :: rest ∧ lawfulStrobe dt samp = false := by
  unfold State.stimulate
  split
  case h_6 dt samp rest inbox =>
    by_cases run : s.phase = .run
    · cases lawful : lawfulStrobe dt samp
      · exact .inr ⟨by simp [run], dt, samp, rest, run, inbox, lawful⟩
      · exact .inl ⟨_, by rw [if_pos run, if_pos rfl]⟩
    · exact .inl ⟨_, if_neg run⟩
  all_goals exact .inl ⟨_, rfl⟩

/-- Every step gives a next state but that of an unlawful strobe. -/
theorem step_next_or (s : State) :
    (∃ t, step s = .next t) ∨
      step s = .refused .tickDuty ∧
        ∃ dt samp rest, s.phase = .run ∧ s.inbox = .tick dt samp :: rest ∧ lawfulStrobe dt samp = false := by
  have next : ∀ {t}, s.stepWhole = .next t → ∃ u, step s = .next u := fun whole =>
    ⟨_, by rw [step, whole]; rfl⟩
  cases fetched : s.fetch with
  | some src =>
    obtain ⟨t, whole⟩ := stepWhole_fetched fetched
    exact .inl (next whole)
  | none =>
    have whole : s.stepWhole = s.stimulate := by rw [State.stepWhole, fetched]
    rcases stimulate_next_or s with ⟨t, stimulus⟩ | ⟨refused, why⟩
    · exact .inl (next (whole.trans stimulus))
    · exact .inr ⟨by rw [step, whole, refused]; rfl, why⟩

/-- Settles O21: of next state and refusal only the unlawful strobe gives the second. -/
theorem onlyUnlawfulStrobeStops : Obligations.OnlyUnlawfulStrobeStops := by
  refine ⟨fun s r stops => ?_, fun s r stops => ?_⟩
  · rcases step_next_or s with ⟨t, next⟩ | ⟨refused, -⟩
    · rw [next] at stops; cases stops
    · rw [refused] at stops; cases stops
  · rcases step_next_or s with ⟨t, next⟩ | ⟨refused, why⟩
    · rw [next] at stops; cases stops
    · rw [refused] at stops; cases stops; exact ⟨rfl, why⟩

/-! ### The telemetry view -/

theorem accept_tick_of_none {s : State} (noTick : s.tick = none) (src : Source) : (s.accept src).tick = none := by
  cases src <;> simp only [State.accept, noTick]
  split
  · rfl
  · exact noTick

/-- After an operation the view is as before, or a Tick has ended and it is that of the registers. -/
theorem settle_telemetry (s : State) :
    s.settle.telemetry = s.telemetry ∨
      s.tick ≠ none ∧ s.settle.tick = none ∧ s.settle.telemetry = some s.settle.telemetryView := by
  unfold State.settle
  split
  · rename_i ended
    exact .inr ⟨by rw [ended]; exact nofun, rfl, rfl⟩
  · exact .inl rfl

theorem stepWhole_telemetry {s t : State} (h : s.stepWhole = .next t) :
    t.telemetry = s.telemetry ∨ (t.phase = .reset ∧ t.telemetry = none) ∨
      (s.tick ≠ none ∧ t.tick = none ∧ t.telemetry = some t.telemetryView) := by
  rcases stepWhole_cases h with ⟨src, i, u, -, -, ran, rfl⟩ | ⟨src, r, -, -, rfl⟩ | ⟨-, stimulus⟩
  · obtain ⟨-, telemetry, -, tick, -⟩ := exec_edge ran
    rcases settle_telemetry u with same | ⟨inTick, ended, view⟩
    · exact .inl (by rw [same, telemetry, accept_telemetry])
    · exact .inr (.inr ⟨fun none => inTick (tick.trans (accept_tick_of_none none src)), ended, view⟩)
  · exact .inl (accept_telemetry s src)
  · rcases stimulate_cases stimulus with ⟨-, rfl⟩ | ⟨x, rest, -, presented⟩
    · exact .inl rfl
    · rcases presented with ⟨-, rfl⟩ | ⟨-, rfl⟩ | ⟨_, -, rfl⟩ | ⟨_, _, -, rfl⟩ | ⟨_, _, -, ⟨-, rfl⟩ | ⟨-, -, rfl⟩⟩
      case inl => exact .inr (.inl ⟨rfl, rfl⟩)
      all_goals exact .inl rfl

/-- Settles O14: the end of a Tick sets the view, a reset drops it, nothing else touches it. -/
theorem telemetryMovesAtTickEndOnly : Obligations.TelemetryMovesAtTickEndOnly := by
  intro s t h moved
  obtain ⟨u, whole, rfl⟩ := step_next h
  rcases strike_cases s u with e | ⟨n, e⟩ | ⟨n, -, e⟩
  · rw [e] at moved ⊢
    exact (stepWhole_telemetry whole).resolve_left moved
  · rw [e] at moved ⊢
    exact (stepWhole_telemetry whole).resolve_left moved
  · rw [e]
    exact .inl ⟨rfl, rfl⟩

/-! ### The phase -/

theorem decodeLine_of_stop {s : State} {src : Source} {i : Instr} (fetched : s.fetch = some src)
    (decoded : decode src = .ok i) (stop : i = .setStopProgram ∨ i = .setExit) :
    s.phase = .run ∧ ∃ conn line rest, s.tick.all (fun job => job.todo = []) = true ∧
      s.inbox = .command conn line :: rest ∧
      (decodeLine line = .ok .setStopProgram ∨ decodeLine line = .ok .setExit) := by
  rcases fetch_cases fetched with ⟨-, -, rfl⟩ | ⟨run, ⟨dt, c, cs, -, rfl⟩ | ⟨conn, line, rest, noTick, inbox, rfl⟩⟩
  · obtain rfl : i = .load := by cases decoded; rfl
    simp at stop
  · rw [decode_channelSource] at decoded
    obtain rfl := Except.ok.inj decoded
    cases c with
    | heater h => simp only [channelOp] at stop; split at stop <;> simp at stop
    | highPower j => simp only [channelOp] at stop; split at stop <;> simp at stop
  · have line_ok := decode_wire_ok.1 decoded
    refine ⟨run, conn, line, rest, ?_, inbox, ?_⟩
    · cases tick : s.tick with
      | none => rfl
      | some job =>
        obtain ⟨dt, todo⟩ := job
        cases todo with
        | nil => rfl
        | cons c cs => exact absurd tick (noTick dt c cs)
    · rcases stop with rfl | rfl
      · exact .inl line_ok
      · exact .inr line_ok

/-- LOAD is fetched in RESET only, from the code of that phase. -/
theorem fetch_of_load {s : State} {src : Source} (fetched : s.fetch = some src) (decoded : decode src = .ok .load) :
    s.phase = .reset ∧ src = .phase 0 := by
  rcases fetch_cases fetched with ⟨reset, -, code⟩ | ⟨run, -⟩
  · exact ⟨reset, code⟩
  · exact absurd rfl (decode_ne_load fetched run decoded)

theorem stepWhole_phase {s t : State} (h : s.stepWhole = .next t) (changed : t.phase ≠ s.phase) :
    (s.phase = .reset ∧ (t.phase = .run ∨ t.phase = .fault) ∧ s.fetch = some (.phase 0)) ∨
      (s.phase = .run ∧ t.phase = .halted ∧
        ∃ conn line rest, s.tick.all (fun job => job.todo = []) = true ∧
          s.inbox = .command conn line :: rest ∧
          (decodeLine line = .ok .setStopProgram ∨ decodeLine line = .ok .setExit)) ∨
      (t.phase = .reset ∧ t.resetAsserted = true) := by
  rcases stepWhole_cases h with ⟨src, i, u, fetched, decoded, ran, rfl⟩ | ⟨src, r, -, -, rfl⟩ | ⟨-, stimulus⟩
  · rw [settle_phase] at changed ⊢
    obtain ⟨-, -, -, -, -, -, -, phase⟩ := exec_edge ran
    rcases phase with same | ⟨rfl, booted⟩ | ⟨stop, halted⟩
    · exact absurd (same.trans (accept_phase s src)) changed
    · obtain ⟨reset, rfl⟩ := fetch_of_load fetched decoded
      exact .inl ⟨reset, booted, fetched⟩
    · obtain ⟨run, line⟩ := decodeLine_of_stop fetched decoded stop
      exact .inr (.inl ⟨run, halted, line⟩)
  · exact absurd (accept_phase s src) changed
  · rcases stimulate_cases stimulus with ⟨-, rfl⟩ | ⟨x, rest, -, presented⟩
    · exact absurd rfl changed
    · rcases presented with ⟨-, rfl⟩ | ⟨-, rfl⟩ | ⟨_, -, rfl⟩ | ⟨_, _, -, rfl⟩ | ⟨_, _, -, ⟨-, rfl⟩ | ⟨-, -, rfl⟩⟩
      case inl => exact .inr (.inr ⟨rfl, rfl⟩)
      all_goals exact absurd rfl changed

/-- Settles O19: LOAD, a stop and Reset are the three things of a step that write the phase. -/
theorem phaseChangesOnlyAsStated : Obligations.PhaseChangesOnlyAsStated := by
  intro s t h changed
  obtain ⟨u, whole, rfl⟩ := step_next h
  rcases strike_cases s u with e | ⟨n, e⟩ | ⟨n, -, e⟩
  · rw [e] at changed ⊢
    exact stepWhole_phase whole changed
  · have recut : (s.strike u).phase = u.phase ∧ (s.strike u).resetAsserted = u.resetAsserted := by
      rw [e]; exact ⟨rfl, rfl⟩
    rw [recut.1] at changed
    rw [recut.1, recut.2]
    exact stepWhole_phase whole changed
  · rw [e]
    exact .inr (.inr ⟨rfl, rfl⟩)

/-! ### A stopped block -/

theorem fetch_of_deaf {s : State} (deaf : Deaf s) : s.fetch = none := by
  rcases deaf with ⟨phase, asserted⟩ | phase | phase | phase
  · simp [State.fetch, phase, asserted]
  all_goals simp [State.fetch, phase]

theorem phase_of_deaf {s : State} (deaf : Deaf s) : s.phase ≠ .run := by
  rcases deaf with ⟨phase, -⟩ | phase | phase | phase <;> rw [phase] <;> decide

/-- With nothing fetched and no reset to come, the step is the stimulus. -/
theorem step_stimulate {s t : State} (noFetch : s.fetch = none) (stimulus : s.stimulate = .next t)
    (noCut : t.cut = none) : step s = .next t := by
  have whole : s.stepWhole = .next t := by rw [State.stepWhole, noFetch]; exact stimulus
  rw [step, whole]
  exact congrArg Host.Outcome.next (strike_none s noCut)

/-- Settles O18: nothing is fetched, and outside RUN a line or a strobe only leaves the list of inputs. -/
theorem stoppedBlockIgnoresInputs : Obligations.StoppedBlockIgnoresInputs := by
  refine ⟨fun s x rest deaf off noCut inbox ignored => ?_, fun s deaf noCut inbox => ?_⟩
  · have stimulus : s.stimulate = .next { s with inbox := rest } := by
      rcases ignored with ⟨conn, line, rfl⟩ | ⟨dt, samp, rfl⟩
      · simp only [State.stimulate, inbox]
      · simp only [State.stimulate, inbox, if_neg (phase_of_deaf deaf)]
    exact ⟨_, step_stimulate (fetch_of_deaf deaf) stimulus noCut, rfl, rfl, rfl, fun r _ => by cases r <;> rfl,
      fun _ => rfl, off (phase_of_deaf deaf)⟩
  · exact step_stimulate (fetch_of_deaf deaf) (by simp only [State.stimulate, inbox]) noCut

/-! ### Reset -/

theorem runtimeReset_applyReset (s : State) : RuntimeReset s.applyReset := by
  refine ⟨fun h => ?_, fun j => ?_, fun n => ?_⟩
  · rw [heater_applyReset]
    exact ⟨rfl, rfl, rfl, rfl, rfl, rfl, by decide⟩
  · rw [highPower_applyReset]
    exact ⟨rfl, rfl⟩
  · fin_cases n <;> rfl

/-- Settles O15: the stimulus is Reset, whose zero writes are the outputs it leaves. -/
theorem resetOperation : Obligations.ResetOperation := by
  intro s rest noFetch noCut inbox
  have stimulus : s.stimulate = .next { s with inbox := rest }.applyReset := by
    simp only [State.stimulate, inbox]
  refine ⟨_, step_stimulate noFetch stimulus rfl, rfl, rfl, rfl, rfl, runtimeReset_applyReset _, rfl, ?_⟩
  have actions := resetActions_eq (c := State.heater { s with inbox := rest }.applyReset) fun h => by
    rw [heater_applyReset]; decide
  rw [applyReset_log, actions]
  simp only [List.append_assoc]

/-- The state after reset is what Reset leaves of a block with a blank store and no record, with reset
released. -/
theorem edgeOnly_reset : EdgeOnly { State.reset with log := [] }.applyReset State.reset :=
  ⟨rfl, rfl, rfl, rfl, rfl, rfl⟩

/-- Settles O17: the runtime registers are those Reset leaves, and the record is its actions. -/
theorem stateAfterReset : Obligations.StateAfterReset :=
  ⟨rfl, runtimeReset_applyReset { State.reset with log := [] }, by decide⟩

/-- Settles O54: what Reset leaves over a canonical store meets every invariant. -/
theorem invariantsHoldAtReset : Obligations.InvariantsHoldAtReset := by
  have canonical : StoreCanonical { State.reset with log := [] } := rfl
  have legal : RegistersLegal { State.reset with log := [] } :=
    ⟨fun h => by fin_cases h <;> exact heaterLegal_reset, by decide⟩
  exact ⟨canonical, devicesMatch_kept.edge edgeOnly_reset (devicesMatch_applyReset _),
    offOutsideRun_kept.edge edgeOnly_reset fun _ => outputsOff_applyReset, nofun, legal,
    fun n => by fin_cases n <;> rfl, nofun⟩

/-- What a reset inside a step leaves: Reset over the first `k` actions and their store writes. -/
theorem step_struck {s t : State} {k : Nat} {as : List Action} (whole : s.stepWhole = .next t)
    (cut : t.cut = some k) (log : t.log = s.log ++ as) (inside : k ≤ as.length) :
    ∃ u, step s = .next u ∧ u.phase = .reset ∧ u.cut = none ∧ RuntimeReset u ∧
      u.log = s.log ++ as.take k ++ resetActions ∧
      u.nvm = (replayStore (s.nvm, s.markerMisses) (as.take k)).1 := by
  have struck := strike_append log
  rw [cut] at struck
  simp only [if_neg (Nat.not_lt.2 inside)] at struck
  refine ⟨s.strike t, by rw [step, whole]; rfl, ?_⟩
  rw [struck]
  exact ⟨rfl, rfl, runtimeReset_applyReset _, rfl, rfl⟩

end Sys2Proof.Machine
end

section
/-! PROOFS. The Tick of 40_heater_control.md R150: one channel's operation reads its own registers and the sensors
and writes its own registers and output, so six of them in a row are six independent ones. -/

namespace Sys2Proof.Machine

open Sys2Proof

/-! ### The registers and the outputs of a channel -/

/-- The registers of an actuator channel. -/
def State.channel (s : State) : Channel → Heater ⊕ HighPower
  | .heater h => .inl (s.heater h)
  | .highPower j => .inr (s.highPower j)

/-- The actions that put a channel's output registers on its device (41_dac_distribution.md R194). -/
def State.channelActions (s : State) : Channel → List Action
  | .heater h => outputActions h (s.heater h)
  | .highPower j => [.hp j (s.highPower j).state]

theorem channelActions_congr {s t : State} {c : Channel} (e : t.channel c = s.channel c) :
    t.channelActions c = s.channelActions c := by
  cases c with
  | heater h => simp only [State.channelActions, Sum.inl.inj e]
  | highPower j => simp only [State.channelActions, Sum.inr.inj e]

theorem channelOp_congr {s t : State} (dt : F32) {c : Channel} (e : t.channel c = s.channel c) :
    channelOp t dt c = channelOp s dt c := by
  cases c with
  | heater h => simp only [channelOp, Sum.inl.inj e]
  | highPower j => simp only [channelOp, Sum.inr.inj e]

/-! ### One channel's operation -/

/-- From `s` to `t` channel `c` was written, with its output; every other channel, the sensors, the store and
what the environment holds are as before. -/
structure ChannelWritten (c : Channel) (s t : State) : Prop where
  others : ∀ c', c' ≠ c → t.channel c' = s.channel c'
  log : t.log = s.log ++ t.channelActions c
  sns : t.sns = s.sns
  nvm : t.nvm = s.nvm
  phase : t.phase = s.phase
  tick : t.tick = s.tick
  inbox : t.inbox = s.inbox
  cut : t.cut = s.cut

theorem channelWritten_setHeater (s : State) (h : HeaterIx) (d : Heater) :
    ChannelWritten (.heater h) s ((s.setHeater h d).emit (outputActions h d)) where
  others c other := by
    cases c with
    | heater h' =>
      have apart : h' ≠ h := fun e => other (e ▸ rfl)
      simp only [State.channel, heater_emit, heater_setHeater_ne s d apart]
    | highPower j => rfl
  log := by simp only [State.channelActions, emit_log, setHeater_log, heater_emit, heater_setHeater_same]
  sns := rfl
  nvm := rfl
  phase := rfl
  tick := rfl
  inbox := rfl
  cut := rfl

theorem channelWritten_driveHp (s : State) (j : HpIx) (b : Bool) :
    ChannelWritten (.highPower j) s (s.driveHp j b) where
  others c other := by
    cases c with
    | heater h => rfl
    | highPower j' =>
      have apart : j' ≠ j := fun e => other (e ▸ rfl)
      simp only [State.channel, highPower_driveHp, if_neg apart]
  log := by simp only [State.channelActions, driveHp_log, highPower_driveHp, if_true]
  sns := rfl
  nvm := rfl
  phase := rfl
  tick := rfl
  inbox := rfl
  cut := rfl

theorem channelWritten_guardOff (s : State) (h : HeaterIx) : ChannelWritten (.heater h) s (s.guardOff h) := by
  rw [guardOff_eq, ← outputActions_writeCode h { s.heater h with cv := zeroF, pwr := zeroF }]
  exact channelWritten_setHeater s h _

theorem channelWritten_heaterTick (s : State) (h : HeaterIx) (law : Heater → TempUnit → F32 → F32 → LawResult) :
    ChannelWritten (.heater h) s (s.heaterTick h law) := by
  obtain ⟨it, eprev, pwr, cv, code, -, e⟩ := heaterTick_writes s h law
  rw [e, ← outputActions_writeCode h { s.heater h with it := it, eprev := eprev, pwr := pwr, cv := cv }]
  exact channelWritten_setHeater s h _

theorem channelWritten_highPowerTick (s : State) (j : HpIx) (law : HighPower → F32 → Bool) :
    ChannelWritten (.highPower j) s (s.highPowerTick j law) := by
  obtain ⟨b, e⟩ := highPowerTick_drives s j law
  rw [e]
  exact channelWritten_driveHp s j b

/-- The operation of a channel writes that channel. -/
theorem exec_channelOp (s : State) (dt : F32) (c : Channel) :
    ∃ t, exec (channelOp s dt c) s = .next t ∧ ChannelWritten c s t := by
  cases c with
  | heater h =>
    simp only [channelOp]
    cases (s.heater h).mode with
    | disabled => exact ⟨_, exec_htrTickDisabled h s, channelWritten_guardOff s h⟩
    | fixed => exact ⟨_, exec_htrTickFixed h s, channelWritten_heaterTick s h _⟩
    | pid => exact ⟨_, exec_htrTickPid h dt s, channelWritten_heaterTick s h _⟩
    | direct => exact ⟨_, exec_htrTickDirect h s, channelWritten_heaterTick s h _⟩
  | highPower j =>
    simp only [channelOp]
    cases (s.highPower j).mode with
    | disabled => exact ⟨_, exec_hpTickDisabled j s, channelWritten_driveHp s j false⟩
    | direct => exact ⟨_, exec_hpTickDirect j s, channelWritten_highPowerTick s j _⟩
    | hyst => exact ⟨_, exec_hpTickHyst j s, channelWritten_highPowerTick s j _⟩

/-! ### It reads its own registers and the sensors -/

section
variable {s s' : State} (sns : s'.sns = s.sns)
include sns

theorem sensor_congr (n : SensorIx) : s'.sensor n = s.sensor n := by rw [State.sensor, sns]; rfl

theorem sampleOf_congr (index : Byte) : s'.sampleOf index = s.sampleOf index := by
  simp only [State.sampleOf, sensor_congr sns]

theorem unitOf_congr (index : Byte) : s'.unitOf index = s.unitOf index := by
  simp only [State.unitOf, sensor_congr sns]

theorem heaterTick_congr {h : HeaterIx} (own : s'.heater h = s.heater h)
    (law : Heater → TempUnit → F32 → F32 → LawResult) :
    (s'.heaterTick h law).heater h = (s.heaterTick h law).heater h := by
  have guard : (s'.guardOff h).heater h = (s.guardOff h).heater h := by
    rw [guardOff_eq_tickedHeater, guardOff_eq_tickedHeater, heater_tickedHeater_same, heater_tickedHeater_same, own]
  have finish : ∀ pv mc r, (s'.finishHeater h pv mc r).heater h = (s.finishHeater h pv mc r).heater h := by
    intro pv mc r
    simp only [State.finishHeater, State.output, heater_writeCode_same, heater_setHeater_same, own]
  simp only [State.heaterTick, State.heaterTickWith, own, sampleOf_congr sns, unitOf_congr sns]
  split
  · exact guard
  · split
    · split
      · exact finish _ _ _
      · exact guard
    · exact guard

theorem highPowerTick_congr {j : HpIx} (own : s'.highPower j = s.highPower j) (law : HighPower → F32 → Bool) :
    (s'.highPowerTick j law).highPower j = (s.highPowerTick j law).highPower j := by
  simp only [State.highPowerTick, own, sampleOf_congr sns]
  split
  · simp only [highPower_driveHp, own]
  · simp only [highPower_driveHp, own]

/-- No channel reads another channel's registers (R150). -/
theorem exec_channelOp_congr {dt : F32} {c : Channel} {t t' : State} (own : s'.channel c = s.channel c)
    (ran : exec (channelOp s dt c) s = .next t) (ran' : exec (channelOp s' dt c) s' = .next t') :
    t'.channel c = t.channel c := by
  rw [channelOp_congr dt own] at ran'
  cases c with
  | heater h =>
    have own := Sum.inl.inj own
    simp only [channelOp] at ran ran'
    cases mode : (s.heater h).mode with
    | disabled =>
      rw [mode] at ran ran'
      rw [← Host.Outcome.next.inj ran, ← Host.Outcome.next.inj ran']
      simp only [State.channel, guardOff_eq_tickedHeater, heater_tickedHeater_same, own]
    | fixed =>
      rw [mode] at ran ran'
      rw [← Host.Outcome.next.inj ran, ← Host.Outcome.next.inj ran']
      exact congrArg Sum.inl (heaterTick_congr sns own _)
    | pid =>
      rw [mode] at ran ran'
      rw [← Host.Outcome.next.inj ran, ← Host.Outcome.next.inj ran']
      exact congrArg Sum.inl (heaterTick_congr sns own _)
    | direct =>
      rw [mode] at ran ran'
      rw [← Host.Outcome.next.inj ran, ← Host.Outcome.next.inj ran']
      exact congrArg Sum.inl (heaterTick_congr sns own _)
  | highPower j =>
    have own := Sum.inr.inj own
    simp only [channelOp] at ran ran'
    cases mode : (s.highPower j).mode with
    | disabled =>
      rw [mode] at ran ran'
      rw [← Host.Outcome.next.inj ran, ← Host.Outcome.next.inj ran']
      simp only [State.channel, highPower_driveHp, if_true, own]
    | direct =>
      rw [mode] at ran ran'
      rw [← Host.Outcome.next.inj ran, ← Host.Outcome.next.inj ran']
      exact congrArg Sum.inr (highPowerTick_congr sns own _)
    | hyst =>
      rw [mode] at ran ran'
      rw [← Host.Outcome.next.inj ran, ← Host.Outcome.next.inj ran']
      exact congrArg Sum.inr (highPowerTick_congr sns own _)

end

/-! ### The channels of a Tick, one after the other -/

/-- From `s` to `t` a Tick has run the channels `cs` and is over: each holds what its operation alone leaves,
with its output on its device, in order. -/
structure TickRan (dt : F32) (cs : List Channel) (s t : State) : Prop where
  ran : ∀ c, c ∈ cs → ∃ u, exec (channelOp s dt c) s = .next u ∧ t.channel c = u.channel c
  others : ∀ c, c ∉ cs → t.channel c = s.channel c
  log : t.log = s.log ++ cs.flatMap t.channelActions
  sns : t.sns = s.sns
  nvm : t.nvm = s.nvm
  phase : t.phase = s.phase
  tick : t.tick = none
  inbox : t.inbox = s.inbox
  telemetry : t.telemetry = some t.telemetryView

/-- The step of a channel that is not the last. -/
theorem step_channel_more {s : State} {dt : F32} {c d : Channel} {cs : List Channel} (run : s.phase = .run)
    (inTick : s.tick = some ⟨dt, c :: d :: cs⟩) (noCut : s.cut = none) :
    ∃ u, step s = .next u ∧ exec (channelOp s dt c) { s with tick := some ⟨dt, d :: cs⟩ } = .next u ∧
      ChannelWritten c { s with tick := some ⟨dt, d :: cs⟩ } u := by
  obtain ⟨u, ran, written⟩ := exec_channelOp { s with tick := some ⟨dt, d :: cs⟩ } dt c
  have ran : exec (channelOp s dt c) { s with tick := some ⟨dt, d :: cs⟩ } = .next u := by
    rw [← ran]; cases c <;> rfl
  have settled : u.settle = u := by rw [State.settle, written.tick]
  refine ⟨u, ?_, ran, written⟩
  rw [step_channel run inTick, ran]
  simp only [onNext, settled, strike_none s (written.cut.trans noCut)]

/-- The step of the last channel. -/
theorem step_channel_last {s : State} {dt : F32} {c : Channel} (run : s.phase = .run)
    (inTick : s.tick = some ⟨dt, [c]⟩) (noCut : s.cut = none) :
    ∃ u, step s = .next { u with tick := none, telemetry := some u.telemetryView } ∧
      exec (channelOp s dt c) { s with tick := some ⟨dt, []⟩ } = .next u ∧
      ChannelWritten c { s with tick := some ⟨dt, []⟩ } u := by
  obtain ⟨u, ran, written⟩ := exec_channelOp { s with tick := some ⟨dt, []⟩ } dt c
  have ran : exec (channelOp s dt c) { s with tick := some ⟨dt, []⟩ } = .next u := by
    rw [← ran]; cases c <;> rfl
  have settled : u.settle = { u with tick := none, telemetry := some u.telemetryView } := by
    rw [State.settle, written.tick]
  refine ⟨u, ?_, ran, written⟩
  rw [step_channel run inTick, ran]
  simp only [onNext, settled]
  exact congrArg Host.Outcome.next (strike_none s (written.cut.trans noCut))

theorem runSteps_succ {k : Nat} {s t : State} (next : step s = .next t) : runSteps (k + 1) s = runSteps k t := by
  rw [runSteps, next]

/-- A channel's operation does not read the Tick it runs in. -/
theorem exec_channelOp_tick {s u : State} {dt : F32} {c : Channel} {tick : Option TickJob}
    (ran : exec (channelOp s dt c) { s with tick := tick } = .next u) :
    ∃ v, exec (channelOp s dt c) s = .next v ∧ u.channel c = v.channel c := by
  obtain ⟨v, ran'⟩ := exec_next (channelOp s dt c) s
  have own : State.channel { s with tick := tick } c = s.channel c := by cases c <;> rfl
  have same : channelOp { s with tick := tick } dt c = channelOp s dt c := channelOp_congr dt own
  exact ⟨v, ran', exec_channelOp_congr (s := s) (s' := { s with tick := tick }) rfl own ran' (by rw [same, ran])⟩

/-- One step for each channel. -/
theorem runSteps_tick {dt : F32} {c : Channel} {cs : List Channel} {s : State} (distinct : (c :: cs).Nodup)
    (run : s.phase = .run) (inTick : s.tick = some ⟨dt, c :: cs⟩) (noCut : s.cut = none) :
    ∃ t, runSteps (c :: cs).length s = .next t ∧ TickRan dt (c :: cs) s t := by
  induction cs generalizing c s with
  | nil =>
    obtain ⟨u, next, ran, written⟩ := step_channel_last run inTick noCut
    refine ⟨_, by rw [List.length_singleton, runSteps_succ next]; rfl, ?_⟩
    have view : ∀ c', State.channel { u with tick := none, telemetry := some u.telemetryView } c' = u.channel c' :=
      fun c' => by cases c' <;> rfl
    refine ⟨fun c' m => ?_, fun c' m => ?_, ?_, written.sns, written.nvm, written.phase, rfl, written.inbox, rfl⟩
    · rw [List.mem_singleton] at m
      subst m
      rw [view]
      exact exec_channelOp_tick ran
    · rw [view, written.others c' fun e => m (List.mem_singleton.2 e)]
      cases c' <;> rfl
    · have actions := written.log
      rw [← channelActions_congr (view c)] at actions
      simpa using actions
  | cons d cs ih =>
    obtain ⟨u, next, ran, written⟩ := step_channel_more run inTick noCut
    rw [List.nodup_cons] at distinct
    have kept : ∀ c', c' ≠ c → u.channel c' = s.channel c' := fun c' other =>
      (written.others c' other).trans (by cases c' <;> rfl)
    obtain ⟨t, ran', rest⟩ := ih distinct.2 (written.phase.trans run) written.tick (written.cut.trans noCut)
    refine ⟨t, by rw [List.length_cons, runSteps_succ next]; exact ran', ?_⟩
    refine ⟨fun c' m => ?_, fun c' m => ?_, ?_, rest.sns.trans written.sns, rest.nvm.trans written.nvm,
      rest.phase.trans written.phase, rest.tick, rest.inbox.trans written.inbox, rest.telemetry⟩
    · rcases List.mem_cons.1 m with rfl | m
      · rw [rest.others c' distinct.1]
        exact exec_channelOp_tick ran
      · have other : c' ≠ c := fun e => distinct.1 (e ▸ m)
        obtain ⟨v, ran, same⟩ := rest.ran c' m
        obtain ⟨w, ran'⟩ := exec_next (channelOp s dt c') s
        exact ⟨w, ran', same.trans (exec_channelOp_congr (s := s) written.sns (kept c' other) ran' ran)⟩
    · rw [List.mem_cons, not_or] at m
      rw [rest.others c' m.2, kept c' m.1]
    · have own := rest.others c distinct.1
      show _ = s.log ++ (t.channelActions c ++ (d :: cs).flatMap t.channelActions)
      rw [rest.log, written.log, channelActions_congr own, List.append_assoc]

/-! ### The strobe -/

theorem allChannels_nodup : allChannels.Nodup := by decide

theorem mem_allChannels (c : Channel) : c ∈ allChannels := by
  cases c with
  | heater h => revert h; decide
  | highPower j => revert j; decide

theorem step_strobe {s : State} {dt : F32} {samp : Vector OptF32 12} {rest : List Stimulus}
    (strikes : Strikes s dt samp rest) : step s = .next ({ s with inbox := rest }.startTick dt samp) := by
  obtain ⟨run, noTick, noCut, inbox, lawful⟩ := strikes
  refine step_stimulate ?_ ?_ noCut
  · simp only [State.fetch, run, noTick, inbox]
  · simp only [State.stimulate, inbox, if_pos run, if_pos lawful]

/-- A Tick is the strobe and one step for each of the six channels (entry 8). -/
theorem runSteps_strobe {s : State} {dt : F32} {samp : Vector OptF32 12} {rest : List Stimulus}
    (strikes : Strikes s dt samp rest) :
    ∃ t, runSteps 7 s = .next t ∧ TickRan dt allChannels ({ s with inbox := rest }.startTick dt samp) t := by
  obtain ⟨run, -, noCut, -, -⟩ := id strikes
  rw [runSteps_succ (step_strobe strikes)]
  exact runSteps_tick allChannels_nodup run rfl noCut

theorem tickRan_of_runSteps {s t : State} {dt : F32} {samp : Vector OptF32 12} {rest : List Stimulus}
    (strikes : Strikes s dt samp rest) (ran : runSteps 7 s = .next t) :
    TickRan dt allChannels ({ s with inbox := rest }.startTick dt samp) t := by
  obtain ⟨u, ran', tick⟩ := runSteps_strobe strikes
  exact Host.Outcome.next.inj (ran'.symm.trans ran) ▸ tick

/-! ### The obligations -/

/-- Settles O12: the strobe stores the samples, and the six channels write their outputs in their order. -/
theorem tickRunsSixChannelsInOrder : Obligations.TickRunsSixChannelsInOrder := by
  intro s dt samp rest run noTick noCut inbox lawful
  obtain ⟨t, ran, tick⟩ := runSteps_strobe ⟨run, noTick, noCut, inbox, lawful⟩
  refine ⟨t, ran, tick.phase.trans run, tick.tick, tick.inbox, fun a => ?_, fun n => ?_, tick.telemetry, ?_⟩
  · rw [tick.nvm]; rfl
  · rw [sensor_congr tick.sns, sensor_startTick]; rfl
  · rw [tick.log]
    simp [allChannels, State.channelActions, State.startTick]

/-- The samples a strobe stores depend on the types and units of the sensors only. -/
theorem sns_startTick_congr {s s' : State} (same : ∀ n, SameSensorConfig (s.sensor n) (s'.sensor n)) (dt : F32)
    (samp : Vector OptF32 12) : (s'.startTick dt samp).sns = (s.startTick dt samp).sns := by
  refine congrArg Vector.ofFn (funext fun n => ?_)
  obtain ⟨type, units⟩ := same n
  simp only [type, units]

theorem channel_startTick (s : State) (dt : F32) (samp : Vector OptF32 12) (c : Channel) :
    (s.startTick dt samp).channel c = s.channel c := by cases c <;> rfl

/-- Two Ticks over the same samples leave the same in a channel they started the same in. -/
theorem tickRan_congr {s s' t t' : State} {dt : F32} {c : Channel} (tick : TickRan dt allChannels s t)
    (tick' : TickRan dt allChannels s' t') (sns : s'.sns = s.sns) (own : s'.channel c = s.channel c) :
    t'.channel c = t.channel c := by
  obtain ⟨u, ran, same⟩ := tick.ran c (mem_allChannels c)
  obtain ⟨u', ran', same'⟩ := tick'.ran c (mem_allChannels c)
  rw [same, same']
  exact exec_channelOp_congr sns own ran ran'

/-- What a Tick leaves in a channel is what the channel's operation leaves on the stored samples. -/
theorem tickRan_alone {s t : State} {dt : F32} {samp : Vector OptF32 12} {rest : List Stimulus}
    (tick : TickRan dt allChannels ({ s with inbox := rest }.startTick dt samp) t) (c : Channel) :
    ∃ u, exec (channelOp s dt c) (s.startTick dt samp) = .next u ∧ t.channel c = u.channel c := by
  obtain ⟨v, ran, same⟩ := tick.ran c (mem_allChannels c)
  have op : channelOp (s.startTick dt samp) dt c = channelOp s dt c :=
    channelOp_congr dt (channel_startTick s dt samp c)
  obtain ⟨u, ran'⟩ := exec_next (channelOp s dt c) (s.startTick dt samp)
  have own : State.channel ({ s with inbox := rest }.startTick dt samp) c = (s.startTick dt samp).channel c := by
    cases c <;> rfl
  exact ⟨u, ran', same.trans (exec_channelOp_congr (s := s.startTick dt samp)
    (s' := { s with inbox := rest }.startTick dt samp) rfl own (by rw [op, ran']) ran)⟩

/-- Settles O13: the six operations read no other channel, so a Tick is the six of them run alone. -/
theorem tickChannelsAreIndependent : Obligations.TickChannelsAreIndependent := by
  refine ⟨fun s s' dt samp rest rest' t t' strikes strikes' ran ran' same => ?_, fun s dt samp rest t strikes ran => ?_⟩
  · have tick := tickRan_of_runSteps strikes ran
    have tick' := tickRan_of_runSteps strikes' ran'
    have sns : ({ s' with inbox := rest' }.startTick dt samp).sns = ({ s with inbox := rest }.startTick dt samp).sns :=
      sns_startTick_congr same dt samp
    exact ⟨fun h own => Sum.inl.inj (tickRan_congr (c := .heater h) tick tick' sns (congrArg Sum.inl own)),
      fun j own => Sum.inr.inj (tickRan_congr (c := .highPower j) tick tick' sns (congrArg Sum.inr own))⟩
  · have tick := tickRan_of_runSteps strikes ran
    refine ⟨fun h => ?_, fun j => ?_⟩
    · obtain ⟨u, ran, same⟩ := tickRan_alone tick (.heater h)
      exact ⟨u, ran, Sum.inl.inj same⟩
    · obtain ⟨u, ran, same⟩ := tickRan_alone tick (.highPower j)
      exact ⟨u, ran, Sum.inr.inj same⟩

end Sys2Proof.Machine
end

section
/-! PROOFS. The store: what some first payloads of a COMMIT or a STAMP leave, LOAD in its three outcomes, and what a
reset inside one of them leaves (20_memory.md R95 to R97, 70_reset_and_hazards.md R371 to R378). -/

namespace Sys2Proof.Machine

open Sys2Proof

/-! ### The first payloads -/

/-- Payloads inside the store, each one ending before the next begins. -/
structure RisingPayloads (ws : List (Nat × List Byte)) : Prop where
  rising : ws.Pairwise fun x y => x.1 + x.2.length ≤ y.1
  fit : ∀ w ∈ ws, w.1 + w.2.length ≤ Config.storeSize

/-- At most one of rising payloads lies over an address. -/
theorem RisingPayloads.unique {ws : List (Nat × List Byte)} (p : RisingPayloads ws) {i j a : Nat}
    {w x : Nat × List Byte} (hw : ws[i]? = some w) (hx : ws[j]? = some x) (low : w.1 ≤ a) (high : a < w.1 + w.2.length)
    (low' : x.1 ≤ a) (high' : a < x.1 + x.2.length) : j = i := by
  obtain ⟨hi, rfl⟩ := List.getElem?_eq_some_iff.1 hw
  obtain ⟨hj, rfl⟩ := List.getElem?_eq_some_iff.1 hx
  have rising := List.pairwise_iff_getElem.1 p.rising
  rcases Nat.lt_trichotomy j i with less | same | more
  · have := rising j i hj hi less
    omega
  · exact same
  · have := rising i j hi hj more
    omega

/-- The first `j` payloads leave what all of them leave where one of them lies, and the rest as before. -/
theorem RisingPayloads.read_take {ws : List (Nat × List Byte)} (p : RisingPayloads ws) {m : Memory}
    (canonical : m.wf = true) (j : Nat) {i a : Nat} {w : Nat × List Byte} (here : ws[i]? = some w) (low : w.1 ≤ a)
    (high : a < w.1 + w.2.length) :
    (putAll m (ws.take j)).read a = if i < j then (putAll m ws).read a else m.read a := by
  have fit : ∀ x ∈ ws.take j, x.1 + x.2.length ≤ Config.storeSize := fun x hx => p.fit x (List.mem_of_mem_take hx)
  split
  case isTrue early =>
    have first : w ∈ ws.take j := List.mem_of_getElem? ((List.getElem?_take_of_lt early).trans here)
    rw [read_putAll_inside canonical fit (p.rising.sublist (List.take_sublist j ws)) first low high,
      read_putAll_inside canonical p.fit p.rising (List.mem_of_getElem? here) low high]
  case isFalse late =>
    refine read_putAll_outside canonical fit fun x hx inside => late ?_
    obtain ⟨n, hn⟩ := List.mem_iff_getElem?.1 hx
    have early : n < j := by
      by_contra h
      rw [List.getElem?_take_eq_none (Nat.not_lt.1 h)] at hn
      cases hn
    rw [List.getElem?_take_of_lt early] at hn
    exact p.unique here hn low high inside.1 inside.2 ▸ early

/-- With no miss to come, the port writes every payload. -/
theorem replayStore_noMiss (m : Memory) (ws : List (Nat × List Byte)) :
    replayStore (m, 0) (writeActions ws) = (putAll m ws, 0) := by
  induction ws generalizing m with
  | nil => rfl
  | cons w ws ih =>
    simp only [writeActions, List.map_cons, replayStore, storeWrite_takes (.inr rfl), putAll_cons]
    exact ih _

theorem take_writeActions (ws : List (Nat × List Byte)) (k : Nat) :
    (writeActions ws).take k = writeActions (ws.take k) := List.map_take.symm

/-! ### COMMIT -/

theorem payloads_ranges (s : State) : (s.payloads allSlots).map (fun w => (w.1, w.2.length)) = slotRanges := by
  rw [← slotRanges_eq]
  simp [State.payloads]

theorem payloads_rising (s : State) : RisingPayloads (s.payloads allSlots) where
  rising := by
    unfold State.payloads
    rw [List.pairwise_map]
    exact allSlots_disjoint.imp fun {i j} below => by rw [length_slotData]; exact below
  fit := payloads_fit s allSlots

/-- The payload of a slot, by the place of the slot. -/
theorem getElem?_of_ranges {ws : List (Nat × List Byte)} {rs : List (Nat × Nat)}
    (ranges : ws.map (fun w => (w.1, w.2.length)) = rs) {i : Nat} {r : Nat × Nat} (here : rs[i]? = some r) :
    ∃ w, ws[i]? = some w ∧ w.1 = r.1 ∧ w.2.length = r.2 := by
  rw [← ranges, List.getElem?_map, Option.map_eq_some_iff] at here
  obtain ⟨w, there, rfl⟩ := here
  exact ⟨w, there, rfl, rfl⟩

/-- Settles O32: COMMIT is its eighteen payloads. -/
theorem commitWritesAllSlots : Obligations.CommitWritesAllSlots := by
  intro s canonical
  refine ⟨_, s.payloads allSlots, exec_setCommit s, ?_, fun a above => ?_, regsKept_respond.2 fun r _ => ?_,
    by simp [EdgeKept], ?_, payloads_ranges s⟩
  · rw [respond_nvm, committed_nvm]
    exact configInStore_commit canonical
  · rw [respond_nvm, committed_nvm]
    exact read_commit_above canonical above
  · cases r <;> simp only [State.readReg, heater_committed, highPower_committed, sensor_committed, committed_phase]
  · rw [respond_log, committed_log, committed_conn, writeActions]

/-! ### LOAD -/

/-- The state in which LOAD has read the marker. -/
def State.probed (s : State) : State := (s.setPhase .load).emit [.memRead Config.markerAddr 1]

theorem exec_load_of_bootLoad {s t : State} (loaded : s.bootLoad = .ok t) : exec .load s = .next t :=
  congrArg ofStore loaded

theorem sameRuntime_probed (s : State) : SameRuntime s s.probed := (transports_start s).2.1

theorem probed_log (s : State) : s.probed.log = s.log ++ [.memRead 0xFF 1] := rfl

/-- Settles O33: the marker reads, so LOAD is READOUT. -/
theorem loadReadsStampedStore : Obligations.LoadReadsStampedStore := by
  intro s marker
  obtain ⟨t, read, phase, config, runtime, nvm, edge, log⟩ := readout_next s.probed
  have boot : s.bootLoad = .ok t := by
    rw [bootLoad_eq]
    exact (if_pos marker).trans read
  refine ⟨t, exec_load_of_bootLoad boot, phase, config, (sameRuntime_probed s).trans runtime, nvm, edge, ?_⟩
  rw [log, probed_log]
  simp

theorem sameRuntime_afterStamp (s : State) : SameRuntime s s.afterStamp := (transports_stamp s).2.1

/-- LOAD after its stampings: READOUT of a stamped store. -/
theorem readout_stamped {s u : State} (stamped : Stamped s.nvm u.nvm) (runtime : SameRuntime s u) :
    ∃ t, u.readout = .ok t ∧ t.phase = .run ∧ ConfigDefault t ∧ SameRuntime s t ∧ t.nvm = u.nvm ∧
      EdgeKept u t ∧ t.log = u.log ++ readoutActions := by
  obtain ⟨t, read, phase, config, runtime', nvm, edge, log⟩ := readout_next u
  exact ⟨t, read, phase, configDefault_of_zeros config stamped.1, runtime.trans runtime', nvm, edge, log⟩

theorem afterStamp_probed_log (s : State) :
    s.probed.afterStamp.log = s.log ++ .memRead 0xFF 1 :: (stampActions ++ [.memRead 0xFF 1]) := by
  rw [afterStamp_log, probed_log, List.append_assoc]
  rfl

theorem bootLoad_unmarked {s : State} (unmarked : s.nvm.read 0xFF ≠ 0xA5) :
    s.bootLoad =
      if s.probed.afterStamp.nvm.read Config.markerAddr = Config.sentinel then s.probed.afterStamp.readout
      else if s.probed.afterStamp.afterStamp.nvm.read Config.markerAddr = Config.sentinel then
        s.probed.afterStamp.afterStamp.readout
      else .ok s.probed.afterStamp.afterStamp.configStoreFault := by
  rw [bootLoad_eq]
  exact if_neg unmarked

/-- Settles O34: the marker takes the first stamping or the second. -/
theorem loadStampsUnmarkedStore : Obligations.LoadStampsUnmarkedStore := by
  intro s canonical unmarked misses
  obtain ⟨stamped, canonical', marker, left⟩ := afterStamp_store (s := s.probed) canonical
  have runtime : SameRuntime s s.probed.afterStamp := (sameRuntime_probed s).trans (sameRuntime_afterStamp _)
  rcases Nat.le_one_iff_eq_zero_or_eq_one.1 misses with none | one
  · have taken : s.probed.afterStamp.nvm.read 0xFF = 0xA5 := marker.trans (if_pos none)
    obtain ⟨t, read, phase, config, runtime', nvm, edge, log⟩ := readout_stamped (s := s) stamped runtime
    have boot : s.bootLoad = .ok t := (bootLoad_unmarked unmarked).trans ((if_pos taken).trans read)
    obtain ⟨-, -, -, inbox, -, -, kept⟩ := edge
    refine ⟨t, exec_load_of_bootLoad boot, phase, config, runtime', nvm ▸ stamped, nvm ▸ taken, ?_, inbox, ?_⟩
    · rw [kept, left]
      show s.markerMisses - 1 = 0
      omega
    · rw [log, afterStamp_probed_log, none]
      simp
  · have missed : s.probed.afterStamp.nvm.read 0xFF ≠ 0xA5 := by
      rw [marker.trans (if_neg (show s.markerMisses ≠ 0 by omega))]
      exact unmarked
    obtain ⟨stamped', -, marker', left'⟩ := afterStamp_store canonical'
    have zero : s.probed.afterStamp.markerMisses = 0 := by
      rw [left]
      show s.markerMisses - 1 = 0
      omega
    have taken : s.probed.afterStamp.afterStamp.nvm.read 0xFF = 0xA5 := marker'.trans (if_pos zero)
    obtain ⟨t, read, phase, config, runtime', nvm, edge, log⟩ :=
      readout_stamped (s := s) (stamped.trans stamped') (runtime.trans (sameRuntime_afterStamp _))
    have boot : s.bootLoad = .ok t :=
      (bootLoad_unmarked unmarked).trans ((if_neg missed).trans ((if_pos taken).trans read))
    obtain ⟨-, -, -, inbox, -, -, kept⟩ := edge
    refine ⟨t, exec_load_of_bootLoad boot, phase, config, runtime', nvm ▸ stamped.trans stamped', nvm ▸ taken, ?_,
      inbox, ?_⟩
    · rw [kept, left', zero]
    · rw [log, afterStamp_log, afterStamp_probed_log, one]
      simp [Config.markerAddr, List.replicate]

/-- Settles O35: the marker takes neither stamping. -/
theorem loadFaultsWhenMarkerFails : Obligations.LoadFaultsWhenMarkerFails := by
  intro s canonical unmarked misses
  obtain ⟨stamped, canonical', marker, left⟩ := afterStamp_store (s := s.probed) canonical
  obtain ⟨stamped', -, marker', -⟩ := afterStamp_store canonical'
  have before : s.probed.afterStamp.nvm.read 0xFF = s.nvm.read 0xFF :=
    marker.trans (if_neg (show s.markerMisses ≠ 0 by omega))
  have again : s.probed.afterStamp.markerMisses ≠ 0 := by
    rw [left]
    show s.markerMisses - 1 ≠ 0
    omega
  have before' : s.probed.afterStamp.afterStamp.nvm.read 0xFF = s.nvm.read 0xFF :=
    (marker'.trans (if_neg again)).trans before
  have missed : s.probed.afterStamp.nvm.read 0xFF ≠ 0xA5 := before ▸ unmarked
  have missed' : s.probed.afterStamp.afterStamp.nvm.read 0xFF ≠ 0xA5 := before' ▸ unmarked
  have boot : s.bootLoad = .ok s.probed.afterStamp.afterStamp.configStoreFault :=
    (bootLoad_unmarked unmarked).trans ((if_neg missed).trans (if_neg missed'))
  refine ⟨_, exec_load_of_bootLoad boot, rfl, fun r other => ?_, stamped.trans stamped', before', ?_⟩
  · cases r with
    | phase => exact absurd (List.mem_singleton.2 rfl) other
    | _ => rfl
  · show s.probed.afterStamp.afterStamp.log = _
    rw [afterStamp_log, afterStamp_probed_log]
    simp [Config.markerAddr]

/-! ### COMMIT, Reset, LOAD -/

theorem heaterModeOf_code (m : HeaterMode) : heaterModeOf (heaterModeCode m).toNat = m := by cases m <;> rfl
theorem hpModeOf_code (m : HpMode) : hpModeOf (hpModeCode m).toNat = m := by cases m <;> rfl
theorem sensorTypeOf_code (ty : SensorType) : sensorTypeOf (sensorTypeCode ty).toNat = ty := by cases ty <;> rfl
theorem tempUnitOf_code (u : TempUnit) : tempUnitOf (tempUnitCode u).toNat = u := by cases u <;> rfl

theorem heaterModeCode_le (m : HeaterMode) : (heaterModeCode m).toNat ≤ 3 := by cases m <;> decide
theorem hpModeCode_le (m : HpMode) : (hpModeCode m).toNat ≤ 2 := by cases m <;> decide
theorem sensorTypeCode_le (ty : SensorType) : (sensorTypeCode ty).toNat ≤ 6 := by cases ty <;> decide
theorem tempUnitCode_le (u : TempUnit) : (tempUnitCode u).toNat ≤ 2 := by cases u <;> decide

/-- A code inside its range is read back as it is (20_memory.md R96). -/
theorem eq_of_coerced {α : Type} {of : Nat → α} {code : α → Byte} {bound : Nat}
    (inverse : ∀ x, of (code x).toNat = x) (legal : ∀ x, (code x).toNat ≤ bound) {x y : α}
    (read : code y = if (code x).toNat ≤ bound then code x else 0) : y = x := by
  rw [if_pos (legal x)] at read
  rw [← inverse y, read, inverse]

/-- A store that holds the registers gives them back: no legal register is coerced (20_memory.md R97). -/
theorem sameConfig_of_stored {m : Memory} {s t : State} (stored : ConfigInStore m s) (read : ConfigFromStore m t)
    (legal : RegistersLegal s) : SameConfig s t := by
  obtain ⟨heaters, highPowers, sensors⟩ := stored
  obtain ⟨heaters', highPowers', sensors'⟩ := read
  refine ⟨fun h => ?_, fun j => ?_, fun n => ?_⟩
  · obtain ⟨mode, sns, numbers⟩ := heaters h
    obtain ⟨mode', sns', numbers'⟩ := heaters' h
    rw [mode] at mode'
    rw [sns, if_pos (legal.1 h).1] at sns'
    simp only [numbers] at numbers'
    exact ⟨eq_of_coerced heaterModeOf_code heaterModeCode_le mode', sns', numbers'⟩
  · obtain ⟨mode, sns, numbers⟩ := highPowers j
    obtain ⟨mode', sns', numbers'⟩ := highPowers' j
    rw [mode] at mode'
    rw [sns, if_pos (legal.2 j)] at sns'
    simp only [numbers] at numbers'
    exact ⟨eq_of_coerced hpModeOf_code hpModeCode_le mode', sns', numbers'⟩
  · obtain ⟨type, units⟩ := sensors n
    obtain ⟨type', units'⟩ := sensors' n
    rw [type] at type'
    rw [units] at units'
    exact ⟨eq_of_coerced sensorTypeOf_code sensorTypeCode_le type',
      eq_of_coerced tempUnitOf_code tempUnitCode_le units'⟩

/-- The step of a released reset is LOAD. -/
theorem step_load {s t : State} (phase : s.phase = .reset) (released : s.resetAsserted = false) (noTick : s.tick = none)
    (noCut : s.cut = none) (ran : exec .load s = .next t) : step s = .next t := by
  have fetched : s.fetch = some (.phase (phaseCode .reset)) := by simp only [State.fetch, phase, released]; rfl
  obtain ⟨-, -, -, tick, -, -, cut, -⟩ := exec_edge ran
  have settled : t.settle = t := settle_of_none (tick.trans noTick)
  rw [stepRunsDecodedOperation s _ .load fetched rfl]
  show onNext (onNext (exec .load s) State.settle) s.strike = _
  rw [ran]
  simp only [onNext, settled, strike_none s (cut.trans noCut)]

/-- The block after a presented reset and its release. -/
def State.restarted (s : State) (rest : List Stimulus) : State :=
  { { s with inbox := .release :: rest }.applyReset with inbox := rest, resetAsserted := false }

theorem runSteps_restart {s : State} {rest : List Stimulus} (run : s.phase = .run) (noTick : s.tick = none)
    (inbox : s.inbox = .reset :: .release :: rest) (k : Nat) :
    runSteps (k + 2) s = runSteps k (s.restarted rest) := by
  have noFetch : s.fetch = none := by simp only [State.fetch, run, noTick, inbox]
  have struck : s.stimulate = .next { s with inbox := .release :: rest }.applyReset := by
    simp only [State.stimulate, inbox]
  rw [runSteps_succ (step_stimulate noFetch struck rfl)]
  exact runSteps_succ (step_stimulate (fetch_of_deaf (.inl ⟨rfl, rfl⟩)) rfl rfl)

theorem runtimeReset_of_same {s t : State} (same : SameRuntime s t) (reset : RuntimeReset s) : RuntimeReset t := by
  obtain ⟨heaters, highPowers, sensors⟩ := same
  refine ⟨fun h => ?_, fun j => ?_, fun n => (sensors n).trans (reset.2.2 n)⟩
  · have kept := heaters h
    simp only [kept]
    exact reset.1 h
  · have kept := highPowers j
    simp only [kept]
    exact reset.2.1 j

/-- Settles O36: COMMIT puts the registers into the store, Reset keeps the store, LOAD reads it out. -/
theorem commitThenReload : Obligations.CommitThenReload := by
  intro s conn line rest presented decoded canonical marked legal
  obtain ⟨run, noTick, -, -⟩ := id presented
  have nvm : ((s.taken conn (.reset :: .release :: rest)).committed.respond .ok).nvm =
      putAll s.nvm (s.payloads allSlots) := by rw [respond_nvm, committed_nvm]; rfl
  have run' : ((s.taken conn (.reset :: .release :: rest)).committed.respond .ok).phase = .run := by
    rw [respond_phase, committed_phase]; exact run
  have noTick' : ((s.taken conn (.reset :: .release :: rest)).committed.respond .ok).tick = none := by
    rw [respond_tick, committed_tick]; exact noTick
  have inbox : ((s.taken conn (.reset :: .release :: rest)).committed.respond .ok).inbox =
      .reset :: .release :: rest := by rw [respond_inbox, committed_inbox]; rfl
  have first := step_presented presented decoded (exec_setCommit _)
  generalize (s.taken conn (.reset :: .release :: rest)).committed.respond .ok = u at nvm run' noTick' inbox first
  have marker : (u.restarted rest).nvm.read 0xFF = 0xA5 := by
    show u.nvm.read 0xFF = 0xA5
    rw [nvm, read_commit_above canonical (by decide)]
    exact marked run
  obtain ⟨t, booted, phase, config, runtime, -, edge, -⟩ := loadReadsStampedStore _ marker
  obtain ⟨-, -, -, rest', -, -, -⟩ := edge
  refine ⟨t, ?_, phase, sameConfig_of_stored (configInStore_commit canonical) (nvm ▸ config) legal,
    runtimeReset_of_same runtime (runtimeReset_applyReset { u with inbox := .release :: rest }), rest'⟩
  rw [runSteps_succ first, runSteps_restart run' noTick' inbox]
  exact runSteps_succ (step_load rfl rfl rfl rfl booted)

/-! ### A reset inside COMMIT or LOAD -/

/-- Settles O37: a reset after `k` of the eighteen payloads. -/
theorem cutCommitIsPrefixOfSlots : Obligations.CutCommitIsPrefixOfSlots := by
  intro s conn line rest k u run noTick inbox decoded cut inside canonical ran
  have whole : s.stepWhole = .next ((s.taken conn rest).committed.respond .ok) := by
    have fetched : s.fetch = some (.wire line) := by simp only [State.fetch, run, noTick, inbox]
    have accepted : s.accept (.wire line) = s.taken conn rest := by simp only [State.accept, inbox, State.taken]
    have settled : ((s.taken conn rest).committed.respond .ok).settle = (s.taken conn rest).committed.respond .ok :=
      settle_of_none (by rw [respond_tick, committed_tick]; exact noTick)
    simp only [State.stepWhole, fetched, decode_wire_ok.2 decoded, accepted, exec_setCommit, onNext, settled]
  have log : ((s.taken conn rest).committed.respond .ok).log =
      s.log ++ (writeActions (s.payloads allSlots) ++ [.resp conn .ok]) := by
    rw [respond_log, committed_log, List.append_assoc]
    rfl
  have length : (writeActions (s.payloads allSlots)).length = 18 := by
    rw [writeActions, List.length_map, State.payloads, List.length_map]
    rfl
  obtain ⟨t, next, phase, -, runtime, -, nvm⟩ := step_struck whole
    (by rw [respond_cut, committed_cut]; exact cut) log (by rw [List.length_append, length]; omega)
  rw [List.take_append_of_le_length (by omega), take_writeActions, replayStore_writeActions fun w hw =>
    payloads_off_marker s allSlots w (List.mem_of_mem_take hw)] at nvm
  refine ⟨t, next, phase, runtime, fun i r a here low high => ?_, fun a above => ?_⟩
  · obtain ⟨w, there, base, size⟩ := getElem?_of_ranges (payloads_ranges s) here
    have committed : u.nvm = putAll s.nvm (s.payloads allSlots) := by
      rw [← Host.Outcome.next.inj ((exec_setCommit s).symm.trans ran), respond_nvm, committed_nvm]
    rw [nvm, committed]
    exact (payloads_rising s).read_take canonical k there (base ▸ low) (by omega)
  · rw [nvm]
    have fit := fun w hw => payloads_fit s allSlots w (List.mem_of_mem_take (i := k) hw)
    refine read_putAll_outside canonical fit fun w hw => ?_
    obtain ⟨id, -, rfl⟩ := List.mem_map.1 (List.mem_of_mem_take hw)
    have := slot_below id
    simp only [length_slotData]
    omega

theorem stampWrites_rising : RisingPayloads stampWrites := ⟨by decide, stampWrites_fit⟩

theorem stampWrites_ranges : stampWrites.map (fun w => (w.1, w.2.length)) = slotRanges ++ [(0xFF, 1)] := by decide

/-- A LOAD that stamps once: the writes among its first actions. -/
theorem replayStore_take_load (m : Memory) (k : Nat) :
    (replayStore (m, 0) ((.memRead 0xFF 1 :: (stampActions ++ .memRead 0xFF 1 :: readoutActions)).take k)).1 =
      putAll m (stampWrites.take (k - 1)) := by
  cases k with
  | zero => rfl
  | succ n =>
    have reads : ∀ a ∈ (.memRead 0xFF 1 :: readoutActions).take (n - stampActions.length), isStoreWrite a = false := by
      have all : ∀ a ∈ Action.memRead 0xFF 1 :: readoutActions, isStoreWrite a = false := by decide
      exact fun a ha => all a (List.mem_of_mem_take ha)
    rw [List.take_succ_cons, List.take_append, ← writeActions_stamp, take_writeActions]
    show (replayStore (m, 0) (_ ++ _)).1 = _
    rw [replayStore_append, replayStore_noMiss, writeActions_stamp, replayStore_reads _ reads]
    rfl

/-- A LOAD whose first stamping takes. -/
theorem bootLoad_stampedOnce {s : State} (canonical : StoreCanonical s) (unmarked : s.nvm.read 0xFF ≠ 0xA5)
    (misses : s.markerMisses = 0) :
    ∃ t, s.bootLoad = .ok t ∧
      t.log = s.log ++ .memRead 0xFF 1 :: (stampActions ++ .memRead 0xFF 1 :: readoutActions) ∧ t.cut = s.cut := by
  obtain ⟨-, -, marker, -⟩ := afterStamp_store (s := s.probed) canonical
  obtain ⟨t, read, -, -, -, -, edge, log⟩ := readout_next s.probed.afterStamp
  obtain ⟨-, -, -, -, -, cut, -⟩ := edge
  refine ⟨t, (bootLoad_unmarked unmarked).trans ((if_pos (marker.trans (if_pos misses))).trans read), ?_, cut⟩
  rw [log, afterStamp_probed_log]
  simp

theorem afterStamp_nvm_of_noMiss {s : State} (misses : s.markerMisses = 0) :
    s.afterStamp.nvm = putAll s.nvm stampWrites := by
  simp only [State.afterStamp, misses, replayStore_noMiss]

/-- Settles O16: a reset keeps the first actions only; the writes of a LOAD that stamps are the slots, then the
marker. -/
theorem resetAbandonsOperation : Obligations.ResetAbandonsOperation := by
  refine ⟨fun s k t as cut whole kept log inside => step_struck whole (kept.trans cut) log inside, ?_⟩
  intro s k phase released cut inside canonical unmarked misses
  obtain ⟨t, boot, log, kept⟩ := bootLoad_stampedOnce canonical unmarked misses
  have fetched : s.fetch = some (.phase (phaseCode .reset)) := by simp only [State.fetch, phase, released]; rfl
  have whole : s.stepWhole = .next t.settle := by
    simp only [State.stepWhole, fetched]
    exact congrArg (onNext · State.settle) (exec_load_of_bootLoad boot)
  obtain ⟨u, next, phase', -, runtime, log', nvm⟩ := step_struck whole
    (by rw [settle_cut, kept]; exact cut) (by rw [settle_log]; exact log) (inside.trans (by decide))
  rw [misses, replayStore_take_load] at nvm
  obtain ⟨⟨zeros, -⟩, -, marker, -⟩ := afterStamp_store canonical
  rw [afterStamp_nvm_of_noMiss misses] at zeros marker
  refine ⟨u, next, phase', runtime, log', fun i r a here low high => ?_, fun a above inStore => ?_, ?_⟩
  · have slot : (slotRanges ++ [(0xFF, 1)])[i]? = some r := by
      rw [List.getElem?_append_left (List.getElem?_eq_some_iff.1 here).1, here]
    have inSlots : ∀ r ∈ slotRanges, r.1 + r.2 ≤ 0xC4 := by decide
    have := inSlots r (List.mem_of_getElem? here)
    obtain ⟨w, there, base, size⟩ := getElem?_of_ranges stampWrites_ranges slot
    rw [nvm, stampWrites_rising.read_take canonical (k - 1) there (base ▸ low) (by omega), zeros a (by omega)]
    simp only [show i < k - 1 ↔ i + 2 ≤ k by omega]
  · rw [nvm]
    refine read_putAll_outside canonical (fun w hw => stampWrites_fit w (List.mem_of_mem_take hw)) fun w hw => ?_
    have outside : ∀ w ∈ stampWrites, w.1 + w.2.length ≤ 0xC4 ∨ 0xFF ≤ w.1 := by decide
    have := outside w (List.mem_of_mem_take hw)
    omega
  · have there : stampWrites[18]? = some (0xFF, [0xA5]) := by decide
    rw [nvm, stampWrites_rising.read_take canonical (k - 1) there (by decide) (by decide), marker, if_pos misses]
    simp only [show 18 < k - 1 ↔ 20 ≤ k by omega]

end Sys2Proof.Machine
end

section
/-! PROOFS. The order of binary32: `orderKey` orders the patterns as their numbers are ordered, so the comparisons,
`fmin`, `pos` and `clamp` are those of the numbers (00_scope.md R13). -/

namespace Sys2Proof.Machine

open Sys2Proof

/-! ### Numbers and their order -/

/-- The number of units a place in the order stands for. -/
def keyUnits (k : Int) : Int := if k < 0 then -(unitsOfMag k.natAbs : Int) else unitsOfMag k.natAbs

theorem unitsOfMag_zero : unitsOfMag 0 = 0 := by decide

theorem unitsOfMag_pos {p : Nat} (h : 0 < p) : 0 < unitsOfMag p := unitsOfMag_zero ▸ unitsOfMag_strictMono h

theorem keyUnits_strictMono : StrictMono keyUnits := by
  intro a b less
  unfold keyUnits
  split
  case isTrue low =>
    have := unitsOfMag_pos (p := a.natAbs) (by omega)
    split
    case isTrue low' =>
      have := unitsOfMag_strictMono (show b.natAbs < a.natAbs by omega)
      omega
    case isFalse => omega
  case isFalse high =>
    rw [if_neg (by omega)]
    have := unitsOfMag_strictMono (show a.natAbs < b.natAbs by omega)
    omega

theorem intUnits_eq_keyUnits (x : F32) : intUnits x = keyUnits (orderKey x) := by
  unfold intUnits orderKey keyUnits magUnits
  cases isNeg x with
  | false => simp
  | true =>
    rcases Nat.eq_zero_or_pos (magBits x) with zero | pos
    · simp [zero, unitsOfMag_zero]
    · simp [pos]

theorem valueOf_eq (x : F32) : valueOf x = (intUnits x : ℚ) / 2 ^ 149 := rfl

theorem valueOf_lt_iff {a b : F32} : valueOf a < valueOf b ↔ orderKey a < orderKey b := by
  rw [valueOf_eq, valueOf_eq, div_lt_div_iff_of_pos_right (by positivity), Int.cast_lt, intUnits_eq_keyUnits,
    intUnits_eq_keyUnits, keyUnits_strictMono.lt_iff_lt]

theorem valueOf_le_iff {a b : F32} : valueOf a ≤ valueOf b ↔ orderKey a ≤ orderKey b := by
  rw [← not_lt, valueOf_lt_iff, not_lt]

theorem valueOf_eq_iff {a b : F32} : valueOf a = valueOf b ↔ orderKey a = orderKey b := by
  rw [le_antisymm_iff, valueOf_le_iff, valueOf_le_iff, ← le_antisymm_iff]

theorem valueOf_eq_zero_iff {x : F32} : valueOf x = 0 ↔ magBits x = 0 := by
  have zero : valueOf zeroF = 0 := by rw [valueOf_eq, show intUnits zeroF = 0 by decide]; norm_num
  rw [← zero, valueOf_eq_iff, show orderKey zeroF = 0 by decide]
  unfold orderKey
  split <;> omega

theorem valueOf_zeroF : valueOf zeroF = 0 := valueOf_eq_zero_iff.2 (by decide)

/-! ### Comparisons -/

theorem flt_of_isNaN {a b : F32} (h : isNaN a = true ∨ isNaN b = true) :
    flt a b = false ∧ fle a b = false ∧ feq a b = false := by
  rcases h with h | h <;> simp [flt, fle, feq, h]

theorem compare_eq {a b : F32} (ha : isNaN a = false) (hb : isNaN b = false) :
    flt a b = decide (orderKey a < orderKey b) ∧ fle a b = decide (orderKey a ≤ orderKey b) ∧
      feq a b = decide (orderKey a = orderKey b) := by
  simp [flt, fle, feq, ha, hb]

theorem flt_iff_value {a b : F32} (ha : isFinite a = true) (hb : isFinite b = true) :
    flt a b = true ↔ valueOf a < valueOf b := by
  rw [(compare_eq (isNaN_of_isFinite ha) (isNaN_of_isFinite hb)).1, decide_eq_true_iff, valueOf_lt_iff]

theorem fle_iff_value {a b : F32} (ha : isFinite a = true) (hb : isFinite b = true) :
    fle a b = true ↔ valueOf a ≤ valueOf b := by
  rw [(compare_eq (isNaN_of_isFinite ha) (isNaN_of_isFinite hb)).2.1, decide_eq_true_iff, valueOf_le_iff]

theorem feq_iff_value {a b : F32} (ha : isFinite a = true) (hb : isFinite b = true) :
    feq a b = true ↔ valueOf a = valueOf b := by
  rw [(compare_eq (isNaN_of_isFinite ha) (isNaN_of_isFinite hb)).2.2, decide_eq_true_iff, valueOf_eq_iff]

/-- A finite pattern lies between the infinities. -/
theorem orderKey_of_isFinite {x : F32} (h : isFinite x = true) :
    -(infBits : Int) < orderKey x ∧ orderKey x < infBits := by
  have := isFinite_iff.1 h
  unfold orderKey
  split <;> omega

theorem isInf_iff {x : F32} : isInf x = true ↔ magBits x = infBits := by simp [isInf]

theorem isNaN_of_isInf {x : F32} (h : isInf x = true) : isNaN x = false := isNaN_eq_false.2 (isInf_iff.1 h).le

theorem orderKey_of_isInf {x : F32} (h : isInf x = true) :
    orderKey x = if isNeg x then -(infBits : Int) else infBits := by
  rw [orderKey, isInf_iff.1 h]

/-- The comparisons with an infinity: it lies outside all numbers, on the side of its sign. -/
theorem compare_isInf {a b : F32} (ha : isFinite a = true) (hb : isInf b = true) :
    flt a b = !isNeg b ∧ fle a b = !isNeg b ∧ feq a b = false ∧
      flt b a = isNeg b ∧ fle b a = isNeg b ∧ feq b a = false := by
  have na := isNaN_of_isFinite ha
  have nb := isNaN_of_isInf hb
  obtain ⟨lt, le, eq⟩ := compare_eq na nb
  obtain ⟨lt', le', eq'⟩ := compare_eq nb na
  obtain ⟨low, high⟩ := orderKey_of_isFinite ha
  have key := orderKey_of_isInf hb
  rw [lt, le, eq, lt', le', eq', key]
  generalize orderKey a = k at low high
  cases isNeg b with
  | false =>
    simp only [Bool.false_eq_true, if_false, Bool.not_false, decide_eq_true_eq, decide_eq_false_iff_not]
    omega
  | true =>
    simp only [if_true, Bool.not_true, decide_eq_true_eq, decide_eq_false_iff_not]
    omega

theorem compare_infinities {a b : F32} (ha : isInf a = true) (hb : isInf b = true) :
    flt a b = (isNeg a && !isNeg b) ∧ fle a b = (isNeg a || !isNeg b) ∧ feq a b = (isNeg a == isNeg b) := by
  obtain ⟨lt, le, eq⟩ := compare_eq (isNaN_of_isInf ha) (isNaN_of_isInf hb)
  rw [lt, le, eq, orderKey_of_isInf ha, orderKey_of_isInf hb]
  cases isNeg a <;> cases isNeg b <;> decide

/-- The comparisons are those of the numbers (R13). -/
theorem comparesAsNumbers (a b : F32) : ComparesAsNumbers a b :=
  ⟨fun ha hb => ⟨flt_iff_value ha hb, fle_iff_value ha hb, feq_iff_value ha hb⟩, compare_isInf, compare_infinities,
    flt_of_isNaN⟩

/-! ### `fmin`, `pos` and `clamp` -/

theorem isFinite_zeroF : isFinite zeroF = true := by decide

theorem valueOf_fmin {x hi : F32} (hx : isFinite x = true) (hh : isFinite hi = true) :
    valueOf (fmin x hi) = min (valueOf x) (valueOf hi) := by
  unfold fmin
  split
  case isTrue less => rw [min_eq_left ((flt_iff_value hx hh).1 less).le]
  case isFalse notLess => rw [min_eq_right (not_lt.1 (mt (flt_iff_value hx hh).2 notLess))]

theorem valueOf_pos {x : F32} (hx : isFinite x = true) : valueOf (pos x) = max (valueOf x) 0 := by
  unfold pos
  rw [← valueOf_zeroF]
  split
  case isTrue above => rw [max_eq_left ((flt_iff_value isFinite_zeroF hx).1 above).le]
  case isFalse below => rw [max_eq_right (not_lt.1 (mt (flt_iff_value isFinite_zeroF hx).2 below))]

theorem isNeg_pos (x : F32) : isNeg (pos x) = false := by
  unfold pos
  split
  case isTrue above => exact (magBits_pos_of_flt above).1
  case isFalse => decide

theorem valueOf_clamp {x lo hi : F32} (hx : isFinite x = true) (hl : isFinite lo = true) (hh : isFinite hi = true)
    (order : valueOf lo ≤ valueOf hi) :
    valueOf (clamp x lo hi) = max (valueOf lo) (min (valueOf x) (valueOf hi)) := by
  unfold clamp
  split
  case isTrue above =>
    rw [min_eq_right ((flt_iff_value hh hx).1 above).le, max_eq_right order]
  case isFalse notAbove =>
    rw [min_eq_left (not_lt.1 (mt (flt_iff_value hh hx).2 notAbove))]
    split
    case isTrue inside => rw [max_eq_right ((fle_iff_value hl hx).1 inside)]
    case isFalse below => rw [max_eq_left (not_le.1 (mt (fle_iff_value hl hx).2 below)).le]

theorem clamp_isInf {x lo hi : F32} (hx : isInf x = true) (hl : isFinite lo = true) (hh : isFinite hi = true) :
    clamp x lo hi = if isNeg x then lo else hi := by
  obtain ⟨above, -⟩ := compare_isInf hh hx
  obtain ⟨-, inside, -⟩ := compare_isInf hl hx
  rw [clamp, above, inside]
  cases isNeg x <;> rfl

/-- The selections are those of the numbers (R13). -/
theorem selectsAsNumbers (x lo hi : F32) : SelectsAsNumbers x lo hi := by
  refine ⟨valueOf_fmin, fun hx positive hh => ?_, valueOf_pos, isNeg_pos x, fun nan => ?_, fun hl hh order =>
    ⟨fun hx => valueOf_clamp hx hl hh order, fun nan => ?_, fun hx => clamp_isInf hx hl hh⟩⟩
  · obtain ⟨-, -, -, less, -⟩ := compare_isInf hh hx
    rw [fmin, less, positive]
    rfl
  · rw [pos, (flt_of_isNaN (.inr nan)).1]
    rfl
  · rw [clamp, (flt_of_isNaN (.inr nan)).1, (flt_of_isNaN (.inr nan)).2.1]
    rfl

/-! ### Whole numbers -/

theorem valueOf_of_units {x : F32} {n : Nat} (h : intUnits x = n * 2 ^ 149) : valueOf x = n := by
  rw [valueOf_eq, h, Int.cast_mul, Int.cast_pow, Int.cast_natCast, Int.cast_ofNat, mul_div_assoc,
    div_self (by positivity), mul_one]

theorem valueOf_eq_magUnits {x : F32} (h : isNeg x = false) : valueOf x = (magUnits x : ℚ) / 2 ^ 149 := by
  rw [valueOf_eq, intUnits, h]
  norm_num

theorem isNeg_of_valueOf_pos {x : F32} (h : 0 < valueOf x) : isNeg x = false := by
  by_contra neg
  rw [Bool.not_eq_false] at neg
  rw [valueOf_eq, intUnits, if_pos neg] at h
  have : ((-(magUnits x : Int) : Int) : ℚ) ≤ 0 := by exact_mod_cast (by omega : -(magUnits x : Int) ≤ 0)
  have := div_nonpos_of_nonpos_of_nonneg this (by positivity : (0 : ℚ) ≤ 2 ^ 149)
  linarith

theorem floor_units (n : Nat) : ⌊(n : ℚ) / 2 ^ 149⌋₊ = n / 2 ^ 149 := by
  have floor := Nat.floor_div_eq_div (K := ℚ) n (2 ^ 149)
  rwa [Nat.cast_pow, Nat.cast_ofNat] at floor

/-- The floor of a number that is not negative. -/
theorem floorNat_eq {x : F32} (hx : isNaN x = false) (h : 0 ≤ valueOf x) : floorNat x = ⌊valueOf x⌋₊ := by
  rcases h.eq_or_lt with zero | above
  · have := valueOf_eq_zero_iff.1 zero.symm
    rw [← zero, floorNat]
    simp [magUnits, this, unitsOfMag_zero]
  · have positive := isNeg_of_valueOf_pos above
    rw [floorNat, hx, positive, valueOf_eq_magUnits positive, floor_units]
    rfl

/-- A finite number that is not negative is whole when it is its floor. -/
theorem isIntegral_iff {x : F32} (hx : isFinite x = true) (h : 0 ≤ valueOf x) :
    isIntegral x = true ↔ valueOf x = floorNat x := by
  have units : valueOf x = (magUnits x : ℚ) / 2 ^ 149 := by
    rcases h.eq_or_lt with zero | above
    · have := valueOf_eq_zero_iff.1 zero.symm
      simp [← zero, magUnits, this, unitsOfMag_zero]
    · exact valueOf_eq_magUnits (isNeg_of_valueOf_pos above)
  have back : (((magUnits x / 2 ^ 149 : Nat) : ℚ) * 2 ^ 149) = ((magUnits x / 2 ^ 149 * 2 ^ 149 : Nat) : ℚ) := by
    rw [Nat.cast_mul, Nat.cast_pow, Nat.cast_ofNat]
  rw [floorNat_eq (isNaN_of_isFinite hx) h, isIntegral, hx, Bool.true_and, decide_eq_true_iff, units, floor_units,
    div_eq_iff (by positivity), back, Nat.cast_inj]
  constructor
  · intro whole
    exact (Nat.div_mul_cancel (Nat.dvd_of_mod_eq_zero whole)).symm
  · intro whole
    rw [whole]
    exact Nat.mul_mod_left _ _

end Sys2Proof.Machine
end

section
/-! PROOFS. The decoder: an argument in range is one operand, an entry spells the operations of one name, and a line
decodes to what it spells (30_encoding.md R113 to R122, 43_cmd_dispatch.md R231 to R240). -/

namespace Sys2Proof.Machine

open Sys2Proof

/-! ### Arguments -/

/-- An operand the encoder can write so that it is read back: a small whole number, or a finite pattern. -/
def Writable : Operand → Prop
  | .int n => n ≤ 12
  | .real x => isFinite x = true

/-- The arguments inside a specification are the legal operands, each of them once. -/
structure Reads {α : Type} (a : ArgSpec) (arg : F32 → α) (operand : α → Operand) (legal : α → Bool) : Prop where
  read : ∀ v x, isFinite v = true → (inRange a v = true ∧ arg v = x ↔ (operand x).Is v ∧ legal x = true)
  writable : ∀ x, legal x = true → Writable (operand x)

/-- A specification admits the whole numbers from `lo` to `hi`, and nothing else. -/
def WholeRange (a : ArgSpec) (lo hi : Nat) : Prop :=
  ∀ v, isFinite v = true → (inRange a v = true ↔ ∃ k : Nat, valueOf v = k ∧ lo ≤ k ∧ k ≤ hi)

/-- An `int` specification admits the whole numbers between its bounds (30_encoding.md R118, R119). -/
theorem wholeRange_int {low high : F32} {lo hi : Nat} (lowFinite : isFinite low = true)
    (highFinite : isFinite high = true)
    (lowValue : valueOf low = lo) (highValue : valueOf high = hi) :
    WholeRange ⟨.int, some low, some high⟩ lo hi := by
  intro v finite
  simp only [inRange, Bool.and_eq_true, fle_iff_value lowFinite finite, fle_iff_value finite highFinite, lowValue,
    highValue]
  constructor
  · rintro ⟨⟨above, below⟩, whole⟩
    rw [isIntegral_iff finite ((Nat.cast_nonneg lo).trans above)] at whole
    refine ⟨floorNat v, whole, ?_, ?_⟩
    · exact_mod_cast above.trans whole.le
    · exact_mod_cast whole.ge.trans below
  · rintro ⟨k, value, above, below⟩
    have nonneg : 0 ≤ valueOf v := value ▸ Nat.cast_nonneg k
    refine ⟨⟨value ▸ Nat.cast_le.2 above, value ▸ Nat.cast_le.2 below⟩, ?_⟩
    rw [isIntegral_iff finite nonneg, floorNat_eq (isNaN_of_isFinite finite) nonneg, value, Nat.floor_natCast]

/-- The whole numbers of the tables are exact. -/
theorem valueOf_natToF32 {n : Nat} (h : n ≤ 12) : isFinite (natToF32 n) = true ∧ valueOf (natToF32 n) = n := by
  have exact : ∀ n ≤ 12, isFinite (natToF32 n) = true ∧ intUnits (natToF32 n) = n * 2 ^ 149 := by
    decide +kernel
  exact ⟨(exact n h).1, valueOf_of_units (exact n h).2⟩

theorem wholeRange_chanSpec {n : Nat} (h : n ≤ 12) : WholeRange (chanSpec n) 1 n := by
  obtain ⟨finite, value⟩ := valueOf_natToF32 h
  obtain ⟨finite1, value1⟩ := valueOf_natToF32 (n := 1) (by decide)
  rw [show natToF32 1 = 0x3F800000 by decide +kernel] at finite1 value1
  exact wholeRange_int finite1 finite value1 value

theorem wholeRange_codeSpec {n : Nat} (h : n ≤ 12) : WholeRange (codeSpec n) 0 n := by
  obtain ⟨finite, value⟩ := valueOf_natToF32 h
  exact wholeRange_int isFinite_zeroF finite (by rw [valueOf_zeroF, Nat.cast_zero]) value

/-- An operand that is a whole number, by its code. -/
theorem reads_whole {α : Type} {a : ArgSpec} {lo hi : Nat} {of : Nat → α} {code : α → Nat}
    (range : WholeRange a lo hi) (small : hi ≤ 12)
    (legal : ∀ x, lo ≤ code x ∧ code x ≤ hi) (inverse : ∀ x, of (code x) = x)
    (inverse' : ∀ k, lo ≤ k → k ≤ hi → code (of k) = k) :
    Reads a (fun v => of (floorNat v)) (fun x => .int (code x)) fun _ => true := by
  refine ⟨fun v x finite => ?_, fun x _ => (legal x).2.trans small⟩
  have floor : ∀ k : Nat, valueOf v = k → floorNat v = k := fun k value => by
    rw [floorNat_eq (isNaN_of_isFinite finite) (value ▸ Nat.cast_nonneg k), value, Nat.floor_natCast]
  simp only [range v finite, Operand.Is, and_true]
  constructor
  · rintro ⟨⟨k, value, above, below⟩, rfl⟩
    rw [floor k value, inverse' k above below, value]
  · intro value
    refine ⟨⟨code x, value, legal x⟩, ?_⟩
    rw [floor _ value, inverse]

theorem reads_heater : Reads (chanSpec 4) heaterArg (fun h => .int (h.val + 1)) fun _ => true :=
  reads_whole (of := fun k => Fin.ofNat 4 (k - 1)) (code := fun h => h.val + 1) (wholeRange_chanSpec (by decide))
    (by decide) (by decide) (by decide) fun k _ _ => show (k - 1) % 4 + 1 = k by omega

theorem reads_highPower : Reads (chanSpec 2) hpArg (fun j => .int (j.val + 1)) fun _ => true :=
  reads_whole (of := fun k => Fin.ofNat 2 (k - 1)) (code := fun j => j.val + 1) (wholeRange_chanSpec (by decide))
    (by decide) (by decide) (by decide) fun k _ _ => show (k - 1) % 2 + 1 = k by omega

theorem reads_sensor : Reads (chanSpec 12) sensorArg (fun n => .int (n.val + 1)) fun _ => true :=
  reads_whole (of := fun k => Fin.ofNat 12 (k - 1)) (code := fun n => n.val + 1) (wholeRange_chanSpec (by decide))
    (by decide) (by decide) (by decide) fun k _ _ => show (k - 1) % 12 + 1 = k by omega

theorem reads_index : Reads (codeSpec 12) indexArg (fun n => .int n.val) fun _ => true :=
  reads_whole (of := fun k => Fin.ofNat 13 k) (code := fun n => n.val) (wholeRange_codeSpec (by decide))
    (by decide) (by decide) (by decide) fun k _ _ => show k % 13 = k by omega

theorem reads_heaterMode : Reads (codeSpec 3) heaterModeArg (fun m => .int (heaterModeCode m).toNat) fun _ => true :=
  reads_whole (of := heaterModeOf) (wholeRange_codeSpec (by decide)) (by decide)
    (fun m => ⟨Nat.zero_le _, heaterModeCode_le m⟩)
    heaterModeOf_code fun k _ _ => by interval_cases k <;> rfl

theorem reads_hpMode : Reads (codeSpec 2) hpModeArg (fun m => .int (hpModeCode m).toNat) fun _ => true :=
  reads_whole (of := hpModeOf) (wholeRange_codeSpec (by decide)) (by decide)
    (fun m => ⟨Nat.zero_le _, hpModeCode_le m⟩)
    hpModeOf_code fun k _ _ => by interval_cases k <;> rfl

theorem reads_sensorType : Reads (codeSpec 6) sensorTypeArg (fun ty => .int (sensorTypeCode ty).toNat) fun _ => true :=
  reads_whole (of := sensorTypeOf) (wholeRange_codeSpec (by decide)) (by decide)
    (fun ty => ⟨Nat.zero_le _, sensorTypeCode_le ty⟩)
    sensorTypeOf_code fun k _ _ => by interval_cases k <;> rfl

theorem reads_tempUnit : Reads (codeSpec 2) tempUnitArg (fun u => .int (tempUnitCode u).toNat) fun _ => true :=
  reads_whole (of := tempUnitOf) (wholeRange_codeSpec (by decide)) (by decide)
    (fun u => ⟨Nat.zero_le _, tempUnitCode_le u⟩)
    tempUnitOf_code fun k _ _ => by interval_cases k <;> rfl

theorem reads_bit : Reads (codeSpec 1) bitArg (fun b => .int b.toNat) fun _ => true :=
  reads_whole (of := fun k => decide (k = 1)) (wholeRange_codeSpec (by decide)) (by decide) (by decide) (by decide)
    fun k _ _ => by interval_cases k <;> rfl

/-- A `real` operand is its pattern. -/
theorem reads_pattern {a : ArgSpec} {legal : F32 → Bool}
    (range : ∀ x, isFinite x = true → inRange a x = legal x) (finite : ∀ x, legal x = true → isFinite x = true) :
    Reads a (fun v => v) Operand.real legal := by
  refine ⟨fun v x finite => ?_, finite⟩
  simp only [Operand.Is, range v finite]
  constructor
  · rintro ⟨legal, rfl⟩
    exact ⟨rfl, legal⟩
  · rintro ⟨rfl, legal⟩
    exact ⟨legal, rfl⟩

theorem reads_real : Reads anyReal (fun v => v) Operand.real wfReal :=
  reads_pattern (fun _ finite => finite.symm) fun _ legal => legal

theorem reads_nonNegative : Reads nonNegative (fun v => v) Operand.real wfNonNegative :=
  reads_pattern (fun _ finite => by simp [inRange, nonNegative, wfNonNegative, finite])
    fun _ legal => by simp only [wfNonNegative, Bool.and_eq_true] at legal; exact legal.1

theorem reads_upTo (hi : F32) : Reads (upTo hi) (fun v => v) Operand.real (wfUpTo hi) :=
  reads_pattern (fun _ finite => by simp [inRange, upTo, wfUpTo, finite])
    fun _ legal => by simp only [wfUpTo, Bool.and_eq_true] at legal; exact legal.1.1

/-! ### Entries -/

/-- The operation of an entry on parsed arguments, when their count is right. -/
def applyHandler : Handler → List F32 → Option Instr
  | .zero i, [] => some i
  | .one _ f, [v] => some (f v)
  | .two _ _ f, [v, w] => some (f v w)
  | _, _ => none

section
variable {a b : ArgSpec} {f : F32 → Instr} {g : F32 → F32 → Instr} {t u : List Byte} {v w : F32}

theorem runHandler_one_none (bad : parseNumber t = none) : runHandler (.one a f) [t] = .error (.argNotNumber 1) := by
  simp [runHandler, parseArg, bad, bind, Except.bind]

theorem runHandler_one_some (good : parseNumber t = some v) :
    runHandler (.one a f) [t] = if inRange a v then .ok (f v) else .error (.argRange 1) := by
  simp only [runHandler, parseArg, checkArg, good, bind, Except.bind]
  by_cases range : inRange a v = true <;> simp [range]

theorem runHandler_two_none (bad : parseNumber t = none) :
    runHandler (.two a b g) [t, u] = .error (.argNotNumber 1) := by
  simp [runHandler, parseArg, bad, bind, Except.bind]

theorem runHandler_two_some_none (good : parseNumber t = some v) (bad : parseNumber u = none) :
    runHandler (.two a b g) [t, u] = .error (.argNotNumber 2) := by
  simp [runHandler, parseArg, good, bad, bind, Except.bind]

theorem runHandler_two_some (good : parseNumber t = some v) (good' : parseNumber u = some w) :
    runHandler (.two a b g) [t, u] =
      if inRange a v then if inRange b w then .ok (g v w) else .error (.argRange 2) else .error (.argRange 1) := by
  simp only [runHandler, parseArg, checkArg, good, good', bind, Except.bind]
  by_cases range : inRange a v = true
  · by_cases range' : inRange b w = true <;> simp [range, range']
  · simp [range]

end

theorem length_argSpecs (e : Handler) : (argSpecs e).length = argCount e := by cases e <;> rfl

/-- A wrong number of arguments. -/
theorem runHandler_argCount {e : Handler} {args : List (List Byte)} (wrong : args.length ≠ (argSpecs e).length) :
    runHandler e args = .error (.argCount (argSpecs e).length) := by
  unfold runHandler
  split
  case h_1 => exact absurd rfl wrong
  case h_2 => exact absurd rfl wrong
  case h_3 => exact absurd rfl wrong
  case h_4 => rw [length_argSpecs]

/-- The checked arguments of an entry. -/
def Admits (e : Handler) (vs : List F32) : Prop := List.Forall₂ (fun a v => inRange a v = true) (argSpecs e) vs

/-- An entry gives an operation when its arguments parse and are in range. -/
theorem runHandler_ok_iff {e : Handler} {args : List (List Byte)} {i : Instr} :
    runHandler e args = .ok i ↔
      ∃ vs : List F32, args.map parseNumber = vs.map some ∧ Admits e vs ∧ applyHandler e vs = some i := by
  constructor
  · intro ran
    by_cases count : args.length = (argSpecs e).length
    case neg => rw [runHandler_argCount count] at ran; cases ran
    match e, args, count with
    | .zero _, [], _ => exact ⟨[], rfl, .nil, congrArg some (Except.ok.inj ran)⟩
    | .one a f, [t], _ =>
      cases good : parseNumber t with
      | none => rw [runHandler_one_none good] at ran; cases ran
      | some v =>
        rw [runHandler_one_some good] at ran
        split at ran
        case isTrue range => exact ⟨[v], by simp [good], .cons range .nil, congrArg some (Except.ok.inj ran)⟩
        case isFalse => cases ran
    | .two a b g, [t, u], _ =>
      cases good : parseNumber t with
      | none => rw [runHandler_two_none good] at ran; cases ran
      | some v =>
        cases good' : parseNumber u with
        | none => rw [runHandler_two_some_none good good'] at ran; cases ran
        | some w =>
          rw [runHandler_two_some good good'] at ran
          split at ran
          case isFalse => cases ran
          case isTrue range =>
            split at ran
            case isFalse => cases ran
            case isTrue range' =>
              exact ⟨[v, w], by simp [good, good'], .cons range (.cons range' .nil), congrArg some (Except.ok.inj ran)⟩
  · rintro ⟨vs, parsed, admitted, applied⟩
    have count : args.length = vs.length := by simpa using congrArg List.length parsed
    match e, vs, admitted, args, count with
    | .zero _, [], _, [], _ => exact congrArg Except.ok (Option.some.inj applied)
    | .one a f, [v], .cons range .nil, [t], _ =>
      rw [runHandler_one_some (List.cons.inj parsed).1, if_pos range]
      exact congrArg Except.ok (Option.some.inj applied)
    | .two a b g, [v, w], .cons range (.cons range' .nil), [t, u], _ =>
      rw [runHandler_two_some (List.cons.inj parsed).1 (List.cons.inj (List.cons.inj parsed).2).1, if_pos range,
        if_pos range']
      exact congrArg Except.ok (Option.some.inj applied)

/-- An entry spells an operation: the finite arguments that give it are its operands, when it is well formed. -/
structure EntrySpells (e : Handler) (i : Instr) (operands : List Operand) : Prop where
  spells : ∀ vs : List F32, (∀ v ∈ vs, isFinite v = true) →
    (Admits e vs ∧ applyHandler e vs = some i ↔ List.Forall₂ Operand.Is operands vs ∧ WellFormed i = true)
  writable : WellFormed i = true → ∀ o ∈ operands, Writable o

/-- Only the right number of arguments is to be looked at. -/
theorem entrySpells_of_count {e : Handler} {i : Instr} {operands : List Operand}
    (count : operands.length = (argSpecs e).length)
    (spells : ∀ vs : List F32, vs.length = operands.length → (∀ v ∈ vs, isFinite v = true) →
      (Admits e vs ∧ applyHandler e vs = some i ↔ List.Forall₂ Operand.Is operands vs ∧ WellFormed i = true))
    (writable : WellFormed i = true → ∀ o ∈ operands, Writable o) : EntrySpells e i operands where
  spells vs finite :=
    ⟨fun h => (spells vs (count ▸ h.1.length_eq.symm) finite).1 h, fun h => (spells vs h.1.length_eq.symm finite).2 h⟩
  writable := writable

theorem entrySpells_zero {i : Instr} (legal : WellFormed i = true) : EntrySpells (.zero i) i [] := by
  refine entrySpells_of_count rfl (fun vs count _ => ?_) (by simp)
  match vs, count with
  | [], _ => exact ⟨fun _ => ⟨.nil, legal⟩, fun _ => ⟨.nil, rfl⟩⟩

theorem entrySpells_one {α : Type} {a : ArgSpec} {arg : F32 → α} {operand : α → Operand} {c : α → Instr}
    (reads : Reads a arg operand fun _ => true) (inj : ∀ x y, (c x = c y) = (x = y))
    (x : α) (legal : ∀ x, WellFormed (c x) = true := by intro _; rfl) :
    EntrySpells (.one a fun v => c (arg v)) (c x) [operand x] := by
  refine entrySpells_of_count rfl (fun vs count finite => ?_) fun _ o member => ?_
  · match vs, count with
    | [v], _ =>
      have read := reads.read v x (finite v (by simp))
      simpa [Admits, argSpecs, applyHandler, inj, legal] using read
  · rw [List.mem_singleton.1 member]
    exact reads.writable x rfl

theorem entrySpells_two {α β : Type} {a b : ArgSpec} {arg : F32 → α} {arg' : F32 → β} {operand : α → Operand}
    {operand' : β → Operand} {ok : β → Bool} {c : α → β → Instr} (reads : Reads a arg operand fun _ => true)
    (reads' : Reads b arg' operand' ok) (inj : ∀ x y x' y', (c x y = c x' y') = (x = x' ∧ y = y'))
    (x : α) (y : β) (legal : ∀ x y, WellFormed (c x y) = ok y := by intro _ _; rfl) :
    EntrySpells (.two a b fun v w => c (arg v) (arg' w)) (c x y) [operand x, operand' y] := by
  refine entrySpells_of_count rfl (fun vs count finite => ?_) fun wellFormed o member => ?_
  · match vs, count with
    | [v, w], _ =>
      have read := reads.read v x (finite v (by simp))
      have read' := reads'.read w y (finite w (by simp))
      simp only [Admits, argSpecs, applyHandler, Option.some.injEq, inj, legal, List.forall₂_cons,
        List.forall₂_nil_left_iff, and_true]
      tauto
  · rcases List.mem_pair.1 member with rfl | rfl
    · exact reads.writable x rfl
    · exact reads'.writable y ((legal x y).symm.trans wellFormed)

/-! ### The tables -/

/-- The entry of a command: the one of its name in the table of its verb spells it. -/
def HasEntry (i : Instr) (verb name : String) (operands : List Operand) : Prop :=
  ∃ table e, tableOf limits (ascii verb) = some table ∧ lookupEntry table (ascii name) = some e ∧
    EntrySpells e.handler i operands

/-- Every command has its entry (30_encoding.md R120, R121). -/
theorem hasEntry {i : Instr} {verb name : String} {operands : List Operand}
    (command : commandOf i = some (verb, name, operands)) : HasEntry i verb name operands := by
  cases i <;> cases command
  case setDacMode => exact ⟨_, _, rfl, rfl, entrySpells_two reads_heater reads_heaterMode Instr.setDacMode.injEq _ _⟩
  case setDacSns => exact ⟨_, _, rfl, rfl, entrySpells_two reads_heater reads_index Instr.setDacSns.injEq _ _⟩
  case setDacSp => exact ⟨_, _, rfl, rfl, entrySpells_two reads_heater reads_real Instr.setDacSp.injEq _ _⟩
  case setDacKp => exact ⟨_, _, rfl, rfl, entrySpells_two reads_heater reads_real Instr.setDacKp.injEq _ _⟩
  case setDacKi => exact ⟨_, _, rfl, rfl, entrySpells_two reads_heater reads_real Instr.setDacKi.injEq _ _⟩
  case setDacKd => exact ⟨_, _, rfl, rfl, entrySpells_two reads_heater reads_real Instr.setDacKd.injEq _ _⟩
  case setDacRes => exact ⟨_, _, rfl, rfl, entrySpells_two reads_heater reads_nonNegative Instr.setDacRes.injEq _ _⟩
  case setDacFp => exact ⟨_, _, rfl, rfl, entrySpells_two reads_heater (reads_upTo _) Instr.setDacFp.injEq _ _⟩
  case setDacTmax => exact ⟨_, _, rfl, rfl, entrySpells_two reads_heater reads_real Instr.setDacTmax.injEq _ _⟩
  case setDacTmin => exact ⟨_, _, rfl, rfl, entrySpells_two reads_heater reads_real Instr.setDacTmin.injEq _ _⟩
  case setDacCur => exact ⟨_, _, rfl, rfl, entrySpells_two reads_heater (reads_upTo _) Instr.setDacCur.injEq _ _⟩
  case setHpMode => exact ⟨_, _, rfl, rfl, entrySpells_two reads_highPower reads_hpMode Instr.setHpMode.injEq _ _⟩
  case setHpSns => exact ⟨_, _, rfl, rfl, entrySpells_two reads_highPower reads_index Instr.setHpSns.injEq _ _⟩
  case setHpSp => exact ⟨_, _, rfl, rfl, entrySpells_two reads_highPower reads_real Instr.setHpSp.injEq _ _⟩
  case setHpHyst => exact ⟨_, _, rfl, rfl, entrySpells_two reads_highPower reads_nonNegative Instr.setHpHyst.injEq _ _⟩
  case setHpTmax => exact ⟨_, _, rfl, rfl, entrySpells_two reads_highPower reads_real Instr.setHpTmax.injEq _ _⟩
  case setHpTmin => exact ⟨_, _, rfl, rfl, entrySpells_two reads_highPower reads_real Instr.setHpTmin.injEq _ _⟩
  case setHpState => exact ⟨_, _, rfl, rfl, entrySpells_two reads_highPower reads_bit Instr.setHpState.injEq _ _⟩
  case setSnsType => exact ⟨_, _, rfl, rfl, entrySpells_two reads_sensor reads_sensorType Instr.setSnsType.injEq _ _⟩
  case setSnsUnits => exact ⟨_, _, rfl, rfl, entrySpells_two reads_sensor reads_tempUnit Instr.setSnsUnits.injEq _ _⟩
  case setCommit => exact ⟨_, _, rfl, rfl, entrySpells_zero rfl⟩
  case setStopProgram => exact ⟨_, _, rfl, rfl, entrySpells_zero rfl⟩
  case setExit => exact ⟨_, _, rfl, rfl, entrySpells_zero rfl⟩
  case getDacMode => exact ⟨_, _, rfl, rfl, entrySpells_one reads_heater Instr.getDacMode.injEq _⟩
  case getDacSns => exact ⟨_, _, rfl, rfl, entrySpells_one reads_heater Instr.getDacSns.injEq _⟩
  case getDacSp => exact ⟨_, _, rfl, rfl, entrySpells_one reads_heater Instr.getDacSp.injEq _⟩
  case getDacKp => exact ⟨_, _, rfl, rfl, entrySpells_one reads_heater Instr.getDacKp.injEq _⟩
  case getDacKi => exact ⟨_, _, rfl, rfl, entrySpells_one reads_heater Instr.getDacKi.injEq _⟩
  case getDacKd => exact ⟨_, _, rfl, rfl, entrySpells_one reads_heater Instr.getDacKd.injEq _⟩
  case getDacRes => exact ⟨_, _, rfl, rfl, entrySpells_one reads_heater Instr.getDacRes.injEq _⟩
  case getDacFp => exact ⟨_, _, rfl, rfl, entrySpells_one reads_heater Instr.getDacFp.injEq _⟩
  case getDacTmax => exact ⟨_, _, rfl, rfl, entrySpells_one reads_heater Instr.getDacTmax.injEq _⟩
  case getDacTmin => exact ⟨_, _, rfl, rfl, entrySpells_one reads_heater Instr.getDacTmin.injEq _⟩
  case getDacCur => exact ⟨_, _, rfl, rfl, entrySpells_one reads_heater Instr.getDacCur.injEq _⟩
  case getDacCv => exact ⟨_, _, rfl, rfl, entrySpells_one reads_heater Instr.getDacCv.injEq _⟩
  case getDacPwr => exact ⟨_, _, rfl, rfl, entrySpells_one reads_heater Instr.getDacPwr.injEq _⟩
  case getHpMode => exact ⟨_, _, rfl, rfl, entrySpells_one reads_highPower Instr.getHpMode.injEq _⟩
  case getHpSns => exact ⟨_, _, rfl, rfl, entrySpells_one reads_highPower Instr.getHpSns.injEq _⟩
  case getHpSp => exact ⟨_, _, rfl, rfl, entrySpells_one reads_highPower Instr.getHpSp.injEq _⟩
  case getHpHyst => exact ⟨_, _, rfl, rfl, entrySpells_one reads_highPower Instr.getHpHyst.injEq _⟩
  case getHpTmax => exact ⟨_, _, rfl, rfl, entrySpells_one reads_highPower Instr.getHpTmax.injEq _⟩
  case getHpTmin => exact ⟨_, _, rfl, rfl, entrySpells_one reads_highPower Instr.getHpTmin.injEq _⟩
  case getHpState => exact ⟨_, _, rfl, rfl, entrySpells_one reads_highPower Instr.getHpState.injEq _⟩
  case getSnsType => exact ⟨_, _, rfl, rfl, entrySpells_one reads_sensor Instr.getSnsType.injEq _⟩
  case getSnsUnits => exact ⟨_, _, rfl, rfl, entrySpells_one reads_sensor Instr.getSnsUnits.injEq _⟩
  case getSnsTemp => exact ⟨_, _, rfl, rfl, entrySpells_one reads_sensor Instr.getSnsTemp.injEq _⟩

/-- The operation is the command of this verb and of the name of the entry. -/
def CommandNamed (verb : String) (e : Entry) (i : Instr) : Prop :=
  ∃ name operands, commandOf i = some (verb, name, operands) ∧ e.name = ascii name

theorem setTable_gives : ∀ e ∈ setTable limits, HandlerGives (CommandNamed "set" e) e.handler := by
  simp only [setTable, List.forall_mem_cons]
  and_intros
  iterate 20 exact fun _ _ _ _ _ _ => ⟨_, _, rfl, rfl⟩
  iterate 3 exact ⟨_, _, rfl, rfl⟩
  simp

theorem getTable_gives : ∀ e ∈ getTable, HandlerGives (CommandNamed "get" e) e.handler := by
  simp only [getTable, List.forall_mem_cons]
  and_intros
  iterate 23 exact fun _ _ _ => ⟨_, _, rfl, rfl⟩
  simp

/-- No comma in it, and its last byte no whitespace. -/
def plainToken (t : List Byte) : Bool := t.all (· != commaByte) && (t.getLast?.map isSpaceByte == some false)

theorem token_of_plain {t : List Byte} (plain : plainToken t = true) : Token t := by
  simp only [plainToken, Bool.and_eq_true, List.all_eq_true, bne_iff_ne, beq_iff_eq] at plain
  obtain ⟨c, last, visible⟩ := Option.map_eq_some_iff.1 plain.2
  obtain ⟨l, rfl⟩ := List.getLast?_eq_some_iff.1 last
  exact ⟨plain.1, l, c, rfl, visible⟩

theorem setTable_tokens : ∀ e ∈ setTable limits, Token e.name := by
  have plain : ((setTable limits).all fun e => plainToken e.name) = true := by decide +kernel
  exact fun e member => token_of_plain (List.all_eq_true.1 plain e member)

theorem getTable_tokens : ∀ e ∈ getTable, Token e.name := by
  have plain : (getTable.all fun e => plainToken e.name) = true := by decide +kernel
  exact fun e member => token_of_plain (List.all_eq_true.1 plain e member)

/-- All that is to be known of a verb and its table. -/
theorem tableOf_cases {verb : List Byte} {table : List Entry} (found : tableOf limits verb = some table) :
    Token verb ∧ (∀ e ∈ table, Token e.name) ∧
      ∃ v, verb = ascii v ∧ ∀ e ∈ table, HandlerGives (CommandNamed v e) e.handler := by
  unfold tableOf at found
  split at found
  case isTrue set =>
    cases found
    exact ⟨set ▸ token_of_plain (by decide +kernel), setTable_tokens, "set", set, setTable_gives⟩
  case isFalse =>
    split at found
    case isTrue get =>
      cases found
      exact ⟨get ▸ token_of_plain (by decide +kernel), getTable_tokens, "get", get, getTable_gives⟩
    case isFalse => cases found

theorem lookupEntry_some {table : List Entry} {name : List Byte} {e : Entry} (found : lookupEntry table name = some e) :
    e ∈ table ∧ e.name = name := by
  have same := List.find?_some found
  exact ⟨List.mem_of_find?_eq_some found, eq_of_beq same⟩

/-- What an entry gives, it spells: the entry is that of the command. -/
theorem entrySpells_of_runHandler {verb : List Byte} {table : List Entry} {name : List Byte} {e : Entry}
    {args : List (List Byte)} {i : Instr} (found : tableOf limits verb = some table)
    (entry : lookupEntry table name = some e) (ran : runHandler e.handler args = .ok i) :
    ∃ v n operands, commandOf i = some (v, n, operands) ∧ verb = ascii v ∧ name = ascii n ∧
      EntrySpells e.handler i operands := by
  obtain ⟨inTable, named⟩ := lookupEntry_some entry
  obtain ⟨-, -, v, isVerb, gives⟩ := tableOf_cases found
  obtain ⟨n, operands, command, isName⟩ := runHandler_ok (gives e inTable) ran
  obtain ⟨table', e', found', entry', spells⟩ := hasEntry command
  rw [← isVerb, found] at found'
  cases found'
  rw [← isName, named, entry] at entry'
  cases entry'
  exact ⟨v, n, operands, command, isVerb, named.symm.trans isName, spells⟩

/-! ### Lines -/

/-- The decoder on a line that is neither empty nor `q` and starts with `$`. -/
theorem decodeLine_tokens {line cs : List Byte} (stripped : rstrip line = dollarByte :: cs) :
    decodeLine line = decodeTokens limits (splitCommas cs) := by
  have notQ : ¬(dollarByte = qByte ∧ cs = []) := fun h => absurd h.1 (by decide)
  simp only [decodeLine, decodeLineWith, stripped, if_neg notQ, if_true]

theorem decodeTokens_entry {verb : List Byte} {rest : List (List Byte)} {table : List Entry} {e : Entry}
    (found : tableOf limits verb = some table) (entry : lookupEntry table (rest.headD []) = some e) :
    decodeTokens limits (verb :: rest) = runHandler e.handler (rest.drop 1) := by
  simp only [decodeTokens, found, entry]

theorem decodeTokens_ok {tokens : List (List Byte)} {i : Instr} (decoded : decodeTokens limits tokens = .ok i) :
    ∃ verb rest table e, tokens = verb :: rest ∧ tableOf limits verb = some table ∧
      lookupEntry table (rest.headD []) = some e ∧ runHandler e.handler (rest.drop 1) = .ok i := by
  match tokens with
  | [] => cases decoded
  | verb :: rest =>
    simp only [decodeTokens] at decoded
    split at decoded
    case h_1 => cases decoded
    case h_2 table found =>
      split at decoded
      case h_1 => cases decoded
      case h_2 e entry => exact ⟨verb, rest, table, e, rfl, found, entry, decoded⟩

theorem decodeLine_ok {line : List Byte} {i : Instr} (decoded : decodeLine line = .ok i) :
    (∃ cs, rstrip line = dollarByte :: cs ∧ decodeTokens limits (splitCommas cs) = .ok i) ∨
      (i = .q ∧ rstrip line = [qByte]) := by
  simp only [decodeLine, decodeLineWith] at decoded
  split at decoded
  case h_1 => cases decoded
  case h_2 c cs stripped =>
    split at decoded
    case isTrue isQ => exact .inr ⟨(Except.ok.inj decoded).symm, by rw [stripped, isQ.1, isQ.2]⟩
    case isFalse =>
      split at decoded
      case isTrue prefixed => exact .inl ⟨cs, by rw [stripped, prefixed], decoded⟩
      case isFalse => cases decoded

theorem decodeLine_q {line : List Byte} (stripped : rstrip line = [qByte]) : decodeLine line = .ok .q := by
  simp only [decodeLine, decodeLineWith, stripped, and_self, if_true]

theorem finite_of_parsed {args : List (List Byte)} {vs : List F32} (parsed : args.map parseNumber = vs.map some) :
    ∀ v ∈ vs, isFinite v = true := by
  intro v member
  have : some v ∈ args.map parseNumber := parsed ▸ List.mem_map_of_mem member
  obtain ⟨t, -, number⟩ := List.mem_map.1 this
  exact isFinite_of_parseNumber number

/-- The verb and the name of a command are tokens. -/
theorem token_command {i : Instr} {verb name : String} {operands : List Operand}
    (command : commandOf i = some (verb, name, operands)) : Token (ascii verb) ∧ Token (ascii name) := by
  obtain ⟨table, e, found, entry, -⟩ := hasEntry command
  obtain ⟨verbToken, nameTokens, -⟩ := tableOf_cases found
  obtain ⟨inTable, named⟩ := lookupEntry_some entry
  exact ⟨verbToken, named ▸ nameTokens e inTable⟩

theorem spells_of_decodeLine {line cs : List Byte} {i : Instr} (stripped : rstrip line = dollarByte :: cs)
    (decoded : decodeTokens limits (splitCommas cs) = .ok i) : Spells line i := by
  obtain ⟨verb, rest, table, e, tokens, found, entry, ran⟩ := decodeTokens_ok decoded
  obtain ⟨v, n, operands, command, isVerb, isName, spells⟩ := entrySpells_of_runHandler found entry ran
  obtain ⟨vs, parsed, admitted, applied⟩ := runHandler_ok_iff.1 ran
  obtain ⟨isOperands, legal⟩ := (spells.spells vs (finite_of_parsed parsed)).1 ⟨admitted, applied⟩
  match rest, isName with
  | [], isName =>
    obtain ⟨-, -, l, c, concat, -⟩ := token_command command
    exact absurd (isName.trans concat) (by simp)
  | name :: args, isName =>
    have cut : splitCommas cs = ascii v :: ascii n :: args := by rw [tokens, isVerb, ← isName]; rfl
    exact ⟨v, n, operands, cs, args, vs, command, legal, stripped, cut, parsed, isOperands⟩

theorem decodeLine_of_spells {line : List Byte} {i : Instr} (spelled : Spells line i) : decodeLine line = .ok i := by
  obtain ⟨v, n, operands, cs, args, vs, command, legal, stripped, tokens, parsed, isOperands⟩ := spelled
  obtain ⟨table, e, found, entry, spells⟩ := hasEntry command
  obtain ⟨admitted, applied⟩ := (spells.spells vs (finite_of_parsed parsed)).2 ⟨isOperands, legal⟩
  rw [decodeLine_tokens stripped, tokens, decodeTokens_entry (rest := ascii n :: args) found entry]
  exact runHandler_ok_iff.2 ⟨vs, parsed, admitted, applied⟩

/-- Settles O3: each entry spells the operations of its name, and the decoder looks up that entry. -/
theorem decodedLineIsWellFormed : Obligations.DecodedLineIsWellFormed := by
  refine ⟨fun line i decoded => ?_, fun line i => ⟨fun decoded => ?_, ?_⟩⟩
  · rcases decodeLine_ok decoded with ⟨cs, stripped, tokens⟩ | ⟨rfl, -⟩
    · obtain ⟨-, -, -, -, -, -, -, legal, -⟩ := spells_of_decodeLine stripped tokens
      exact legal
    · rfl
  · rcases decodeLine_ok decoded with ⟨cs, stripped, tokens⟩ | q
    · exact .inl (spells_of_decodeLine stripped tokens)
    · exact .inr q
  · rintro (spelled | ⟨rfl, stripped⟩)
    · exact decodeLine_of_spells spelled
    · exact decodeLine_q stripped

/-! ### Encoded lines -/

/-- The text the encoder writes for an operand. -/
def operandText : Operand → List Byte
  | .int n => natText n
  | .real x => exactText x

theorem encode_command {i : Instr} {verb name : String} {operands : List Operand}
    (command : commandOf i = some (verb, name, operands)) :
    encode i = .wire (lineOf verb name (operands.map operandText)) := by
  cases i <;> cases command <;> rfl

theorem token_operandText (o : Operand) : Token (operandText o) := by
  cases o with
  | int n => exact token_natText n
  | real x => exact token_exactText x

/-- Tokens joined by commas are cut back. -/
theorem splitCommas_join {t : List Byte} {ts : List (List Byte)} (first : Token t) (rest : ∀ u ∈ ts, Token u) :
    splitCommas (t ++ ts.flatMap fun u => commaByte :: u) = t :: ts := by
  induction ts generalizing t with
  | nil => rw [List.flatMap_nil, List.append_nil, splitCommas_token first.1]
  | cons u ts ih =>
    rw [List.flatMap_cons, List.cons_append, splitCommas_cons _ first.1,
      ih (rest u (by simp)) fun x member => rest x (by simp [member])]

theorem join_concat {t : List Byte} {ts : List (List Byte)} (first : Token t) (rest : ∀ u ∈ ts, Token u) :
    ∃ l c, (t ++ ts.flatMap fun u => commaByte :: u) = l ++ [c] ∧ isSpaceByte c = false := by
  induction ts generalizing t with
  | nil =>
    obtain ⟨-, l, c, e, visible⟩ := first
    exact ⟨l, c, by rw [List.flatMap_nil, List.append_nil, e], visible⟩
  | cons u ts ih =>
    obtain ⟨l, c, e, visible⟩ := ih (rest u (by simp)) fun x member => rest x (by simp [member])
    exact ⟨t ++ commaByte :: l, c, by rw [List.flatMap_cons, List.cons_append, e]; simp, visible⟩

/-- A small whole number parses to itself. -/
theorem parseNumber_small {n : Nat} (small : n ≤ 12) : parseNumber (natText n) = some (natToF32 n) := by
  have finite := isFinite_iff.1 (valueOf_natToF32 small).1
  rw [natToF32, magBits_packF32 false (mag := roundRat n 1) (roundUnits_lt _ _)] at finite
  have shown : decimalToF32 false n 0 =
      if roundRat (n * 1) 1 = infBits then none else some (packF32 false (roundRat (n * 1) 1)) := rfl
  rw [parseNumber_natText, shown, Nat.mul_one, if_neg finite.ne, natToF32]

/-- The text of a writable operand parses to it. -/
theorem parseNumber_operandText {o : Operand} (writable : Writable o) :
    ∃ v, parseNumber (operandText o) = some v ∧ o.Is v := by
  cases o with
  | int n => exact ⟨natToF32 n, parseNumber_small writable, (valueOf_natToF32 writable).2⟩
  | real x => exact ⟨x, parseNumber_exactText writable, rfl⟩

theorem parsed_operandTexts {operands : List Operand} (writable : ∀ o ∈ operands, Writable o) :
    ∃ vs : List F32, (operands.map operandText).map parseNumber = vs.map some ∧
      List.Forall₂ Operand.Is operands vs := by
  induction operands with
  | nil => exact ⟨[], rfl, .nil⟩
  | cons o operands ih =>
    obtain ⟨v, parsed, isOperand⟩ := parseNumber_operandText (writable o (by simp))
    obtain ⟨vs, parsed', areOperands⟩ := ih fun x member => writable x (by simp [member])
    exact ⟨v :: vs, by simp only [List.map_cons, parsed, parsed'], .cons isOperand areOperands⟩

/-- The line the encoder writes for a well-formed command spells it. -/
theorem spells_encoded {i : Instr} {verb name : String} {operands : List Operand}
    (command : commandOf i = some (verb, name, operands)) (legal : WellFormed i = true) :
    Spells (lineOf verb name (operands.map operandText)) i := by
  obtain ⟨_, _, -, -, entry⟩ := hasEntry command
  obtain ⟨vs, parsed, areOperands⟩ := parsed_operandTexts (entry.writable legal)
  obtain ⟨verbToken, nameToken⟩ := token_command command
  have tokens : ∀ t ∈ ascii name :: operands.map operandText, Token t := by
    intro t member
    rcases List.mem_cons.1 member with rfl | member
    · exact nameToken
    · obtain ⟨o, -, rfl⟩ := List.mem_map.1 member
      exact token_operandText o
  have line : lineOf verb name (operands.map operandText) =
      dollarByte :: (ascii verb ++ (ascii name :: operands.map operandText).flatMap fun t => commaByte :: t) := rfl
  obtain ⟨l, c, concat, visible⟩ := join_concat verbToken tokens
  refine ⟨verb, name, operands, _, _, vs, command, legal, ?_, splitCommas_join verbToken tokens, parsed, areOperands⟩
  rw [line, concat, ← List.cons_append, rstrip_concat _ visible]

theorem tick_of_noCommand {i : Instr} (noCommand : commandOf i = none) : decode (encode i) = .ok i := by
  cases i <;> cases noCommand <;> rfl

/-- Settles O1: the line of a command spells it; the other operations have codes. -/
theorem decodeOfEncodeIsIdentity : Obligations.DecodeOfEncodeIsIdentity := by
  intro i legal
  cases command : commandOf i with
  | none => exact tick_of_noCommand command
  | some c =>
    obtain ⟨verb, name, operands⟩ := c
    rw [encode_command command]
    exact decode_wire_ok.2 (decodeLine_of_spells (spells_encoded command legal))

/-- Settles O2: the decoder evaluates the lines. -/
theorem printedLinesDecode : Obligations.PrintedLinesDecode := ⟨rfl, rfl, rfl, rfl, rfl, rfl, rfl, rfl, rfl⟩

end Sys2Proof.Machine
end

section
/-! PROOFS. The order of the decoder's steps: each step that fails gives its own reason (43_cmd_dispatch.md R231 to
R239, 60_exceptions.md R351). -/

namespace Sys2Proof.Machine

open Sys2Proof

/-! ### Stripping and cutting -/

theorem isSpaceByte_iff (c : Byte) : isSpaceByte c = true ↔ c ∈ whitespace := by
  have all : ∀ c : Byte, isSpaceByte c = decide (c ∈ whitespace) := by decide +kernel
  rw [all, decide_eq_true_iff]

/-- What `rstrip` takes off is whitespace. -/
theorem rstrip_tail (line : List Byte) : ∃ tail, line = rstrip line ++ tail ∧ ∀ c, c ∈ tail → c ∈ whitespace := by
  refine ⟨(line.reverse.takeWhile isSpaceByte).reverse, ?_, fun c member => ?_⟩
  · rw [rstrip, ← List.reverse_append, List.takeWhile_append_dropWhile, List.reverse_reverse]
  · exact (isSpaceByte_iff c).1 (List.mem_takeWhile_imp (List.mem_reverse.1 member))

/-- What `rstrip` leaves ends in no whitespace. -/
theorem rstrip_last {line start : List Byte} {c : Byte} (stripped : rstrip line = start ++ [c]) : c ∉ whitespace := by
  have first : line.reverse.dropWhile isSpaceByte = c :: start.reverse := by
    rw [← List.reverse_reverse (line.reverse.dropWhile isSpaceByte)]
    rw [show (line.reverse.dropWhile isSpaceByte).reverse = start ++ [c] from stripped]
    simp
  have visible := List.head?_dropWhile_not isSpaceByte line.reverse
  rw [first, List.head?_cons] at visible
  rw [← isSpaceByte_iff]
  simpa using visible

theorem splitCommas_ne_nil (cs : List Byte) : splitCommas cs ≠ [] := by
  cases cs with
  | nil => exact List.cons_ne_nil _ _
  | cons c cs =>
    rw [splitCommas]
    split
    · exact List.cons_ne_nil _ _
    · split <;> exact List.cons_ne_nil _ _

/-- A byte that is no comma goes to the first token. -/
theorem splitCommas_cons_of_ne {c : Byte} {cs t : List Byte} {ts : List (List Byte)} (other : c ≠ commaByte)
    (cut : splitCommas cs = t :: ts) : splitCommas (c :: cs) = (c :: t) :: ts := by
  rw [splitCommas, if_neg other, cut]

/-- The tokens hold no comma, and joined by commas they give the text back. -/
theorem splitCommas_spec (cs : List Byte) :
    (∀ t, t ∈ splitCommas cs → 0x2C ∉ t) ∧ List.intercalate [0x2C] (splitCommas cs) = cs := by
  induction cs with
  | nil => exact ⟨by simp [splitCommas], rfl⟩
  | cons c cs ih =>
    obtain ⟨noComma, joined⟩ := ih
    obtain ⟨t, ts, cut⟩ := List.exists_cons_of_ne_nil (splitCommas_ne_nil cs)
    rw [cut] at noComma joined
    by_cases comma : c = commaByte
    · rw [splitCommas, if_pos comma, cut]
      refine ⟨fun u member => ?_, ?_⟩
      · rcases List.mem_cons.1 member with rfl | member
        · exact List.not_mem_nil
        · exact noComma u member
      · rw [List.intercalate_cons_cons, joined, comma]
        rfl
    · rw [splitCommas_cons_of_ne comma cut]
      refine ⟨fun u member => ?_, ?_⟩
      · rcases List.mem_cons.1 member with rfl | member
        · rw [List.mem_cons, not_or]
          exact ⟨fun e => comma e.symm, noComma t (by simp)⟩
        · exact noComma u (by simp [member])
      · rw [← joined]
        cases ts with
        | nil => simp
        | cons u ts => simp [List.intercalate_cons_cons]

/-! ### Steps 1 to 4 -/

theorem decodeLine_empty {line : List Byte} (stripped : rstrip line = []) : decodeLine line = .error .emptyLine := by
  simp only [decodeLine, decodeLineWith, stripped]

theorem decodeLine_badPrefix {line cs : List Byte} {c : Byte} (stripped : rstrip line = c :: cs)
    (other : c ≠ dollarByte)
    (notQ : c :: cs ≠ [qByte]) : decodeLine line = .error .badPrefix := by
  have notQ : ¬(c = qByte ∧ cs = []) := fun h => notQ (by rw [h.1, h.2])
  simp only [decodeLine, decodeLineWith, stripped, if_neg notQ, if_neg other]

theorem decodeTokens_badVerb {verb : List Byte} {rest : List (List Byte)} (unknown : tableOf limits verb = none) :
    decodeTokens limits (verb :: rest) = .error .badVerb := by
  simp only [decodeTokens, unknown]

theorem decodeTokens_unknownCommand {verb : List Byte} {rest : List (List Byte)} {table : List Entry}
    (found : tableOf limits verb = some table) (unknown : lookupEntry table (rest.headD []) = none) :
    decodeTokens limits (verb :: rest) = .error .unknownCommand := by
  simp only [decodeTokens, found, unknown]

/-! ### Steps 5 and 6 -/

/-- The lowest argument that is no number. -/
theorem runHandler_argNotNumber {e : Handler} {args : List (List Byte)} (count : args.length = (argSpecs e).length)
    {i : Nat} (inside : i < args.length) (before : ∀ k, k < i → parseNumber (args.getD k []) ≠ none)
    (bad : parseNumber (args.getD i []) = none) : runHandler e args = .error (.argNotNumber (i + 1)) := by
  match e, args, count, i, inside with
  | .zero _, [], _, i, inside => exact absurd inside (Nat.not_lt_zero i)
  | .one a f, [t], _, 0, _ => exact runHandler_one_none bad
  | .two a b f, [t, u], _, 0, _ => exact runHandler_two_none bad
  | .two a b f, [t, u], _, 1, _ =>
    obtain ⟨v, good⟩ := Option.ne_none_iff_exists'.1 (before 0 Nat.one_pos)
    exact runHandler_two_some_none good bad

/-- The lowest argument out of range, when all are numbers. -/
theorem runHandler_argRange {e : Handler} {args : List (List Byte)} {vs : List F32}
    (count : args.length = (argSpecs e).length) (parsed : args.map parseNumber = vs.map some) {i : Nat} {a : ArgSpec}
    {v : F32} (spec : (argSpecs e)[i]? = some a) (value : vs[i]? = some v)
    (before : ∀ k b w, k < i → (argSpecs e)[k]? = some b → vs[k]? = some w → inRange b w = true)
    (bad : inRange a v = false) : runHandler e args = .error (.argRange (i + 1)) := by
  have inside : i < (argSpecs e).length := (List.getElem?_eq_some_iff.1 spec).1
  have count' : args.length = vs.length := by simpa using congrArg List.length parsed
  match e, args, vs, i, count, count', inside with
  | .one a' f, [t], [v'], 0, _, _, _ =>
    cases spec
    cases value
    rw [runHandler_one_some (List.cons.inj parsed).1, bad]
    rfl
  | .two a' b' f, [t, u], [v', w'], 0, _, _, _ =>
    cases spec
    cases value
    rw [runHandler_two_some (List.cons.inj parsed).1 (List.cons.inj (List.cons.inj parsed).2).1, bad]
    rfl
  | .two a' b' f, [t, u], [v', w'], 1, _, _, _ =>
    cases spec
    cases value
    rw [runHandler_two_some (List.cons.inj parsed).1 (List.cons.inj (List.cons.inj parsed).2).1,
      if_pos (before 0 a' v' Nat.one_pos rfl rfl), bad]
    rfl

/-- All arguments are numbers in range. -/
theorem runHandler_all {e : Handler} {args : List (List Byte)} {vs : List F32}
    (count : args.length = (argSpecs e).length) (parsed : args.map parseNumber = vs.map some)
    (range : ∀ (i : Nat) a v, (argSpecs e)[i]? = some a → vs[i]? = some v → inRange a v = true) :
    ∃ op, runHandler e args = .ok op := by
  have count' : (argSpecs e).length = vs.length := count.symm.trans (by simpa using congrArg List.length parsed)
  have admitted : Admits e vs := by
    refine List.forall₂_iff_get.2 ⟨count', fun i h h' => range i _ _ ?_ ?_⟩
    · exact List.getElem?_eq_getElem h
    · exact List.getElem?_eq_getElem h'
  have applied : ∃ op, applyHandler e vs = some op := by
    match e, vs, count' with
    | .zero i, [], _ => exact ⟨i, rfl⟩
    | .one a f, [v], _ => exact ⟨f v, rfl⟩
    | .two a b f, [v, w], _ => exact ⟨f v w, rfl⟩
  obtain ⟨op, applied⟩ := applied
  exact ⟨op, runHandler_ok_iff.2 ⟨vs, parsed, admitted, applied⟩⟩

/-- Settles O6: each step of the decoder, when the steps before it pass. -/
theorem firstFailingStepGivesReason : Obligations.FirstFailingStepGivesReason := by
  refine ⟨fun line => ⟨rstrip_tail line, fun _ _ => rstrip_last⟩,
    fun cs => ⟨splitCommas_ne_nil cs, splitCommas_spec cs⟩, fun line =>
      ⟨decodeLine_empty, decodeLine_q, fun _ _ => decodeLine_badPrefix, fun cs verb rest stripped tokens => ?_⟩⟩
  rw [decodeLine_tokens stripped, tokens]
  refine ⟨decodeTokens_badVerb, fun table found => ⟨decodeTokens_unknownCommand found, fun e entry => ?_⟩⟩
  rw [decodeTokens_entry found entry]
  refine ⟨runHandler_argCount, fun count => ⟨fun _ => runHandler_argNotNumber count, fun vs parsed =>
    ⟨fun _ _ _ => runHandler_argRange count parsed, fun range => ?_⟩⟩⟩
  obtain ⟨op, ran⟩ := runHandler_all count parsed range
  exact ⟨op, ran, ran⟩

end Sys2Proof.Machine
end

section
/-! PROOFS. The rounding step: the rounded pattern is the nearest one, the even one of two that are as near, counted
past the largest finite number too, so that what rounds to infinity is what lies from the last midpoint on
(00_scope.md R12). -/

namespace Sys2Proof.Machine

open Sys2Proof

/-! ### Nearest pattern -/

/-- `t` lies between the midpoints on both sides of pattern `r`, on one of them only when `r` is even. -/
structure Nearest (t : ℝ) (r : Nat) : Prop where
  below_next : 2 * t ≤ unitsOfMag r + unitsOfMag (r + 1)
  next_tie : 2 * t = unitsOfMag r + unitsOfMag (r + 1) → r % 2 = 0
  above_last : ∀ p, r = p + 1 → (unitsOfMag p + unitsOfMag r : ℝ) ≤ 2 * t
  last_tie : ∀ p, r = p + 1 → (unitsOfMag p + unitsOfMag r : ℝ) = 2 * t → r % 2 = 0

theorem unitsOfMag_cast_lt {p q : Nat} (less : p < q) : (unitsOfMag p : ℝ) < unitsOfMag q :=
  Nat.cast_lt.2 (unitsOfMag_strictMono less)

theorem unitsOfMag_cast_le {p q : Nat} (le : p ≤ q) : (unitsOfMag p : ℝ) ≤ unitsOfMag q :=
  Nat.cast_le.2 (unitsOfMag_strictMono.monotone le)

/-- Every other pattern is farther, or as far and the rounded one is even. -/
theorem Nearest.nearer {t : ℝ} {r p : Nat} (h : Nearest t r) (other : p ≠ r) :
    |(unitsOfMag r : ℝ) - t| < |(unitsOfMag p : ℝ) - t| ∨
      (|(unitsOfMag r : ℝ) - t| = |(unitsOfMag p : ℝ) - t| ∧ r % 2 = 0) := by
  rcases Nat.lt_or_gt_of_ne other with less | more
  · obtain ⟨q, rfl⟩ : ∃ q, r = q + 1 := ⟨r - 1, by omega⟩
    have low := h.above_last q rfl
    have apart := unitsOfMag_cast_le (show p ≤ q by omega)
    have step := unitsOfMag_cast_lt (show q < q + 1 by omega)
    rcases low.lt_or_eq with low | tie
    · left
      rw [abs_sub_comm (unitsOfMag p : ℝ), abs_of_pos (show 0 < t - (unitsOfMag p : ℝ) by linarith), abs_lt]
      constructor <;> linarith
    · rcases apart.lt_or_eq with apart | same
      · left
        rw [abs_sub_comm (unitsOfMag p : ℝ), abs_of_pos (show 0 < t - (unitsOfMag p : ℝ) by linarith), abs_lt]
        constructor <;> linarith
      · right
        refine ⟨?_, h.last_tie q rfl tie⟩
        rw [abs_sub_comm (unitsOfMag p : ℝ), abs_of_pos (show 0 < t - (unitsOfMag p : ℝ) by linarith),
          abs_of_pos (by linarith)]
        linarith
  · have high := h.below_next
    have apart := unitsOfMag_cast_le (show r + 1 ≤ p by omega)
    have step := unitsOfMag_cast_lt (show r < r + 1 by omega)
    rcases high.lt_or_eq with high | tie
    · left
      rw [abs_of_pos (show 0 < (unitsOfMag p : ℝ) - t by linarith), abs_lt]
      constructor <;> linarith
    · rcases apart.lt_or_eq with apart | same
      · left
        rw [abs_of_pos (show 0 < (unitsOfMag p : ℝ) - t by linarith), abs_lt]
        constructor <;> linarith
      · right
        refine ⟨?_, h.next_tie tie⟩
        rw [abs_of_pos (show 0 < (unitsOfMag p : ℝ) - t by linarith), abs_sub_comm, abs_of_pos (by linarith)]
        linarith

/-- Rounding is monotone at the exact patterns. -/
theorem Nearest.ge_of_le {t : ℝ} {r p : Nat} (h : Nearest t r) (le : (unitsOfMag p : ℝ) ≤ t) : p ≤ r := by
  by_contra less
  have high := h.below_next
  have := unitsOfMag_cast_le (show r + 1 ≤ p by omega)
  have := unitsOfMag_cast_lt (show r < r + 1 by omega)
  linarith

theorem Nearest.le_of_le {t : ℝ} {r p : Nat} (h : Nearest t r) (le : t ≤ unitsOfMag p) : r ≤ p := by
  by_contra more
  obtain ⟨q, rfl⟩ : ∃ q, r = q + 1 := ⟨r - 1, by omega⟩
  have low := h.above_last q rfl
  have := unitsOfMag_cast_le (show p ≤ q by omega)
  have := unitsOfMag_cast_lt (show q < q + 1 by omega)
  linarith

/-! ### What the rounding gives -/

/-- `roundHalfEven` in terms of the quotient and the remainder. -/
theorem roundHalfEven_cases (num den : Nat) :
    (roundHalfEven num den = num / den ∧ 2 * (num % den) ≤ den ∧ (2 * (num % den) = den → num / den % 2 = 0)) ∨
      (roundHalfEven num den = num / den + 1 ∧ den ≤ 2 * (num % den) ∧
        (den = 2 * (num % den) → num / den % 2 = 1)) := by
  unfold roundHalfEven
  split
  case isTrue up => exact .inr ⟨rfl, by omega, by omega⟩
  case isFalse down => exact .inl ⟨rfl, by omega, by omega⟩

/-- The pattern of a significand of at most 24 bits and a shift. -/
theorem unitsOfMag_shift {s m : Nat} (fits : m ≤ 2 ^ 24) (normal : s = 0 ∨ 2 ^ 23 ≤ m) :
    unitsOfMag (s * 2 ^ 23 + m) = m * 2 ^ s := by
  unfold unitsOfMag
  rcases Nat.lt_or_ge m (2 ^ 23) with small | large
  · obtain rfl : s = 0 := by omega
    rw [if_pos (by omega)]
    omega
  · rcases Nat.lt_or_ge m (2 ^ 24) with below | top
    · have e1 : (s * 2 ^ 23 + m) / 2 ^ 23 = s + 1 := by omega
      have e2 : (s * 2 ^ 23 + m) % 2 ^ 23 + 2 ^ 23 = m := by omega
      rw [e1, e2, if_neg (by omega), Nat.add_sub_cancel]
    · obtain rfl : m = 2 ^ 24 := by omega
      have e1 : (s * 2 ^ 23 + 2 ^ 24) / 2 ^ 23 = s + 2 := by omega
      have e2 : (s * 2 ^ 23 + 2 ^ 24) % 2 ^ 23 = 0 := by omega
      rw [e1, e2, if_neg (by omega), Nat.add_sub_assoc (by decide), pow_add]
      ring

/-- The pattern `roundUnits` gives, before it is cut at the infinity. -/
def roundUncut (num den : Nat) : Nat :=
  (Nat.log2 (num / den) - 23) * 2 ^ 23 + roundHalfEven num (den * 2 ^ (Nat.log2 (num / den) - 23))

theorem roundUnits_eq (num den : Nat) : roundUnits num den = min (roundUncut num den) infBits := rfl

/-- The significand has 24 bits, or fewer below the least normal number. -/
theorem significand_range (q : Nat) :
    q / 2 ^ (Nat.log2 q - 23) < 2 ^ 24 ∧ (Nat.log2 q - 23 = 0 ∨ 2 ^ 23 ≤ q / 2 ^ (Nat.log2 q - 23)) := by
  constructor
  · rw [Nat.div_lt_iff_lt_mul (by positivity), ← pow_add]
    exact Nat.lt_log2_self.trans_le (Nat.pow_le_pow_right (by decide) (by omega))
  · rcases Nat.eq_zero_or_pos (Nat.log2 q - 23) with zero | shifted
    · exact .inl zero
    · refine .inr ((Nat.le_div_iff_mul_le (by positivity)).2 ?_)
      rw [← pow_add, show 23 + (Nat.log2 q - 23) = Nat.log2 q by omega]
      exact Nat.log2_self_le (by rintro rfl; simp at shifted)

/-- A number between two significands of one shift rounds to the nearer of the two. -/
theorem nearest_of_shift {s k : Nat} {f : ℝ} (below : k < 2 ^ 24) (normal : s = 0 ∨ 2 ^ 23 ≤ k) (low : 0 ≤ f)
    (high : f < 1) :
    (2 * f ≤ 1 → (2 * f = 1 → k % 2 = 0) → Nearest ((k + f) * 2 ^ s) (s * 2 ^ 23 + k)) ∧
      (1 ≤ 2 * f → (1 = 2 * f → k % 2 = 1) → Nearest ((k + f) * 2 ^ s) (s * 2 ^ 23 + (k + 1))) := by
  have unit : (0 : ℝ) < 2 ^ s := by positivity
  have here : (unitsOfMag (s * 2 ^ 23 + k) : ℝ) = k * 2 ^ s := by
    rw [unitsOfMag_shift below.le normal]
    push_cast
    rfl
  have next : (unitsOfMag (s * 2 ^ 23 + (k + 1)) : ℝ) = (k + 1) * 2 ^ s := by
    rw [unitsOfMag_shift below (by omega)]
    push_cast
    rfl
  have expand : (k + f) * (2 : ℝ) ^ s = k * 2 ^ s + f * 2 ^ s := by ring
  have expand' : ((k : ℝ) + 1) * 2 ^ s = k * 2 ^ s + 2 ^ s := by ring
  have nonneg : 0 ≤ f * (2 : ℝ) ^ s := by positivity
  have small : f * (2 : ℝ) ^ s < 2 ^ s := by nlinarith
  rw [expand, expand'] at *
  refine ⟨fun half even => ?_, fun half odd => ?_⟩
  · have half' : 2 * (f * (2 : ℝ) ^ s) ≤ 2 ^ s := by nlinarith
    refine ⟨?_, fun tie => ?_, fun p e => ?_, fun p e tie => ?_⟩
    · rw [Nat.add_assoc, here, next]
      linarith
    · rw [Nat.add_assoc, here, next] at tie
      have : (2 * f) * 2 ^ s = 1 * (2 : ℝ) ^ s := by linarith
      have := even (mul_right_cancel₀ unit.ne' this)
      omega
    · have := unitsOfMag_cast_lt (show p < s * 2 ^ 23 + k by omega)
      linarith
    · have := unitsOfMag_cast_lt (show p < s * 2 ^ 23 + k by omega)
      linarith
  · have half' : (2 : ℝ) ^ s ≤ 2 * (f * 2 ^ s) := by nlinarith
    have step := unitsOfMag_cast_lt (show s * 2 ^ 23 + (k + 1) < s * 2 ^ 23 + (k + 1) + 1 by omega)
    refine ⟨by linarith, fun tie => by linarith, fun p e => ?_, fun p e tie => ?_⟩
    · obtain rfl : p = s * 2 ^ 23 + k := by omega
      linarith
    · obtain rfl : p = s * 2 ^ 23 + k := by omega
      have : 1 * (2 : ℝ) ^ s = (2 * f) * 2 ^ s := by linarith
      have := odd (mul_right_cancel₀ unit.ne' this)
      omega

/-- The rounded pattern is the nearest one. -/
theorem nearest_roundUncut (num : Nat) {den : Nat} (positive : 0 < den) :
    Nearest ((num : ℝ) / den) (roundUncut num den) := by
  obtain ⟨below, normal⟩ := significand_range (num / den)
  unfold roundUncut
  generalize Nat.log2 (num / den) - 23 = s at below normal
  rw [Nat.div_div_eq_div_mul] at below normal
  have whole : 0 < den * 2 ^ s := by positivity
  have wholeR : (0 : ℝ) < (den * 2 ^ s : Nat) := Nat.cast_pos.2 whole
  have rest := Nat.mod_lt num whole
  have split := Nat.div_add_mod num (den * 2 ^ s)
  have cases := roundHalfEven_cases num (den * 2 ^ s)
  have value : (num : ℝ) / den =
      ((num / (den * 2 ^ s) : Nat) + (num % (den * 2 ^ s) : Nat) / (den * 2 ^ s : Nat)) * 2 ^ s := by
    have splitR : (num : ℝ) = (den * 2 ^ s : Nat) * (num / (den * 2 ^ s) : Nat) + (num % (den * 2 ^ s) : Nat) := by
      exact_mod_cast split.symm
    have denR : (den : ℝ) ≠ 0 := Nat.cast_ne_zero.2 positive.ne'
    rw [div_eq_iff denR, splitR]
    push_cast
    field_simp
  rw [value]
  generalize num / (den * 2 ^ s) = k at *
  generalize num % (den * 2 ^ s) = m at *
  generalize den * 2 ^ s = d at *
  have bridge : ∀ c : ℝ, 2 * ((m : ℝ) / d) = c ↔ ((2 * m : Nat) : ℝ) = c * d := fun c => by
    rw [← mul_div_assoc, div_eq_iff wholeR.ne']
    push_cast
    rfl
  obtain ⟨down, up⟩ := nearest_of_shift (f := (m : ℝ) / d) below normal (by positivity)
    ((div_lt_one wholeR).2 (Nat.cast_lt.2 rest))
  rcases cases with ⟨e, half, even⟩ | ⟨e, half, odd⟩
  · rw [e]
    refine down ?_ fun tie => even ?_
    · rw [← mul_div_assoc, div_le_one wholeR]
      exact_mod_cast half
    · rw [bridge, one_mul] at tie
      exact_mod_cast tie
  · rw [e]
    refine up ?_ fun tie => odd ?_
    · rw [← mul_div_assoc, one_le_div wholeR]
      exact_mod_cast half
    · rw [eq_comm, bridge, one_mul] at tie
      exact_mod_cast tie.symm

/-- The last midpoint, from which on a number rounds to infinity (R12), in units of 2^-149. -/
theorem lastMidpoint : (unitsOfMag (infBits - 1) + unitsOfMag infBits : ℝ) = 2 * ((2 ^ 128 - 2 ^ 103) * 2 ^ 149) := by
  have last : unitsOfMag (infBits - 1) = (2 ^ 24 - 1) * 2 ^ 253 := by decide +kernel
  have inf : unitsOfMag infBits = 2 ^ 24 * 2 ^ 253 := by decide +kernel
  rw [last, inf]
  norm_num

/-- What lies below the last midpoint rounds to a finite pattern. -/
theorem Nearest.lt_infBits_iff {t : ℝ} {r : Nat} (h : Nearest t r) :
    r < infBits ↔ t < (2 ^ 128 - 2 ^ 103) * 2 ^ 149 := by
  have mid := lastMidpoint
  constructor
  · intro finite
    have high := h.below_next
    have here := unitsOfMag_cast_le (show r ≤ infBits - 1 by omega)
    have next := unitsOfMag_cast_le (show r + 1 ≤ infBits by omega)
    rcases Nat.lt_or_ge r (infBits - 1) with below | top
    · have := unitsOfMag_cast_lt below
      linarith
    · obtain rfl : r = infBits - 1 := by omega
      have strict : 2 * t ≠ unitsOfMag (infBits - 1) + unitsOfMag (infBits - 1 + 1) := fun tie =>
        absurd (h.next_tie tie) (by decide)
      have := lt_of_le_of_ne high strict
      linarith
  · intro below
    by_contra infinite
    have positive : 0 < infBits := by decide
    obtain ⟨p, rfl⟩ : ∃ p, r = p + 1 := ⟨r - 1, by omega⟩
    have low := h.above_last p rfl
    have := unitsOfMag_cast_le (show infBits - 1 ≤ p by omega)
    have := unitsOfMag_cast_le (show infBits ≤ p + 1 by omega)
    linarith

end Sys2Proof.Machine
end

section
/-! PROOFS. The arithmetic of binary32: each operation hands the rounding the exact result in units of 2^-149
(00_scope.md R12). -/

namespace Sys2Proof.Machine

open Sys2Proof

/-! ### A pattern as the rounding of a real number -/

theorem valueOf_cast (x : F32) : (valueOf x : ℝ) = (intUnits x : ℝ) / 2 ^ 149 := by
  rw [valueOf_eq]
  push_cast
  rfl

theorem abs_intUnits (x : F32) : |(intUnits x : ℝ)| = unitsOfMag (magBits x) := by
  unfold intUnits magUnits
  split
  · rw [Int.cast_neg, abs_neg, Int.cast_natCast, abs_of_nonneg (Nat.cast_nonneg _)]
  · rw [Int.cast_natCast, abs_of_nonneg (Nat.cast_nonneg _)]

theorem intUnits_packF32 (neg : Bool) {mag : Nat} (h : mag < 2 ^ 31) :
    intUnits (packF32 neg mag) = if neg then -(unitsOfMag mag : Int) else unitsOfMag mag := by
  rw [intUnits, magUnits, isNeg_packF32 neg h, magBits_packF32 neg h]

theorem abs_sub_value (x : F32) (v : ℝ) : |(valueOf x : ℝ) - v| = |(intUnits x : ℝ) - v * 2 ^ 149| / 2 ^ 149 := by
  have unit : (0 : ℝ) < 2 ^ 149 := by positivity
  rw [eq_div_iff unit.ne', ← abs_of_pos unit, ← abs_mul, abs_of_pos unit, sub_mul, valueOf_cast,
    div_mul_cancel₀ _ unit.ne']

/-- The nearest magnitude with the sign of the number is the nearest pattern. -/
theorem Nearest.nearer_signed {w : ℝ} {neg : Bool} {r : Nat} (h : Nearest |w| r) (finite : r < infBits)
    (sign : w = if neg then -|w| else |w|) {y : F32} (other : intUnits y ≠ intUnits (packF32 neg r)) :
    |(intUnits (packF32 neg r) : ℝ) - w| < |(intUnits y : ℝ) - w| ∨
      (|(intUnits (packF32 neg r) : ℝ) - w| = |(intUnits y : ℝ) - w| ∧ r % 2 = 0) := by
  have units := intUnits_packF32 neg (mag := r) (finite.trans (by decide))
  have here : |(intUnits (packF32 neg r) : ℝ) - w| = |(unitsOfMag r : ℝ) - (|w|)| := by
    rw [units, sign]
    cases neg with
    | false => simp
    | true =>
      simp only [if_true, Int.cast_neg, Int.cast_natCast, abs_neg, abs_abs]
      rw [neg_sub_neg, abs_sub_comm]
  have there : |(unitsOfMag (magBits y) : ℝ) - (|w|)| ≤ |(intUnits y : ℝ) - w| := by
    rw [← abs_intUnits]
    exact abs_abs_sub_abs_le_abs_sub _ _
  rw [here]
  by_cases same : magBits y = r
  · left
    have opposite : intUnits y = -intUnits (packF32 neg r) := by
      rw [units] at other ⊢
      unfold intUnits magUnits at other ⊢
      rw [same] at other ⊢
      split_ifs at other ⊢ <;> omega
    have nonzero : (0 : ℝ) < unitsOfMag r := by
      refine Nat.cast_pos.2 (Nat.pos_of_ne_zero fun zero => other ?_)
      rw [units]
      unfold intUnits magUnits
      rw [same, zero]
      cases isNeg y <;> cases neg <;> rfl
    have away : 0 < |w| := by
      refine lt_of_le_of_ne (abs_nonneg w) fun zero => ?_
      have := h.le_of_le (p := 0) (by rw [← zero, unitsOfMag_zero, Nat.cast_zero])
      obtain rfl : r = 0 := by omega
      rw [unitsOfMag_zero, Nat.cast_zero] at nonzero
      exact lt_irrefl _ nonzero
    have far : |(intUnits y : ℝ) - w| = unitsOfMag r + |w| := by
      rw [opposite, Int.cast_neg, units, sign]
      cases neg with
      | false =>
        simp only [Bool.false_eq_true, if_false, Int.cast_natCast, abs_abs]
        rw [← neg_add', abs_neg, abs_of_pos (by linarith)]
      | true =>
        simp only [if_true, Int.cast_neg, Int.cast_natCast, abs_neg, abs_abs, neg_neg, sub_neg_eq_add]
        rw [abs_of_pos (by linarith)]
    rw [far, abs_lt]
    constructor <;> linarith
  · rcases h.nearer same with near | ⟨tie, even⟩
    · exact .inl (near.trans_le there)
    · rcases there.lt_or_eq with far | equal
      · exact .inl (tie.trans_lt far)
      · exact .inr ⟨tie.trans equal, even⟩

/-- The nearest magnitude, cut at the infinity, with the sign of the number is the number rounded. -/
theorem roundsTo_packF32 {v : ℝ} {neg : Bool} {r : Nat} (h : Nearest (|v| * 2 ^ 149) r)
    (sign : v ≠ 0 → (neg = true ↔ v < 0)) : RoundsTo v (packF32 neg (min r infBits)) := by
  have unit : (0 : ℝ) < 2 ^ 149 := by positivity
  have fits : min r infBits < 2 ^ 31 := (Nat.min_le_right _ _).trans_lt (by decide)
  have finite := h.lt_infBits_iff
  rw [mul_lt_mul_iff_left₀ unit] at finite
  refine ⟨fun nonzero => ?_, fun large => ?_, fun small => ?_⟩
  · rw [isNeg_packF32 _ fits]
    exact sign nonzero
  · rw [isInf_iff, magBits_packF32 _ fits]
    exact Nat.min_eq_right (not_lt.1 (mt finite.1 (not_lt.2 large)))
  · have inside := finite.2 small
    rw [Nat.min_eq_left inside.le] at fits ⊢
    refine ⟨by rw [isFinite_iff, magBits_packF32 _ fits]; exact inside, fun y _ other => ?_⟩
    have scaled : |v| * 2 ^ 149 = |v * 2 ^ 149| := by rw [abs_mul, abs_of_pos unit]
    rw [scaled] at h
    have signed : v * 2 ^ 149 = if neg then -|v * 2 ^ 149| else |v * 2 ^ 149| := by
      rw [← scaled]
      rcases eq_or_ne v 0 with rfl | nonzero
      · cases neg <;> simp
      · cases neg with
        | false =>
          have : 0 ≤ v := not_lt.1 fun below => absurd ((sign nonzero).2 below) (by simp)
          simp [abs_of_nonneg this]
        | true =>
          have := (sign nonzero).1 rfl
          simp [abs_of_neg this]
    have apart : intUnits y ≠ intUnits (packF32 neg r) := fun same => other (by rw [valueOf_eq, valueOf_eq, same])
    rw [abs_sub_value, abs_sub_value, magBits_packF32 _ fits, div_lt_div_iff_of_pos_right unit,
      div_left_inj' unit.ne']
    exact h.nearer_signed inside signed apart

theorem roundsTo_roundUnits {v : ℝ} {neg : Bool} {num den : Nat} (positive : 0 < den)
    (magnitude : |v| * 2 ^ 149 = (num : ℝ) / den) (sign : v ≠ 0 → (neg = true ↔ v < 0)) :
    RoundsTo v (packF32 neg (roundUnits num den)) :=
  roundsTo_packF32 (magnitude ▸ nearest_roundUncut num positive) sign

/-- The distance of a pattern from a quotient, in whole numbers. -/
theorem abs_sub_quotient (u num : Nat) {den : Nat} (positive : 0 < den) :
    |(u : ℝ) - (num : ℝ) / den| = (((u : Int) * den - num).natAbs : ℝ) / den := by
  have den' : (0 : ℝ) < den := Nat.cast_pos.2 positive
  rw [Nat.cast_natAbs, Int.cast_abs, eq_div_iff den'.ne', ← abs_of_pos den', ← abs_mul, abs_of_pos den', sub_mul,
    div_mul_cancel₀ _ den'.ne']
  push_cast
  rfl

/-- The rounding step by itself. -/
theorem roundUnits_nearest {num den : Nat} (positive : 0 < den) (finite : roundUnits num den < infBits) {p : Nat}
    (other : p ≠ roundUnits num den) :
    ((unitsOfMag (roundUnits num den) : Int) * den - num).natAbs < ((unitsOfMag p : Int) * den - num).natAbs ∨
      (((unitsOfMag (roundUnits num den) : Int) * den - num).natAbs = ((unitsOfMag p : Int) * den - num).natAbs ∧
        roundUnits num den % 2 = 0) := by
  have den' : (0 : ℝ) < den := Nat.cast_pos.2 positive
  have uncut : roundUnits num den = roundUncut num den := by rw [roundUnits_eq] at finite ⊢; omega
  rw [uncut] at other ⊢
  have nearer := (nearest_roundUncut num positive).nearer other
  rw [abs_sub_quotient _ _ positive, abs_sub_quotient _ _ positive, div_lt_div_iff_of_pos_right den',
    div_left_inj' den'.ne', Nat.cast_lt, Nat.cast_inj] at nearer
  exact nearer

end Sys2Proof.Machine
end

section
/-! PROOFS. The operations of binary32: the exact result rounded once, or the IEEE-754 default (00_scope.md R12). -/

namespace Sys2Proof.Machine

open Sys2Proof

/-! ### Signs -/

theorem magBits_fneg (x : F32) : magBits (fneg x) = magBits x := by
  have low : ∀ y : F32, magBits y = (y.setWidth 31).toNat := fun y => (BitVec.toNat_setWidth 31 y).symm
  rw [low, low, fneg, BitVec.setWidth_xor, show (0x80000000 : F32).setWidth 31 = 0#31 by decide, BitVec.xor_zero]

theorem isNeg_fneg (x : F32) : isNeg (fneg x) = !isNeg x := by
  rw [isNeg, isNeg, fneg, BitVec.msb_xor, show (0x80000000 : F32).msb = true by decide, Bool.xor_true]

theorem isNaN_fneg (x : F32) : isNaN (fneg x) = isNaN x := by rw [isNaN, isNaN, magBits_fneg]

theorem isInf_fneg (x : F32) : isInf (fneg x) = isInf x := by rw [isInf, isInf, magBits_fneg]

theorem isFinite_fneg (x : F32) : isFinite (fneg x) = isFinite x := by rw [isFinite, isFinite, magBits_fneg]

theorem intUnits_fneg (x : F32) : intUnits (fneg x) = -intUnits x := by
  unfold intUnits magUnits
  rw [magBits_fneg, isNeg_fneg]
  cases isNeg x <;> simp

theorem valueOf_fneg (x : F32) : valueOf (fneg x) = -valueOf x := by
  rw [valueOf_eq, valueOf_eq, intUnits_fneg, Int.cast_neg, neg_div]

/-- The sign bit of a number that is not zero. -/
theorem isNeg_iff_value {x : F32} (nonzero : valueOf x ≠ 0) : isNeg x = true ↔ valueOf x < 0 := by
  constructor
  · intro neg
    by_contra above
    rw [isNeg_of_valueOf_pos (lt_of_le_of_ne (not_lt.1 above) nonzero.symm)] at neg
    cases neg
  · intro below
    by_contra neg
    rw [Bool.not_eq_true] at neg
    have : (0 : ℚ) ≤ valueOf x := by rw [valueOf_eq_magUnits neg]; positivity
    linarith

theorem isNeg_iff_cast {x : F32} (nonzero : (valueOf x : ℝ) ≠ 0) : isNeg x = true ↔ (valueOf x : ℝ) < 0 := by
  rw [isNeg_iff_value (by exact_mod_cast nonzero)]
  exact_mod_cast Iff.rfl

/-- The sign of a product. -/
theorem neg_of_mul {x y : ℝ} {n m : Bool} (hx : x ≠ 0 → (n = true ↔ x < 0)) (hy : y ≠ 0 → (m = true ↔ y < 0))
    (nonzero : x * y ≠ 0) : ((n != m) = true ↔ x * y < 0) := by
  have positive : ∀ {z : ℝ} {k : Bool}, z ≠ 0 → (k = true ↔ z < 0) → (0 < z ↔ ¬k = true) := by
    intro z k hz sign
    rw [sign, not_lt, hz.symm.le_iff_lt]
  have hx0 := left_ne_zero_of_mul nonzero
  have hy0 := right_ne_zero_of_mul nonzero
  rw [bne_iff_ne, ne_eq, Bool.eq_iff_iff, mul_neg_iff, positive hx0 (hx hx0), positive hy0 (hy hy0), ← hx hx0, ← hy hy0]
  tauto

theorem abs_valueOf (x : F32) : |(valueOf x : ℝ)| = (magUnits x : ℝ) / 2 ^ 149 := by
  have unit : (0 : ℝ) < 2 ^ 149 := by positivity
  rw [valueOf_cast, abs_div, abs_intUnits, abs_of_pos unit]
  rfl

section
variable {a b : F32} (ha : isFinite a = true) (hb : isFinite b = true)
include ha hb

/-! ### Sums -/

theorem fadd_finite : fadd a b = packF32 (if intUnits a + intUnits b = 0 then isNeg a && isNeg b
    else decide (intUnits a + intUnits b < 0)) (roundUnits (intUnits a + intUnits b).natAbs 1) := by
  simp [fadd, isNaN_of_isFinite ha, isNaN_of_isFinite hb, isInf_of_isFinite ha, isInf_of_isFinite hb]

theorem roundsTo_fadd : RoundsTo (valueOf a + valueOf b) (fadd a b) := by
  have unit : (0 : ℝ) < 2 ^ 149 := by positivity
  have sum : (valueOf a : ℝ) + valueOf b = ((intUnits a + intUnits b : Int) : ℝ) / 2 ^ 149 := by
    rw [valueOf_cast, valueOf_cast]
    push_cast
    ring
  rw [fadd_finite ha hb, sum]
  refine roundsTo_roundUnits Nat.one_pos ?_ fun nonzero => ?_
  · rw [abs_div, abs_of_pos unit, div_mul_cancel₀ _ unit.ne', Nat.cast_one, div_one, Nat.cast_natAbs, Int.cast_abs]
  · have : intUnits a + intUnits b ≠ 0 := by
      rintro zero
      rw [zero] at nonzero
      simp at nonzero
    rw [if_neg this, decide_eq_true_iff, div_lt_iff₀ unit, zero_mul, Int.cast_lt_zero]

theorem isNeg_fadd_of_zero (zero : valueOf a + valueOf b = 0) : isNeg (fadd a b) = (isNeg a && isNeg b) := by
  have sum : intUnits a + intUnits b = 0 := by
    rw [valueOf_eq, valueOf_eq, ← add_div, div_eq_zero_iff, or_iff_left (by positivity)] at zero
    exact_mod_cast zero
  rw [fadd_finite ha hb, isNeg_packF32 _ (roundUnits_lt _ _), if_pos sum]

theorem isNaN_fadd : isNaN (fadd a b) = false := by
  rw [fadd_finite ha hb, isNaN_eq_false, magBits_packF32 _ (roundUnits_lt _ _)]
  exact roundUnits_le _ _

end

theorem fsub_of_isNaN {a b : F32} (h : isNaN (fadd a (fneg b)) = true) : isNaN (fsub a b) = true := by
  rw [fsub, if_pos h, isNaN_someNaN]

theorem fsub_eq_fadd {a b : F32} (h : isNaN (fadd a (fneg b)) = false) : fsub a b = fadd a (fneg b) := by
  rw [fsub, if_neg (by simp [h])]

section
variable {a b : F32} (ha : isFinite a = true) (hb : isFinite b = true)
include ha hb

theorem roundsTo_fsub : RoundsTo (valueOf a - valueOf b) (fsub a b) := by
  have hb' : isFinite (fneg b) = true := (isFinite_fneg b).trans hb
  have rounds := roundsTo_fadd ha hb'
  rw [fsub_eq_fadd (isNaN_fadd ha hb')]
  rwa [valueOf_fneg, Rat.cast_neg, ← sub_eq_add_neg] at rounds

theorem isNeg_fsub_of_zero (zero : valueOf a - valueOf b = 0) : isNeg (fsub a b) = (isNeg a && !isNeg b) := by
  have hb' : isFinite (fneg b) = true := (isFinite_fneg b).trans hb
  have sum : valueOf a + valueOf (fneg b) = 0 := by rw [valueOf_fneg, ← sub_eq_add_neg, zero]
  rw [fsub_eq_fadd (isNaN_fadd ha hb'), isNeg_fadd_of_zero ha hb' sum, isNeg_fneg]

/-! ### Products and quotients -/

theorem fmul_finite : fmul a b = packF32 (isNeg a != isNeg b) (roundUnits (magUnits a * magUnits b) (2 ^ 149)) := by
  simp [fmul, isNaN_of_isFinite ha, isNaN_of_isFinite hb, isInf_of_isFinite ha, isInf_of_isFinite hb]

theorem roundsTo_fmul : RoundsTo (valueOf a * valueOf b) (fmul a b) := by
  rw [fmul_finite ha hb]
  refine roundsTo_roundUnits (by positivity) ?_ (neg_of_mul isNeg_iff_cast isNeg_iff_cast)
  rw [abs_mul, abs_valueOf, abs_valueOf]
  push_cast
  ring

theorem isNeg_fmul : isNeg (fmul a b) = (isNeg a != isNeg b) := by
  rw [fmul_finite ha hb, isNeg_packF32 _ (roundUnits_lt _ _)]

theorem fdiv_finite (nonzero : valueOf b ≠ 0) :
    fdiv a b = packF32 (isNeg a != isNeg b) (roundUnits (magUnits a * 2 ^ 149) (magUnits b)) := by
  have : magBits b ≠ 0 := mt valueOf_eq_zero_iff.2 nonzero
  simp [fdiv, isNaN_of_isFinite ha, isNaN_of_isFinite hb, isInf_of_isFinite ha, isInf_of_isFinite hb, this, roundRat]

theorem roundsTo_fdiv (nonzero : valueOf b ≠ 0) : RoundsTo (valueOf a / valueOf b) (fdiv a b) := by
  have positive : 0 < magUnits b := unitsOfMag_pos (Nat.pos_of_ne_zero (mt valueOf_eq_zero_iff.2 nonzero))
  rw [fdiv_finite ha hb nonzero, div_eq_mul_inv]
  refine roundsTo_roundUnits positive ?_ (neg_of_mul isNeg_iff_cast fun inv => ?_)
  · rw [abs_mul, abs_inv, abs_valueOf, abs_valueOf]
    push_cast
    field_simp
    norm_num
  · rw [inv_lt_zero]
    exact isNeg_iff_cast (mt inv_eq_zero.2 inv)

theorem isNeg_fdiv (nonzero : valueOf b ≠ 0) : isNeg (fdiv a b) = (isNeg a != isNeg b) := by
  rw [fdiv_finite ha hb nonzero, isNeg_packF32 _ (roundUnits_lt _ _)]

theorem fdiv_by_zero (zero : valueOf b = 0) (nonzero : valueOf a ≠ 0) :
    fdiv a b = packF32 (isNeg a != isNeg b) infBits := by
  have : magBits a ≠ 0 := mt valueOf_eq_zero_iff.2 nonzero
  simp [fdiv, isNaN_of_isFinite ha, isNaN_of_isFinite hb, isInf_of_isFinite ha, isInf_of_isFinite hb, this,
    valueOf_eq_zero_iff.1 zero]

theorem isNaN_fdiv_zeros (zero : valueOf b = 0) (zero' : valueOf a = 0) : isNaN (fdiv a b) = true := by
  simp [fdiv, isNaN_of_isFinite ha, isNaN_of_isFinite hb, isInf_of_isFinite ha, isInf_of_isFinite hb,
    valueOf_eq_zero_iff.1 zero, valueOf_eq_zero_iff.1 zero']

end

/-! ### The root -/

/-- The bits found so far stay below the root, and the next power above it. -/
theorem isqrtBits_spec (i n r : Nat) (low : r * r ≤ n) (high : n < (r + 2 ^ i) * (r + 2 ^ i)) :
    isqrtBits i n r * isqrtBits i n r ≤ n ∧ n < (isqrtBits i n r + 1) * (isqrtBits i n r + 1) := by
  induction i generalizing r with
  | zero => exact ⟨low, by simpa [isqrtBits] using high⟩
  | succ i ih =>
    rw [isqrtBits]
    split
    case isTrue fits =>
      refine ih _ fits ?_
      rwa [Nat.add_assoc, ← Nat.two_mul, ← pow_succ']
    case isFalse tooLarge => exact ih r low (not_le.1 tooLarge)

theorem isqrt_spec (n : Nat) : isqrt n * isqrt n ≤ n ∧ n < (isqrt n + 1) * (isqrt n + 1) := by
  refine isqrtBits_spec _ n 0 (Nat.zero_le n) ?_
  rw [Nat.zero_add, ← pow_add]
  exact Nat.lt_log2_self.trans_le (Nat.pow_le_pow_right (by decide) (by omega))

/-- Units of patterns above the least binades are even. -/
theorem unitsOfMag_even {p : Nat} (large : 2 ^ 24 ≤ p) : unitsOfMag p % 2 = 0 := by
  obtain ⟨e, he⟩ : ∃ e, p / 2 ^ 23 = e + 2 := ⟨p / 2 ^ 23 - 2, by omega⟩
  rw [unitsOfMag, if_neg (by omega), he, show e + 2 - 1 = e + 1 by omega, pow_succ 2 e, ← Nat.mul_assoc]
  exact Nat.mul_mod_left _ _

/-- A half in the place of a fraction rounds as the fraction does, when the patterns around are far apart. -/
theorem Nearest.of_half {q r : Nat} {t : ℝ} (h : Nearest (((2 * q + 1 : Nat) : ℝ) / (2 : Nat)) r)
    (large : 2 ^ 24 < r) (low : (q : ℝ) < t) (high : t < q + 1) : Nearest t r := by
  have half : 2 * (((2 * q + 1 : Nat) : ℝ) / (2 : Nat)) = (2 * q + 1 : Nat) := by push_cast; ring
  have below := h.below_next
  rw [half] at below
  have below : 2 * q + 1 ≤ unitsOfMag r + unitsOfMag (r + 1) := by exact_mod_cast below
  have even := unitsOfMag_even (p := r) (by omega)
  have even' := unitsOfMag_even (p := r + 1) (by omega)
  have below : ((2 * q + 2 : Nat) : ℝ) ≤ (unitsOfMag r + unitsOfMag (r + 1) : Nat) := Nat.cast_le.2 (by omega)
  push_cast at below
  have above : ∀ p, r = p + 1 → (unitsOfMag p + unitsOfMag r : ℝ) ≤ 2 * q := by
    intro p e
    have above := h.above_last p e
    rw [half] at above
    have above : unitsOfMag p + unitsOfMag r ≤ 2 * q + 1 := by exact_mod_cast above
    have even'' := unitsOfMag_even (p := p) (by omega)
    have above : ((unitsOfMag p + unitsOfMag r : Nat) : ℝ) ≤ (2 * q : Nat) := Nat.cast_le.2 (by omega)
    push_cast at above
    exact above
  refine ⟨by linarith, fun tie => by linarith, fun p e => ?_, fun p e tie => ?_⟩
  · have := above p e
    linarith
  · have := above p e
    linarith

theorem fsqrt_positive {x : F32} (finite : isFinite x = true) (positive : 0 < valueOf x) :
    fsqrt x = packF32 false (roundUnits (2 * isqrt (magUnits x * 2 ^ 149) +
      if isqrt (magUnits x * 2 ^ 149) * isqrt (magUnits x * 2 ^ 149) = magUnits x * 2 ^ 149 then 0 else 1) 2) := by
  have nonzero : magBits x ≠ 0 := mt valueOf_eq_zero_iff.2 positive.ne'
  simp [fsqrt, isNaN_of_isFinite finite, isInf_of_isFinite finite, nonzero, isNeg_of_valueOf_pos positive]

/-- The root of a positive number, in units of 2^-149. -/
theorem sqrt_units {x : F32} (positive : 0 < valueOf x) :
    |Real.sqrt (valueOf x)| * 2 ^ 149 = Real.sqrt (magUnits x * 2 ^ 149 : Nat) := by
  have value : (valueOf x : ℝ) = (magUnits x : ℝ) / 2 ^ 149 := by
    rw [← abs_valueOf, abs_of_pos (by exact_mod_cast positive)]
  rw [abs_of_nonneg (Real.sqrt_nonneg _), value, eq_comm, Real.sqrt_eq_iff_mul_self_eq (by positivity) (by positivity)]
  rw [mul_mul_mul_comm, Real.mul_self_sqrt (by positivity)]
  push_cast
  field_simp
  norm_num

theorem roundsTo_fsqrt {x : F32} (finite : isFinite x = true) (positive : 0 < valueOf x) :
    RoundsTo (Real.sqrt (valueOf x)) (fsqrt x) := by
  have units := sqrt_units positive
  have sign : Real.sqrt (valueOf x) ≠ 0 → (false = true ↔ Real.sqrt (valueOf x) < 0) := fun _ =>
    ⟨fun h => absurd h Bool.false_ne_true, fun h => absurd h (not_lt.2 (Real.sqrt_nonneg _))⟩
  have nonzero : 0 < magUnits x := unitsOfMag_pos (Nat.pos_of_ne_zero (mt valueOf_eq_zero_iff.2 positive.ne'))
  rw [fsqrt_positive finite positive]
  have wide : 2 ^ 149 ≤ magUnits x * 2 ^ 149 := Nat.le_mul_of_pos_left _ nonzero
  generalize magUnits x * 2 ^ 149 = n at units wide
  obtain ⟨low, high⟩ := isqrt_spec n
  generalize isqrt n = q at low high
  split
  case isTrue perfect =>
    refine roundsTo_roundUnits Nat.two_pos ?_ sign
    rw [units, ← perfect, Nat.cast_mul, Real.sqrt_mul_self (Nat.cast_nonneg q)]
    push_cast
    ring
  case isFalse inexact =>
    have low : q * q < n := lt_of_le_of_ne low inexact
    have long : 2 ^ 25 ≤ q := by
      by_contra short
      have : (q + 1) * (q + 1) ≤ 2 ^ 25 * 2 ^ 25 := Nat.mul_le_mul (by omega) (by omega)
      omega
    have nearest := nearest_roundUncut (2 * q + 1) Nat.two_pos
    have large : 2 ^ 24 + 1 ≤ roundUncut (2 * q + 1) 2 := by
      refine nearest.ge_of_le ?_
      rw [show unitsOfMag (2 ^ 24 + 1) = 2 ^ 24 + 2 by decide, le_div_iff₀ (by positivity)]
      exact_mod_cast (by omega : (2 ^ 24 + 2) * 2 ≤ 2 * q + 1)
    refine roundsTo_packF32 (units ▸ nearest.of_half large ?_ ?_) sign
    · rw [Real.lt_sqrt (Nat.cast_nonneg q), sq]
      exact_mod_cast low
    · rw [Real.sqrt_lt' (by positivity), sq]
      exact_mod_cast high

theorem fsqrt_zero {x : F32} (zero : valueOf x = 0) : fsqrt x = x := by
  have := valueOf_eq_zero_iff.1 zero
  have number : isNaN x = false := isNaN_eq_false.2 (by rw [this]; decide)
  simp [fsqrt, number, this]

theorem isNaN_fsqrt_negative {x : F32} (finite : isFinite x = true) (negative : valueOf x < 0) :
    isNaN (fsqrt x) = true := by
  have nonzero : magBits x ≠ 0 := mt valueOf_eq_zero_iff.2 negative.ne
  simp [fsqrt, isNaN_of_isFinite finite, nonzero, (isNeg_iff_value negative.ne).2 negative]

/-! ### The operations on finite operands -/

theorem finiteArithmetic {a b : F32} (ha : isFinite a = true) (hb : isFinite b = true) : FiniteArithmetic a b :=
  ⟨roundsTo_fadd ha hb, isNeg_fadd_of_zero ha hb, roundsTo_fsub ha hb, isNeg_fsub_of_zero ha hb, roundsTo_fmul ha hb,
    isNeg_fmul ha hb, fun nonzero => ⟨roundsTo_fdiv ha hb nonzero, isNeg_fdiv ha hb nonzero⟩,
    fun zero nonzero => by
      have fits : infBits < 2 ^ 31 := by decide
      rw [fdiv_by_zero ha hb zero nonzero, isInf_iff, magBits_packF32 _ fits, isNeg_packF32 _ fits]
      exact ⟨rfl, rfl⟩,
    isNaN_fdiv_zeros ha hb, roundsTo_fsqrt ha, fsqrt_zero, isNaN_fsqrt_negative ha⟩

/-! ### The defaults -/

section
variable {a b : F32}

theorem fadd_of_isNaN (h : isNaN a = true ∨ isNaN b = true) : isNaN (fadd a b) = true := by
  have : (isNaN a || isNaN b) = true := by simpa using h
  rw [fadd, if_pos this, isNaN_someNaN]

theorem arithmetic_of_isNaN (h : isNaN a = true ∨ isNaN b = true) :
    isNaN (fadd a b) = true ∧ isNaN (fsub a b) = true ∧ isNaN (fmul a b) = true ∧ isNaN (fdiv a b) = true := by
  have some : (isNaN a || isNaN b) = true := by simpa using h
  refine ⟨fadd_of_isNaN h, fsub_of_isNaN (fadd_of_isNaN (by rwa [isNaN_fneg])), ?_, ?_⟩
  · rw [fmul, if_pos some, isNaN_someNaN]
  · rw [fdiv, if_pos some, isNaN_someNaN]

theorem isInf_packF32 (neg : Bool) : isInf (packF32 neg infBits) = true ∧ isNeg (packF32 neg infBits) = neg := by
  have fits : infBits < 2 ^ 31 := by decide
  rw [isInf_iff, magBits_packF32 _ fits, isNeg_packF32 _ fits]
  exact ⟨rfl, rfl⟩

/-- The sum of an infinity and no NaN: the infinity, unless the other is its opposite. -/
theorem fadd_isInf (ha : isInf a = true) (hb : isNaN b = false) :
    if isInf b = true ∧ isNeg a ≠ isNeg b then isNaN (fadd a b) = true else fadd a b = a := by
  have number : ¬(isNaN a || isNaN b) = true := by simp [isNaN_of_isInf ha, hb]
  rw [fadd, if_neg number, if_pos ha]
  by_cases opposite : isInf b = true ∧ isNeg a ≠ isNeg b
  · have : (isInf b && (isNeg a != isNeg b)) = true := by simpa using opposite
    rw [if_pos opposite, if_pos this, isNaN_someNaN]
  · have : ¬(isInf b && (isNeg a != isNeg b)) = true := by simpa using opposite
    rw [if_neg opposite, if_neg this]

theorem fadd_isInf_finite (ha : isInf a = true) (hb : isFinite b = true) : fadd a b = a := by
  have sum := fadd_isInf ha (isNaN_of_isFinite hb)
  rwa [if_neg (by simp [isInf_of_isFinite hb])] at sum

theorem fadd_finite_isInf (ha : isInf a = true) (hb : isFinite b = true) : fadd b a = a := by
  simp [fadd, isNaN_of_isInf ha, isNaN_of_isFinite hb, isInf_of_isFinite hb, ha]

theorem arithmetic_infinities (ha : isInf a = true) (hb : isInf b = true) :
    (if isNeg a = isNeg b then fadd a b = a ∧ isNaN (fsub a b) = true
      else isNaN (fadd a b) = true ∧ fsub a b = a) ∧
    isInf (fmul a b) = true ∧ isNeg (fmul a b) = (isNeg a != isNeg b) ∧ isNaN (fdiv a b) = true := by
  have na := isNaN_of_isInf ha
  have nb := isNaN_of_isInf hb
  have sum := fadd_isInf ha nb
  have difference := fadd_isInf ha (b := fneg b) (by rw [isNaN_fneg, nb])
  rw [isInf_fneg, isNeg_fneg] at difference
  have product : fmul a b = packF32 (isNeg a != isNeg b) infBits := by
    simp [fmul, na, nb, ha, isInf_iff.1 ha, isInf_iff.1 hb]
  refine ⟨?_, product ▸ (isInf_packF32 _).1, product ▸ (isInf_packF32 _).2, ?_⟩
  · split
    case isTrue same =>
      rw [if_neg (by simp [same])] at sum
      rw [if_pos ⟨hb, by simp [same]⟩] at difference
      exact ⟨sum, fsub_of_isNaN difference⟩
    case isFalse opposite =>
      rw [if_pos ⟨hb, opposite⟩] at sum
      rw [if_neg (by simp [Bool.eq_not.2 opposite])] at difference
      exact ⟨sum, (fsub_eq_fadd (by rw [difference, na])).trans difference⟩
  · simp [fdiv, na, nb, ha, hb]

theorem fmul_isInf_finite (ha : isInf a = true) (hb : isFinite b = true) :
    if valueOf b = 0 then isNaN (fmul a b) = true ∧ isNaN (fmul b a) = true
      else isInf (fmul a b) = true ∧ isNeg (fmul a b) = (isNeg a != isNeg b) ∧
        isInf (fmul b a) = true ∧ isNeg (fmul b a) = (isNeg a != isNeg b) := by
  have na := isNaN_of_isInf ha
  have nb := isNaN_of_isFinite hb
  split
  case isTrue zero => simp [fmul, na, nb, ha, valueOf_eq_zero_iff.1 zero]
  case isFalse nonzero =>
    have nonzero : magBits b ≠ 0 := mt valueOf_eq_zero_iff.2 nonzero
    have product : fmul a b = packF32 (isNeg a != isNeg b) infBits := by
      simp [fmul, na, nb, ha, isInf_iff.1 ha, nonzero]
    have product' : fmul b a = packF32 (isNeg a != isNeg b) infBits := by
      simp [fmul, na, nb, ha, isInf_iff.1 ha, nonzero, bne_comm]
    rw [product, product']
    exact ⟨(isInf_packF32 _).1, (isInf_packF32 _).2, (isInf_packF32 _).1, (isInf_packF32 _).2⟩

theorem arithmetic_isInf_finite (ha : isInf a = true) (hb : isFinite b = true) :
    fadd a b = a ∧ fadd b a = a ∧ fsub a b = a ∧ fsub b a = fneg a ∧
    (if valueOf b = 0 then isNaN (fmul a b) = true ∧ isNaN (fmul b a) = true
      else isInf (fmul a b) = true ∧ isNeg (fmul a b) = (isNeg a != isNeg b) ∧
        isInf (fmul b a) = true ∧ isNeg (fmul b a) = (isNeg a != isNeg b)) ∧
    isInf (fdiv a b) = true ∧ isNeg (fdiv a b) = (isNeg a != isNeg b) ∧
    valueOf (fdiv b a) = 0 ∧ isFinite (fdiv b a) = true ∧ isNeg (fdiv b a) = (isNeg a != isNeg b) := by
  have na := isNaN_of_isInf ha
  have nb := isNaN_of_isFinite hb
  have difference := fadd_isInf_finite ha ((isFinite_fneg b).trans hb)
  have difference' := fadd_finite_isInf ((isInf_fneg a).trans ha) hb
  have quotient : fdiv a b = packF32 (isNeg a != isNeg b) infBits := by simp [fdiv, na, nb, ha, isInf_of_isFinite hb]
  have quotient' : fdiv b a = packF32 (isNeg a != isNeg b) 0 := by
    simp [fdiv, na, nb, ha, isInf_of_isFinite hb, bne_comm]
  refine ⟨fadd_isInf_finite ha hb, fadd_finite_isInf ha hb, (fsub_eq_fadd (by rw [difference, na])).trans difference,
    (fsub_eq_fadd (by rw [difference', isNaN_fneg, na])).trans difference', fmul_isInf_finite ha hb,
    quotient ▸ (isInf_packF32 _).1, quotient ▸ (isInf_packF32 _).2, ?_, ?_, ?_⟩
  · rw [quotient', valueOf_eq_zero_iff, magBits_packF32 _ (by decide)]
  · rw [quotient', isFinite_iff, magBits_packF32 _ (by decide)]
    decide
  · rw [quotient', isNeg_packF32 _ (by decide)]

theorem fsqrt_isInf (ha : isInf a = true) : if isNeg a then isNaN (fsqrt a) = true else fsqrt a = a := by
  have nonzero : magBits a ≠ 0 := by rw [isInf_iff.1 ha]; decide
  split
  case isTrue neg => simp [fsqrt, isNaN_of_isInf ha, nonzero, neg]
  case isFalse positive => simp [fsqrt, isNaN_of_isInf ha, nonzero, positive, ha]

end

theorem defaultArithmetic (a b : F32) : DefaultArithmetic a b :=
  ⟨arithmetic_of_isNaN, fun nan => by rw [fsqrt, if_pos nan, isNaN_someNaN], arithmetic_infinities,
    arithmetic_isInf_finite, fsqrt_isInf⟩

/-- Settles O53: the rounding step is nearest-even, and each operation hands it the exact result. -/
theorem roundingIsNearestEven : Obligations.RoundingIsNearestEven :=
  ⟨fun _ _ => finiteArithmetic, defaultArithmetic, comparesAsNumbers, selectsAsNumbers,
    fun _ _ positive finite _ _ other => roundUnits_nearest positive finite other⟩

end Sys2Proof.Machine
end

section
/-! PROOFS. What rests on the arithmetic: the code of a current (41_dac_distribution.md R190) and the PID tick
(40_heater_control.md R155). -/

namespace Sys2Proof.Machine

open Sys2Proof

/-! ### The code of a current -/

/-- Rounding keeps what is at least a pattern at least that pattern. -/
theorem le_roundUnits {p num den : Nat} (positive : 0 < den) (inside : p ≤ infBits) (le : unitsOfMag p * den ≤ num) :
    p ≤ roundUnits num den := by
  rw [roundUnits_eq]
  refine Nat.le_min.2 ⟨(nearest_roundUncut num positive).ge_of_le ?_, inside⟩
  rw [le_div_iff₀ (Nat.cast_pos.2 positive)]
  exact_mod_cast le

/-- A quotient of a number from zero on by a positive one. -/
theorem fdiv_nonneg {a b : F32} (ha : fle zeroF a = true) (hb : flt zeroF b = true) (fb : isFinite b = true) :
    fle zeroF (fdiv a b) = true := by
  obtain ⟨na, sa⟩ := fle_zero_iff.1 ha
  obtain ⟨nb, sb, mb⟩ := flt_zero_fields hb
  rw [fle_zero_iff]
  rcases lt_or_eq_of_le (isNaN_eq_false.1 na) with finite | inf
  · rw [fdiv_finite (isFinite_iff.2 finite) fb (mt valueOf_eq_zero_iff.1 mb.ne'), sb, Bool.bne_false]
    refine ⟨isNaN_eq_false.2 ?_, ?_⟩
    · rw [magBits_packF32 _ (roundUnits_lt _ _)]
      exact roundUnits_le _ _
    · rw [isNeg_packF32 _ (roundUnits_lt _ _), magBits_packF32 _ (roundUnits_lt _ _)]
      exact sa.imp_right fun zero => by rw [magUnits_eq_zero zero, Nat.zero_mul, roundUnits_zero]
  · have quotient := arithmetic_isInf_finite (isInf_iff.2 inf) fb
    obtain ⟨-, -, -, -, -, infinite, sign, -⟩ := quotient
    have positive : isNeg a = false := sa.resolve_right (by rw [inf]; decide)
    exact ⟨isNaN_of_isInf infinite, .inl (by rw [sign, positive, sb]; rfl)⟩

theorem floorNat_of_nonneg {x : F32} (h : fle zeroF x = true) : floorNat x = magUnits x / 2 ^ 149 := by
  obtain ⟨nan, sign⟩ := fle_zero_iff.1 h
  rcases sign with positive | zero
  · simp [floorNat, nan, positive]
  · simp [floorNat, magUnits_eq_zero zero]

/-- A quotient of a current by a limit it reaches is at least 1. -/
theorem one_le_fdiv {cv mc : F32} (limit : flt zeroF mc = true) (finite : isFinite mc = true)
    (reached : fle mc cv = true) : 0x3F800000 ≤ magBits (fdiv cv mc) := by
  obtain ⟨-, sign, positive⟩ := flt_zero_fields limit
  obtain ⟨-, nan, order⟩ := fle_iff.1 reached
  have larger : magBits mc ≤ magBits cv := by
    unfold orderKey at order
    rw [sign, if_neg Bool.false_ne_true] at order
    split at order <;> omega
  rcases lt_or_eq_of_le (isNaN_eq_false.1 nan) with number | inf
  · rw [fdiv_finite (isFinite_iff.2 number) finite (mt valueOf_eq_zero_iff.1 positive.ne'),
      magBits_packF32 _ (roundUnits_lt _ _)]
    refine le_roundUnits (unitsOfMag_pos positive) (by decide) ?_
    rw [show unitsOfMag 0x3F800000 = 2 ^ 149 by decide +kernel, Nat.mul_comm]
    exact Nat.mul_le_mul_right _ (unitsOfMag_strictMono.monotone larger)
  · obtain ⟨-, -, -, -, -, infinite, -⟩ := arithmetic_isInf_finite (isInf_iff.2 inf) finite
    rw [isInf_iff.1 infinite]
    decide

/-- A number of at least 1, 2^18 times. -/
theorem magBits_fmul_f262144 {q : F32} (nonneg : fle zeroF q = true) (large : 0x3F800000 ≤ magBits q) :
    0x48800000 ≤ magBits (fmul q f262144) := by
  obtain ⟨nan, -⟩ := fle_zero_iff.1 nonneg
  have finite : isFinite f262144 = true := by decide
  rcases lt_or_eq_of_le (isNaN_eq_false.1 nan) with number | inf
  · rw [fmul_finite (isFinite_iff.2 number) finite, magBits_packF32 _ (roundUnits_lt _ _)]
    refine le_roundUnits (by positivity) (by decide) ?_
    have units := unitsOfMag_strictMono.monotone large
    rw [show unitsOfMag 0x3F800000 = 2 ^ 149 by decide +kernel] at units
    calc unitsOfMag 0x48800000 * 2 ^ 149 ≤ unitsOfMag 0x48800000 * magUnits q := Nat.mul_le_mul_left _ units
      _ = magUnits q * magUnits f262144 := Nat.mul_comm _ _
  · have product := fmul_isInf_finite (isInf_iff.2 inf) finite
    rw [if_neg (mt valueOf_eq_zero_iff.1 (by decide))] at product
    rw [isInf_iff.1 product.1]
    decide

/-- Settles O52: the product is rounded to a number from zero on, and to at least 2^18 where the limit is
reached. -/
theorem codeOfIsBounded : Obligations.CodeOfIsBounded := by
  refine ⟨valueOf_of_units (n := 262144) (by decide +kernel), fun cv mc limit finite nonneg => ?_⟩
  have quotient := fdiv_nonneg nonneg limit finite
  have product := fmul_nonneg quotient (b := f262144) (by decide) (by decide)
  have code : codeOf cv mc = min (floorNat (fmul (fdiv cv mc) f262144)) 262144 := rfl
  obtain ⟨number, -, positive⟩ := flt_zero_fields limit
  have full : 0x48800000 ≤ magBits (fmul (fdiv cv mc) f262144) → codeOf cv mc = 262144 := by
    intro large
    have units := Nat.div_le_div_right (c := 2 ^ 149) (unitsOfMag_strictMono.monotone large)
    rw [show unitsOfMag 0x48800000 / 2 ^ 149 = 262144 by decide +kernel] at units
    rw [code, floorNat_of_nonneg product]
    exact Nat.min_eq_right units
  refine ⟨fun small => ?_, fun infinite => ?_, codeOf_le cv mc, fun zero => ?_, fun reached => ?_⟩
  · have above : 0 ≤ valueOf (fmul (fdiv cv mc) f262144) := by
      rw [← valueOf_zeroF]
      exact (fle_iff_value isFinite_zeroF small).1 product
    exact code.trans (congrArg (min · 262144) (floorNat_eq (isNaN_of_isFinite small) above))
  · refine full (le_trans ?_ (not_lt.1 fun h => Bool.eq_false_iff.1 infinite (isFinite_iff.2 h)))
    decide
  · refine codeOf_zero ?_ number positive.ne'
    have key := (compare_eq (fle_iff.1 nonneg).2.1 isNaN_zeroF).2.2.symm.trans zero
    rw [decide_eq_true_iff, ← valueOf_eq_iff, valueOf_zeroF] at key
    exact valueOf_eq_zero_iff.1 key
  · exact full (magBits_fmul_f262144 quotient (one_le_fdiv limit finite reached))

/-! ### The PID tick -/

theorem roundsTo_27315 : RoundsTo (27315 / 100) 0x43889333 := by
  have rounded : packF32 false (roundUnits (27315 * 2 ^ 149) 100) = 0x43889333 := by decide +kernel
  have positive : (0 : ℝ) < 27315 / 100 := by norm_num
  rw [← rounded]
  refine roundsTo_roundUnits (by decide) ?_ fun _ => ?_
  · rw [abs_of_pos positive]
    push_cast
    ring
  · simp [positive.le]

/-- The conversion to kelvin (00_scope.md R20). -/
theorem kelvinConversion : KelvinConversion :=
  ⟨fun _ => rfl, ⟨0x43889333, roundsTo_27315, fun _ => ⟨rfl, rfl⟩⟩, valueOf_of_units (n := 32) (by decide +kernel),
    valueOf_of_units (n := 5) (by decide +kernel), valueOf_of_units (n := 9) (by decide +kernel)⟩

/-- Settles O41: the PID law inside the interlock, with the accumulator it computes. -/
theorem heaterTickPid : Obligations.HeaterTickPid := by
  refine ⟨kelvinConversion, valueOf_of_units (n := 1000) (by decide +kernel), fun h n pv mc dt s ready => ?_⟩
  have clamped := integralTerm_of_clamp (s.heater h)
    (fsub (toK (s.heater h).sp (s.sensor n).units) (toK pv (s.sensor n).units)) dt (maxITerm mc (s.heater h).res)
  refine ⟨(pidLaw (s.heater h) (s.sensor n).units dt pv mc).it, fun off => pidLaw_it_of_ki_zero off _ _ _ _,
    fun on inside => ?_, fun on inf => ?_, heaterTickGives_law (exec_htrTickPid h dt s) ready rfl⟩
  · rw [pidLaw_it_of_ki on]
    exact clamped.1 inside
  · rw [pidLaw_it_of_ki on]
    exact clamped.2 inf

end Sys2Proof.Machine
end

section
/-! PROOFS. Numbers as text: a token of the grammar parses to its exact value rounded, and whatever parses is such a
token (30_encoding.md R117, R127). -/

namespace Sys2Proof.Machine

open Sys2Proof

/-! ### The value of a token -/

theorem digitsNumber_append (ds es : List (Fin 10)) :
    digitsNumber (ds ++ es) = digitsNumber ds * 10 ^ es.length + digitsNumber es := by
  have fold : ∀ n, es.foldl (fun n d => 10 * n + d.val) n = n * 10 ^ es.length + digitsNumber es := by
    induction es with
    | nil => intro n; simp [digitsNumber]
    | cons d es ih =>
      intro n
      have zero := ih (10 * 0 + d.val)
      simp only [digitsNumber, List.foldl_cons, List.length_cons] at zero ih ⊢
      rw [ih, zero]
      ring
  rw [digitsNumber, List.foldl_append, fold]
  rfl

/-- The digits of a number, without its sign and its exponent. -/
def Decimal.mantissa (d : Decimal) : ℚ :=
  digitsNumber d.whole + digitsNumber (d.fraction.getD []) / 10 ^ (d.fraction.getD []).length

theorem Decimal.value_eq (d : Decimal) : d.value = (if d.isNegative then -1 else 1) * (d.mantissa * 10 ^ d.power) := by
  rw [Decimal.value, mul_assoc]
  rfl

theorem Decimal.mantissa_nonneg (d : Decimal) : 0 ≤ d.mantissa * 10 ^ d.power := by
  unfold Decimal.mantissa
  positivity

/-- The mantissa as one whole number, the point moved into the power. -/
theorem Decimal.mantissa_mul_power (d : Decimal) :
    d.mantissa * 10 ^ d.power =
      digitsNumber (d.whole ++ d.fraction.getD []) * 10 ^ (d.power - (d.fraction.getD []).length) := by
  rw [Decimal.mantissa, digitsNumber_append, zpow_sub₀ (by norm_num), zpow_natCast]
  push_cast
  field_simp

theorem Decimal.abs_value (d : Decimal) : |d.value| = d.mantissa * 10 ^ d.power := by
  have unit : |if d.isNegative then (-1 : ℚ) else 1| = 1 := by split <;> norm_num
  rw [d.value_eq, abs_mul, unit, one_mul, abs_of_nonneg d.mantissa_nonneg]

/-- What the parser hands to the rounding is the value. -/
theorem Decimal.abs_value_cast (d : Decimal) :
    |(d.value : ℝ)| = digitsNumber (d.whole ++ d.fraction.getD []) * 10 ^ (d.power - (d.fraction.getD []).length) := by
  rw [← Rat.cast_abs, d.abs_value, d.mantissa_mul_power]
  push_cast
  rfl

theorem Decimal.isNegative_iff (d : Decimal) (nonzero : d.value ≠ 0) : d.isNegative = true ↔ d.value < 0 := by
  have nonneg := d.mantissa_nonneg
  rw [d.value_eq] at nonzero ⊢
  cases d.isNegative with
  | true => simpa using lt_of_le_of_ne nonneg (right_ne_zero_of_mul nonzero).symm
  | false => simpa using nonneg

/-! ### Rounding a decimal -/

/-- A power of ten as a quotient of whole numbers. -/
theorem ten_zpow (e : Int) : (10 : ℝ) ^ e = (10 ^ e.toNat : Nat) / (10 ^ (-e).toNat : Nat) := by
  rcases Int.le_total 0 e with up | down
  · obtain ⟨n, rfl⟩ := Int.eq_ofNat_of_zero_le up
    simp
  · obtain ⟨n, e'⟩ := Int.eq_ofNat_of_zero_le (Int.neg_nonneg.2 down)
    obtain rfl : e = -(n : Int) := by omega
    simp

/-- The pattern a decimal rounds to, before the overflow is looked at. -/
def decimalUncut (n : Nat) (e : Int) : Nat := roundUncut (n * 10 ^ e.toNat * 2 ^ 149) (10 ^ (-e).toNat)

theorem decimalToF32_eq (neg : Bool) (n : Nat) (e : Int) :
    decimalToF32 neg n e =
      if min (decimalUncut n e) infBits = infBits then none
      else some (packF32 neg (min (decimalUncut n e) infBits)) := rfl

theorem nearest_decimalUncut {v : ℝ} {n : Nat} {e : Int} (value : |v| = n * 10 ^ e) :
    Nearest (|v| * 2 ^ 149) (decimalUncut n e) := by
  have quotient : |v| * 2 ^ 149 = ((n * 10 ^ e.toNat * 2 ^ 149 : Nat) : ℝ) / (10 ^ (-e).toNat : Nat) := by
    rw [value, ten_zpow]
    push_cast
    ring
  rw [quotient]
  exact nearest_roundUncut _ (by positivity)

theorem decimalUncut_lt_iff {v : ℝ} {n : Nat} {e : Int} (value : |v| = n * 10 ^ e) :
    decimalUncut n e < infBits ↔ |v| < 2 ^ 128 - 2 ^ 103 := by
  rw [(nearest_decimalUncut value).lt_infBits_iff, mul_lt_mul_iff_left₀ (by positivity)]

theorem decimalToF32_overflow {v : ℝ} {n : Nat} {e : Int} (neg : Bool) (value : |v| = n * 10 ^ e)
    (large : 2 ^ 128 - 2 ^ 103 ≤ |v|) : decimalToF32 neg n e = none := by
  rw [decimalToF32_eq, if_pos (Nat.min_eq_right (not_lt.1 (mt (decimalUncut_lt_iff value).1 (not_lt.2 large))))]

theorem decimalToF32_rounds {v : ℝ} {n : Nat} {e : Int} {neg : Bool} (value : |v| = n * 10 ^ e)
    (sign : v ≠ 0 → (neg = true ↔ v < 0)) (small : |v| < 2 ^ 128 - 2 ^ 103) :
    ∃ x, decimalToF32 neg n e = some x ∧ isFinite x = true ∧ RoundsTo v x ∧ isNeg x = neg := by
  have inside := (decimalUncut_lt_iff value).2 small
  have cut : min (decimalUncut n e) infBits ≠ infBits := by omega
  have rounds := roundsTo_packF32 (nearest_decimalUncut value) sign
  refine ⟨_, by rw [decimalToF32_eq, if_neg cut], (rounds.2.2 small).1, rounds, ?_⟩
  exact isNeg_packF32 _ ((Nat.min_le_right _ _).trans_lt (by decide))

/-! ### Whatever parses is a token of the grammar -/

theorem exists_digitsText {bs : List Byte} (h : ∀ c ∈ bs, isDigit c = true) : ∃ ds, digitsText ds = bs := by
  have digit : ∀ c : Byte, isDigit c = true → ∃ d : Fin 10, BitVec.ofNat 8 (0x30 + d.val) = c := by decide +kernel
  induction bs with
  | nil => exact ⟨[], rfl⟩
  | cons c bs ih =>
    obtain ⟨d, rfl⟩ := digit c (h c (by simp))
    obtain ⟨ds, rfl⟩ := ih fun x member => h x (by simp [member])
    exact ⟨d :: ds, rfl⟩

theorem exists_signText (bs : List Byte) :
    ∃ sign, bs = signText sign ++ (takeSign bs).2 ∧ (takeSign bs).1 = sign.getD false := by
  cases bs with
  | nil => exact ⟨none, rfl, rfl⟩
  | cons c cs =>
    rw [takeSign]
    split
    case isTrue minus => exact ⟨some true, by rw [minus]; rfl, rfl⟩
    case isFalse =>
      split
      case isTrue plus => exact ⟨some false, by rw [plus]; rfl, rfl⟩
      case isFalse => exact ⟨none, rfl, rfl⟩

theorem exists_fractionText (bs : List Byte) :
    ∃ fraction, bs = fractionText fraction ++ (takeFraction bs).2 ∧
      digitsText (fraction.getD []) = (takeFraction bs).1 := by
  cases bs with
  | nil => exact ⟨none, rfl, rfl⟩
  | cons c cs =>
    rw [takeFraction]
    split
    case isTrue point =>
      obtain ⟨ds, digits⟩ := exists_digitsText fun x (member : x ∈ cs.takeWhile isDigit) =>
        List.mem_takeWhile_imp member
      refine ⟨some ds, ?_, digits⟩
      rw [fractionText, digits, List.append_assoc, List.takeWhile_append_dropWhile, point]
      rfl
    case isFalse => exact ⟨none, rfl, rfl⟩

theorem exists_exponentText {bs : List Byte} {e : Int} (h : takeExponent bs = some e) :
    ∃ exponent, bs = exponentText exponent ∧ ∀ x, exponent = some x → x.digits ≠ [] := by
  cases bs with
  | nil => exact ⟨none, rfl, nofun⟩
  | cons c cs =>
    obtain ⟨sign, text, -⟩ := exists_signText cs
    simp only [takeExponent] at h
    split at h
    case isFalse => cases h
    case isTrue letter =>
      split at h
      case isFalse => cases h
      case isTrue digits =>
        obtain ⟨ds, shown⟩ := exists_digitsText (List.all_eq_true.1 digits.2)
        have spelled : cs = signText sign ++ digitsText ds := by rw [shown]; exact text
        have some_digit : ds ≠ [] := fun none => digits.1 (by rw [← shown, none]; rfl)
        rcases letter with small | capital
        · refine ⟨some ⟨false, sign, ds⟩, by rw [spelled, small]; rfl, fun x e => ?_⟩
          cases e
          exact some_digit
        · refine ⟨some ⟨true, sign, ds⟩, by rw [spelled, capital]; rfl, fun x e => ?_⟩
          cases e
          exact some_digit

/-- A token that parses is one the grammar builds. -/
theorem exists_decimal {token : List Byte} (h : parseNumber token ≠ none) :
    ∃ d : Decimal, d.Lawful ∧ d.text = token := by
  obtain ⟨sign, body, -⟩ := exists_signText token
  unfold parseNumber at h
  simp only at h
  generalize (takeSign token).2 = rest at body h
  obtain ⟨whole, digits⟩ := exists_digitsText fun x (member : x ∈ rest.takeWhile isDigit) =>
    List.mem_takeWhile_imp member
  obtain ⟨fraction, tail, digits'⟩ := exists_fractionText (rest.dropWhile isDigit)
  split at h
  case isTrue => exact absurd rfl h
  case isFalse some_digit =>
    split at h
    case h_1 => exact absurd rfl h
    case h_2 e exponentGood =>
      obtain ⟨exponent, text, lawful⟩ := exists_exponentText exponentGood
      refine ⟨⟨sign, whole, fraction, exponent⟩, ⟨?_, lawful⟩, ?_⟩
      · rw [← digits, ← digits', digitsText_eq_nil, digitsText_eq_nil] at some_digit
        tauto
      · rw [Decimal.text_eq, digits, ← text, ← tail, List.takeWhile_append_dropWhile, ← body]

/-! ### The obligation -/

theorem parseNumber_fmtF32 {x : F32} (finite : isFinite x = true) : parseNumber (fmtF32 x) = some x := by
  unfold fmtF32
  split
  case isTrue parses => exact parses
  case isFalse => exact parseNumber_exactText finite

theorem renderF32_finite {x : F32} (finite : isFinite x = true) : renderF32 x = fmtF32 x := by
  simp [renderF32, isNaN_of_isFinite finite, isInf_of_isFinite finite]

/-- Settles O4: the parser hands the exact value to the rounding, and parses nothing outside the grammar. -/
theorem floatTextParsesBack : Obligations.FloatTextParsesBack := by
  refine ⟨fun d lawful small => ?_, fun d lawful large => ?_, fun token other => ?_, fun x finite =>
    ⟨renderF32_finite finite, parseNumber_fmtF32 finite⟩⟩
  · rw [parseNumber_text lawful]
    refine decimalToF32_rounds d.abs_value_cast (fun nonzero => ?_) (by exact_mod_cast small)
    rw [d.isNegative_iff (by exact_mod_cast nonzero)]
    exact_mod_cast Iff.rfl
  · rw [parseNumber_text lawful]
    exact decimalToF32_overflow _ d.abs_value_cast (by exact_mod_cast large)
  · by_contra parses
    obtain ⟨d, lawful, text⟩ := exists_decimal parses
    exact other d lawful text

end Sys2Proof.Machine
end
